-- ==== Sys2Proof/Word.lean ====
section
/-! DEFINITION. The word types of the model: what the manual treats as bits (R4, R13, R390). -/

namespace Sys2Proof

/-- One byte. -/
abbrev Byte := BitVec 8

/-- One 32-bit register or word (R390). -/
abbrev Word := BitVec 32

/-- One 64-bit value: a global address (R13), a register pair (R390), a hand's general register (R122). -/
abbrev Dword := BitVec 64

end Sys2Proof
end

