-- ==== Sys2Proof/Syntax.lean ====
section
/-! DEFINITION. The commands of the block: one constructor of `Instr` for each row of spec/opcode_table.json, with
the row's operands. Operands carry what comes from outside the device: the requester and value of a register access,
the fields of a packet, data that the host returns, samples of sensors, what a link's training found. -/

namespace Sys2Proof

/-- A logical tile (R9). -/
abbrev Tile := Fin 144
/-- A hand of a tile (R112). -/
abbrev HandId := Fin 64
/-- An eighth of the device (R322). -/
abbrev Eighth := Fin 8
/-- A half: 0 East, 1 West (R8). -/
abbrev Half := Fin 2
/-- A queue of a half (R173, R208, R285). -/
abbrev Queue := Fin 4
/-- A direction port, +X -X +Y -Y +Z -Z (R213). -/
abbrev Port := Fin 6
/-- A link of a port (R213). -/
abbrev Link := Fin 4
/-- A play of a trick (R20). -/
abbrev Play := Fin 16
/-- A management core, which is also a target of the event controller (R338). -/
abbrev Core := Fin 4
/-- A device number (R14). -/
abbrev DevNum := Fin 32768
/-- A general register g0 to g31 (R122). -/
abbrev GReg := Fin 32
/-- A vector register w0 to w7 (R122). -/
abbrev WReg := Fin 8
/-- An offset in control space from 0x01F0_0000_0000 (R403). -/
abbrev CtlOff := BitVec 36
/-- A memory channel: HBM stack s channel c is 32s + c, GDDR7 device g channel c is 256 + 4g + c (Table MM-1). -/
abbrev ChanId := Fin 352
/-- A position of the collective engines (R243, R265). -/
abbrev Position := Fin 64

/-- Who makes an access (Table MP-4). -/
inductive Req where
  | core (c : Core)
  | debug
  | host
  | hand (t : Tile) (h : HandId)
  | loader
  | refill (t : Tile)
  | remote (dev : DevNum)
  deriving DecidableEq, Repr

/-- Which program of a tile (R67, R96, R140). -/
inductive ProgKind where
  | me
  | sf
  | stock
  deriving DecidableEq, Repr

/-- The functions of class ALU (R122). -/
inductive AluFn where
  | add | sub | and | or | xor | shl | shr | sar | mul | mulh | mulhu | div | divu | rem | remu
  | min | max | minu | maxu | slt | sltu | clz | ctz | popcount | select
  deriving DecidableEq, Repr

/-- The functions of class ALUI (R122). -/
inductive AluiFn where
  | add | and | or | xor | shl | shr | sar | slt | sltu | orsh
  deriving DecidableEq, Repr

/-- The formats that FPU conversions name (R122). -/
inductive NumFmt where
  | fp64 | fp32 | bf16 | e4m3 | e5m2 | s32 | u32 | s64 | u64
  deriving DecidableEq, Repr

/-- The functions of class FPU (R122); `wide` is FP64, else FP32. -/
inductive FpuFn where
  | add (wide : Bool) | sub (wide : Bool) | mul (wide : Bool) | fma (wide : Bool) | div (wide : Bool)
  | sqrt (wide : Bool) | min (wide : Bool) | max (wide : Bool)
  | eq (wide : Bool) | lt (wide : Bool) | le (wide : Bool)
  | cvt (src dst : NumFmt)
  deriving DecidableEq, Repr

/-- The lane kinds of class VEC (R122). -/
inductive Lane where
  | f32 | bf16 | u32 | u64
  deriving DecidableEq, Repr

/-- The functions of class VEC on vector registers (R122). -/
inductive VecFn where
  | add (l : Lane) | mul (l : Lane) | fma (l : Lane) | max (l : Lane) | min (l : Lane)
  | cvt (src dst : Lane)
  | redAdd (l : Lane) | redMax (l : Lane) | redMin (l : Lane)
  deriving DecidableEq, Repr

/-- The integer atomics (R125). -/
inductive AtomOp where
  | swap | cas | add | and | or | xor | mins | maxs | minu | maxu
  deriving DecidableEq, Repr

/-- The branch conditions (R122). -/
inductive BrCond where
  | eq | ne | lt | ge | ltu | geu
  deriving DecidableEq, Repr

/-- What the code of a memory channel finds on a sector read from its cells (R201). -/
inductive Ecc where
  | clean
  | corrected
  | uncorrectable
  deriving DecidableEq, Repr

/-- How the host took data that the device sends (R318): all that was left, only so many bytes before it stalled, or it
answered with an error. -/
inductive HostOut where
  | taken
  | stall (left : Nat)
  | error
  deriving DecidableEq, Repr

/-- What the host answered to a read of the device (R176, R307, R318): all the data that was left, data marked as poisoned,
only so much before it stalled, or an error. -/
inductive HostIn where
  | data (bytes : List Byte)
  | poison
  | stall (got : List Byte)
  | error
  deriving DecidableEq, Repr

/-- What the host returned to the reads of an input command (R287, R289): bytes from local offsets on, and the offsets of
poisoned ones. -/
structure HostBytes where
  data : List (Nat × List Byte)
  bad : List Nat
  deriving DecidableEq, Repr

/-- What other devices and the host returned to the reads of a collective operation (R248, R250): an error status or 0, bytes
by global address, and the addresses of poisoned bytes. -/
structure FarIn where
  status : Fin 4
  bytes : List (Nat × Byte)
  bad : List Nat
  deriving DecidableEq, Repr

/-- An operation's turn (R258, R261): its position, and what memory elsewhere answered to its reads. -/
structure CoTurn where
  pos : Position
  far : FarIn
  deriving DecidableEq, Repr

/-- A timestamp of the peer (R25): its send time and its echo of this device's, in ps. -/
structure Stamp where
  sent : Nat
  echo : Nat
  deriving DecidableEq, Repr

/-- The erase of a zone by a flash queue (R209): the queue, and that the media fails. -/
structure FlashErase where
  queue : Queue
  mediaFail : Bool
  deriving DecidableEq, Repr

/-- The lanes of a link at its switch (R218): the link, and the lanes that pass the check again. -/
structure LaneCheck where
  link : Link
  pass : Byte
  deriving DecidableEq, Repr

/-- Flits lost in an uncorrectable codeword (R235): the link, the number of the first, and whose slots they were in. -/
structure LostFlits where
  link : Link
  first : Fin 400
  owners : List Nat
  deriving DecidableEq, Repr

/-- A BIAS command's turn (R314): the queue, and what the host returned for the pages that it flips, none yet. -/
structure BiasTurn where
  queue : Eighth
  host : Option HostBytes
  deriving DecidableEq, Repr

/-- An access of the host to BAR0 beyond the host-link page (R302): bytes written at an offset, or n bytes read. -/
inductive Bar0 where
  | write (off : BitVec 24) (bytes : List Byte)
  | read (off : BitVec 24) (n : Nat)
  deriving DecidableEq, Repr

/-- What the training of a link found (R216, R217): the lanes that pass at both ends at each generation, and the
peer's identity. -/
structure TrainIn where
  pass2 : Byte
  pass1 : Byte
  peerMaxGen : Fin 3
  peerSerial : Dword
  peerDev : DevNum
  peerPort : Port
  peerLink : Link
  peerProto : Fin 16
  peerX : Fin 6
  peerY : Fin 6
  peerZ : Fin 5
  peerJokers : Bool
  deriving DecidableEq, Repr

/-- How a packet arrives (R221, R226, R235): port and link, and the play of its slot, or none for the open channel; its
owner's stream on that link, numbered by the receiver; how many flits sent again it needed; and the corrected symbols of the
codewords that brought it, lane by lane. -/
structure Arrival where
  port : Port
  link : Link
  slot : Option Play
  owner : Nat
  again : Nat
  corr : List Nat
  deriving DecidableEq, Repr

/-- The fields of a packet (Table LK-5): KIND as it stands in the header, that of the row or a reserved one. -/
structure Packet where
  kind : Byte
  status : Byte
  src : BitVec 16
  tag : BitVec 16
  dst : Dword
  arg : Dword
  poison : Word
  rsv : Word
  payload : List Byte
  deriving DecidableEq, Repr

/-- What the boot ROM finds outside the registers when a reset runs the start-up sequence (R361, R363, R370, R414,
R418): the strap claims, MG_ADDR, the sideband, TREF, and what verifying each Emfen image finds. -/
structure BootIn where
  claimEast : Bool
  claimWest : Bool
  mgAddr : Fin 8
  sideband : Bool
  tref : Bool
  emfenA : Bool
  emfenB : Bool
  deriving DecidableEq, Repr

/-- Whose key a signed request verifies under; none where verification fails (R331, R333, R377). -/
inductive Signer where
  | vendor
  | owner
  | none
  deriving DecidableEq, Repr

/-- Who signs a change of the life cycle (R331), and the owner's key digest that the request names. -/
structure LcSigned where
  signer : Signer
  owner : BitVec 384
  deriving DecidableEq, Repr

/-- The life-cycle states (R331), in code order. -/
inductive LcState where
  | blank | provisioned | production | return_ | scrapped
  deriving DecidableEq, Repr

/-- What the debug port halts or resumes (R335). -/
inductive DebugTarget where
  | core (c : Core)
  | hand (t : Tile) (h : HandId)
  | tile (t : Tile)
  deriving DecidableEq, Repr

/-- What an SPDM request asks for (R332): a measurement, the certificate chain, a secured session to begin or end, or that
the IDE keys be set in one. -/
inductive SpdmReq where
  | measurement (i : Fin 256)
  | certificate
  | keyExchange
  | endSession
  | ideKeys
  deriving DecidableEq, Repr

/-- The instructions of the test access port (R421). -/
inductive TapInstr where
  | idcode | bypass | extest | acExtest | debugPort
  deriving DecidableEq, Repr

/-- A device access to host memory that the host link carries (R312): a hand's load, a hand's posted store, one read
or write of a stock request, or a request of another device. -/
inductive HostAcc where
  | load (t : Tile) (h : HandId)
  | store (t : Tile) (h : HandId) (id : Nat)
  | stockRead (t : Tile) (req piece : Nat)
  | stockWrite (t : Tile) (req : Nat)
  | remote (id : Nat)
  deriving DecidableEq, Repr

/-- A host-bound transfer whose deadline ends (Table HL-5). -/
inductive HostXfer where
  | mover (h : Half) (q : Queue)
  | writer (q : Eighth)
  | writeback (q : Eighth) (block : Nat)
  | stock (t : Tile) (req : Nat)
  | hand (t : Tile) (h : HandId)
  | command (q : Eighth)
  deriving DecidableEq, Repr

/-- One result record of a self-test (Table BT-4), as the test finds it. -/
structure TestRec where
  outcome : Fin 5
  repair : Fin 7
  channel : Fin 32
  lane : Byte
  errors : BitVec 16
  bit : Fin 64
  address : Dword
  deriving DecidableEq, Repr

/-- The commands, one constructor per row of spec/opcode_table.json, in the table's order. -/
inductive Instr where
  | trickBoundary (linkLate : List (Eighth × DevNum))
  | jobHalt (q : Eighth)
  | trickMarker (p : Port) (low : BitVec 16) (full : Dword) (dealer : DevNum) (hops : Fin 64) (running : Bool)
      (arrival : Int)
  | parentLost
  | startSourcing
  | roundTripMeasure (p : Port) (l : Link) (at_ : Nat)
  | timestamp (p : Port) (l : Link) (stamp : Stamp) (arrived : Nat)
  | todPpsEdge
  | trefValid
  | trefLost
  | latchingLowRead (r : Req) (off : CtlOff)
  | plainPairLowWrite (r : Req) (off : CtlOff) (v : Word)
  | plainPairHighWrite (r : Req) (off : CtlOff) (v : Word)
  | rcRead (r : Req) (off : CtlOff)
  | quietRead (off : BitVec 49)
  | registerWrite (r : Req) (off : CtlOff) (size : Nat) (v : Dword)
  | seqLockRead (r : Req) (off : CtlOff)
  | seqLockRelease (r : Req) (off : CtlOff)
  | lockTimeout (off : CtlOff)
  | irqStatClear (r : Req) (off : CtlOff) (v : Word)
  | irqMaskWrite (r : Req) (off : CtlOff) (v : Word)
  | blockEvent (off : CtlOff) (bit : Fin 32)
  | load (r : Req) (q : Eighth)
  | unload (r : Req) (q : Eighth)
  | unloadEffect (q : Eighth)
  | dealStart (q : Eighth)
  | shift (t : Tile)
  | shiftDone (t : Tile)
  | compute (t : Tile)
  | computeDone (t : Tile)
  | swap (t : Tile)
  | mePswap (t : Tile)
  | waitflag (t : Tile)
  | meNop (t : Tile)
  | vadd (t : Tile)
  | vmul (t : Tile)
  | vfma (t : Tile)
  | vmax (t : Tile)
  | vmin (t : Tile)
  | vsel (t : Tile)
  | vcvt (t : Tile)
  | vred (t : Tile)
  | vectorStepDone (t : Tile)
  | forceRst (r : Req) (t : Tile)
  | programBankWrite (r : Req) (off : CtlOff) (size : Nat) (v : Dword)
  | programWriteVisible (t : Tile) (k : ProgKind)
  | sfNop (t : Tile)
  | tab (t : Tile)
  | mprg (t : Tile)
  | smax1 (t : Tile)
  | smax2 (t : Tile)
  | smax3 (t : Tile)
  | nstat (t : Tile)
  | sfWaitflag (t : Tile)
  | sfPswap (t : Tile)
  | start (r : Req) (t : Tile) (h : HandId)
  | stop (r : Req) (t : Tile) (h : HandId)
  | handStopped (t : Tile) (h : HandId)
  | handIssue (t : Tile)
  | alu (t : Tile) (h : HandId) (fn : AluFn) (d a b c : GReg)
  | alui (t : Tile) (h : HandId) (fn : AluiFn) (d a : GReg) (imm : BitVec 14)
  | fpu (t : Tile) (h : HandId) (fn : FpuFn) (d a b c : GReg)
  | ld (t : Tile) (h : HandId) (lg : Fin 4) (signed : Bool) (d a : GReg) (imm : BitVec 14)
  | st (t : Tile) (h : HandId) (lg : Fin 4) (d a : GReg) (imm : BitVec 14)
  | atom (t : Tile) (h : HandId) (op : AtomOp) (wide aq rl : Bool) (d a b c : GReg)
  | br (t : Tile) (h : HandId) (cond : BrCond) (a b : GReg) (off : BitVec 15)
  | jal (t : Tile) (h : HandId) (d : GReg) (off : BitVec 23)
  | jalr (t : Tile) (h : HandId) (d a : GReg) (imm : BitVec 14)
  | vec (t : Tile) (h : HandId) (fn : VecFn) (d a b c : WReg)
  | vld (t : Tile) (h : HandId) (d : WReg) (a b : GReg)
  | vst (t : Tile) (h : HandId) (d : WReg) (a b : GReg)
  | slotw (t : Tile) (h : HandId) (a b c : GReg)
  | slotr (t : Tile) (h : HandId) (d a b : GReg)
  | slotf (t : Tile) (h : HandId) (d a b : GReg)
  | ring (t : Tile) (h : HandId) (a b : GReg)
  | fenceS (t : Tile) (h : HandId)
  | fenceA (t : Tile) (h : HandId)
  | wait (t : Tile) (h : HandId) (a b : GReg)
  | waitt (t : Tile) (h : HandId) (a : GReg)
  | hid (t : Tile) (h : HandId) (d : GReg)
  | trick (t : Tile) (h : HandId) (d : GReg)
  | phase (t : Tile) (h : HandId) (d : GReg)
  | halt (t : Tile) (h : HandId)
  | trap (t : Tile) (h : HandId) (b : GReg)
  | handNop (t : Tile) (h : HandId)
  | missReturn (t : Tile) (h : HandId)
  | mttEntryFree (t : Tile) (h : HandId)
  | impreciseFault (t : Tile) (h : HandId) (id : Nat)
  | waitWake (t : Tile) (h : HandId)
  | waittWake (t : Tile) (h : HandId)
  | slotwaitRelease (t : Tile) (h : HandId)
  | stockNop (t : Tile)
  | copy (t : Tile)
  | edge (t : Tile)
  | gather (t : Tile)
  | flag (t : Tile)
  | refill (t : Tile)
  | stockPswap (t : Tile)
  | waitf (t : Tile)
  | flagPass (t : Tile) (k : ProgKind)
  | stockRequestIssue (t : Tile) (play : Play)
  | tokenRefill (t : Tile)
  | stockRequestComplete (t : Tile) (req : Nat)
  | transferComplete (t : Tile) (xfer : Nat)
  | writeHoldRelease (t : Tile)
  | sfRotationRelease (t : Tile)
  | mvTailWrite (r : Req) (h : Half) (q : Queue) (v : Word)
  | swapOut (h : Half) (q : Queue) (host : HostOut)
  | swapIn (h : Half) (q : Queue) (host : HostIn)
  | moverCopy (h : Half) (q : Queue)
  | moverCommandComplete (h : Half) (q : Queue)
  | channelDequeue (c : ChanId) (ecc : List Ecc)
  | trumpCounterGain (c : ChanId)
  | imbalanceWindowEnd (k : Eighth)
  | hbmTempSample (k : Eighth) (stack : Byte) (chans : List Byte)
  | writebackPoint (q : Eighth) (n : Nat) (host : HostOut)
  | flTailWrite (r : Req) (h : Half) (q : Queue) (v : Word)
  | flashWrite (h : Half) (q : Queue)
  | flashReset (h : Half) (x : FlashErase)
  | flashUnitDurable (h : Half) (q : Queue) (mediaFail : Bool)
  | flashCommandComplete (h : Half) (q : Queue)
  | linkTrain (p : Port) (l : Link) (x : TrainIn)
  | linkTrainTimeout (p : Port) (l : Link)
  | linkTrainRetry (p : Port) (l : Link)
  | width (p : Port) (l : Link) (w : Fin 4)
  | retrain (p : Port) (l : Link) (w : Fin 4)
  | ack (p : Port) (l : Link)
  | linkSwitch (p : Port) (x : LaneCheck)
  | credit (p : Port) (n : Nat)
  | replay (p : Port) (l : Link) (first : Fin 400)
  | gateClosed (p : Port) (l : Link)
  | codewordUncorrectable (p : Port) (x : LostFlits)
  | lkDegraded (p : Port) (l : Link)
  | linkSlotSend (p : Port) (l : Link) (play : Play)
  | skipLinkForward (p : Port)
  | write (at_ : Arrival) (k : Packet)
  | read (at_ : Arrival) (k : Packet)
  | data (at_ : Arrival) (k : Packet)
  | atomic (at_ : Arrival) (k : Packet)
  | completion (at_ : Arrival) (k : Packet)
  | collective (at_ : Arrival) (k : Packet)
  | openPacketForward (p : Port)
  | openPacketTimeout (p : Port)
  | lkPctrlOff (r : Req) (p : Port)
  | portGateClose (p : Port)
  | portLanesOff (p : Port)
  | lkPctrlOn (r : Req) (p : Port)
  | lkPctrlRetrain (r : Req) (p : Port) (links : BitVec 4)
  | lkPctrlWidth (r : Req) (p : Port) (l : Link) (w : Fin 4)
  | planSeatWrite (r : Req) (off : CtlOff) (v : Word)
  | startPoint (q : Eighth) (suit : Fin 4096) (n : Nat)
  | collectiveStart (x : CoTurn)
  | collectiveNop (a : Position)
  | allreduce (x : CoTurn)
  | reduceScatter (x : CoTurn)
  | reduce (x : CoTurn)
  | broadcast (x : CoTurn)
  | allgather (x : CoTurn)
  | gatherv (x : CoTurn)
  | alltoallv (x : CoTurn)
  | shuffle (x : CoTurn)
  | combine (x : CoTurn)
  | ringpass (x : CoTurn)
  | collectiveComplete (a : Position)
  | inputCommandStart (h : Half) (q : Queue)
  | tokenise (h : Half) (q : Queue) (host : HostBytes)
  | image (h : Half) (q : Queue) (host : HostBytes)
  | inputCommandComplete (h : Half) (q : Queue)
  | inputDeadlineCheck (h : Half) (q : Queue)
  | inQcfgEnable (r : Req) (h : Half) (q : Queue) (v : Word)
  | dictionaryBuildDone (h : Half) (q : Queue)
  | inQcfgDisable (r : Req) (h : Half) (q : Queue) (v : Word)
  | hostLinkTrain (rate : Fin 7) (width : Fin 4) (cxl : Fin 3)
  | perstDeassert
  | configRequest
  | hlWinBaseWrite (r : Req) (v : Dword)
  | hostWindowAccess (off : BitVec 36) (n : Nat) (wr : Option (List Byte))
  | hlCqTailWrite (r : Req) (q : Eighth) (v : Word) (bar0 : List Bar0)
  | hostNop (q : Eighth)
  | writeInline (q : Eighth)
  | copyIn (q : Eighth) (host : HostIn)
  | register (q : Eighth)
  | unregister (q : Eighth)
  | bias (x : BiasTurn)
  | hostCommandComplete (q : Eighth)
  | bar4Access (off : BitVec 40) (n : Nat) (wr : Option (List Byte))
  | hostRegionAccess (acc : HostAcc) (host : HostIn)
  | hostBiasAccess (off : BitVec 49) (host : HostIn)
  | hostCxlMemAccess (off : BitVec 36) (n : Nat) (wr : Option (List Byte))
  | hlWtailWrite (r : Req) (q : Eighth) (v : Word)
  | snapshot (q : Eighth) (host : HostOut)
  | log (q : Eighth) (host : HostOut)
  | writerCommandComplete (q : Eighth)
  | hostDeadlineExpiry (x : HostXfer)
  | setup (r : Req) (q : Eighth) (shape : Fin 4) (enc : Bool)
  | teardown (r : Req) (q : Eighth) (erase : Bool)
  | partitionGateClose (q : Eighth)
  | scrubStart (q : Eighth)
  | scrubEnd (q : Eighth)
  | lcTransitionRequest (into : LcState) (x : LcSigned)
  | spdmRequest (x : SpdmReq)
  | debugUnlock (by_ : Signer)
  | debugHalt (x : DebugTarget)
  | debugResume (x : DebugTarget)
  | dbgForce (off : CtlOff)
  | serviceToken (by_ : Signer) (serialOk : Bool) (nonce : Word) (kinds : BitVec 9)
  | eventRaise (n : Fin 512)
  | eventSelect
  | eventArrive (n : Fin 512)
  | evClaim (r : Req) (t : Core)
  | evComplete (r : Req) (t : Core) (v : Word)
  | evSrcWrite (r : Req) (n : Fin 512) (v : Word)
  | evTctlWrite (r : Req) (t : Core) (v : Word)
  | externalSourceRead
  | coldReset (b : BootIn)
  | sysRstNLow (us : Nat)
  | sysrst (r : Req) (b : BootIn)
  | main (r : Req) (b : BootIn)
  | hostReset
  | mainFail (cause : Fin 6)
  | thermLockoutEnd (b : BootIn)
  | psAlert
  | limiterSample (power : BitVec 16) (vin : BitVec 16)
  | limiterDutyStep
  | dieTempSample (east west : List Byte)
  | thermalDutyStep
  | pwDomainOff (r : Req) (q : Eighth)
  | pwDomainOn (r : Req) (q : Eighth)
  | domainDone (q : Eighth)
  | pwElect (r : Req) (v : Word) (b : BootIn)
  | smbusElectWrite (v : Byte) (b : BootIn)
  | btStart (r : Req) (kind : Fin 16) (unit : Byte) (mode : Fin 4)
  | btAbort (r : Req) (kind : Fin 16) (unit : Byte)
  | abortEffect (kind : Fin 16) (unit : Byte)
  | testComplete (kind : Fin 16) (unit : Byte) (recs : List TestRec)
  | linkSignalLost (p : Port) (l : Link)
  | postedStoreComplete (t : Tile) (h : HandId) (id : Nat)
  | sfStepDone (t : Tile)
  | widthChangeEnd (p : Port) (l : Link)
  | postedCreditReturn (n : Nat)
  | sysRstNRelease (b : BootIn)
  | tapInstruction (x : TapInstr)
  deriving DecidableEq, Repr

end Sys2Proof
end

