-- ==== Sys2Proof/Decode.lean ====
section
/-! DEFINITION. Decoding. The rows of spec/opcode_table.json give no bits: a command is an event with operands, not a
word, so no word spells one. -/

namespace Sys2Proof

/-- The command that a word spells by the opcode table's bits: none, for every row's list of fields is empty. -/
def decodeTableWord (_nbits _w : Nat) : Option Instr := none

end Sys2Proof
end

