-- ==== Sys2Proof/Config.lean ====
section
/-! DEFINITION. What the module fixes (R12, Table SC-1) and the free values: constants without a body for what the
spec leaves open. Nothing in Lean can evaluate a free value or prove a value of it. -/

namespace Sys2Proof.Config

/-- Core cycles in a trick and in a play (R20). -/
def trickCycles : Nat := 768
def playCycles : Nat := 48

/-- Core cycles in a microsecond (R20): 1,500. -/
def usCycles : Nat := 1500

/-- The first local offset of each region (R16). -/
def hbmBase : Nat := 0x000000000000
def gddrBase : Nat := 0x010000000000
def sramBase : Nat := 0x018000000000
def ctlBase : Nat := 0x01F000000000
def flashBase : Nat := 0x020000000000
def hostBase : Nat := 0x100000000000

/-- Bytes of an HBM channel, a GDDR7 device, a tile's window and SRAM, a flash channel and zone (R16, R17, R190,
R206). -/
def hbmChan : Nat := 0x60000000
def gddrDev : Nat := 0xC0000000
def window : Nat := 0x400000
def sramSize : Nat := 0x300000
def flashChan : Nat := 240 * 0x40000000
def zoneSize : Nat := 0x10000000
def hostSize : Nat := 0x100000000000

/-- What a byte of a sector reads as under another key or seed than it was written under (R194, R202, R330):
undefined. By address, and the epochs of the writing and the reading. -/
opaque staleByte : Nat → Nat → Nat → BitVec 8

/-- What byte `i` of a byte string becomes by encryption-independent randomness of the device: nonces (R377). -/
opaque nonce : Nat → BitVec 32

/-- The result of a shift by a register operand of 64 or more (R122 states none): by function code and operands. -/
opaque wideShift : Nat → BitVec 64 → BitVec 64 → BitVec 64

/-- The quotient and remainder of the most negative number by -1 (R123 states none). -/
opaque divOverflow : Bool → BitVec 64 → BitVec 64

/-- Conversion to an integer of a NaN, an infinity or a value out of range (R122, R81 state none): by the format
codes and the operand's bits. -/
opaque intConvert : Nat → Nat → BitVec 64 → BitVec 64

/-- The bits above an FP32 or narrower result in a general register (R122 states none): by the function and
operand. -/
opaque narrowHigh : Nat → BitVec 64 → BitVec 64

/-- Lane words that a vector conversion or reduction leaves unstated in its destination (R122). -/
opaque vecRest : Nat → BitVec 512 → BitVec 512

/-- An accumulator cell read under another row width than it was written under (R52 gives no layout). -/
opaque accMix : BitVec 32 → Nat → BitVec 32

/-- Bilinear interpolation of four FP32 values at two FP32 fractions, where the orders of evaluation that R296 leaves open
differ (log 40); by the four values (at (0,0), (1,0), (0,1), (1,1)) and the fractions. -/
opaque bilinear : Nat → Nat → Nat → Nat → Nat → Nat → BitVec 32

/-- The function and condition codes of hand instruction words (Table HD-4 gives no numbers): what a FN code of a
class means, as the index of the function in the order of Table HD-4's contents, or a value above them when
reserved. -/
opaque fnCode : Nat → Nat → Nat

/-- A digest that attestation reports (R332): by the measurement index and what it is taken over. -/
opaque digest : Nat → List Nat → BitVec 64

/-- The value of the debug access port's identification register and other TAP answers (R421 gives none). -/
opaque tapId : BitVec 32

/-- A value that the spec leaves undefined after a reset or an event, drawn afresh: by how many have been drawn. -/
opaque fresh : Nat → BitVec 64

end Sys2Proof.Config
end

