-- ==== Sys2Proof/Machine/Base.lean ====
section
/-! DEFINITION. Helpers under everything else: tables of keyed entries in one canonical form, bit fields, and
little-endian bytes (R4). -/

namespace Sys2Proof.Machine

/-- A table of entries by key: keys strictly rising, no entry equal to the default of the table. -/
abbrev Tbl (α : Type) := List (Nat × α)

/-- The entry of a key, or the default. -/
def tget {α : Type} (d : α) : Tbl α → Nat → α
  | [], _ => d
  | (k, v) :: r, i => if i < k then d else if i = k then v else tget d r i

/-- Remove a key. In a table with rising keys the filter keeps everything behind it; it makes the laws of `tget` hold of
every list. -/
def tdel {α : Type} : Tbl α → Nat → Tbl α
  | [], _ => []
  | (k, v) :: r, i =>
    if i < k then (k, v) :: r else if i = k then r.filter (fun p => decide (i < p.1)) else (k, v) :: tdel r i

/-- Write a key that gets an entry. -/
def tput {α : Type} : Tbl α → Nat → α → Tbl α
  | [], i, x => [(i, x)]
  | (k, v) :: r, i, x =>
    if i < k then (i, x) :: (k, v) :: r else if i = k then (i, x) :: r else (k, v) :: tput r i x

/-- Write a key: writing the default removes the entry. -/
def tset {α : Type} [DecidableEq α] (d : α) (t : Tbl α) (i : Nat) (x : α) : Tbl α :=
  if x = d then tdel t i else tput t i x

/-- Every key of a table lies above a bound and rises. -/
def keysAbove {α : Type} : Option Nat → Tbl α → Bool
  | _, [] => true
  | none, (k, _) :: r => keysAbove (some k) r
  | some b, (k, _) :: r => decide (b < k) && keysAbove (some k) r

/-- The canonical form of a table: keys strictly rising and no entry equal to the default. -/
def twf {α : Type} [DecidableEq α] (d : α) (t : Tbl α) : Bool :=
  keysAbove none t && t.all (fun p => decide (p.2 ≠ d))

/-- The numbers of a list, in strictly rising order: insert one. -/
def setAdd : List Nat → Nat → List Nat
  | [], i => [i]
  | k :: r, i => if i < k then i :: k :: r else if i = k then k :: r else k :: setAdd r i

/-- Remove a number from a rising list. -/
def setDel (s : List Nat) (i : Nat) : List Nat := s.filter (fun k => k != i)

/-- Bits [hi:lo] of a number, bit 0 the least significant (R4). -/
def bits (v hi lo : Nat) : Nat := (v >>> lo) % 2 ^ (hi + 1 - lo)

/-- Bit n of a number. -/
def bitAt (v n : Nat) : Bool := v.testBit n

/-- The value of a Boolean as a bit. -/
def b2n (b : Bool) : Nat := if b then 1 else 0

/-- The number of bits that a number needs: 0 for 0. -/
def bitLen (n : Nat) : Nat := if n = 0 then 0 else Nat.log2 n + 1

/-- Ceiling division. -/
def ceilDiv (a b : Nat) : Nat := (a + b - 1) / b

/-- The signed value of an n-bit two's-complement field. -/
def sext (n v : Nat) : Int := if v % 2 ^ n < 2 ^ (n - 1) then (v % 2 ^ n : Nat) else (v % 2 ^ n : Nat) - (2 ^ n : Nat)

/-- The n-bit two's-complement field of a signed value. -/
def unsext (n : Nat) (v : Int) : Nat := (v % ((2 ^ n : Nat) : Int)).toNat

/-- The number that little-endian bytes spell (R4). -/
def leNat : List Byte → Nat
  | [] => 0
  | b :: r => b.toNat + 256 * leNat r

/-- The n little-endian bytes of a number (R4). -/
def leBytes : Nat → Nat → List Byte
  | 0, _ => []
  | n + 1, v => BitVec.ofNat 8 v :: leBytes n (v / 256)

/-- Bytes [at, at + n) of a list, a missing byte read as 0. -/
def slice (l : List Byte) (pos n : Nat) : List Byte :=
  let s := (l.drop pos).take n
  s ++ List.replicate (n - s.length) 0

/-- The little-endian number of n bytes at a place in a list. -/
def leAt (l : List Byte) (pos n : Nat) : Nat := leNat ((l.drop pos).take n)

/-- Replace entry i of a list; out of range changes nothing. -/
def setAt {α : Type} (l : List α) (i : Nat) (x : α) : List α := l.set i x

/-- Entry i of a list, or a default. -/
def getAt {α : Type} (d : α) (l : List α) (i : Nat) : α := l.getD i d

/-- A counter that saturates at 2^32 - 1 (the RC counters of the pages). -/
def satAdd32 (v : Word) (n : Nat) : Word := BitVec.ofNat 32 (min (v.toNat + n) 0xFFFFFFFF)

/-- Apply a function once for each of the first n numbers, in increasing order. -/
def forN {σ : Type} (n : Nat) (f : Nat → σ → σ) (s : σ) : σ := (List.range n).foldl (fun a i => f i a) s

/-- Whether two byte ranges (start, length) meet. -/
def overlaps (a n b m : Nat) : Bool := decide (a < b + m) && decide (b < a + n) && decide (0 < n) && decide (0 < m)

end Sys2Proof.Machine
end

