-- ==== Sys2Proof/Machine/State.lean ====
section
/-! DEFINITION. The state of the block: every register, queue, buffer, mode and pin that the spec gives the device, as
plain data, with its value at reset. Tables list only the entries that differ from the default given here. -/

namespace Sys2Proof.Machine

/-! ## Time and the dealer (R20 to R30, R405) -/

/-- The count of the device: trick number and core cycle in the trick (R20, R21); and the core cycles that have passed
since reset, which a correction of the trick number leaves alone (R29). -/
structure TimeSt where
  trick : Nat
  phase : Nat
  cycle : Nat
  deriving DecidableEq, Repr

/-- What the last trick marker on one port said (R23): low part of the trick, dealer, hop count, state. -/
structure Marker where
  low16 : Nat
  full : Option Nat
  dealer : Nat
  hops : Nat
  running : Bool
  deriving DecidableEq, Repr

/-- One link's round trip as measured (R25), the time of this device's last timestamp, and of the last timestamp received
the peer's send time, its echo of this device's, and its arrival where no measurement has used it yet; all in ps. -/
structure DelaySt where
  roundTrip : Nat
  sentAt : Nat
  stamp : Nat
  echo : Nat
  arrived : Option Nat
  deriving DecidableEq, Repr

/-- The time base beyond the count: TREF, parent, dealer, TOD latch (R22 to R30, R405). `silent` counts the
consecutive tricks without a marker on each port, `heard` lists the ports that brought one in the running trick, `sent`
the marker in the first control word of play 0 of the running trick on each link (R23), `locked` that the core clock is locked to TREF (R365, R415). `offset`
is the phase error to the parent in ps (R26). `gated` that the paths were gated in a cycle of the running trick (R354). -/
structure TbSt where
  tref : Bool
  parent : Nat
  hops : Nat
  sourcing : Bool
  running : Bool
  locked : Bool
  dealer : Nat
  todTrick : Nat
  todPhase : Nat
  markers : Tbl (Option Marker)
  silent : Tbl Nat
  heard : List Nat
  sent : Tbl (Option Marker)
  delays : Tbl DelaySt
  offset : Int
  gated : Bool
  deriving DecidableEq, Repr

/-! ## Register pages (R388 to R402) -/

/-- An access that waits for a page lock (R399, R401). -/
structure Waiter where
  req : Req
  off : Nat
  size : Nat
  write : Bool
  value : Nat
  deriving DecidableEq, Repr

/-- A low word staged into a plain pair, with the requester that staged it (R392). -/
structure Staged where
  off : Nat
  by_ : Nat
  value : Word
  deriving DecidableEq, Repr

/-- The header of one register page and its lock (R389, R392, R399). `timer` counts the hold in management cycles'
worth of core cycles. -/
structure Page where
  lockmax : Nat
  raw : Word
  mask : Word
  err : Word
  owner : Nat
  held : Bool
  expect : Nat
  timer : Nat
  waiters : List Waiter
  staged : List Staged
  deriving DecidableEq, Repr

/-- The answer to one access, in the form in which its requester meets it (R397). -/
inductive Reply where
  | value (v : Dword)
  | data (bytes : List Byte) (poison : Bool)
  | denied (cause : Nat)
  | addressError
  | waits
  | unsupported
  deriving DecidableEq, Repr

/-! ## Requests to memory -/

/-- An integer atomic's or an access's request to memory: read n bytes, write bytes (with poisoned bytes by index), or
an atomic (R125, R165, R200). -/
inductive MemReq where
  | read (n : Nat)
  | write (bytes : List Byte) (poison : List Nat)
  | atomic (op : AtomOp) (size : Nat) (b c : Dword)
  deriving DecidableEq, Repr

/-- Who a memory request belongs to, so that its completion finds it. -/
inductive Who where
  | hand (t h : Nat)
  | post (t h id : Nat)
  | stockRead (t id part : Nat)
  | stockWrite (t id : Nat)
  | remote (id : Nat)
  | writeBack (q block : Nat)
  | mover (half q : Nat)
  | writer (q : Nat)
  | coll (a op : Nat)
  | window (id : Nat)
  | command (q : Nat)
  | other
  deriving DecidableEq, Repr

/-- One access that waits for a tile's SRAM (R46): whose it is, the core cycle of its arrival, its local offset, the place
of its bytes in what the requester collects, and its request, which lies in one 64-byte line. -/
structure SramReq where
  who : Who
  came : Nat
  addr : Nat
  pos : Nat
  op : MemReq
  deriving DecidableEq, Repr

/-! ## Tiles: the matrix engine (R45 to R75, R177 to R184) -/

/-- A weight plane: the format and width recorded by its SHIFT, and the bytes it copied (R54, R55). -/
structure Plane where
  wfmt : Nat
  n : Nat
  bytes : List Byte
  deriving DecidableEq, Repr

/-- A step's place in its program: bank, index and deal trick (R31, R68). -/
structure StepRef where
  bank : Nat
  idx : Nat
  deal : Nat
  deriving DecidableEq, Repr

/-- A SHIFT in progress (R54): its formats, SRAM offset and pair, the cycle that copies row 0, the rows copied so far with
the bytes of their weights and scales, and whether the next row was read as poison. -/
structure ShiftRun where
  at_ : StepRef
  wfmt : Nat
  pair : Nat
  src : Nat
  start : Nat
  got : Nat
  weights : List Byte
  scales : List Byte
  bad : Bool
  deriving DecidableEq, Repr

/-- One row in flight (R53): its number, its sums under a row width, and, once drained, the bytes it writes by SRAM
offset. -/
structure RowOut where
  row : Nat
  wide : Bool
  sums : List Nat
  drained : Bool
  writes : List (Nat × List Byte)
  deriving DecidableEq, Repr

/-- What the rows of a running step use: step word, pair, ROWS and ROWBASE, attention entry and mask word, tensor
identifier and seed, the drain stages that run, whether its partner was skipped (R182), and its weight plane. -/
structure StepEnv where
  word : Nat
  pair : Nat
  rows : Nat
  rowbase : Nat
  entry : Nat
  mask : Nat
  tid : Nat
  seed : Nat
  stages : List Nat
  dead : Bool
  plane : Plane
  deriving DecidableEq, Repr

/-- A COMPUTE or vector step that runs: its start, the rows read so far and those of them in flight, how many rows of a
FINAL or PROB step are written as +0 (R181, R182), the code and cycle of the fault it ends with (R47, R73), and whether
it is skipped (R179). -/
structure StepRun where
  at_ : StepRef
  env : StepEnv
  start : Nat
  got : Nat
  fly : List RowOut
  zrows : Nat
  fault : Option (Nat × Nat)
  skip : Bool
  deriving DecidableEq, Repr

/-- One cell of the accumulator: which row width wrote it, and its FP32 value (R52). -/
structure AccCell where
  wide : Bool
  v : Word
  deriving DecidableEq, Repr

/-- An accepted write of a program bank that is not yet visible: its bytes from a byte of the two banks on, whether a
shift boundary has still to be reached for it, and the trick after which it may become visible (R71, R140). -/
structure ProgWrite where
  off : Nat
  bytes : List Byte
  shift : Bool
  trick : Nat
  deriving DecidableEq, Repr

/-- A step program of two banks: the words as written and as the engine sees them, and the accepted writes that are not
yet visible, in order (R67, R70, R71, R140). -/
structure Prog (n : Nat) where
  words : Tbl (BitVec n)
  seen : Tbl (BitVec n)
  waits : List ProgWrite
  deriving DecidableEq, Repr

/-- An accepted write is not yet visible (`PPEND`). -/
def Prog.pend {n : Nat} (p : Prog n) : Bool := !p.waits.isEmpty

/-- The matrix engine, vector unit and attention latches of one tile. `pc`, `base` and `vpc`, `vbase` are the two
paths' next step and last deal trick; `swaps` counts the bank changes that the matrix engine path has made and
`vswaps` those that the vector path has followed. -/
structure MeSt where
  prog : Prog 256
  run : Bool
  faulted : Bool
  aprog : Nat
  pc : Nat
  base : Nat
  vbank : Nat
  vpc : Nat
  vbase : Nat
  swaps : Nat
  vswaps : Nat
  front : Nat
  fillA : Nat
  fillB : Nat
  active : Option Plane
  shadow : Option Plane
  shift : Option ShiftRun
  computes : List StepRun
  vec : Option StepRun
  acc : Tbl AccCell
  steps : Nat
  arrayFree : Nat
  shiftFree : Nat
  vecFree : Nat
  deriving DecidableEq, Repr

/-! ## Tiles: the special function unit (R96 to R111) -/

/-- A special function step that runs: its writes, its output extents (R162), its last cycle, and what it reports. -/
structure SfRun where
  at_ : StepRef
  writes : List (Nat × List Byte)
  extents : List (Nat × Nat)
  endAt : Nat
  zrow : Bool
  fault : Option Nat
  deriving DecidableEq, Repr

/-- The special function unit of one tile: program, path, running step, ZROW, and the data pages by word (R99, R103). -/
structure SfSt where
  prog : Prog 256
  faulted : Bool
  aprog : Nat
  pc : Nat
  base : Nat
  freeAt : Nat
  running : Option SfRun
  zrow : Bool
  data : Tbl Word
  deriving DecidableEq, Repr

/-! ## Tiles: reserved slots (R130 to R134) -/

/-- One reserved slot: named by the loaded deal, policy (0 HOLD, 1 ZERO, 2 REUSE), FULL bit and value, and the value that
a SLOTW writes in this cycle, after the reads of the cycle (R133). -/
structure Slot where
  named : Bool
  policy : Nat
  full : Bool
  value : Dword
  next : Option Dword
  deriving DecidableEq, Repr

/-! ## Tiles: the stock (R140 to R165) -/

/-- One stream class: rate, tier, trump, bucket capacity and content, doorbell count (R148, R149, R151). -/
structure StClass where
  rate : Nat
  tier : Nat
  trump : Bool
  depth : Nat
  tokens : Nat
  db : Nat
  deriving DecidableEq, Repr

/-- A part of a request: bytes copied from a global address, or fill bytes (R146, R157, R158). -/
inductive Piece where
  | copy (addr : Nat) (n : Nat)
  | fill (byte : Nat) (n : Nat)
  deriving DecidableEq, Repr

/-- How far a stock request has come: a flag write that is held (R159), its reads are queued, its data is here, its write
is queued, it is done, or it met an error completion of Table ST-7. -/
inductive ReqStage where
  | held
  | reading
  | gotData
  | writing
  | done
  | failed (code : Nat)
  deriving DecidableEq, Repr

/-- One memory request of a stock (R146, R155): its transfer, its descriptor and class, whether it writes a flag (R161),
what it moves, its destination and length, the address
that it is working at, its data with the poisoned bytes by index, how far it has come, and the parts still out. `list`
is the place in the transfer's list or program data of a read whose data the stock itself takes (R158, R144). -/
structure StReq where
  id : Nat
  xfer : Nat
  at_ : StepRef
  cls : Nat
  flag : Bool
  piece : Piece
  dst : Nat
  len : Nat
  addr : Nat
  data : List (Nat × List Byte)
  poison : List Nat
  stage : ReqStage
  out : Nat
  list : Option Nat
  deriving DecidableEq, Repr

/-- A transfer of a stock (R154): its descriptor as it stands after its slots, its place, and how far its requests
have been issued. `extra` holds the kind-specific bytes, for REFILL the target and the bank; `entries` the page-list
entries read, plus one (R158); `held` that R162 holds it; `flagged` that its flag write has been issued (R161). -/
structure Transfer where
  id : Nat
  at_ : StepRef
  kind : Nat
  cls : Nat
  wfill : Bool
  src : Nat
  dst : Nat
  rowbytes : Nat
  rows : Nat
  sstride : Nat
  dstride : Nat
  faddr : Nat
  ftag : Nat
  lead : Nat
  extra : Nat
  row : Nat
  pos : Nat
  entries : Tbl Nat
  listPos : Nat
  held : Bool
  flagged : Bool
  deriving DecidableEq, Repr

/-- The stock of one tile (R140 to R165). `wheld` lists the classes that a held write request of a transfer holds (R159), `lastReq` the
cycle of the last request (R153), `refilled` that of the last play boundary at which the buckets gained (R151). -/
structure StSt where
  prog : Prog 512
  faulted : Bool
  aprog : Nat
  pc : Nat
  base : Nat
  classes : Tbl StClass
  owners : Tbl Nat
  xfers : List Transfer
  reqs : List StReq
  wheld : List Nat
  lastReq : Option Nat
  refilled : Option Nat
  nextId : Nat
  deriving DecidableEq, Repr

/-- One tile: its engines, slots, hand instruction memory, the hand that its issue port looked at last and the cycle in
which it last looked (R113), its correctable errors (R47), and the accesses that wait for its SRAM in the order in which
they are served (R46). -/
structure Tile where
  me : MeSt
  sf : SfSt
  st : StSt
  slots : Tbl Slot
  imem : Tbl Word
  port : Nat
  looked : Option Nat
  ce : Nat
  sramq : List SramReq
  deriving DecidableEq, Repr

/-! ## Hands (R112 to R139) -/

/-- The states of a hand (Table HD-1), in code order. -/
inductive HState where
  | idle
  | ready
  | switched
  | stalled
  | waiting
  | slotwait
  | halted
  | faulted
  | debug
  | stopping
  deriving DecidableEq, Repr

/-- The result of an access that has come back: data with its poison, or a fault code of Table HD-8. -/
inductive AccessRes where
  | pending
  | data (v : BitVec 512) (poison : Bool)
  | error (code : Nat)
  deriving DecidableEq, Repr

/-- What an instruction of a hand that waits does when it goes on: write a general register (with its size and sign),
write a vector register, post a store, perform a SLOTW, perform a RING, or nothing (a fence). -/
inductive MissKind where
  | load (d : Nat) (size : Nat) (signed : Bool)
  | vector (d : Nat)
  | store
  | slotw (tile : Nat) (slot : Nat) (value : Dword)
  | ring (bell : Nat) (n : Nat)
  | fence
  deriving DecidableEq, Repr

/-- The instruction of a hand that waits (R117 to R120, R126, R127): its kind, address and request, what has come back,
its program counter, and why it is held before it is issued: 0 not held, 1 for earlier accesses, 2 for the limit of
posted stores or the request register, 3 for a miss-tracking entry. `ordered` that it waits for every earlier access. -/
structure Miss where
  kind : MissKind
  addr : Nat
  op : MemReq
  ordered : Bool
  res : AccessRes
  hold : Nat
  pc : Nat
  deriving DecidableEq, Repr

/-- A posted store of a hand that has not completed (R120): its address and request and, once performed, its fault code
or 0. -/
structure Posted where
  id : Nat
  addr : Nat
  op : MemReq
  res : Option Nat
  deriving DecidableEq, Repr

/-- What a hand in WAITING or SLOTWAIT waits for (R127, R134). -/
inductive HWait where
  | none
  | word (addr : Nat) (differs : Dword)
  | trick (at_ : Dword)
  | slot (tile : Nat) (slot : Nat) (value : Dword)
  deriving DecidableEq, Repr

/-- One hand: state, program counter, general and vector registers, elapsed cycles, the cycle of its last issue,
what it waits for, its outstanding accesses, and the state that a debug halt keeps (R335). -/
structure HandSt where
  state : HState
  pc : BitVec 16
  g : Tbl Dword
  w : Tbl (BitVec 512)
  elapsed : Nat
  lastIssue : Option Nat
  wait : HWait
  miss : Option Miss
  posted : List Posted
  before : HState
  deriving DecidableEq, Repr

/-! ## Memory tiers (R190 to R212) -/

/-- One request in a channel's queue (R198): `pos` is the place of its bytes in what the requester collects. -/
structure ChanReq where
  who : Who
  trump : Bool
  addr : Nat
  pos : Nat
  op : MemReq
  deriving DecidableEq, Repr

/-- One memory channel: its queue with what waits for it in order of arrival (R198), its trump counter (R199) with the
play boundary at which it last gained, and the requests of the running window (R196). -/
structure Chan where
  q : List ChanReq
  trump : Nat
  gained : Option Nat
  count : Nat
  deriving DecidableEq, Repr

/-- One HBM stack (R196, R197): whether its first imbalanced window since the last read has been raised, the busiest
channel of the last counted window, its temperature and its channels', which channels refresh at twice the base rate,
and its throttle step (0 none, 1 halved, 2 quartered). -/
structure Stack where
  counted : Bool
  hot : Nat
  temp : Nat
  temps : Tbl Nat
  refresh : List Nat
  throttle : Nat
  deriving DecidableEq, Repr

/-- The state of a flash zone (R206). -/
inductive ZoneState where
  | empty
  | open_
  | full
  | offline
  deriving DecidableEq, Repr

/-- One flash zone: its write pointer in bytes and its state (R206); persistent. -/
structure Zone where
  ptr : Nat
  state : ZoneState
  deriving DecidableEq, Repr

/-- A flash command in progress (R209): queue's command words, the units done, and its outcome so far. -/
structure FlashRun where
  op : Nat
  len : Nat
  src : Nat
  off : Nat
  faddr : Nat
  units : Nat
  slot : Nat
  status : Nat
  deriving DecidableEq, Repr

/-- A swap mover command in progress (R174, R175); `begun` that no check has refused it at its start, `at_` the bytes that
have gone to the host or come from it (R318). -/
structure MoverRun where
  op : Nat
  page : Nat
  arg : Nat
  fill : Nat
  layer : Nat
  host : Nat
  faddr : Nat
  slot : Nat
  status : Nat
  begun : Bool
  at_ : Nat
  deriving DecidableEq, Repr

/-- The token bucket of a unit's queue (R151, R173, R205, R208, R287, R316): its tokens, fewer than none where accesses
took tokens of plays to come (the model's own, log 70), and the play in which it was last used. -/
structure Bucket where
  tokens : Int
  play : Nat
  deriving DecidableEq, Repr

/-- A write-back that runs (R205): its window, its flag, and the blocks that still wait to leave for the host. -/
structure WbRun where
  window : Nat
  faddr : Nat
  word : Nat
  blocks : List Nat
  deriving DecidableEq, Repr

/-- The write-back of a partition (R205): the points that have come and not started, with their cursor, and those that
run. -/
structure WbSt where
  owed : List (Nat × Nat)
  runs : List WbRun
  deriving DecidableEq, Repr

/-- One operation on the device's own memory, by local offset: bytes written; an 8-byte word poisoned or freed of
poison; a latent error of a word removed; a sector tagged with the key epoch it was written under; a range put back to
what an unlisted address reads as; an eighth's current epoch, and the epoch its unwritten sectors belong to, set. -/
inductive MemOp where
  | write (addr : Nat) (bytes : List Byte)
  | poison (word : Nat)
  | unpoison (word : Nat)
  | mend (word : Nat)
  | tag (sector epoch : Nat)
  | clear (lo len : Nat)
  | current (eighth epoch : Nat)
  | baseline (eighth epoch : Nat)
  deriving DecidableEq, Repr

/-- The memory of the device (R16): HBM, GDDR7, tile SRAM windows and flash, by local offset. `cells` lists the bytes
that differ from what an unlisted address reads as, `poison` the poisoned 8-byte words, `err1` and `err2` the words
with an error that their code corrects, or does not (R47, R201, R207), `tags` the epoch of each sector written under another epoch than
its eighth's baseline, `cur` each eighth's epoch in force (its key and its seed, R194, R202, R330), `base` the epoch of
the sectors that nothing has written since. -/
structure Mem where
  cells : List Host.Cell
  poison : List Nat
  err1 : List Nat
  err2 : List Nat
  tags : Tbl Nat
  cur : Tbl Nat
  base : Tbl Nat
  deriving DecidableEq, Repr

/-! ## Deals and jobs (R31 to R43, R131, R195, R203, R205, R223, R240, R407) -/

/-- An entry of the deal's link-slot section (Table LK-4): the slot's owner. -/
structure LinkEnt where
  port : Nat
  link : Nat
  play : Nat
  kind : Nat
  owner : Nat
  cls : Nat
  deriving DecidableEq, Repr

/-- A doorbell entry (Table HD-5): target kind and index. -/
structure Doorbell where
  named : Bool
  kind : Nat
  target : Nat
  deriving DecidableEq, Repr

/-- A start point of a suit (R247). -/
structure StartPt where
  deal : Nat
  play : Nat
  lead : Nat
  deriving DecidableEq, Repr

/-- A suit record with its lists (Table CO-1). -/
structure Suit where
  num : Nat
  members : List Nat
  listsum : Nat
  act : Nat
  policy : Nat
  weight : Nat
  kblk : Nat
  wfirst : Nat
  wlast : Nat
  starts : List StartPt
  cap : Nat
  epm : Nat
  qaddr : Nat
  deriving DecidableEq, Repr

/-- A placement window (Table MM-5). -/
structure Window where
  work : Nat
  home : Nat
  len : Nat
  writeback : Bool
  bitoff : Nat
  deriving DecidableEq, Repr

/-- A write-back point (R205). -/
structure WbPoint where
  deal : Nat
  window : Nat
  ftag : Nat
  faddr : Nat
  deriving DecidableEq, Repr

/-- What the loader keeps of an accepted deal (R32, R34): header, link slots with the ports' assumptions, doorbells,
suits, windows and write-back points, dirty bitmap and trump shares. -/
structure Deal where
  seed : Nat
  check : Nat
  prologue : Nat
  period : Nat
  stallLimit : Nat
  ports : List Nat
  links : List LinkEnt
  doorbells : Tbl Doorbell
  suits : List Suit
  runaddr : Nat
  windows : List Window
  points : List WbPoint
  dbase : Nat
  tfracH : Nat
  tfracG : Nat
  wbrate : Nat
  deriving DecidableEq, Repr

/-- A late record (R41, Table MP-9): global trick, cursor, cause, source. -/
structure LateRec where
  trick : Nat
  cursor : Nat
  cause : Nat
  source : Nat
  deriving DecidableEq, Repr

/-- The job of the partition whose lowest eighth is the key (R39 to R43, R407). `fired` keeps for each write-back point
and start point the cursor at which it last came, plus one (R205, R247). `why` is the halt cause that waits for
the next boundary, 0 none, and `whyAt` the trick in which it arose; `haltedWhy` what `DL_PSTAT.WHY` shows; `unloading`
the trick in which an UNLOAD was accepted plus one, 0 none. -/
structure Job where
  loaded : Bool
  started : Bool
  halted : Bool
  haltedWhy : Nat
  why : Nat
  whyAt : Nat
  unloading : Nat
  startTrick : Nat
  cursor : Nat
  slip : Nat
  stall : Nat
  lateCnt : Nat
  lateLog : Tbl LateRec
  fired : Tbl Nat
  deal : Deal
  deriving DecidableEq, Repr

/-! ## Partitions and life cycle (R321 to R337) -/

/-- The domain of an eighth's tiles (R357): on, gating or draining after an accepted OFF, or off. -/
inductive DomainSt where
  | on
  | gating
  | off
  deriving DecidableEq, Repr

/-- One eighth (R321, R324, R357, Table PI-3): partition membership, encryption, teardown progress, its gate, whether
flash is to be erased, its HD_CFG.MSW, and its tiles' power domain with a power-on that waits. `tearAt` and `offAt` are the tricks in
which the TEARDOWN and the domain's OFF were accepted. -/
structure EighthSt where
  used : Bool
  shape : Nat
  lowest : Nat
  enc : Bool
  scrub : Bool
  gate : Bool
  scrubbing : Bool
  erase : Bool
  tearAt : Nat
  msw : Bool
  domain : DomainSt
  offAt : Nat
  onWaits : Bool
  deriving DecidableEq, Repr

/-- A SETUP that waits for resources under test (R381). -/
structure SetupWait where
  q : Nat
  shape : Nat
  enc : Bool
  deriving DecidableEq, Repr

/-- The device secret in its fuses (R330, R331): not written yet, written, or overwritten. -/
inductive Secret where
  | blank
  | fused
  | overwritten
  deriving DecidableEq, Repr

/-- Life cycle, debug and fused state (R330 to R333, R377): the state in force, the one that the next reset makes it with the
owner's key digest that the request named, whether an unlock holds debug open, the fused epoch, the device secret, whether
the device certificate is written, the digest slots used with whether each is retired, whether a secured session is open and
whether IDE keys are set, and measurements 1 to 3 as the last reset took them (R332). -/
structure SecSt where
  lc : LcState
  next : Option LcState
  named : BitVec 384
  unlocked : Bool
  epoch : Nat
  secret : Secret
  cert : Bool
  owners : List (BitVec 384 × Bool)
  session : Bool
  ide : Bool
  taken : List Dword
  deriving DecidableEq, Repr

/-! ## Links, router and packets (R213 to R239) -/

/-- The kinds of packet (Table LK-5). -/
inductive PKind where
  | write | read | data | atomic | completion | collective
  deriving DecidableEq, Repr

/-- Whose stream a scheduled packet belongs to (R221, Table LK-4): a stream class of a tile, a suit of a partition,
a partition's responses, a forwarded slot, what the skip link of a port carries for it, or the open channel. -/
inductive Stream where
  | cls (t c : Nat)
  | suit (q s : Nat)
  | response (q : Nat)
  | transit (port link play : Nat)
  | skip (port : Nat)
  | opened
  deriving DecidableEq, Repr

/-- A packet to be sent, with its stream, the port it leaves by and the link of it whose stream it joined (R220), the
device it is bound for, the trick and the cycle in which it was queued, the port it came in by or 6 for this device's own
(R227, R237), and its bytes that have left (R221). -/
structure TxPkt where
  stream : Stream
  port : Nat
  link : Option Nat
  dev : Nat
  since : Nat
  cyc : Nat
  inport : Nat
  sent : Nat
  kind : PKind
  pkt : Packet
  deriving DecidableEq, Repr

/-- Bytes of a packet in a flit: `len` of them from byte `start` (R221). -/
structure FlitPart where
  x : TxPkt
  start : Nat
  len : Nat
  deriving DecidableEq, Repr

/-- A flit that left on a link (R214, R235): its number in its trick, the trick, whose stream it is of, and what it holds. -/
structure Flit where
  num : Nat
  trick : Nat
  stream : Stream
  parts : List FlitPart
  deriving DecidableEq, Repr

/-- A control word that this device sends on a link (Table LK-2), but for markers and timestamps. -/
inductive CtlWord where
  | credit (flits : Nat)
  | replay (first : Nat)
  | request (retrain : Bool) (width : Nat)
  | ack
  | gateClosed
  deriving DecidableEq, Repr

/-- A packet that its link holds behind lost flits of its stream (R235). -/
structure HeldPkt where
  at_ : Arrival
  kind : PKind
  pkt : Packet
  deriving DecidableEq, Repr

/-- A request from another device that this one serves (R226): its source, tag and kind, the partition whose responses
answer it or none for the open channel, its length, its parts still out, the data read by place, the poisoned words by
index, and the status of its completion. -/
structure Serve where
  dev : Nat
  tag : Nat
  kind : PKind
  part : Option Nat
  addr : Nat
  len : Nat
  left : Nat
  data : List (Nat × List Byte)
  bad : List Nat
  status : Nat
  deriving DecidableEq, Repr

/-- One link (R216 to R219, R221, R235, R236, Table LK-8): state code of `LK_LSTAT.STATE`, what was negotiated, the peer,
a request of its own that is unanswered and one that is acknowledged (RETRAIN or not, width code), the width that a
retraining may not exceed, the trick in which a width change began, the plays in which its slot and its open flit were last
sent, uncorrectable codewords of the running window and the window in which LK_DEGRADED was last raised plus one, corrected
symbols by lane since it came up and that its own request drops the worst lanes (R236), that the peer closed its gate, the
trick in which it last stopped being UP (R237), the flits sent in the last trick and those to be sent again, the lost flits
awaited by stream and the packets held behind them (R235), and the control words sent in this trick and the last, each
with its trick. -/
structure LinkSt where
  state : Nat
  gen : Nat
  width : Nat
  lanes : Nat
  proto : Nat
  peerPort : Nat
  peerLink : Nat
  serial : Dword
  asked : Option (Bool × Nat)
  agreed : Option (Bool × Nat)
  maxWidth : Nat
  changeAt : Nat
  sentAt : Option Nat
  openAt : Option Nat
  unc : Nat
  window : Nat
  raised : Nat
  laneCorr : Tbl Nat
  degrade : Bool
  peerGate : Bool
  downAt : Nat
  wire : List Flit
  again : List Flit
  lost : Tbl Nat
  held : List HeldPkt
  words : List (Nat × CtlWord)
  deriving DecidableEq, Repr

/-- One port (R227, R232, R234): state code of `LK_PSTAT.STATE`, the trick of an accepted OFF, its inbound gate, open
packets in order of arrival, credits in flits, and the queue of its skip link. -/
structure PortSt where
  state : Nat
  offTrick : Nat
  gate : Bool
  openq : List TxPkt
  credits : Nat
  skipq : List TxPkt
  deriving DecidableEq, Repr

/-! ## Collectives (R240 to R265) -/

/-- A received COLLECTIVE packet kept by an operation (R252). -/
structure CoRx where
  rank : Nat
  phase : Nat
  block : Nat
  bflags : Nat
  payload : List Byte
  poison : Nat
  deriving DecidableEq, Repr

/-- The parameters of an operation (Table CO-4), from its descriptor or, for an empty one, from its peers. -/
structure CoDesc where
  op : Nat
  fmt : Nat
  len : Nat
  ncont : Nat
  root : Nat
  rowbytes : Nat
  src : Nat
  dst : Nat
  auxa : Nat
  auxb : Nat
  faddr : Nat
  ftag : Nat
  deriving DecidableEq, Repr

/-- An operation in progress on a position (R247 to R251): suit, descriptor address, parameters, whether it is empty,
the flag's INDEX, phase code of `CO_ACT.PHASE` with the part of level 2 that runs, the first block of the chunk in
progress (R258), what has been received, outcome, and whether its result is written; the number of its start, the empty
peers that it has told its parameters (R251), and its writes to other devices and the host that are under way. -/
structure CoRun where
  q : Nat
  suit : Nat
  addr : Nat
  desc : CoDesc
  empty : Bool
  index : Nat
  phase : Nat
  sub : Nat
  chunk : Nat
  rx : List CoRx
  status : Nat
  flags : Nat
  done : Bool
  seq : Nat
  told : List Nat
  out : Nat
  deriving DecidableEq, Repr

/-- A suit at run time (R245 to R248, R250): doorbell, operations started and completed, whether a failure stopped it,
the start points that wait (cursor value times 256 plus LEAD), and packets that came before their operation. -/
structure SuitRun where
  db : Nat
  started : Nat
  head : Nat
  failed : Bool
  waiting : List Nat
  early : List CoRx
  deriving DecidableEq, Repr

/-! ## Input engine (R285 to R298) -/

/-- An input command in progress (Table IN-1): its address, operation, and outcome so far, and the samples or patch rows
that are done. -/
structure InRun where
  addr : Nat
  op : Nat
  deadline : Nat
  faddr : Nat
  ftag : Nat
  status : Nat
  flags : Nat
  done : Bool
  next : Nat
  deriving DecidableEq, Repr

/-- One input queue (R285, R286, R292, Table IN-6): enabled, dictionary state and refusal code, stopped by overrun,
doorbell count, commands started since enabled, and the command in progress. -/
structure InQ where
  en : Bool
  dict : Nat
  derr : Nat
  ovr : Bool
  db : Nat
  started : Nat
  run : Option InRun
  deriving DecidableEq, Repr

/-! ## Host link (R299 to R320) -/

/-- A region table entry (R309). `freeing` that it is being freed, with the requesters whose accesses were in flight through
it then and still are (R310). -/
structure Region where
  kind : Nat
  hoff : Nat
  doff : Nat
  bus : Nat
  len : Nat
  use : Nat
  freeing : Option (List Who)
  deriving DecidableEq, Repr

/-- A host command in progress (R305 to R308): its slot, outcome so far, and what of it is done: bytes copied (R318) or pages
flipped (R314). -/
structure HostRun where
  slot : Nat
  status : Nat
  at_ : Nat
  deriving DecidableEq, Repr

/-- An access of the host or a peer to device memory that is under way (R304): the inbound entry that it goes through, its
address and length, whether it writes, the parts of each 256 bytes of it that are out, and what has been read, with the poisoned bytes by index. -/
structure WinRun where
  entry : Option Nat
  addr : Nat
  len : Nat
  wr : Bool
  left : Tbl Nat
  data : List (Nat × List Byte)
  bad : List Nat
  deriving DecidableEq, Repr

/-- A device access that waits for the bias of its page (R315): its request, and the lines whose snoop the host has yet to
answer. -/
structure Parked where
  req : ChanReq
  need : List Nat
  deriving DecidableEq, Repr

/-- A snapshot writer command in progress (R316); `at_` the bytes that have left (R318). -/
structure WriterRun where
  op : Nat
  len : Nat
  src : Nat
  host : Nat
  faddr : Nat
  slot : Nat
  status : Nat
  at_ : Nat
  deriving DecidableEq, Repr

/-- A write on its way to the host, in order (R317): whose it is, bus address and the region entry that it goes through,
bytes. -/
structure HostWrite where
  who : Who
  at_ : Nat × Nat
  bytes : List Byte
  deriving DecidableEq, Repr

/-- The host link (R300 to R320): link state, function state, regions, bias bits of the HDM range (pages in host bias) with
the pages whose bias is being flipped, by a CXL.mem access or not, the device accesses that wait for it, the lines that have
been snooped without an answer and those answered for a unit's next access; command slots and runs, the accesses of the host
under way with the number of the next, and for each tail write of a queue the new tail and that number (R305); posted writes
that wait for credit and those that have left; the MSI-X table, its pending bits and the messages sent; and snoops sent. -/
structure HlSt where
  rate : Nat
  width : Nat
  proto : Nat
  perst : Bool
  ready : Bool
  crs : Nat
  regions : Tbl (Option Region)
  bias : List Nat
  flips : List (Nat × Bool)
  parked : List Parked
  asked : List Nat
  answered : List Nat
  slots : Tbl (List Byte)
  runs : Tbl (Option HostRun)
  writers : Tbl (Option WriterRun)
  windows : Tbl (Option WinRun)
  winNext : Nat
  fences : Tbl (List (Nat × Nat))
  posted : List HostWrite
  sent : List HostWrite
  msixTab : Tbl Byte
  msixPend : List Nat
  msix : List Nat
  snoops : List Nat
  deriving DecidableEq, Repr

/-! ## Event controller (R338 to R348) -/

/-- The states of a source (R340), in code order. -/
inductive SrcState where
  | idle
  | pending
  | delivered
  | inService
  deriving DecidableEq, Repr

/-- One event source (R340, R341, Table EV-3): `reached` that a delivery has arrived at its target. -/
structure Source where
  tgt : Nat
  masked : Bool
  state : SrcState
  rearm : Bool
  owner : Nat
  reached : Bool
  cnt : Nat
  deriving DecidableEq, Repr

/-- The event controller: sources, which targets take deliveries, the target of the previous delivery (R341). -/
structure EvSt where
  srcs : Tbl Source
  en : Tbl Bool
  prev : Nat
  deriving DecidableEq, Repr

/-! ## Power, reset and start-up (R349 to R374) -/

/-- The power page's state (R350 to R356, R364 to R372), and that of the power stage's controller as its PMBus shows it
(R351): whether it is told to operate, and the cause of the fault that its status holds, 0 none. Start-up phase code, master, settings slot, override (1 East,
2 West), reason of SPLIT, last reset, cause of main power off, main power, thermal lockout, the start-up that waits for
it, duties, the limiter's samples and how long it has been over or below, thermal state and how long it has stood. -/
structure PowerSt where
  phase : Nat
  master : Nat
  settings : Nat
  override : Nat
  splitWhy : Nat
  lastRst : Nat
  offCause : Nat
  mainOn : Bool
  lockout : Bool
  held : Bool
  pduty : Nat
  tduty : Nat
  samples : List Nat
  ovr : Nat
  below : Nat
  isOver : Bool
  vin : Nat
  tempEast : Nat
  tempWest : Nat
  warned : Bool
  gating : Bool
  hotFor : Nat
  coolFor : Nat
  operate : Bool
  stageFault : Nat
  deriving DecidableEq, Repr

/-! ## Self-test (R375 to R387) -/

/-- An activity that runs (R378, R379, R385). -/
structure Activity where
  kind : Nat
  unit : Nat
  mode : Nat
  aborting : Bool
  deriving DecidableEq, Repr

/-- Self-test: activities, code of the last command, reset needed, token nonce, records with their count. -/
structure BtSt where
  acts : List Activity
  code : Nat
  needRst : Bool
  nonce : Word
  resCnt : Nat
  res : Tbl Word
  deriving DecidableEq, Repr

/-! ## The machine -/

/-- The pins and the board (R358, R414 to R421): SYS_RST_N level, whether MOD_FAULT_N is driven low (R419), MG_ADDR, the absolute cycle of the last accepted
TOD_PPS edge, what the last start-up sampled, the test access port's instruction, the settings store, the TILE_MAP in force, live channels and fitted
devices, the HOST item of the settings in force and the link lanes that LANE_REPAIR excludes (R360, R384), and the sticky error
bit of the debug access port (R397). -/
structure Board where
  rstLow : Bool
  modFault : Bool
  dbgError : Bool
  mgAddr : Nat
  todLast : Option Nat
  straps : BootIn
  tap : TapInstr
  nor : Tbl Byte
  tileMap : Tbl Nat
  hbmLive : Tbl Nat
  gddrLive : Nat
  flashFitted : Nat
  hostItem : Nat
  laneOut : Tbl Nat
  deriving DecidableEq, Repr

/-- Everything of the device but the count, power, life cycle and memory. `ctl` holds the stored words of control
space by word index, `free` counts the values left open that have been drawn (the model's own field). -/
structure Body where
  tb : TbSt
  board : Board
  pages : Tbl Page
  ctl : Tbl Word
  latches : Tbl (Option Word)
  replies : List Reply
  tiles : Tbl Tile
  hands : Tbl HandSt
  eighths : Tbl EighthSt
  jobs : Tbl Job
  setupWait : Option SetupWait
  ktag : Dword
  dlCode : Nat
  dlBusy : Bool
  dlEighth : Nat
  piCode : Nat
  piBusy : Bool
  chans : Tbl Chan
  hbmStacks : Tbl Stack
  marked : Tbl (List Nat)
  zones : Tbl Zone
  flash : Tbl (Option FlashRun)
  movers : Tbl (Option MoverRun)
  turns : Tbl Nat
  buckets : Tbl Bucket
  wbs : Tbl WbSt
  ports : Tbl PortSt
  links : Tbl LinkSt
  seats : Tbl Nat
  tx : List TxPkt
  tags : Tbl (Option Who)
  serves : Tbl (Option Serve)
  order : List Nat
  positions : Tbl (Option CoRun)
  suits : Tbl SuitRun
  inqs : Tbl InQ
  dict : Tbl Word
  hl : HlSt
  ev : EvSt
  bt : BtSt
  coreHalt : List Nat
  tileHalt : List Nat
  free : Nat
  deriving DecidableEq, Repr

/-- The device: count, power, life cycle, memory, the memory operations of the last command (the model's own field),
and the rest. -/
structure Dev where
  time : TimeSt
  power : PowerSt
  sec : SecSt
  mem : Mem
  log : List MemOp
  body : Body
  deriving DecidableEq, Repr

/-- The state of the block: the device and the commands that wait, first in, first out. -/
structure State where
  dev : Dev
  pending : List Instr
  deriving DecidableEq, Repr

/-- Reasons for which a step stops as a fault. No command of this model raises one: what the spec calls a fault of a
hand, a path, a stock or an access is an effect on State (R73, R111, R138, R164, R398). There is no such reason, so no step of this model faults. Safe. -/
inductive Fault where
  deriving DecidableEq, Repr

/-- Reasons for which a command is refused. -/
inductive Refusal where
  /-- The command has no meaning yet in this model: raised by exec's arm of that name only. Safe. -/
  | notModelled (mnemonic : String)
  deriving DecidableEq, Repr

/-! ## Values at reset and defaults of the tables -/

def Marker.z : Option Marker := Option.none
def DelaySt.z : DelaySt := ⟨0, 0, 0, 0, Option.none⟩
def Page.z : Page := ⟨100, 0, 0, 0, 0, false, 0, 0, [], []⟩
def Prog.z {n : Nat} : Prog n := ⟨[], [], []⟩
def MeSt.z : MeSt :=
  { prog := Prog.z, run := false, faulted := false, aprog := 0, pc := 0, base := 0, vbank := 0, vpc := 0, vbase := 0
    swaps := 0, vswaps := 0, front := 0, fillA := 0, fillB := 0, active := Option.none, shadow := Option.none
    shift := Option.none, computes := [], vec := Option.none, acc := [], steps := 0, arrayFree := 0
    shiftFree := 0, vecFree := 0 }
def AccCell.z : AccCell := ⟨false, 0⟩
def SfSt.z : SfSt :=
  { prog := Prog.z, faulted := false, aprog := 0, pc := 0, base := 0, freeAt := 0, running := Option.none, zrow := false, data := [] }
def Slot.z : Slot := ⟨false, 0, false, 0, Option.none⟩
def StClass.z : StClass := ⟨0, 0, false, 0, 0, 0⟩
/-- No class owns a play before a deal is loaded: OWNER 0xFF (Table ST-4). -/
def ownerZ : Nat := 0xFF
def StSt.z : StSt :=
  { prog := Prog.z, faulted := false, aprog := 0, pc := 0, base := 0, classes := [], owners := [], xfers := []
    reqs := [], wheld := [], lastReq := Option.none, refilled := Option.none, nextId := 0 }
/-- The hand looked at last is 63, so the rotation starts at hand 0 (R113; DESIGN CHOICE, log 9). -/
def Tile.z : Tile := { me := MeSt.z, sf := SfSt.z, st := StSt.z, slots := [], imem := [], port := 63, looked := Option.none, ce := 0, sramq := [] }
def HandSt.z : HandSt :=
  { state := .idle, pc := 0, g := [], w := [], elapsed := 0, lastIssue := Option.none, wait := .none
    miss := Option.none, posted := [], before := .idle }
def EighthSt.z : EighthSt :=
  { used := false, shape := 0, lowest := 0, enc := false, scrub := false, gate := false, scrubbing := false
    erase := false, tearAt := 0, msw := false, domain := .on, offAt := 0, onWaits := false }
def Doorbell.z : Doorbell := ⟨false, 0, 0⟩
def Deal.z : Deal :=
  { seed := 0, check := 0, prologue := 0, period := 1, stallLimit := 0, ports := [], links := [], doorbells := []
    suits := [], runaddr := 0, windows := [], points := [], dbase := 0, tfracH := 0, tfracG := 0, wbrate := 0 }
def LateRec.z : LateRec := ⟨0, 0, 0, 0⟩
def Job.z : Job :=
  { loaded := false, started := false, halted := false, haltedWhy := 0, why := 0, whyAt := 0, unloading := 0, startTrick := 0
    cursor := 0, slip := 0, stall := 0, lateCnt := 0, lateLog := [], fired := [], deal := Deal.z }
def Chan.z : Chan := ⟨[], 0, Option.none, 0⟩
def Stack.z : Stack := ⟨false, 0, 0, [], [], 0⟩
def Zone.z : Zone := ⟨0, .empty⟩
def Bucket.z : Bucket := ⟨0, 0⟩
def WbSt.z : WbSt := ⟨[], []⟩
/-- After reset a link trains (R216, Table PW-5 step 9): state DOWN until LINK_TRAIN; credits 64 flits (R227). -/
def LinkSt.z : LinkSt :=
  { state := 0, gen := 0, width := 0, lanes := 0, proto := 0, peerPort := 0, peerLink := 0, serial := 0
    asked := Option.none, agreed := Option.none, maxWidth := 1, changeAt := 0, sentAt := Option.none, openAt := Option.none
    unc := 0, window := 0, raised := 0, laneCorr := [], degrade := false, peerGate := false, downAt := 0
    wire := [], again := [], lost := [], held := [], words := [] }
def PortSt.z : PortSt := ⟨0, 0, false, [], 64, []⟩
def SuitRun.z : SuitRun := ⟨0, 0, 0, false, [], []⟩
def InQ.z : InQ := ⟨false, 0, 0, false, 0, 0, Option.none⟩
def HlSt.z : HlSt :=
  { rate := 0, width := 0, proto := 0, perst := false, ready := false, crs := 0, regions := [], bias := [], flips := []
    parked := [], asked := [], answered := [], slots := [], runs := [], writers := [], windows := [], winNext := 0
    fences := [], posted := [], sent := [], msixTab := [], msixPend := [], msix := [], snoops := [] }
def Source.z : Source := ⟨0, true, .idle, false, 0, false, 0⟩
/-- Target 3 is the target of the previous delivery (R341). -/
def EvSt.z : EvSt := ⟨[], [], 3⟩
def BtSt.z : BtSt := ⟨[], 0, false, 0, 0, []⟩
def TbSt.z : TbSt :=
  { tref := false, parent := 7, hops := 0, sourcing := false, running := false, locked := false, dealer := 0
    todTrick := 0, todPhase := 0, markers := [], silent := [], heard := [], sent := [], delays := [], offset := 0, gated := false }
/-- All channels live and every device fitted: the defaults of Table PW-4. -/
def hbmLiveZ : Nat := 0xFFFFFFFF
def gddrLiveZ : Nat := 0xFFFFFF
def flashFittedZ : Nat := 0xFFFF
/-- The default HOST item (Table PW-4): 64.0 GT/s, x16, CXL 3.1. -/
def hostItemZ : Nat := 6 + 8 * 3 + 32 * 2
def Board.z : Board :=
  { rstLow := false, modFault := false, dbgError := false, mgAddr := 0, todLast := Option.none
    straps := ⟨true, false, 0, true, true, true, true⟩, tap := .bypass, nor := [], tileMap := [], hbmLive := []
    gddrLive := gddrLiveZ, flashFitted := flashFittedZ, hostItem := hostItemZ, laneOut := [] }
def TimeSt.z : TimeSt := ⟨0, 0, 0⟩
def PowerSt.z : PowerSt :=
  { phase := 0, master := 0, settings := 0, override := 0, splitWhy := 0, lastRst := 0, offCause := 0, mainOn := false
    lockout := false, held := false, pduty := 16, tduty := 16, samples := [], ovr := 0, below := 0, isOver := false
    vin := 0, tempEast := 0, tempWest := 0, warned := false, gating := false, hotFor := 0, coolFor := 0, operate := false, stageFault := 0 }
/-- A new part: life cycle BLANK (R331), so debug is open (R333). -/
def SecSt.z : SecSt :=
  { lc := .blank, next := Option.none, named := 0, unlocked := false, epoch := 0, secret := .blank, cert := false, owners := []
    session := false, ide := false, taken := [] }
def Mem.z : Mem := ⟨[], [], [], [], [], [], []⟩

def Body.z : Body :=
  { tb := TbSt.z, board := Board.z, pages := [], ctl := [], latches := [], replies := [], tiles := [], hands := []
    eighths := [], jobs := [], setupWait := Option.none, ktag := 0, dlCode := 0, dlBusy := false, dlEighth := 0
    piCode := 0, piBusy := false, chans := [], hbmStacks := [], marked := [], zones := [], flash := [], movers := [], turns := [], buckets := [], wbs := []
    ports := [], links := [], seats := [], tx := [], tags := [], serves := [], order := [], positions := [], suits := [], inqs := [], dict := [], hl := HlSt.z
    ev := EvSt.z, bt := BtSt.z, coreHalt := [], tileHalt := [], free := 0 }

def Dev.z : Dev := { time := TimeSt.z, power := PowerSt.z, sec := SecSt.z, mem := Mem.z, log := [], body := Body.z }

/-- The machine as the auxiliary supply becomes good, before COLD_RESET runs the start-up (Table PW-5): every field
table at its Reset values, phase ELECT, main power off, nothing in memory, no command waiting. -/
def State.reset : State := { dev := Dev.z, pending := [] }

end Sys2Proof.Machine
end

