-- ==== Sys2Proof/Machine/RegMap.lean ====
section
/-! DEFINITION. The register map (spec/19_register_map.md, R388 to R407, and the register tables of the other
chapters): the pages and arrays of control space, and for every register its place, its access code and the bits that
a write sets. -/

namespace Sys2Proof.Machine

/-- Every register beyond the page headers, by name. Registers of one table row share a name and differ by index. -/
inductive Reg where
  | tbNowLo | tbNowHi | tbPhase | tbDealer | tbState | tbTodLo | tbTodHi | tbTodPhase | tbSlipLo | tbSlipHi
  | tbLateCnt | tbCause1 | tbCause2 | tbCause3 | tbCause4 | tbCause5 | tbLateLog | dlImageLo | dlImageHi
  | dlCmdTrickLo | dlCmdTrickHi | dlCmd | dlStatus | dlPstat | piLc | piCmd | piStat | piDbglog | piKtagLo
  | piKtagHi | piPart | grantRange | grantFlags | grantOffloLo | grantOffloHi | grantOffhiLo | grantOffhiHi
  | evTctl | evClaim | evComplete | evTiles | evPend | evCnt | evSrc | coStat | coFailinfo | coFails
  | coSatblk | coNanblk | coDropped | coDbwait | coRunLo | coRunHi | coAct | rtCfg | rtXy | rtPos | rtDevnum
  | rtUnrouted | rtDoffRx | rtSeat | rtPlan | hlLstat | hlT3share | hlDeadline | hlWinPart | hlWinBaseLo
  | hlWinBaseHi | hlHdmBaseLo | hlHdmBaseHi | hlHdmPart | hlUr | hlStalls | hlAutoflip | hlCmdfail | hlCqTail
  | hlCqHead | hlWqbaseLo | hlWqbaseHi | hlQcfg | hlWtail | hlWhead | hlWfails | pwCtrl | pwStat | pwLimit
  | pwDuty | pwInpwr | pwTemp | pwTherm | pwGated | pwDomain | pwElect | btCmd | btStat | btAuth | btNonce
  | btHoldMem | btHoldIo | btResCnt | btRes | lkPctrl | lkPstat | lkLstat | lkRtt | lkCorr | lkUnc | lkReplay
  | lkDoff | lkPeerLo | lkPeerHi | mmGddrLive | mmGce | mmGue | mmWbcnt | mmLive | mmPcfg | mmImbal | mmHot
  | mmThrot | mmCe | mmUe | flPresent | flUe | flZonesLo | flZonesHi | flQbaseLo | flQbaseHi | flQcfg
  | flTail | flHead | flFails | mvStat | mvQbaseLo | mvQbaseHi | mvPdtLo | mvPdtHi | mvPbaseLo | mvPbaseHi
  | mvQcfg | mvTail | mvHead | mvFails | mvNpage | inStat | inTrunc | inUnder | inQbaseLo | inQbaseHi
  | inQcfg | inQstat | inHead | inFails | inDb | meCtrl | meStat | meFault | meBankFill | meStepsLo | meStepsHi
  | meWait | meTid | meProfile | sfStat | sfFault | sfWait | hdCfg | hdStart | hdFlogCnt | hdIssueLo
  | hdIssueHi | hdNoready | hdHeld | hdMttfull | hdSlothold | hdState | hdEntry | hdElapsedLo | hdElapsedHi
  | hdFlog | atSkip | atSkips | atZrow | atProf | stStat | stFault | stCursorLo | stCursorHi | stFaddrLo
  | stFaddrHi | stPaddrLo | stPaddrHi | stOutfull | stReqfull | stWhold | stPoison | stEmpty | stReghold
  | stTrickwait | stLinkwait | stSfrot | stPagewalk | stForeign | stDb | stTokens
  deriving DecidableEq, Repr

/-- How a register answers reads and writes (Table SC-4, R391, R392). The number is the mask of the bits that a write
sets; `companion` names the low word that latches it. -/
inductive Acc where
  | ro
  | rw (mask : Nat)
  | rc
  | w1c (mask : Nat)
  | wo
  | woLo
  | woHi
  | latchLo
  | latchHi
  | companion (lo : Nat)
  | plainLo (mask : Nat)
  | plainHi (mask : Nat)
  | plainRoLo
  | plainRoHi
  deriving DecidableEq, Repr

/-- One row of a register table: page kind (Table MP-7), offset of the first register, stride and count, access. -/
structure RegRow where
  kind : Nat
  reg : Reg
  first : Nat
  stride : Nat
  count : Nat
  acc : Acc
  deriving DecidableEq, Repr

/-- The registers of the time base (Table MP-9), without the late log page. -/
def rowsTb : List RegRow :=
  [ ⟨1, .tbNowLo, 0x40, 0x4, 1, .latchLo⟩
  , ⟨1, .tbNowHi, 0x44, 0x4, 1, .latchHi⟩
  , ⟨1, .tbPhase, 0x48, 0x4, 1, .companion 0x40⟩
  , ⟨1, .tbDealer, 0x4C, 0x4, 1, .ro⟩
  , ⟨1, .tbState, 0x50, 0x4, 1, .ro⟩
  , ⟨1, .tbTodLo, 0x58, 0x4, 1, .latchLo⟩
  , ⟨1, .tbTodHi, 0x5C, 0x4, 1, .latchHi⟩
  , ⟨1, .tbTodPhase, 0x60, 0x4, 1, .companion 0x58⟩
  , ⟨1, .tbSlipLo, 0x200, 0x180, 8, .latchLo⟩
  , ⟨1, .tbSlipHi, 0x204, 0x180, 8, .latchHi⟩
  , ⟨1, .tbLateCnt, 0x208, 0x180, 8, .ro⟩
  , ⟨1, .tbCause1, 0x210, 0x180, 8, .rc⟩
  , ⟨1, .tbCause2, 0x214, 0x180, 8, .rc⟩
  , ⟨1, .tbCause3, 0x218, 0x180, 8, .rc⟩
  , ⟨1, .tbCause4, 0x21C, 0x180, 8, .rc⟩
  , ⟨1, .tbCause5, 0x220, 0x180, 8, .rc⟩ ]

/-- The registers of the deal loader (Table MP-10) page. -/
def rowsDl : List RegRow :=
  [ ⟨2, .dlImageLo, 0x40, 0x4, 1, .plainLo 0xFFFFFFFF⟩
  , ⟨2, .dlImageHi, 0x44, 0x4, 1, .plainHi 0xFFFFFFFF⟩
  , ⟨2, .dlCmdTrickLo, 0x48, 0x4, 1, .plainLo 0xFFFFFFFF⟩
  , ⟨2, .dlCmdTrickHi, 0x4C, 0x4, 1, .plainHi 0xFFFFFFFF⟩
  , ⟨2, .dlCmd, 0x50, 0x4, 1, .wo⟩
  , ⟨2, .dlStatus, 0x54, 0x4, 1, .ro⟩
  , ⟨2, .dlPstat, 0x80, 0x4, 8, .ro⟩ ]

/-- The registers of the partition (R337) page. -/
def rowsPi : List RegRow :=
  [ ⟨3, .piLc, 0x40, 0x4, 1, .ro⟩
  , ⟨3, .piCmd, 0x44, 0x4, 1, .wo⟩
  , ⟨3, .piStat, 0x48, 0x4, 1, .ro⟩
  , ⟨3, .piDbglog, 0x4C, 0x4, 1, .rc⟩
  , ⟨3, .piKtagLo, 0x50, 0x4, 1, .woLo⟩
  , ⟨3, .piKtagHi, 0x54, 0x4, 1, .woHi⟩
  , ⟨3, .piPart, 0x80, 0x4, 8, .ro⟩ ]

/-- The registers of the grant (R337) page. -/
def rowsGrant : List RegRow :=
  [ ⟨4, .grantRange, 0x400, 0x20, 64, .rw 0xFFFF7FFF⟩
  , ⟨4, .grantFlags, 0x404, 0x20, 64, .rw 0x1F⟩
  , ⟨4, .grantOffloLo, 0x408, 0x20, 64, .plainLo 0xFFFFFFFF⟩
  , ⟨4, .grantOffloHi, 0x40C, 0x20, 64, .plainHi 0x1FFFF⟩
  , ⟨4, .grantOffhiLo, 0x410, 0x20, 64, .plainLo 0xFFFFFFFF⟩
  , ⟨4, .grantOffhiHi, 0x414, 0x20, 64, .plainHi 0x1FFFF⟩ ]

/-- The registers of the event controller (Table EV-2) page. -/
def rowsEv : List RegRow :=
  [ ⟨5, .evTctl, 0x80, 0x10, 4, .rw 1⟩
  , ⟨5, .evClaim, 0x84, 0x10, 4, .rc⟩
  , ⟨5, .evComplete, 0x88, 0x10, 4, .wo⟩
  , ⟨5, .evTiles, 0x100, 0x4, 40, .ro⟩
  , ⟨5, .evPend, 0x200, 0x4, 16, .ro⟩
  , ⟨5, .evCnt, 0x400, 0x4, 128, .rc⟩
  , ⟨5, .evSrc, 0x800, 0x4, 512, .rw 0x1F⟩ ]

/-- The registers of the collective (Table CO-8) page. -/
def rowsCo : List RegRow :=
  [ ⟨6, .coStat, 0x40, 0x4, 1, .ro⟩
  , ⟨6, .coFailinfo, 0x44, 0x4, 1, .rc⟩
  , ⟨6, .coFails, 0x48, 0x4, 1, .rc⟩
  , ⟨6, .coSatblk, 0x4C, 0x4, 1, .rc⟩
  , ⟨6, .coNanblk, 0x50, 0x4, 1, .rc⟩
  , ⟨6, .coDropped, 0x54, 0x4, 1, .rc⟩
  , ⟨6, .coDbwait, 0x58, 0x4, 1, .rc⟩
  , ⟨6, .coRunLo, 0x80, 0x8, 8, .plainRoLo⟩
  , ⟨6, .coRunHi, 0x84, 0x8, 8, .plainRoHi⟩
  , ⟨6, .coAct, 0x100, 0x4, 64, .ro⟩ ]

/-- The registers of the router (Table LK-7) page. -/
def rowsRt : List RegRow :=
  [ ⟨7, .rtCfg, 0x40, 0x4, 1, .rw 0x3FF⟩
  , ⟨7, .rtXy, 0x44, 0x4, 1, .rw 0x3FF⟩
  , ⟨7, .rtPos, 0x48, 0x4, 1, .rw 0x1F⟩
  , ⟨7, .rtDevnum, 0x4C, 0x4, 1, .ro⟩
  , ⟨7, .rtUnrouted, 0x50, 0x4, 1, .rc⟩
  , ⟨7, .rtDoffRx, 0x54, 0x4, 1, .rc⟩
  , ⟨7, .rtSeat, 0x80, 0x4, 17, .rw 0x3F⟩
  , ⟨7, .rtPlan, 0x400, 0x4, 384, .rw 0x3FF⟩ ]

/-- The registers of the host link (Table HL-6) page. -/
def rowsHl : List RegRow :=
  [ ⟨8, .hlLstat, 0x40, 0x4, 1, .ro⟩
  , ⟨8, .hlT3share, 0x44, 0x4, 1, .rw 0x7F⟩
  , ⟨8, .hlDeadline, 0x48, 0x4, 1, .rw 0xFFFFF⟩
  , ⟨8, .hlWinPart, 0x4C, 0x4, 1, .rw 0xF⟩
  , ⟨8, .hlWinBaseLo, 0x50, 0x4, 1, .plainLo 0xC0000000⟩
  , ⟨8, .hlWinBaseHi, 0x54, 0x4, 1, .plainHi 0x1FFFF⟩
  , ⟨8, .hlHdmBaseLo, 0x58, 0x4, 1, .plainLo 0xC0000000⟩
  , ⟨8, .hlHdmBaseHi, 0x5C, 0x4, 1, .plainHi 0x1FFFF⟩
  , ⟨8, .hlHdmPart, 0x60, 0x4, 1, .rw 0xF⟩
  , ⟨8, .hlUr, 0x64, 0x4, 1, .rc⟩
  , ⟨8, .hlStalls, 0x68, 0x4, 1, .rc⟩
  , ⟨8, .hlAutoflip, 0x6C, 0x4, 1, .rc⟩
  , ⟨8, .hlCmdfail, 0x70, 0x4, 1, .rc⟩
  , ⟨8, .hlCqTail, 0x80, 0x20, 8, .rw 0xFFFFFFFF⟩
  , ⟨8, .hlCqHead, 0x84, 0x20, 8, .ro⟩
  , ⟨8, .hlWqbaseLo, 0x88, 0x20, 8, .plainLo 0xFFFFFFFF⟩
  , ⟨8, .hlWqbaseHi, 0x8C, 0x20, 8, .plainHi 0xFFFFFFFF⟩
  , ⟨8, .hlQcfg, 0x90, 0x20, 8, .rw 0xFF⟩
  , ⟨8, .hlWtail, 0x94, 0x20, 8, .rw 0xFFFFFFFF⟩
  , ⟨8, .hlWhead, 0x98, 0x20, 8, .ro⟩
  , ⟨8, .hlWfails, 0x9C, 0x20, 8, .rc⟩ ]

/-- The registers of the power (Table PW-8) page. -/
def rowsPw : List RegRow :=
  [ ⟨9, .pwCtrl, 0x40, 0x4, 1, .wo⟩
  , ⟨9, .pwStat, 0x44, 0x4, 1, .ro⟩
  , ⟨9, .pwLimit, 0x48, 0x4, 1, .rw 0x7FF⟩
  , ⟨9, .pwDuty, 0x4C, 0x4, 1, .ro⟩
  , ⟨9, .pwInpwr, 0x50, 0x4, 1, .ro⟩
  , ⟨9, .pwTemp, 0x54, 0x4, 1, .ro⟩
  , ⟨9, .pwTherm, 0x58, 0x4, 1, .rw 0xFFFF⟩
  , ⟨9, .pwGated, 0x5C, 0x4, 1, .rc⟩
  , ⟨9, .pwDomain, 0x60, 0x4, 1, .rw 0xFF⟩
  , ⟨9, .pwElect, 0x64, 0x4, 1, .wo⟩ ]

/-- The registers of the self-test (Table BT-6) page. -/
def rowsBt : List RegRow :=
  [ ⟨10, .btCmd, 0x40, 0x4, 1, .wo⟩
  , ⟨10, .btStat, 0x44, 0x4, 1, .ro⟩
  , ⟨10, .btAuth, 0x48, 0x4, 1, .rw 0x1FE⟩
  , ⟨10, .btNonce, 0x4C, 0x4, 1, .ro⟩
  , ⟨10, .btHoldMem, 0x50, 0x4, 1, .ro⟩
  , ⟨10, .btHoldIo, 0x54, 0x4, 1, .ro⟩
  , ⟨10, .btResCnt, 0x58, 0x4, 1, .ro⟩
  , ⟨10, .btRes, 0x400, 0x4, 256, .ro⟩ ]

/-- The registers of the link (Table LK-7) page. -/
def rowsLk : List RegRow :=
  [ ⟨11, .lkPctrl, 0x40, 0x4, 1, .rw 0x7807⟩
  , ⟨11, .lkPstat, 0x44, 0x4, 1, .ro⟩
  , ⟨11, .lkLstat, 0x80, 0x20, 4, .ro⟩
  , ⟨11, .lkRtt, 0x84, 0x20, 4, .ro⟩
  , ⟨11, .lkCorr, 0x88, 0x20, 4, .rc⟩
  , ⟨11, .lkUnc, 0x8C, 0x20, 4, .rc⟩
  , ⟨11, .lkReplay, 0x90, 0x20, 4, .rc⟩
  , ⟨11, .lkDoff, 0x94, 0x20, 4, .rc⟩
  , ⟨11, .lkPeerLo, 0x98, 0x20, 4, .plainRoLo⟩
  , ⟨11, .lkPeerHi, 0x9C, 0x20, 4, .plainRoHi⟩ ]

/-- The registers of the memory (Table MM-7) page. -/
def rowsMm : List RegRow :=
  [ ⟨12, .mmGddrLive, 0x40, 0x4, 1, .ro⟩
  , ⟨12, .mmGce, 0x44, 0x4, 1, .rc⟩
  , ⟨12, .mmGue, 0x48, 0x4, 1, .rc⟩
  , ⟨12, .mmWbcnt, 0x4C, 0x4, 1, .rc⟩
  , ⟨12, .mmLive, 0x80, 0x4, 4, .ro⟩
  , ⟨12, .mmPcfg, 0x90, 0x4, 4, .rw 0xF⟩
  , ⟨12, .mmImbal, 0xA0, 0x4, 4, .rc⟩
  , ⟨12, .mmHot, 0xB0, 0x4, 4, .ro⟩
  , ⟨12, .mmThrot, 0xC0, 0x4, 4, .rc⟩
  , ⟨12, .mmCe, 0xD0, 0x4, 4, .rc⟩
  , ⟨12, .mmUe, 0xE0, 0x4, 4, .rc⟩ ]

/-- The registers of the flash (Table MM-7) page. -/
def rowsFl : List RegRow :=
  [ ⟨13, .flPresent, 0x40, 0x4, 1, .ro⟩
  , ⟨13, .flUe, 0x44, 0x4, 1, .rc⟩
  , ⟨13, .flZonesLo, 0x48, 0x4, 1, .plainRoLo⟩
  , ⟨13, .flZonesHi, 0x4C, 0x4, 1, .plainRoHi⟩
  , ⟨13, .flQbaseLo, 0x80, 0x20, 4, .plainLo 0xFFFFFFFF⟩
  , ⟨13, .flQbaseHi, 0x84, 0x20, 4, .plainHi 0xFFFFFFFF⟩
  , ⟨13, .flQcfg, 0x88, 0x20, 4, .rw 0xFF⟩
  , ⟨13, .flTail, 0x8C, 0x20, 4, .rw 0xFFFFFFFF⟩
  , ⟨13, .flHead, 0x90, 0x20, 4, .ro⟩
  , ⟨13, .flFails, 0x94, 0x20, 4, .rc⟩ ]

/-- The registers of the mover (Table AT-7) page. -/
def rowsMv : List RegRow :=
  [ ⟨14, .mvStat, 0x40, 0x4, 1, .ro⟩
  , ⟨14, .mvQbaseLo, 0x80, 0x40, 4, .plainLo 0xFFFFFFFF⟩
  , ⟨14, .mvQbaseHi, 0x84, 0x40, 4, .plainHi 0xFFFFFFFF⟩
  , ⟨14, .mvPdtLo, 0x88, 0x40, 4, .plainLo 0xFFFFFFFF⟩
  , ⟨14, .mvPdtHi, 0x8C, 0x40, 4, .plainHi 0xFFFFFFFF⟩
  , ⟨14, .mvPbaseLo, 0x90, 0x40, 4, .plainLo 0xFFFFFFFF⟩
  , ⟨14, .mvPbaseHi, 0x94, 0x40, 4, .plainHi 0xFFFFFFFF⟩
  , ⟨14, .mvQcfg, 0x98, 0x40, 4, .rw 0x1FFF⟩
  , ⟨14, .mvTail, 0x9C, 0x40, 4, .rw 0xFFFFFFFF⟩
  , ⟨14, .mvHead, 0xA0, 0x40, 4, .ro⟩
  , ⟨14, .mvFails, 0xA4, 0x40, 4, .rc⟩
  , ⟨14, .mvNpage, 0xA8, 0x40, 4, .rw 0xFFFFFFF⟩ ]

/-- The registers of the input (Table IN-5) page. -/
def rowsIn : List RegRow :=
  [ ⟨15, .inStat, 0x40, 0x4, 1, .ro⟩
  , ⟨15, .inTrunc, 0x44, 0x4, 1, .rc⟩
  , ⟨15, .inUnder, 0x48, 0x4, 1, .rc⟩
  , ⟨15, .inQbaseLo, 0x80, 0x20, 4, .plainLo 0xFFFFFFFF⟩
  , ⟨15, .inQbaseHi, 0x84, 0x20, 4, .plainHi 0xFFFFFFFF⟩
  , ⟨15, .inQcfg, 0x88, 0x20, 4, .rw 0x3FF⟩
  , ⟨15, .inQstat, 0x8C, 0x20, 4, .ro⟩
  , ⟨15, .inHead, 0x90, 0x20, 4, .ro⟩
  , ⟨15, .inFails, 0x94, 0x20, 4, .rc⟩
  , ⟨15, .inDb, 0x98, 0x20, 4, .ro⟩ ]

/-- The registers of the matrix engine (Table ME-8) page. -/
def rowsMe : List RegRow :=
  [ ⟨16, .meCtrl, 0x40, 0x4, 1, .wo⟩
  , ⟨16, .meStat, 0x44, 0x4, 1, .ro⟩
  , ⟨16, .meFault, 0x48, 0x4, 1, .rc⟩
  , ⟨16, .meBankFill, 0x4C, 0x4, 1, .ro⟩
  , ⟨16, .meStepsLo, 0x50, 0x4, 1, .latchLo⟩
  , ⟨16, .meStepsHi, 0x54, 0x4, 1, .latchHi⟩
  , ⟨16, .meWait, 0x58, 0x4, 1, .rc⟩
  , ⟨16, .meTid, 0x80, 0x4, 16, .rw 0xFFFFFFFF⟩
  , ⟨16, .meProfile, 0x100, 0x4, 128, .rw 0xFFFFFF1F⟩ ]

/-- The registers of the special function (Table SF-5) page. -/
def rowsSf : List RegRow :=
  [ ⟨17, .sfStat, 0x40, 0x4, 1, .w1c 4⟩
  , ⟨17, .sfFault, 0x44, 0x4, 1, .rc⟩
  , ⟨17, .sfWait, 0x48, 0x4, 1, .rc⟩ ]

/-- The registers of the hand (Table HD-9) page. -/
def rowsHd : List RegRow :=
  [ ⟨18, .hdCfg, 0x40, 0x4, 1, .ro⟩
  , ⟨18, .hdStart, 0x44, 0x4, 1, .wo⟩
  , ⟨18, .hdFlogCnt, 0x48, 0x4, 1, .ro⟩
  , ⟨18, .hdIssueLo, 0x50, 0x4, 1, .latchLo⟩
  , ⟨18, .hdIssueHi, 0x54, 0x4, 1, .latchHi⟩
  , ⟨18, .hdNoready, 0x58, 0x4, 1, .rc⟩
  , ⟨18, .hdHeld, 0x5C, 0x4, 1, .rc⟩
  , ⟨18, .hdMttfull, 0x60, 0x4, 1, .rc⟩
  , ⟨18, .hdSlothold, 0x64, 0x4, 1, .rc⟩
  , ⟨18, .hdState, 0x80, 0x4, 8, .ro⟩
  , ⟨18, .hdEntry, 0x100, 0x4, 64, .rw 0xFFFC⟩
  , ⟨18, .hdElapsedLo, 0x200, 0x8, 64, .latchLo⟩
  , ⟨18, .hdElapsedHi, 0x204, 0x8, 64, .latchHi⟩
  , ⟨18, .hdFlog, 0x400, 0x4, 64, .ro⟩ ]

/-- The registers of the attention (Table AT-7) page. -/
def rowsAt : List RegRow :=
  [ ⟨19, .atSkip, 0x40, 0x4, 1, .ro⟩
  , ⟨19, .atSkips, 0x44, 0x4, 1, .rc⟩
  , ⟨19, .atZrow, 0x48, 0x4, 1, .rc⟩
  , ⟨19, .atProf, 0x80, 0x4, 16, .rw 0x3FFFF⟩ ]

/-- The registers of the stock (Table ST-8) page. -/
def rowsSt : List RegRow :=
  [ ⟨20, .stStat, 0x40, 0x4, 1, .ro⟩
  , ⟨20, .stFault, 0x44, 0x4, 1, .rc⟩
  , ⟨20, .stCursorLo, 0x48, 0x4, 1, .latchLo⟩
  , ⟨20, .stCursorHi, 0x4C, 0x4, 1, .latchHi⟩
  , ⟨20, .stFaddrLo, 0x50, 0x4, 1, .plainRoLo⟩
  , ⟨20, .stFaddrHi, 0x54, 0x4, 1, .plainRoHi⟩
  , ⟨20, .stPaddrLo, 0x58, 0x4, 1, .plainRoLo⟩
  , ⟨20, .stPaddrHi, 0x5C, 0x4, 1, .plainRoHi⟩
  , ⟨20, .stOutfull, 0x60, 0x4, 1, .rc⟩
  , ⟨20, .stReqfull, 0x64, 0x4, 1, .rc⟩
  , ⟨20, .stWhold, 0x68, 0x4, 1, .rc⟩
  , ⟨20, .stPoison, 0x6C, 0x4, 1, .rc⟩
  , ⟨20, .stEmpty, 0x80, 0x4, 1, .rc⟩
  , ⟨20, .stReghold, 0x84, 0x4, 1, .rc⟩
  , ⟨20, .stTrickwait, 0x88, 0x4, 1, .rc⟩
  , ⟨20, .stLinkwait, 0x8C, 0x4, 1, .rc⟩
  , ⟨20, .stSfrot, 0x90, 0x4, 1, .rc⟩
  , ⟨20, .stPagewalk, 0x94, 0x4, 1, .rc⟩
  , ⟨20, .stForeign, 0x98, 0x4, 1, .rc⟩
  , ⟨20, .stDb, 0xC0, 0x4, 8, .ro⟩
  , ⟨20, .stTokens, 0xE0, 0x4, 8, .ro⟩ ]

/-- The late log of the time base page: record n of eighth q has four words (Table MP-9). -/
def rowsTbLate : List RegRow :=
  (List.range 8).map (fun q => ⟨1, .tbLateLog, 0x280 + 0x180 * q, 4, 64, .ro⟩)

/-- The register rows of a page kind. -/
def rowsOf : Nat → List RegRow
  | 1 => rowsTb ++ rowsTbLate
  | 2 => rowsDl
  | 3 => rowsPi
  | 4 => rowsGrant
  | 5 => rowsEv
  | 6 => rowsCo
  | 7 => rowsRt
  | 8 => rowsHl
  | 9 => rowsPw
  | 10 => rowsBt
  | 11 => rowsLk
  | 12 => rowsMm
  | 13 => rowsFl
  | 14 => rowsMv
  | 15 => rowsIn
  | 16 => rowsMe
  | 17 => rowsSf
  | 18 => rowsHd
  | 19 => rowsAt
  | 20 => rowsSt
  | _ => []

/-- A register of a page: name, index within its row, access. -/
structure RegAt where
  reg : Reg
  idx : Nat
  acc : Acc
  deriving DecidableEq, Repr

/-- The register at an offset of a page of a kind, if its tables name one there. -/
def regAt (kind off : Nat) : Option RegAt :=
  (rowsOf kind).findSome? fun r =>
    if r.first ≤ off ∧ (off - r.first) % r.stride = 0 ∧ (off - r.first) / r.stride < r.count then
      some ⟨r.reg, (off - r.first) / r.stride + (if r.reg = .tbLateLog then 64 * ((r.first - 0x280) / 0x180) else 0), r.acc⟩
    else none

/-- A page of control space: kind, instance, offset of its first byte (Tables MP-7, MP-8). -/
structure PageAt where
  kind : Nat
  inst : Nat
  base : Nat
  deriving DecidableEq, Repr

/-- The arrays (R394), each with its place and the byte offset within it. -/
inductive ArrayAt where
  | meBank (t b off : Nat)
  | sfBank (t b off : Nat)
  | sfData (t off : Nat)
  | stBank (t b off : Nat)
  | imem (t off : Nat)
  | zones (h off : Nat)
  | dict (h off : Nat)
  deriving DecidableEq, Repr

/-- What an offset of control space reaches (R396, R403, R404). -/
inductive CtlAt where
  | page (p : PageAt) (off : Nat)
  | array (a : ArrayAt)
  | unmapped
  deriving DecidableEq, Repr

/-- The offset of a tile's block in control space (Table MP-7). -/
def tileBlock (t : Nat) : Nat := 0x1000000 + 0x80000 * t

/-- The pages and arrays of one tile, by offset in its block (Table MP-8). -/
def tileAt (t o : Nat) : CtlAt :=
  let p (k : Nat) : CtlAt := .page ⟨k, t, tileBlock t + 0x1000 * (k - 16)⟩ (o % 0x1000)
  if o < 0x1000 then p 16
  else if o < 0x2000 then p 17
  else if o < 0x3000 then p 18
  else if o < 0x4000 then p 19
  else if o < 0x5000 then p 20
  else if 0x10000 ≤ o ∧ o < 0x20000 then .array (.meBank t ((o - 0x10000) / 0x8000) (o % 0x8000))
  else if 0x20000 ≤ o ∧ o < 0x28000 then .array (.sfBank t ((o - 0x20000) / 0x4000) (o % 0x4000))
  else if 0x30000 ≤ o ∧ o < 0x41000 then .array (.sfData t (o - 0x30000))
  else if 0x50000 ≤ o ∧ o < 0x60000 then .array (.stBank t ((o - 0x50000) / 0x8000) (o % 0x8000))
  else if 0x60000 ≤ o ∧ o < 0x70000 then .array (.imem t (o - 0x60000))
  else .unmapped

/-- What an offset of control space reaches (Table MP-7). -/
def ctlAt (o : Nat) : CtlAt :=
  let p (k i : Nat) : CtlAt := .page ⟨k, i, o - o % 0x1000⟩ (o % 0x1000)
  if o < 0x3000 then p (o / 0x1000 + 1) 0
  else if o < 0x5000 then p 4 (o / 0x1000 - 3)
  else if o < 0xB000 then p (o / 0x1000) 0
  else if 0x10000 ≤ o ∧ o < 0x16000 then p 11 ((o - 0x10000) / 0x1000)
  else if 0x100000 ≤ o ∧ o < 0x300000 then
    let h := (o - 0x100000) / 0x100000
    let r := (o - 0x100000) % 0x100000
    if r < 0x4000 then p (12 + r / 0x1000) h
    else if 0x10000 ≤ r ∧ r < 0x1F000 then .array (.zones h (r - 0x10000))
    else .unmapped
  else if 0x1000000 ≤ o ∧ o < 0x1000000 + 0x80000 * 144 then
    tileAt ((o - 0x1000000) / 0x80000) ((o - 0x1000000) % 0x80000)
  else if 0x8000000 ≤ o ∧ o < 0xC000000 then .array (.dict ((o - 0x8000000) / 0x2000000) ((o - 0x8000000) % 0x2000000))
  else .unmapped

/-- The offset of a page of a kind and instance (Tables MP-7, MP-8). -/
def pageBase (kind inst : Nat) : Nat :=
  if kind ≤ 3 then 0x1000 * (kind - 1)
  else if kind = 4 then 0x3000 + 0x1000 * inst
  else if kind ≤ 10 then 0x1000 * kind
  else if kind = 11 then 0x10000 + 0x1000 * inst
  else if kind ≤ 15 then 0x100000 + 0x100000 * inst + 0x1000 * (kind - 12)
  else tileBlock inst + 0x1000 * (kind - 16)

/-- Reset values of the stored registers whose Reset is not 0 (`PW_LIMIT`, `PW_THERM`, `LK_PCTRL`, `HL_DEADLINE`):
by control-space offset. -/
def regReset (off : Nat) : Word :=
  if off = 0x9048 then 1800
  else if off = 0x9058 then 0x645F
  else if off = 0x8048 then 4000
  else if 0x10000 ≤ off ∧ off < 0x16000 ∧ off % 0x1000 = 0x40 then 0x2804
  else 0

/-- Registers through which a hand may submit work (R326): the tail registers of the queues. -/
def isTailReg : Reg → Bool
  | .mvTail => true
  | .flTail => true
  | .hlWtail => true
  | _ => false

end Sys2Proof.Machine
end

