-- ==== Sys2Proof/Machine/Ops.lean ====
section
/-! DEFINITION. The named operations over the state: the memory of the device, control space's stored words, events,
partitions and grants, and how a command's effect is committed. -/

namespace Sys2Proof.Machine

/-! ## Memory operations -/

/-- Write one byte: the value that an unlisted address reads as removes the entry. -/
def putByte (c : List Host.Cell) (a : Nat) (b : Byte) : List Host.Cell := tset (0 : Byte) c a b

/-- Write bytes at rising addresses. -/
def putBytes (c : List Host.Cell) (a : Nat) : List Byte → List Host.Cell
  | [] => c
  | b :: r => putBytes (putByte c a b) (a + 1) r

/-- Entries of a table outside a range of keys. -/
def dropRange {α : Type} (t : Tbl α) (lo n : Nat) : Tbl α :=
  t.filter (fun p => decide (p.1 < lo) || decide (lo + n ≤ p.1))

/-- The effect of one memory operation. -/
def applyOp (m : Mem) : MemOp → Mem
  | .write a bs => { m with cells := putBytes m.cells a bs }
  | .poison w => { m with poison := setAdd m.poison w }
  | .unpoison w => { m with poison := setDel m.poison w }
  | .mend w => { m with err1 := setDel m.err1 w, err2 := setDel m.err2 w }
  | .tag s e => { m with tags := tset 0 m.tags s e }
  | .clear lo n =>
    { m with
      cells := dropRange m.cells lo n
      poison := m.poison.filter (fun w => decide (8 * w < lo) || decide (lo + n ≤ 8 * w))
      err1 := m.err1.filter (fun w => decide (8 * w < lo) || decide (lo + n ≤ 8 * w))
      err2 := m.err2.filter (fun w => decide (8 * w < lo) || decide (lo + n ≤ 8 * w))
      tags := m.tags.filter (fun p => decide (64 * p.1 < lo) || decide (lo + n ≤ 64 * p.1)) }
  | .current q e => { m with cur := tset 0 m.cur q e }
  | .baseline q e => { m with base := tset 0 m.base q e }

/-- The effect of operations in order. -/
def applyOps (m : Mem) : List MemOp → Mem
  | [] => m
  | o :: r => applyOps (applyOp m o) r

/-- A rising list of numbers. -/
def rising : List Nat → Bool
  | [] => true
  | [_] => true
  | a :: b :: r => decide (a < b) && rising (b :: r)

/-- The canonical form of memory: bytes and tags in rising order with no entry equal to what an unlisted one reads as,
poisoned words in rising order. -/
def Mem.wf (m : Mem) : Bool := twf (0 : Byte) m.cells && twf 0 m.tags && rising m.poison

/-- Perform a memory operation and note it in the command's log. -/
def memDo (o : MemOp) (d : Dev) : Dev := { d with mem := applyOp d.mem o, log := d.log ++ [o] }

/-- Perform memory operations in order. -/
def memDoAll (l : List MemOp) (d : Dev) : Dev := l.foldl (fun a o => memDo o a) d

/-! ## Committing a command's effect -/

/-- The count with its cycle kept in the trick (R20). -/
def normTime (t : TimeSt) : TimeSt := { t with phase := t.phase % 768 }

/-- A duty kept from 8 to 16 (R353, R356). -/
def clampDuty (n : Nat) : Nat := max 8 (min 16 n)

/-- The power state with both duties kept from 8 to 16. -/
def normPower (p : PowerSt) : PowerSt := { p with pduty := clampDuty p.pduty, tduty := clampDuty p.tduty }

/-- The device at the start of a command: no memory operation and no reply yet. -/
def fresh (d : Dev) : Dev := { d with log := [], body := { d.body with replies := [] } }

/-- Commit the body and the memory operations of an effect; the count, power and life cycle stand. -/
def commitBody (s : State) (e : Dev) : State :=
  { s with dev := { s.dev with mem := applyOps s.dev.mem e.log, log := e.log, body := e.body } }

/-- Commit as `commitBody` does, and the count. -/
def commitTime (s : State) (e : Dev) : State :=
  { s with dev := { s.dev with mem := applyOps s.dev.mem e.log, log := e.log, body := e.body, time := normTime e.time } }

/-- Commit as `commitBody` does, and power. -/
def commitPower (s : State) (e : Dev) : State :=
  { s with dev := { s.dev with mem := applyOps s.dev.mem e.log, log := e.log, body := e.body,
                               power := normPower e.power } }

/-- Commit as `commitBody` does, and the life cycle. -/
def commitSec (s : State) (e : Dev) : State :=
  { s with dev := { s.dev with mem := applyOps s.dev.mem e.log, log := e.log, body := e.body, sec := e.sec } }

/-- Commit everything: for the resets. -/
def commitAll (s : State) (e : Dev) : State :=
  { s with dev := { time := normTime e.time, power := normPower e.power, sec := e.sec,
                    mem := applyOps s.dev.mem e.log, log := e.log, body := e.body } }

/-- The outcome of every command in this model: a next state. -/
abbrev Out := Host.Outcome State Fault Refusal

/-- A command that changes the body and memory only. -/
def run (f : Dev → Dev) (s : State) : Out := .next (commitBody s (f (fresh s.dev)))

/-- A command that also moves the count. -/
def runTime (f : Dev → Dev) (s : State) : Out := .next (commitTime s (f (fresh s.dev)))

/-- A command that also changes power. -/
def runPower (f : Dev → Dev) (s : State) : Out := .next (commitPower s (f (fresh s.dev)))

/-- A command that also changes the life cycle. -/
def runSec (f : Dev → Dev) (s : State) : Out := .next (commitSec s (f (fresh s.dev)))

/-- A command that may change everything. -/
def runAll (f : Dev → Dev) (s : State) : Out := .next (commitAll s (f (fresh s.dev)))

/-- A command of a block on main power: nothing happens while main power is off (R350). -/
def runMain (f : Dev → Dev) (s : State) : Out := run (fun d => if d.power.mainOn then f d else d) s

/-! ## Pieces of the state -/

def modBody (f : Body → Body) (d : Dev) : Dev := { d with body := f d.body }
def reply (r : Reply) (d : Dev) : Dev := modBody (fun b => { b with replies := b.replies ++ [r] }) d

def getTile (d : Dev) (t : Nat) : Tile := tget Tile.z d.body.tiles t
def setTile (t : Nat) (x : Tile) (d : Dev) : Dev := modBody (fun b => { b with tiles := tset Tile.z b.tiles t x }) d
def modTile (t : Nat) (f : Tile → Tile) (d : Dev) : Dev := setTile t (f (getTile d t)) d
def getMe (d : Dev) (t : Nat) : MeSt := (getTile d t).me
def setMe (t : Nat) (x : MeSt) (d : Dev) : Dev := modTile t (fun y => { y with me := x }) d
def modMe (t : Nat) (f : MeSt → MeSt) (d : Dev) : Dev := setMe t (f (getMe d t)) d
def getSf (d : Dev) (t : Nat) : SfSt := (getTile d t).sf
def setSf (t : Nat) (x : SfSt) (d : Dev) : Dev := modTile t (fun y => { y with sf := x }) d
def modSf (t : Nat) (f : SfSt → SfSt) (d : Dev) : Dev := setSf t (f (getSf d t)) d
def getSt (d : Dev) (t : Nat) : StSt := (getTile d t).st
def setSt (t : Nat) (x : StSt) (d : Dev) : Dev := modTile t (fun y => { y with st := x }) d
def modSt (t : Nat) (f : StSt → StSt) (d : Dev) : Dev := setSt t (f (getSt d t)) d

/-- The key of a hand in the table of hands. -/
def handKey (t h : Nat) : Nat := 64 * t + h
def getHand (d : Dev) (t h : Nat) : HandSt := tget HandSt.z d.body.hands (handKey t h)
def setHand (t h : Nat) (x : HandSt) (d : Dev) : Dev :=
  modBody (fun b => { b with hands := tset HandSt.z b.hands (handKey t h) x }) d
def modHand (t h : Nat) (f : HandSt → HandSt) (d : Dev) : Dev := setHand t h (f (getHand d t h)) d

def getEighth (d : Dev) (q : Nat) : EighthSt := tget EighthSt.z d.body.eighths q
def setEighth (q : Nat) (x : EighthSt) (d : Dev) : Dev :=
  modBody (fun b => { b with eighths := tset EighthSt.z b.eighths q x }) d
def modEighth (q : Nat) (f : EighthSt → EighthSt) (d : Dev) : Dev := setEighth q (f (getEighth d q)) d
def getJob (d : Dev) (q : Nat) : Job := tget Job.z d.body.jobs q
def setJob (q : Nat) (x : Job) (d : Dev) : Dev := modBody (fun b => { b with jobs := tset Job.z b.jobs q x }) d
def modJob (q : Nat) (f : Job → Job) (d : Dev) : Dev := setJob q (f (getJob d q)) d
def getPort (d : Dev) (p : Nat) : PortSt := tget PortSt.z d.body.ports p
def modPort (p : Nat) (f : PortSt → PortSt) (d : Dev) : Dev :=
  modBody (fun b => { b with ports := tset PortSt.z b.ports p (f (tget PortSt.z b.ports p)) }) d
/-- Link i of port p has the key 4p + i (R213). -/
def getLink (d : Dev) (l : Nat) : LinkSt := tget LinkSt.z d.body.links l
def modLink (l : Nat) (f : LinkSt → LinkSt) (d : Dev) : Dev :=
  modBody (fun b => { b with links := tset LinkSt.z b.links l (f (tget LinkSt.z b.links l)) }) d
def getPage (d : Dev) (base : Nat) : Page := tget Page.z d.body.pages (base / 0x1000)
def modPage (base : Nat) (f : Page → Page) (d : Dev) : Dev :=
  modBody (fun b => { b with pages := tset Page.z b.pages (base / 0x1000) (f (tget Page.z b.pages (base / 0x1000))) }) d
def modHl (f : HlSt → HlSt) (d : Dev) : Dev := modBody (fun b => { b with hl := f b.hl }) d
def modPower (f : PowerSt → PowerSt) (d : Dev) : Dev := { d with power := f d.power }

/-- Core cycles since the count began: the trick and the position in it. -/
def now (d : Dev) : Nat := d.time.cycle

/-- Draw a value that the spec leaves open: a free value by how many have been drawn. -/
def draw (d : Dev) : Dword × Dev :=
  (Config.fresh d.body.free, modBody (fun b => { b with free := b.free + 1 }) d)

/-! ## Stored words of control space -/

/-- The stored word at a control-space offset. -/
def ctlGet (d : Dev) (off : Nat) : Word := tget (regReset off) d.body.ctl (off / 4)
def ctlNat (d : Dev) (off : Nat) : Nat := (ctlGet d off).toNat
def ctlSet (off : Nat) (v : Word) (d : Dev) : Dev :=
  modBody (fun b => { b with ctl := tset (regReset off) b.ctl (off / 4) v }) d
def ctlSetN (off v : Nat) (d : Dev) : Dev := ctlSet off (BitVec.ofNat 32 v) d
/-- Add to a counter that saturates at 0xFFFF_FFFF. -/
def ctlAdd (off n : Nat) (d : Dev) : Dev := ctlSet off (satAdd32 (ctlGet d off) n) d
/-- A pair of stored words as one 64-bit number. -/
def ctlPair (d : Dev) (off : Nat) : Nat := ctlNat d off + 2 ^ 32 * ctlNat d (off + 4)
def ctlSetPair (off v : Nat) (d : Dev) : Dev := ctlSetN (off + 4) (v / 2 ^ 32) (ctlSetN off (v % 2 ^ 32) d)

/-- The offset of a register of a page: kind, instance, offset within the page. -/
def regOff (kind inst off : Nat) : Nat := pageBase kind inst + off

/-! ## Events (R338 to R341, R402) -/

/-- The source that bit `bit` of a page raises (Table MP-6, Table EV-1). -/
def eventSource (kind inst bit : Nat) : Option Nat :=
  match kind with
  | 1 => if bit = 0 then some 3 else if bit = 1 then some 511 else none
  | 2 => if bit = 0 then some 2 else if 8 ≤ bit ∧ bit < 16 then some (96 + bit - 8) else none
  | 3 => if bit = 0 then some 1 else none
  | 6 => if bit < 8 then some (80 + bit) else none
  | 8 => if bit < 8 then some (170 + bit) else none
  | 9 => if bit < 8 then some (384 + bit) else none
  | 10 => if bit < 3 then some (448 + bit) else none
  | 11 => if bit < 4 then some (104 + 4 * inst + bit) else if bit < 8 then some (128 + 4 * inst + bit - 4) else none
  | 12 => if bit < 4 then some (152 + 4 * inst + bit) else if bit < 8 then some (160 + 4 * inst + bit - 4)
          else if bit = 8 then some (168 + inst) else none
  | 13 => if bit < 4 then some (32 + 4 * inst + bit) else none
  | 14 => if bit < 4 then some (24 + 4 * inst + bit) else none
  | 15 => if bit < 4 then some (16 + 4 * inst + bit) else if bit < 8 then some (88 + 4 * inst + bit - 4) else none
  | 16 => if bit = 0 then some (72 + inst / 18) else none
  | 17 => if bit = 0 then some (64 + inst / 18) else none
  | 18 => if bit = 0 then some (48 + inst / 18) else none
  | 20 => if bit = 0 then some (56 + inst / 18) else if bit = 1 then some (40 + inst / 18) else none
  | _ => none

/-- Source 0 and the reserved sources never become pending (R338, Table EV-1, Table PW-7, R386). -/
def sourceReserved (n : Nat) : Bool :=
  n == 0 || (decide (4 ≤ n) && decide (n ≤ 15)) || (decide (178 ≤ n) && decide (n ≤ 383))
    || (decide (392 ≤ n) && decide (n ≤ 447)) || (decide (451 ≤ n) && decide (n ≤ 510))

/-- What an event does to its source (R340): IDLE becomes PENDING, an IN_SERVICE source is re-armed, the counter gains
one up to 255. -/
def Source.hit (x : Source) : Source :=
  { x with
    cnt := min 255 (x.cnt + 1)
    state := if x.state = .idle then .pending else x.state
    rearm := if x.state = .inService then true else x.rearm }

/-- Raise an event at a source of the event controller (R340). -/
def raise (n : Nat) (d : Dev) : Dev :=
  if sourceReserved n then d
  else modBody (fun b =>
    { b with ev := { b.ev with srcs := tset Source.z b.ev.srcs n (tget Source.z b.ev.srcs n).hit } }) d

/-- A block's event (R402): it sets its IRQ_RAW bit and, unless masked, raises one event. -/
def event (kind inst bit : Nat) (d : Dev) : Dev :=
  let base := pageBase kind inst
  let d := modPage base (fun p => { p with raw := p.raw ||| BitVec.ofNat 32 (2 ^ bit) }) d
  if bitAt (getPage d base).mask.toNat bit then d
  else match eventSource kind inst bit with
    | some n => raise n d
    | none => d

/-! ## Access errors (R397, R398) -/

/-- The requester code of Table MP-4. -/
def Req.code : Req → Nat
  | .core c => c.val
  | .debug => 4
  | .host => 5
  | .hand _ _ => 6
  | .loader => 7
  | .refill _ => 8
  | .remote _ => 9

/-- The key of a requester's latches: one set for each requester of Table MP-4 and for each hand (R391). -/
def Req.key : Req → Nat
  | .hand t h => 16 + 64 * t.val + h.val
  | r => Req.code r

/-- Log an access error in a page's ERR_LOG (R398): the first record stands, later ones count and set MORE. -/
def logError (base cause req off : Nat) (write : Bool) (d : Dev) : Dev :=
  modPage base (fun p =>
    let e := p.err.toNat
    let cnt := bits e 31 22
    let v := if bits e 5 0 = 0 then
        cause + 64 * req + 1024 * (off / 4 % 1024) + (if write then 2 ^ 20 else 0) + 2 ^ 22
      else e % 2 ^ 21 + 2 ^ 21 + 2 ^ 22 * min 1023 (cnt + 1)
    { p with err := BitVec.ofNat 32 v }) d

/-! ## Layout of memory (R16, R17, R190, R206) -/

/-- The number of set bits of the low n bits. -/
def popcountN (n v : Nat) : Nat := ((List.range n).filter (fun i => bitAt v i)).length

/-- The live channels of an HBM stack (R191). -/
def hbmMask (d : Dev) (s : Nat) : Nat := tget hbmLiveZ d.body.board.hbmLive s
def stackSize (d : Dev) (s : Nat) : Nat := Config.hbmChan * popcountN 32 (hbmMask d s)
def gddrSize (d : Dev) (g : Nat) : Nat := if bitAt d.body.board.gddrLive g then Config.gddrDev else 0
/-- The range of a flash pair: 240 GiB for each fitted channel (R206). -/
def pairSize (d : Dev) (q : Nat) : Nat :=
  Config.flashChan * (b2n (bitAt d.body.board.flashFitted (2 * q)) + b2n (bitAt d.body.board.flashFitted (2 * q + 1)))

/-- Find the piece of a region that holds an offset: pieces of given sizes one after the other, from index i at
`base`. Answers the piece's index and start. -/
def findPiece (size : Nat → Nat) (off : Nat) : Nat → Nat → Nat → Option (Nat × Nat)
  | 0, _, _ => none
  | n + 1, i, base =>
    if off < base + size i then some (i, base) else findPiece size off n (i + 1) (base + size i)

/-- What a local offset reaches (R16, R17). -/
inductive Home where
  | hbm (stack base : Nat)
  | gddr (dev base : Nat)
  | sram (tile off : Nat)
  | spare (win off : Nat)
  | ctl (off : Nat)
  | flash (pair base : Nat)
  | host (h : Nat)
  | none
  deriving DecidableEq, Repr

/-- The home of a local offset (R16, R17, R190, R206). -/
def homeOf (d : Dev) (a : Nat) : Home :=
  if a < 0x006000000000 then
    match findPiece (stackSize d) a 8 0 0 with
    | some (s, b) => .hbm s b
    | none => .none
  else if Config.gddrBase ≤ a ∧ a < 0x011200000000 then
    match findPiece (gddrSize d) a 24 0 Config.gddrBase with
    | some (g, b) => .gddr g b
    | none => .none
  else if Config.sramBase ≤ a ∧ a < 0x018028000000 then
    let n := (a - Config.sramBase) / Config.window
    let o := (a - Config.sramBase) % Config.window
    if Config.sramSize ≤ o then .none else if n < 144 then .sram n o else .spare n o
  else if Config.ctlBase ≤ a ∧ a < 0x020000000000 then .ctl (a - Config.ctlBase)
  else if Config.flashBase ≤ a ∧ a < 0x060000000000 then
    match findPiece (pairSize d) a 8 0 Config.flashBase with
    | some (q, b) => .flash q b
    | none => .none
  else if Config.hostBase ≤ a ∧ a < 0x200000000000 then .host (a - Config.hostBase)
  else .none

/-- The kind of region of a home, for checking that a range stays within one. -/
def Home.kind : Home → Nat
  | .hbm _ _ => 1
  | .gddr _ _ => 2
  | .sram t _ => 16 + t
  | .spare w _ => 16 + w
  | .ctl _ => 4
  | .flash _ _ => 5
  | .host _ => 6
  | .none => 0

/-- The home of a range of n bytes: of its first byte, if every byte lies in the same mapped region, else none (R16). -/
def homeRange (d : Dev) (a n : Nat) : Home :=
  let x := homeOf d a
  if x.kind ≠ 0 ∧ (homeOf d (a + n - 1)).kind = x.kind ∧ 0 < n then x else .none

/-- The eighth that owns what a home reaches (R322). -/
def Home.eighth : Home → Option Nat
  | .hbm s _ => some s
  | .gddr g _ => some (g / 3)
  | .sram t _ => some (t / 18)
  | .flash q _ => some q
  | _ => Option.none

/-- The stream tier of a home (Table ST-5). -/
def Home.tier : Home → Nat
  | .hbm _ _ => 0
  | .gddr _ _ => 1
  | .flash _ _ => 2
  | .host _ => 3
  | _ => 4

/-- Local offset of byte o of a tile's SRAM (R17). -/
def sramAddr (t o : Nat) : Nat := Config.sramBase + Config.window * t + o

/-! ## The interleave (R192, R193) -/

/-- Table MM-2's rotations. -/
def rotOf : Nat → List Nat
  | 0 => [0, 1, 2, 3, 0] | 1 => [1, 0, 1, 3, 4] | 2 => [2, 3, 4, 2, 0] | 3 => [3, 3, 0, 1, 4]
  | 4 => [4, 2, 2, 0, 1] | 5 => [0, 4, 1, 4, 2] | 6 => [1, 3, 4, 0, 3] | 7 => [2, 0, 3, 3, 1]
  | 8 => [3, 1, 2, 4, 2] | 9 => [4, 0, 3, 1, 1] | 10 => [0, 2, 0, 4, 3] | 11 => [1, 4, 3, 0, 1]
  | 12 => [2, 2, 4, 1, 3] | 13 => [3, 0, 4, 0, 2] | 14 => [4, 1, 0, 2, 0] | _ => [0, 3, 2, 1, 2]

/-- hash5 of R192. -/
def hash5 (q seed : Nat) : Nat :=
  (List.range 5).foldl (fun h f =>
    let x := (q / 2 ^ (5 * f)) % 32
    let k := getAt 0 (rotOf seed) f
    h ^^^ ((x * 2 ^ k + x / 2 ^ (5 - k)) % 32)) 0

/-- place of R192: the live channel and the byte within that channel. -/
def placeAt (off base nc seed : Nat) : Nat × Nat :=
  let b := (off - base) / 256
  let q := b / nc
  ((b % nc + hash5 q seed) % nc, q * 256 + off % 256)

/-- The k-th set bit of a mask of 32. -/
def nthLive (mask k : Nat) : Nat := getAt 0 ((List.range 32).filter (fun i => bitAt mask i)) k

/-- The hash seed of the partition that owns an eighth (R194): MM_PCFG.HSEED of its lowest eighth in that half. -/
def seedOf (d : Dev) (q : Nat) : Nat :=
  let e := getEighth d q
  let lo := if e.used then max e.lowest (4 * (q / 4)) else q
  ctlNat d (regOff 12 (lo / 4) (0x90 + 4 * (lo % 4))) % 16

/-- The channel of a local offset: HBM stack s channel c is 32s + c, GDDR7 device g channel c is 256 + 4g + c. -/
def channelOf (d : Dev) (a : Nat) : Option Nat :=
  match homeOf d a with
  | .hbm s b => some (32 * s + nthLive (hbmMask d s) (placeAt a b (popcountN 32 (hbmMask d s)) (seedOf d s)).1)
  | .gddr g b => some (256 + 4 * g + (placeAt a b 4 (seedOf d (g / 3))).1)
  | _ => none

/-! ## Reading and writing bytes (R47, R194, R200 to R202, R207) -/

/-- The key index of a home: memory keys of eighths are 0 to 7, flash keys 8 to 15; SRAM has none (R202). -/
def Home.key : Home → Option Nat
  | .hbm s _ => some s
  | .gddr g _ => some (g / 3)
  | .flash q _ => some (8 + q)
  | _ => Option.none

/-- The epoch that a sector was written under, and the epoch in force at it. -/
def epochs (d : Dev) (k a : Nat) : Nat × Nat :=
  let t := tget 0 d.mem.tags (a / 64)
  (if t = 0 then tget 0 d.mem.base k else t - 1, tget 0 d.mem.cur k)

/-- Zones are numbered in zone order within a pair; the zone of a flash home and the byte within it (R206). -/
def zoneOf (pair base a : Nat) : Nat × Nat := (2048 * pair + (a - base) / Config.zoneSize, (a - base) % Config.zoneSize)

/-- The byte at a local offset of the device's own memory. -/
def readByte (d : Dev) (a : Nat) : Byte :=
  let h := homeOf d a
  let raw := tget (0 : Byte) d.mem.cells a
  let dead := match h with
    | .flash q b => let z := zoneOf q b a; decide ((tget Zone.z d.body.zones z.1).ptr ≤ z.2)
    | _ => false
  if dead then 0
  else match h.key with
    | none => raw
    | some k => let e := epochs d k a; if e.1 = e.2 then raw else Config.staleByte a e.1 e.2

/-- n bytes at a local offset. -/
def readBytes (d : Dev) (a n : Nat) : List Byte := (List.range n).map (fun i => readByte d (a + i))
def readNat (d : Dev) (a n : Nat) : Nat := leNat (readBytes d a n)

/-- The 8-byte words over which one code is computed: a word of SRAM (R47), a sector of HBM or GDDR7 (R201), 1 KiB of
flash (R207). -/
def Home.code : Home → Nat
  | .hbm _ _ => 8
  | .gddr _ _ => 8
  | .flash _ _ => 128
  | _ => 1

/-- An 8-byte word reads as poisoned: it holds poison, or its code finds an error that it cannot correct (R47, R201,
R207). -/
def wordPoison (d : Dev) (w : Nat) : Bool :=
  d.mem.poison.contains w || d.mem.err2.any (fun e => let n := (homeOf d (8 * e)).code; e / n == w / n)

/-- The 8-byte words that a range touches. -/
def wordsOf (a n : Nat) : List Nat := if n = 0 then [] else (List.range ((a + n - 1) / 8 - a / 8 + 1)).map (fun i => a / 8 + i)

/-- The words of a range that read as poisoned, by index from the range's first word. -/
def poisonIn (d : Dev) (a n : Nat) : List Nat :=
  ((wordsOf a n).filter (wordPoison d)).map (fun w => w - a / 8)
def poisoned (d : Dev) (a n : Nat) : Bool := (wordsOf a n).any (wordPoison d)

/-- The correctable and uncorrectable counters of a channel, by offset, and the MM_UE event (R201). -/
def ceCounter (c : Nat) : Nat :=
  if c < 256 then regOff 12 (c / 128) (0xD0 + 4 * (c / 32 % 4)) else regOff 12 ((c - 256) / 48) 0x44
def ueCounter (c : Nat) : Nat :=
  if c < 256 then regOff 12 (c / 128) (0xE0 + 4 * (c / 32 % 4)) else regOff 12 ((c - 256) / 48) 0x48
def ueEvent (c : Nat) (d : Dev) : Dev :=
  if c < 256 then event 12 (c / 128) (4 + c / 32 % 4) d else event 12 ((c - 256) / 48) 8 d

/-- What the code finds on one sector read of a channel is counted (R201). -/
def countFound (c : Nat) (x : Ecc) (d : Dev) : Dev :=
  match x with
  | .clean => d
  | .corrected => ctlAdd (ceCounter c) 1 d
  | .uncorrectable => ueEvent c (ctlAdd (ueCounter c) 1 d)

/-- What the code of a sector of HBM or GDDR7 finds on the errors that memory holds. -/
def sectorErr (d : Dev) (s : Nat) : Ecc :=
  if d.mem.err2.any (fun w => w / 8 == s) then .uncorrectable
  else if d.mem.err1.any (fun w => w / 8 == s) then .corrected
  else .clean

/-- The sectors of a range that hold an error, each once. -/
def errSectors (d : Dev) (a n : Nat) : List Nat :=
  (((d.mem.err1 ++ d.mem.err2).map (· / 8)).eraseDups).filter (fun s => overlaps (64 * s) 64 a n)

/-- A read corrects what the code can correct and counts it: single-bit errors of tile SRAM (R47), corrected and
uncorrectable sectors of HBM and GDDR7 (R201), uncorrectable reads of flash (R207). -/
def noteRead (a n : Nat) (d : Dev) : Dev :=
  match homeOf d a with
  | .sram t _ =>
    let k := ((wordsOf a n).filter (fun w => d.mem.err1.contains w)).length
    if k = 0 then d else modTile t (fun x => { x with ce := x.ce + k }) d
  | .hbm _ _ => (errSectors d a n).foldl (fun x s => countFound ((channelOf d (64 * s)).getD 0) (sectorErr d s) x) d
  | .gddr _ _ => (errSectors d a n).foldl (fun x s => countFound ((channelOf d (64 * s)).getD 0) (sectorErr d s) x) d
  | .flash p _ =>
    if d.mem.err2.any (fun w => overlaps (w / 128 * 1024) 1024 a n) then ctlAdd (regOff 13 (p / 4) 0x44) 1 d else d
  | _ => d

/-- A write that covers a word of tile SRAM, or a sector of HBM or GDDR7, in part reads it first, and what its code finds
is counted (R47, R200, R201). -/
def noteParts (a n : Nat) (d : Dev) : Dev :=
  let u := 8 * (homeOf d a).code
  if n ≤ u then noteRead a (if n % u = 0 ∧ a % u = 0 then 0 else n) d
  else noteRead a (if a % u = 0 then 0 else u - a % u) (noteRead (a + n - (a + n) % u) ((a + n) % u) d)

/-- The operations that write part of one sector of encrypted memory: stale bytes of a sector written under another
epoch stay what they read as, and the sector takes the epoch in force. -/
def sectorOps (d : Dev) (k a n : Nat) : List MemOp :=
  let s := a / 64
  let e := epochs d k a
  let tag := if e.2 = tget 0 d.mem.base k then 0 else e.2 + 1
  if e.1 = e.2 then []
  else (if n = 64 then [] else [.write (64 * s) (readBytes d (64 * s) 64)]) ++ [.tag s tag]

/-- The poison left by a write: a write of a whole 8-byte word of SRAM, or of a whole sector of HBM or GDDR7, clears
it; a narrower write keeps it, and turns an error that its read cannot correct into poison (R47, R200, R201). -/
def poisonOps (d : Dev) (h : Home) (a n : Nat) : List MemOp :=
  let k := h.code
  let units := ((wordsOf a n).map (· / k)).eraseDups
  (units.map (fun u =>
    let ws := (List.range k).map (fun i => u * k + i)
    let err (w : Nat) : Bool := d.mem.err1.contains w || d.mem.err2.contains w
    if a ≤ 8 * (u * k) ∧ 8 * (u * k) + 8 * k ≤ a + n then
      (ws.map (fun w => (if d.mem.poison.contains w then [MemOp.unpoison w] else []) ++ (if err w then [MemOp.mend w] else []))).flatten
    else if ws.any (fun w => d.mem.err2.contains w) then
      (ws.map (fun w => MemOp.poison w :: (if err w then [MemOp.mend w] else []))).flatten
    else (ws.filter err).map MemOp.mend)).flatten

/-- The parts of a range cut at 64-byte boundaries: at most `fuel` of them. -/
def sectorCuts : Nat → Nat → Nat → List (Nat × Nat)
  | 0, _, _ => []
  | f + 1, a, n =>
    if n = 0 then []
    else let m := min n (64 - a % 64); (a, m) :: sectorCuts f (a + m) (n - m)

/-- Write bytes at a local offset of the device's own memory, without marks (R47, R200, R202). -/
def writeRaw (a : Nat) (bs : List Byte) (d : Dev) : Dev :=
  let h := homeOf d a
  let n := bs.length
  let so := match h.key with
    | none => []
    | some k => ((sectorCuts (n + 1) a n).map (fun c => sectorOps d k c.1 c.2)).flatten
  memDoAll (so ++ poisonOps d h a n ++ [.write a bs]) d

/-- Mark a word poisoned. In HBM and GDDR7 the whole sector is stored as poisoned (R201). -/
def poisonWord (w : Nat) (d : Dev) : Dev :=
  match homeOf d (8 * w) with
  | .sram _ _ => memDo (.poison w) d
  | .spare _ _ => memDo (.poison w) d
  | _ => memDoAll ((List.range 8).map (fun i => MemOp.poison (w / 8 * 8 + i))) d

/-! ## Placement windows (R203, R204) -/

/-- The bit of the dirty bitmap for a write at a local offset of a partition: window's bit and the bitmap's address. -/
def dirtyBit (dl : Deal) (a : Nat) : Option Nat :=
  dl.windows.findSome? fun w =>
    if w.writeback ∧ w.work % 2 ^ 49 ≤ a ∧ a < w.work % 2 ^ 49 + 65536 * w.len then
      some (w.bitoff + (a - w.work % 2 ^ 49) / 4096)
    else none

/-- Mark one block dirty with an 8-byte OR, unless it is among the 4,096 blocks the half most recently marked (R204). -/
def markBlock (q a : Nat) (d : Dev) : Dev :=
  let dl := (getJob d q).deal
  match dirtyBit dl a with
  | none => d
  | some bit =>
    let h := (((homeOf d a).eighth).getD q) / 4
    let blk := a / 4096
    let recent := tget [] d.body.marked h
    if recent.contains blk then d
    else
      let w := dl.dbase % 2 ^ 49 + bit / 64 * 8
      let v := readNat d w 8
      let d := writeRaw w (leBytes 8 (v ||| 2 ^ (bit % 64))) d
      modBody (fun b => { b with marked := tset [] b.marked h ((blk :: recent).take 4096) }) d

/-- The lowest eighth of the partition that owns an eighth, if one does. -/
def ownerOf (d : Dev) (q : Nat) : Option Nat := let e := getEighth d q; if e.used then some e.lowest else none

/-- The 4 KiB blocks that a range touches, by first address. -/
def blocksOf (a n : Nat) : List Nat :=
  if n = 0 then [] else (List.range ((a + n - 1) / 4096 - a / 4096 + 1)).map (fun i => 4096 * (a / 4096 + i))

/-- A write from any requester: the bytes, and the dirty marks of R204, which come before the write completes. -/
def writeBytes (a : Nat) (bs : List Byte) (d : Dev) : Dev :=
  let d := match (homeOf d a).eighth with
    | none => d
    | some e => match ownerOf d e with
      | none => d
      | some q => if (getJob d q).loaded then (blocksOf a bs.length).foldl (fun x b => markBlock q b x) d else d
  writeRaw a bs d

/-- A write of bytes some of whose 8-byte words, by index from the first, are poisoned (R165, R201). -/
def writePoison (a : Nat) (bs : List Byte) (bad : List Nat) (d : Dev) : Dev :=
  bad.foldl (fun x i => poisonWord (a / 8 + i) x) (writeBytes a bs d)

/-! ## Atomics (R125) -/

/-- The new value of an atomic of size 4 or 8 from the old value, operand B and compare value C. -/
def atomNew (op : AtomOp) (size : Nat) (old b c : Nat) : Nat :=
  let w := 8 * size
  let lt := decide (sext w b < sext w old)
  match op with
  | .swap => b % 2 ^ w
  | .cas => if old = c % 2 ^ w then b % 2 ^ w else old
  | .add => (old + b) % 2 ^ w
  | .and => (old &&& b) % 2 ^ w
  | .or => (old ||| b) % 2 ^ w
  | .xor => (old ^^^ b) % 2 ^ w
  | .mins => if lt then b % 2 ^ w else old
  | .maxs => if lt then old else b % 2 ^ w
  | .minu => min old (b % 2 ^ w)
  | .maxu => max old (b % 2 ^ w)

/-! ## Device numbers (R14, R15, R19, R230) -/

/-- The seat table's entry of a position, as it is in force: since a Z link last trained (R230, R233; log 108). -/
def seatWord (d : Dev) (k : Nat) : Nat := tget 0 d.body.seats k

/-- This device's number (R14, R230), or none when its seat table marks it FAILED. -/
def devNumber (d : Dev) : Option Nat :=
  let cfg := ctlNat d (regOff 7 0 0x40)
  let xy := ctlNat d (regOff 7 0 0x44)
  let pos := ctlNat d (regOff 7 0 0x48) % 32
  let seat := seatWord d pos
  let low := bits xy 9 0
  if bitAt seat 5 then none
  else if bitAt cfg 0 then
    (if bitAt seat 4 then some (low + 1024 * (seat % 16)) else some (16384 + low))
  else some (low + 1024 * (pos % 16))

/-- The number in force. A FAILED device holds none (R230) and takes 0 for its own accesses: DESIGN CHOICE (log 95). -/
def myDev (d : Dev) : Nat := (devNumber d).getD 0

/-- A device number names a seat or joker within the system's extents (R14, R15, R19). -/
def devExists (d : Dev) (n : Nat) : Bool :=
  let cfg := ctlNat d (regOff 7 0 0x40)
  let okxy := decide (n % 32 < 2 ^ bits cfg 3 1) && decide (n / 32 % 32 < 2 ^ bits cfg 6 4)
  if n < 16384 then okxy && decide (n / 1024 < 2 ^ bits cfg 9 7)
  else decide (n / 1024 % 16 = 0) && okxy && bitAt cfg 0

/-- The device number and local offset of a global address (R13). -/
def gDev (a : Nat) : Nat := a / 2 ^ 49 % 2 ^ 15
def gOff (a : Nat) : Nat := a % 2 ^ 49

/-! ## Partitions and grants (R321 to R329) -/

/-- The number of eighths of a shape (Table PI-1). -/
def shapeEighths : Nat → Nat
  | 0 => 1
  | 1 => 2
  | 2 => 4
  | _ => 8

/-- q is a lowest eighth of a shape (Table PI-1). -/
def shapeFits (shape q : Nat) : Bool := decide (shape < 4) && decide (q % shapeEighths shape = 0)

/-- The eighths of the partition whose lowest eighth is q. -/
def partEighths (d : Dev) (q : Nat) : List Nat :=
  (List.range 8).filter (fun e => let x := getEighth d e; x.used && x.lowest == q)

/-- q is the lowest eighth of a partition that is set up. -/
def isPart (d : Dev) (q : Nat) : Bool := let e := getEighth d q; e.used && e.lowest == q

/-- The partition of a tile. -/
def tilePart (d : Dev) (t : Nat) : Option Nat := ownerOf d (t / 18)

/-- The tiles of a partition. -/
def partTiles (d : Dev) (q : Nat) : List Nat :=
  ((partEighths d q).map (fun e => (List.range 18).map (fun i => 18 * e + i))).flatten

/-- The offset of word w of grant entry g of eighth q (R337). -/
def grantOff (q g w : Nat) : Nat := regOff 4 (q / 4) (0x400 + 0x200 * (q % 4) + 32 * g + 4 * w)

/-- A grant entry covers a device, a range of offsets and a permission bit (1 R, 2 W, 3 A), in a direction. -/
def grantCovers (d : Dev) (q g : Nat) (dirIn : Bool) (dev off n perm : Nat) : Bool :=
  let r := ctlNat d (grantOff q g 0)
  let f := ctlNat d (grantOff q g 1)
  bitAt r 31 && (bitAt f 0 == dirIn) && decide (bits r 14 0 ≤ dev) && decide (dev ≤ bits r 30 16) && bitAt f perm
    && decide (ctlPair d (grantOff q g 2) % 2 ^ 49 ≤ off) && decide (off + n - 1 ≤ ctlPair d (grantOff q g 4) % 2 ^ 49)

/-- Some of the 16 grant entries of a partition covers an access. -/
def granted (d : Dev) (q : Nat) (dirIn : Bool) (dev off n perm : Nat) : Bool :=
  (List.range 16).any (fun g => grantCovers d q g dirIn dev off n perm)

/-- A partition holds an IN entry with SUIT that covers a device (R328). -/
def consents (d : Dev) (q dev : Nat) : Bool :=
  (List.range 16).any (fun g =>
    let r := ctlNat d (grantOff q g 0)
    let f := ctlNat d (grantOff q g 1)
    bitAt r 31 && bitAt f 0 && bitAt f 4 && decide (bits r 14 0 ≤ dev) && decide (dev ≤ bits r 30 16))

/-- How an access is answered: performed, an address error, refused by a grant, or its target's gate is closed. -/
inductive Verdict where
  | ok
  | address
  | access
  | domainOff
  deriving DecidableEq, Repr

/-- Permission bits of R325. -/
def permR : Nat := 1
def permW : Nat := 2
def permA : Nat := 3

/-- The target's check of an access to memory of this device (R17, R18, R129, R324, R325): by the partition `by_` of
this device, or by device `src` when it comes from elsewhere. -/
def checkLocal (d : Dev) (by_ : Option Nat) (src off n perm : Nat) : Verdict :=
  match homeRange d off n with
  | .none => .address
  | .spare _ _ => .address
  | .ctl _ => .access
  | .host _ => if perm = permA then .address else .ok
  | h =>
    if (h.kind = 5 ∧ perm ≠ permR) then .address
    else match h.eighth with
      | Option.none => .address
      | some e =>
        let last := ((homeOf d (off + n - 1)).eighth).getD e
        let x := getEighth d e
        if x.gate || (getEighth d last).gate then .domainOff
        else if (x.domain = .off ∨ (x.domain = .gating ∧ x.offAt < d.time.trick)) ∧ 16 ≤ h.kind then .domainOff
        else
          let own := ownerOf d e
          let own2 := ownerOf d last
          match by_ with
          | some p =>
            if own = some p ∧ own2 = some p then .ok
            else match own with
              | Option.none => .access
              | some o =>
                if own2 = own ∧ granted d p false (myDev d) off n perm ∧ granted d o true (myDev d) off n perm then .ok
                else .access
          | Option.none => match own with
            | Option.none => .access
            | some o => if own2 = own ∧ granted d o true src off n perm then .ok else .access

/-- The issuer's check of a global address (R15, R129, R325): whether it stays on this device, and the verdict. -/
def checkGlobal (d : Dev) (p : Nat) (addr n perm : Nat) : Bool × Verdict :=
  let dev := gDev addr
  if dev = myDev d then (true, checkLocal d (some p) dev (gOff addr) n perm)
  else if !devExists d dev then (false, .address)
  else if granted d p false dev (gOff addr) n perm then (false, .ok)
  else (false, .access)

/-- Debug is open (R333). -/
def debugOpen (s : SecSt) : Bool :=
  s.unlocked || s.lc == .blank || s.lc == .return_ || s.lc == .scrapped

/-- A requester of the management complex, or the debug access port while debug is open (R424). -/
def isMgmt (d : Dev) : Req → Bool
  | .core _ => true
  | .debug => debugOpen d.sec
  | _ => false

/-- Some partition has a deal loaded. -/
def anyDeal (d : Dev) : Bool := (List.range 8).any (fun q => (getJob d q).loaded)

/-- Set the cause that halts a job at its next boundary; of several, the lowest stands (R42, R407). -/
def haltFor (q why : Nat) (d : Dev) : Dev :=
  let j := getJob d q
  if j.loaded && j.started && !j.halted then
    setJob q { j with why := if j.why = 0 then why else min j.why why
                      whyAt := if j.why = 0 then d.time.trick else j.whyAt } d
  else d

/-- The tile's job runs: loaded, started, not halted. -/
def jobRuns (d : Dev) (q : Nat) : Bool := let j := getJob d q; j.loaded && j.started && !j.halted

end Sys2Proof.Machine
end

