-- ==== Sys2Proof/Machine/Gate.lean ====
section
/-! DEFINITION. The checks of an access to control space, in the order of Table MP-3, and its error outcomes
(spec/19_register_map.md, R388 to R401, R424; R326 for hands). -/

namespace Sys2Proof.Machine

/-- What an access meets: a page or an array that it may go on to, a failed check with its cause, an address error, a
held lock, or a debug port that is closed and answers nothing (R333, R396). -/
inductive GateRes where
  | page (p : PageAt) (o : Nat)
  | array (a : ArrayAt)
  | denied (base cause : Nat)
  | waits (base : Nat)
  | unmapped
  | silent
  deriving DecidableEq, Repr

/-- Causes of Table MP-5. -/
def cWidth : Nat := 1
def cAlign : Nat := 2
def cPair : Nat := 3
def cRemote : Nat := 4
def cRequester : Nat := 5
def cState : Nat := 6
def cProgActive : Nat := 7
def cBusy : Nat := 8
def cValue : Nat := 9
def cPoweredOff : Nat := 10
def cNoLock : Nat := 11
def cDbgForce : Nat := 12
def cLockTimeout : Nat := 13

/-- The page in whose `ERR_LOG` an error of an array access is logged: that of its block. -/
def arrayPage : ArrayAt → Nat
  | .meBank t _ _ => pageBase 16 t
  | .sfBank t _ _ => pageBase 17 t
  | .sfData t _ => pageBase 17 t
  | .stBank t _ _ => pageBase 20 t
  | .imem t _ => pageBase 18 t
  | .zones h _ => pageBase 13 h
  | .dict h _ => pageBase 15 h

/-- The tile of an array, if it is a tile's. -/
def arrayTile : ArrayAt → Option Nat
  | .meBank t _ _ => some t
  | .sfBank t _ _ => some t
  | .sfData t _ => some t
  | .stBank t _ _ => some t
  | .imem t _ => some t
  | _ => none

/-- A page or array is a resource of a partition whose gate is closed: no access reaches it (R324). -/
def gated (d : Dev) (e : Nat) : Bool := (getEighth d e).gate

/-- A debug-halted management core makes no access (R335). -/
def coreHalted (d : Dev) : Req → Bool
  | .core c => d.body.coreHalt.contains c.val
  | _ => false

/-- The block of a page is off: its tile's domain is off (R357), or it is on main power and that is off (R350). -/
def blockOff (d : Dev) (kind inst : Nat) : Bool :=
  (!d.power.mainOn && kind != 3 && kind != 5 && kind != 9 && kind != 10)
    || (decide (16 ≤ kind) && (getEighth d (inst / 18)).domain == .off)

/-- The lowest eighth of a partition within a half (R173). -/
def queueEighth (d : Dev) (p h : Nat) : Nat := max (getEighth d p).lowest (4 * h)

/-- A partition's own tail register: page kind, instance, register (R326). -/
def ownTail (d : Dev) (p : Nat) (kind inst : Nat) (x : RegAt) : Bool :=
  isTailReg x.reg &&
    (if kind = 8 then x.idx == p
     else ownerOf d (4 * inst + x.idx) == some p && queueEighth d p inst == 4 * inst + x.idx)

/-- What a hand may reach of control space (R326). -/
def handMay (d : Dev) (t : Nat) (write : Bool) (p : PageAt) (o : Nat) : Bool :=
  match tilePart d t with
  | none => false
  | some q =>
    if write then (match regAt p.kind o with | some x => ownTail d q p.kind p.inst x | none => false)
    else decide (16 ≤ p.kind) && tilePart d p.inst == some q

/-- What the host reaches through BAR0: the host-link page, or in SPLIT the power page (R302, R366, R371). -/
def hostMay (d : Dev) (p : PageAt) : Bool :=
  if d.power.phase = 6 then p.kind == 9 else p.kind == 8 && d.body.hl.ready

/-- A word may not be part of a 64-bit access: a latching pair, `SEQ_LOCK`, `EV_CLAIM`, RC or W1C fields (R393). -/
def noPair (kind o : Nat) : Bool :=
  o == 0x20 || o == 0x18 || o == 0x1C ||
    match regAt kind o with
    | some x => match x.acc with
      | .rc => true
      | .w1c _ => true
      | .latchLo => true
      | .latchHi => true
      | .companion _ => true
      | _ => false
    | none => false

/-- The width and alignment checks of R393: the cause of the first that fails. -/
def widthCheck (kind : Option Nat) (o size : Nat) : Option Nat :=
  if size < 4 then some cWidth
  else if o % size ≠ 0 then some cAlign
  else if size = 8 then match kind with
    | some k => if noPair k o || noPair k (o + 4) then some cPair else none
    | none => none
  else none

/-- The lock check (R399): none to go on, a cause, or `some 0` to wait. -/
def lockCheck (d : Dev) (r : Req) (base o : Nat) (write : Bool) : Option Nat :=
  let p := getPage d base
  if o < 0x40 then none
  else match r with
    | .debug => none
    | .core c =>
      if p.held ∧ p.owner = c.val then none
      else if write ∧ bitAt p.expect c.val then some cNoLock
      else if p.held then some 0
      else none
    | _ => if p.held then some 0 else none

/-- The checks 1 to 5 of Table MP-3. -/
def gate (d : Dev) (r : Req) (off size : Nat) (write : Bool) : GateRes :=
  if r = .debug ∧ !debugOpen d.sec then .silent
  else match ctlAt off with
  | .unmapped => .unmapped
  | .array a =>
    let base := arrayPage a
    match r with
    | .remote _ => .denied base cRemote
    | .hand _ _ => .denied base cRequester
    | .host => .denied base cRequester
    | _ =>
      match (if size ≤ 8 then widthCheck none off size else none) with
      | some c => .denied base c
      | none =>
        let off_ := match a, arrayTile a with
          | _, some t => blockOff d 16 t || gated d (t / 18)
          | .dict h o, _ => !d.power.mainOn || gated d (4 * h + o / 0x800000)
          | _, none => !d.power.mainOn
        if off_ then .denied base cPoweredOff else .array a
  | .page p o =>
    match r with
    | .remote _ => .denied p.base cRemote
    | _ =>
      let who := match r with
        | .hand t _ => handMay d t.val write p o
        | .host => hostMay d p
        | .loader => (p.kind == 16 || p.kind == 19) && decide (0x80 ≤ o)
        | .refill _ => false
        | _ => true
      if !who then .denied p.base cRequester
      else match widthCheck (some p.kind) o size with
        | some c => .denied p.base c
        | none =>
          if (blockOff d p.kind p.inst && (write || !(o == 0 || o == 4 || o == 0xC)))
              || (decide (16 ≤ p.kind) && gated d (p.inst / 18)) then .denied p.base cPoweredOff
          else match lockCheck d r p.base o write with
            | none => .page p o
            | some 0 => .waits p.base
            | some c => .denied p.base c

/-- `HL_UR` gains one (R302, R304, R305, R311, R320). -/
def unsupported (d : Dev) : Dev := ctlAdd (regOff 8 0 0x64) 1 d

/-- The debug access port's sticky error bit is set (R397). -/
def portError (d : Dev) : Dev := modBody (fun b => { b with board := { b.board with dbgError := true } }) d

/-- A failed access: logged in the page's `ERR_LOG` and met by its requester (R397, R398). -/
def refuse (r : Req) (base off cause : Nat) (write : Bool) (d : Dev) : Dev :=
  let d := logError base cause (Req.code r) off write d
  let d := match r with
    | .host => unsupported d
    | .debug => portError d
    | _ => d
  reply (.denied cause) d

/-- An access, which a halted core does not make: its effect on the page or array it reaches, or the outcome of the check
that fails. A waiting access is kept on its page (R401). -/
def access (r : Req) (off size : Nat) (write : Bool) (v : Nat) (eff : Dev → Dev) (d : Dev) : Dev :=
  if coreHalted d r then d
  else match gate d r off size write with
  | .page _ _ => eff d
  | .array _ => eff d
  | .denied base c => refuse r base off c write d
  | .waits base =>
    reply .waits (modPage base (fun p => { p with waiters := p.waiters ++ [⟨r, off, size, write, v⟩] }) d)
  | .unmapped => reply .addressError (match r with | .host => unsupported d | .debug => portError d | _ => d)
  | .silent => d

/-- A write that only the management complex makes (R424): the cause REQUESTER for any other requester. -/
def mgmtOnly (r : Req) (base off : Nat) (eff : Dev → Dev) (d : Dev) : Dev :=
  if isMgmt d r then eff d else refuse r base off cRequester true d

end Sys2Proof.Machine
end

