-- ==== Sys2Proof/Machine/Event.lean ====
section
/-! DEFINITION. The event controller (spec/16_event_controller.md, R338 to R348), and events of blocks (R402). -/

namespace Sys2Proof.Machine

def getSrc (d : Dev) (n : Nat) : Source := tget Source.z d.body.ev.srcs n
def modSrc (n : Nat) (f : Source → Source) (d : Dev) : Dev :=
  modBody (fun b => { b with ev := { b.ev with srcs := tset Source.z b.ev.srcs n (f (tget Source.z b.ev.srcs n)) } }) d
def tgtEn (d : Dev) (t : Nat) : Bool := tget false d.body.ev.en t
def evOff (o : Nat) : Nat := regOff 5 0 o

/-- The sources from the highest number down. -/
def srcsDown : List Nat := (List.range 512).map (fun i => 511 - i)

/-- EVENT_RAISE: R338, R340. -/
def execEventRaise (n : Fin 512) (s : State) : Out := run (raise n.val) s

/-- A listed event of a block (Table MP-6). -/
def blockEvent (off bit : Nat) (d : Dev) : Dev :=
  match ctlAt off with
  | .page p _ => if (eventSource p.kind p.inst bit).isSome then event p.kind p.inst bit d else d
  | _ => d

/-- BLOCK_EVENT: R402. -/
def execBlockEvent (off : CtlOff) (bit : Fin 32) (s : State) : Out := run (blockEvent off.toNat bit.val) s

/-- A target is eligible for a source (R341). -/
def evEligible (d : Dev) (x : Source) (t : Nat) : Bool := bitAt x.tgt t && tgtEn d t

/-- The highest-numbered deliverable source (R341). -/
def deliverable (d : Dev) : Option Nat :=
  srcsDown.find? (fun n => let x := getSrc d n; x.state == .pending && !x.masked && (List.range 4).any (evEligible d x))

/-- The controller gives the highest deliverable source to the first eligible target after the previous one. -/
def evSelect (d : Dev) : Dev :=
  match deliverable d with
  | none => d
  | some n =>
    match ((List.range 4).map (fun i => (d.body.ev.prev + 1 + i) % 4)).find? (evEligible d (getSrc d n)) with
    | none => d
    | some t => modBody (fun b => { b with ev := { b.ev with prev := t } })
        (modSrc n (fun x => { x with state := .delivered, owner := t, reached := false }) d)

/-- EVENT_SELECT: R341. -/
def execEventSelect (s : State) : Out := run evSelect s

/-- EVENT_ARRIVE: R341, R342: a delivered source reaches its target, masked since or not. -/
def execEventArrive (n : Fin 512) (s : State) : Out :=
  run (modSrc n.val (fun x => if x.state = .delivered then { x with reached := true } else x)) s

/-- The highest source that has reached a target and is unclaimed (R345). -/
def claimable (d : Dev) (t : Nat) : Option Nat :=
  srcsDown.find? (fun n => let x := getSrc d n; x.state == .delivered && x.reached && x.owner == t)

/-- A read of `EV_CLAIM[t]`. -/
def evClaim (t : Nat) (d : Dev) : Dev :=
  match claimable d t with
  | none => reply (.value 0) d
  | some n => reply (.value (BitVec.ofNat 64 n)) (modSrc n (fun x => { x with state := .inService, reached := false }) d)

/-- EV_CLAIM: R345. -/
def execEvClaim (r : Req) (t : Core) (s : State) : Out :=
  run (access r (evOff (0x84 + 0x10 * t.val)) 4 false 0 (evClaim t.val)) s

/-- A write of `EV_COMPLETE[t]`: a source that is not in service for the target is logged. -/
def evComplete (r : Req) (t v : Nat) (d : Dev) : Dev :=
  let o := evOff (0x88 + 0x10 * t)
  mgmtOnly r (pageBase 5 0) o (fun d =>
    let x := getSrc d (v % 512)
    if x.state = .inService ∧ x.owner = t then
      modSrc (v % 512) (fun y => { y with state := if y.rearm then .pending else .idle, rearm := false }) d
    else logError (pageBase 5 0) cState (Req.code r) o true d) d

/-- EV_COMPLETE: R346. -/
def execEvComplete (r : Req) (t : Core) (v : Word) (s : State) : Out :=
  run (access r (evOff (0x88 + 0x10 * t.val)) 4 true v.toNat (evComplete r t.val v.toNat)) s

/-- A write of `EV_SRC[n]`: TGT and MASKED; masking a source that has arrived and is unclaimed returns it to PENDING
(R342). -/
def evSrcWrite (r : Req) (n v : Nat) (d : Dev) : Dev :=
  mgmtOnly r (pageBase 5 0) (evOff (0x800 + 4 * n)) (modSrc n (fun x =>
    let y := { x with tgt := v % 16, masked := bitAt v 4 }
    if y.masked ∧ y.state = .delivered ∧ y.reached then { y with state := .pending, reached := false } else y)) d

/-- EV_SRC_WRITE: R342 to R344. -/
def execEvSrcWrite (r : Req) (n : Fin 512) (v : Word) (s : State) : Out :=
  run (access r (evOff (0x800 + 4 * n.val)) 4 true v.toNat (evSrcWrite r n.val v.toNat)) s

/-- A write of `EV_TCTL[t]`: clearing EN returns the target's unclaimed sources to PENDING (R343). -/
def evTctlWrite (r : Req) (t v : Nat) (d : Dev) : Dev :=
  mgmtOnly r (pageBase 5 0) (evOff (0x80 + 0x10 * t)) (fun d =>
    let d := modBody (fun b => { b with ev := { b.ev with en := tset false b.ev.en t (bitAt v 0) } }) d
    if bitAt v 0 then d
    else forN 512 (fun n e => modSrc n (fun x =>
      if x.state = .delivered ∧ x.owner = t then { x with state := .pending, reached := false } else x) e) d) d

/-- EV_TCTL_WRITE: R343. -/
def execEvTctlWrite (r : Req) (t : Core) (v : Word) (s : State) : Out :=
  run (access r (evOff (0x80 + 0x10 * t.val)) 4 true v.toNat (evTctlWrite r t.val v.toNat)) s

/-- A pending external source (R344). -/
def external (x : Source) : Bool := x.tgt == 0 && !x.masked

/-- MG_ALERT_N is low while any external source is PENDING (R344, R420). -/
def alertLow (d : Dev) : Bool := d.body.ev.srcs.any (fun p => p.2.state == .pending && external p.2)

/-- The carrier's controller takes the highest pending external source. -/
def externalRead (d : Dev) : Dev :=
  match srcsDown.find? (fun n => let x := getSrc d n; x.state == .pending && external x) with
  | none => reply (.value 0) d
  | some n => reply (.value (BitVec.ofNat 64 n)) (modSrc n (fun x => { x with state := .idle }) d)

/-- EXTERNAL_SOURCE_READ: R344. -/
def execExternalSourceRead (s : State) : Out := run externalRead s

end Sys2Proof.Machine
end

