-- ==== Sys2Proof/Machine/Num.lean ====
section
/-! DEFINITION. Number formats, rounding, the generator and the exact block formats (spec/04_number_formats.md,
R76 to R95), and the pairwise tree of R74. Every finite value is an exact dyadic number until it is rounded. -/

namespace Sys2Proof.Machine

/-- A value of any format: a NaN or an infinity with its sign, or the exact number (-1)^neg x m x 2^e. -/
inductive FV where
  | nan (neg : Bool)
  | inf (neg : Bool)
  | fin (neg : Bool) (m : Nat) (e : Int)
  deriving DecidableEq, Repr

/-- What a format does with a finite value beyond its largest (Table NF-2). -/
inductive Beyond where
  | infinity
  | saturate
  deriving DecidableEq, Repr

/-- The layout of a scalar format (Table NF-1): field widths, bias, the magnitude code of the largest finite value,
the codes of infinity and of the canonical NaN where it has them, and Table NF-2's rule for values beyond it. -/
structure Fmt where
  ebits : Nat
  mbits : Nat
  bias : Int
  maxCode : Nat
  infCode : Option Nat
  nanCode : Option Nat
  beyond : Beyond
  deriving DecidableEq, Repr

def fp64 : Fmt := ⟨11, 52, 1023, 0x7FEFFFFFFFFFFFFF, some 0x7FF0000000000000, some 0x7FF8000000000000, .infinity⟩
def fp32 : Fmt := ⟨8, 23, 127, 0x7F7FFFFF, some 0x7F800000, some 0x7FC00000, .infinity⟩
def bf16 : Fmt := ⟨8, 7, 127, 0x7F7F, some 0x7F80, some 0x7FC0, .infinity⟩
def e4m3 : Fmt := ⟨4, 3, 7, 0x7E, none, some 0x7F, .saturate⟩
def e5m2 : Fmt := ⟨5, 2, 15, 0x7B, some 0x7C, some 0x7F, .saturate⟩
def e3m2 : Fmt := ⟨3, 2, 3, 0x1F, none, none, .saturate⟩
def e2m3 : Fmt := ⟨2, 3, 1, 0x1F, none, none, .saturate⟩
def e2m1 : Fmt := ⟨2, 1, 1, 0x7, none, none, .saturate⟩

/-- The bits of one element of a format. -/
def Fmt.width (f : Fmt) : Nat := 1 + f.ebits + f.mbits

/-- Place of the sign bit. -/
def Fmt.signBit (f : Fmt) : Nat := f.ebits + f.mbits

/-- The exponent of the last place of the subnormals: 1 - bias - mbits (R76). -/
def Fmt.qmin (f : Fmt) : Int := 1 - f.bias - (f.mbits : Int)

/-- The value of a bit pattern (R76). -/
def Fmt.decode (f : Fmt) (v : Nat) : FV :=
  let neg := bitAt v f.signBit
  let mag := v % 2 ^ f.signBit
  let ex := mag / 2 ^ f.mbits
  let ma := mag % 2 ^ f.mbits
  if mag ≤ f.maxCode then
    if ex = 0 then .fin neg ma f.qmin else .fin neg (2 ^ f.mbits + ma) (f.qmin + (ex : Int) - 1)
  else if f.infCode = some mag then .inf neg
  else .nan neg

/-- A sign and a magnitude code as a bit pattern. -/
def Fmt.pack (f : Fmt) (neg : Bool) (code : Nat) : Nat := code + (if neg then 2 ^ f.signBit else 0)

/-- The canonical NaN of a format with a sign (Table NF-2); a format without NaN writes its largest finite value. -/
def Fmt.nan (f : Fmt) (neg : Bool) : Nat := f.pack neg (f.nanCode.getD f.maxCode)

/-- A finite value beyond the largest finite value, and an infinity (Table NF-2). -/
def Fmt.ovr (f : Fmt) (neg : Bool) : Nat :=
  match f.beyond, f.infCode with
  | .infinity, some c => f.pack neg c
  | _, _ => f.pack neg f.maxCode

/-- An infinity converted into a format (Table NF-2): infinity where the format has one, else its largest. -/
def Fmt.infinity (f : Fmt) (neg : Bool) : Nat := f.pack neg (f.infCode.getD f.maxCode)

/-- How a rounding decides between two neighbours: nearest ties to even (R80), or up when 16 random bits lie below
the fraction (R83). -/
inductive Rounding where
  | nearest
  | stochastic (r : Nat)
  deriving DecidableEq, Repr

/-- m / 2^s rounded (R80, R83). -/
def roundShift (rd : Rounding) (m s : Nat) : Nat :=
  let lo := m >>> s
  let rem := m % 2 ^ s
  match rd with
  | .nearest => if 2 * rem > 2 ^ s || (2 * rem = 2 ^ s && lo % 2 = 1) then lo + 1 else lo
  | .stochastic r => if r < 65536 * rem / 2 ^ s then lo + 1 else lo

/-- The magnitude code that a finite magnitude m x 2^e rounds to, before any limit. -/
def Fmt.codeOf (f : Fmt) (rd : Rounding) (m : Nat) (e : Int) : Nat :=
  if m = 0 then 0
  else
    let q := max ((bitLen m : Int) - 1 + e - (f.mbits : Int)) f.qmin
    let n := if q ≤ e then m * 2 ^ (e - q).toNat else roundShift rd m (q - e).toNat
    n + (q - f.qmin).toNat * 2 ^ f.mbits

/-- Conversion into a format: rounded, then limited as Table NF-2 gives (R80, R81, R83). -/
def Fmt.encode (f : Fmt) (rd : Rounding) : FV → Nat
  | .nan neg => f.nan neg
  | .inf neg => f.infinity neg
  | .fin neg m e =>
    let c := f.codeOf rd m e
    if c ≤ f.maxCode then f.pack neg c else f.ovr neg

/-- The sign of a value. -/
def FV.neg : FV → Bool
  | .nan s => s
  | .inf s => s
  | .fin s _ _ => s

def FV.isNan : FV → Bool
  | .nan _ => true
  | _ => false

/-- The value is a finite zero of either sign. -/
def FV.isZero : FV → Bool
  | .fin _ m _ => m == 0
  | _ => false

/-- Change of sign; a NaN keeps its sign (R79). -/
def FV.negate : FV → FV
  | .nan s => .nan s
  | .inf s => .inf (!s)
  | .fin s m e => .fin (!s) m e

/-- Magnitude; a NaN keeps its sign (R79). -/
def FV.abs : FV → FV
  | .nan s => .nan s
  | .inf _ => .inf false
  | .fin _ m e => .fin false m e

/-- The signed integer of a finite value in units of 2^lo, for lo at or below its exponent. -/
def scaled (neg : Bool) (m : Nat) (e lo : Int) : Int :=
  let v : Int := ((m * 2 ^ (e - lo).toNat : Nat) : Int)
  if neg then -v else v

/-- A value from a signed integer in units of 2^e; zero gets the sign asked for. -/
def ofScaled (zneg : Bool) (v e : Int) : FV :=
  if v = 0 then .fin zneg 0 e else .fin (decide (v < 0)) v.natAbs e

/-- Exact addition under IEEE 754's special values (R79). An exact zero from operands of unlike sign is +0. -/
def FV.add : FV → FV → FV
  | .nan s, _ => .nan s
  | _, .nan s => .nan s
  | .inf s, .inf t => if s = t then .inf s else .nan false
  | .inf s, _ => .inf s
  | _, .inf s => .inf s
  | .fin s m e, .fin t n f =>
    let lo := min e f
    ofScaled (s && t && m == 0 && n == 0) (scaled s m e lo + scaled t n f lo) lo

def FV.sub (a b : FV) : FV := FV.add a b.negate

/-- Exact multiplication (R79). -/
def FV.mul : FV → FV → FV
  | .nan s, _ => .nan s
  | _, .nan s => .nan s
  | .inf s, .inf t => .inf (xor s t)
  | .inf s, .fin t m _ => if m = 0 then .nan false else .inf (xor s t)
  | .fin s m _, .inf t => if m = 0 then .nan false else .inf (xor s t)
  | .fin s m e, .fin t n f => .fin (xor s t) (m * n) (e + f)

/-- Exact a x b + c; the sign of a NaN is that of the first NaN operand (R79). -/
def FV.fma (a b c : FV) : FV :=
  match a, b, c with
  | .nan s, _, _ => .nan s
  | _, .nan s, _ => .nan s
  | _, _, .nan s => .nan s
  | a, b, c => FV.add (FV.mul a b) c

/-- Division, carried to 130 bits with a sticky bit below, so that one rounding to any format is correct (R80). -/
def FV.div : FV → FV → FV
  | .nan s, _ => .nan s
  | _, .nan s => .nan s
  | .inf _, .inf _ => .nan false
  | .inf s, .fin t _ _ => .inf (xor s t)
  | .fin s _ _, .inf t => .fin (xor s t) 0 0
  | .fin s m e, .fin t n f =>
    if n = 0 then (if m = 0 then .nan false else .inf (xor s t))
    else
      let k := 130 + bitLen n
      let q := m * 2 ^ k / n
      let r := m * 2 ^ k % n
      .fin (xor s t) (2 * q + (if r = 0 then 0 else 1)) (e - f - (k : Int) - 1)

/-- The integer square root, bit by bit from the top. -/
def isqrtBits : Nat → Nat → Nat → Nat
  | 0, _, acc => acc
  | b + 1, n, acc =>
    let c := acc + 2 ^ b
    if c * c ≤ n then isqrtBits b n c else isqrtBits b n acc

/-- The integer square root of a number. -/
def isqrt (n : Nat) : Nat := isqrtBits (bitLen n / 2 + 1) n 0

/-- Square root, with a sticky bit below (R80): of -0 it is -0, of a negative value NaN. -/
def FV.sqrt : FV → FV
  | .nan s => .nan s
  | .inf true => .nan false
  | .inf false => .inf false
  | .fin s m e =>
    if m = 0 then .fin s 0 0
    else if s then .nan false
    else
      let k := 2 * 64 + bitLen m + (if (e - (bitLen m : Int)) % 2 = 0 then 0 else 1)
      let n := m * 2 ^ k
      let q := isqrt n
      .fin false (2 * q + (if q * q = n then 0 else 1)) ((e - (k : Int)) / 2 - 1)

/-- Comparison of two values that are not NaN: less than. -/
def FV.lt : FV → FV → Bool
  | .nan _, _ => false
  | _, .nan _ => false
  | .inf s, .inf t => s && !t
  | .inf s, _ => s
  | _, .inf t => !t
  | .fin s m e, .fin t n f => let lo := min e f; decide (scaled s m e lo < scaled t n f lo)

/-- Equality of values: -0 equals +0, a NaN equals nothing. -/
def FV.eq : FV → FV → Bool
  | .nan _, _ => false
  | _, .nan _ => false
  | a, b => !FV.lt a b && !FV.lt b a

/-- The larger value; a NaN operand gives NaN, the first one's sign (R79). Of +0 and -0 the larger is +0. -/
def FV.maxOf : FV → FV → FV
  | .nan s, _ => .nan s
  | _, .nan s => .nan s
  | a, b => if FV.lt a b then b else if FV.lt b a then a else if a.neg then b else a

/-- The smaller value; a NaN operand gives NaN. Of +0 and -0 the smaller is -0. -/
def FV.minOf : FV → FV → FV
  | .nan s, _ => .nan s
  | _, .nan s => .nan s
  | a, b => if FV.lt b a then b else if FV.lt a b then a else if a.neg then a else b

/-- The exact sum of a list of values under R79's special values; an exact zero is +0. -/
def FV.sum (l : List FV) : FV :=
  match l.find? FV.isNan with
  | some v => v
  | none =>
    let pos := l.any (fun v => v == .inf false)
    let ng := l.any (fun v => v == .inf true)
    if pos && ng then .nan false
    else if pos then .inf false
    else if ng then .inf true
    else
      let lo := l.foldl (fun a v => match v with | .fin _ m e => if m = 0 then a else min a e | _ => a) 0
      ofScaled false (l.foldl (fun a v => match v with
        | .fin s m e => if m = 0 then a else a + scaled s m e lo
        | _ => a) 0) lo

/-- floor(log2 |v|) of a finite value that is not zero. -/
def FV.expo (m : Nat) (e : Int) : Int := (bitLen m : Int) - 1 + e

/-- A value times 2^n exactly. -/
def FV.scale2 (v : FV) (n : Int) : FV :=
  match v with
  | .fin s m e => .fin s m (e + n)
  | v => v

/-- The nearest integer to a finite value, ties to even (R80). -/
def roundInt (neg : Bool) (m : Nat) (e : Int) : Int :=
  let n := if 0 ≤ e then m * 2 ^ e.toNat else roundShift .nearest m (-e).toNat
  if neg then -(n : Int) else n

/-- Truncation toward zero of a finite value. -/
def truncInt (neg : Bool) (m : Nat) (e : Int) : Int :=
  let n := if 0 ≤ e then m * 2 ^ e.toNat else m >>> (-e).toNat
  if neg then -(n : Int) else n

/-- An integer as a value. -/
def FV.ofInt (v : Int) : FV := ofScaled false v 0

/-! FP32 values as bit patterns: every operation rounds once (R80). -/

def f32 (v : Nat) : FV := fp32.decode v
def toF32 (v : FV) : Nat := fp32.encode .nearest v
def f32add (a b : Nat) : Nat := toF32 (FV.add (f32 a) (f32 b))
def f32sub (a b : Nat) : Nat := toF32 (FV.sub (f32 a) (f32 b))
def f32mul (a b : Nat) : Nat := toF32 (FV.mul (f32 a) (f32 b))
def f32fma (a b c : Nat) : Nat := toF32 (FV.fma (f32 a) (f32 b) (f32 c))
def f32max (a b : Nat) : Nat := toF32 (FV.maxOf (f32 a) (f32 b))
def f32min (a b : Nat) : Nat := toF32 (FV.minOf (f32 a) (f32 b))
def f32nan : Nat := 0x7FC00000
def f32ninf : Nat := 0xFF800000

/-- One level of the pairwise tree of R74. -/
def treeLevel {α : Type} (f : α → α → α) : List α → List α
  | a :: b :: r => f a b :: treeLevel f r
  | l => l

/-- The levels of the pairwise tree, at most `fuel` of them. -/
def treeFuel {α : Type} (f : α → α → α) (z : α) : Nat → List α → α
  | 0, l => l.headD z
  | n + 1, l => match l with
    | [] => z
    | [a] => a
    | l => treeFuel f z n (treeLevel f l)

/-- The pairwise tree of R74 over values in lane or column order; an empty list gives the default. -/
def pairTree {α : Type} (f : α → α → α) (z : α) (l : List α) : α := treeFuel f z (bitLen l.length + 1) l

/-! The formats that step words name by code (Table ME-4) and their packing (R77). -/

/-- The scalar format of the elements that a format code of Table ME-4 names. -/
def fmtOf : Nat → Option Fmt
  | 0 => some fp32
  | 1 => some bf16
  | 2 => some e4m3
  | 3 => some e5m2
  | 4 => some e4m3
  | 5 => some e5m2
  | 6 => some e3m2
  | 7 => some e2m3
  | 8 => some e2m1
  | _ => none

/-- A format code names an MX format (codes 4 to 8). -/
def isMx (c : Nat) : Bool := decide (4 ≤ c) && decide (c ≤ 8)

/-- Element i of packed elements of w bits, bit 0 first (R77). -/
def unpackAt (w : Nat) (l : List Byte) (i : Nat) : Nat :=
  let b := i * w
  (leNat ((l.drop (b / 8)).take ((b % 8 + w + 7) / 8)) >>> (b % 8)) % 2 ^ w

/-- The number that packed elements spell (R77). -/
def packNat (w : Nat) : List Nat → Nat
  | [] => 0
  | v :: r => v % 2 ^ w + 2 ^ w * packNat w r

/-- Elements of w bits packed from bit 0 upwards into bytes (R77). -/
def packElems (w : Nat) (l : List Nat) : List Byte := leBytes ((w * l.length + 7) / 8) (packNat w l)

/-- The value of an element of an MX block under its E8M0 scale byte (R78). -/
def mxValue (f : Fmt) (scale v : Nat) : FV :=
  if scale = 0xFF then .nan false else (f.decode v).scale2 ((scale : Int) - 127)

/-- emax of a quantised element format (R82). -/
def emaxOf : Nat → Int
  | 4 => 8
  | 5 => 15
  | 6 => 4
  | 7 => 2
  | _ => 2

/-- The magnitude is larger: for the A of R82. -/
def largerMag (a b : Nat × Int) : Nat × Int :=
  let lo := min a.2 b.2
  if b.1 * 2 ^ (b.2 - lo).toNat > a.1 * 2 ^ (a.2 - lo).toNat then b else a

/-- Quantise one block to an MX format (R82, Table NF-2): the scale byte and the element codes. A NaN or infinity
makes the scale 0xFF and all elements 0. `rd` gives each element's rounding. -/
def mxQuant (code : Nat) (rd : Nat → Rounding) (vals : List FV) : Nat × List Nat :=
  let f := (fmtOf code).getD e4m3
  if vals.any (fun v => match v with | .fin _ _ _ => false | _ => true) then (0xFF, vals.map (fun _ => 0))
  else
    let a := vals.foldl (fun a v => match v with | .fin _ m e => if m = 0 then a else if a.1 = 0 then (m, e) else largerMag a (m, e) | _ => a) (0, 0)
    if a.1 = 0 then (0x7F, vals.zipIdx.map (fun p => f.encode (rd p.2) p.1))
    else
      let x := max (FV.expo a.1 a.2 - emaxOf code) (-127)
      ((x + 127).toNat, vals.zipIdx.map (fun p => f.encode (rd p.2) (p.1.scale2 (-x))))

/-! The generator of R84 and R85. -/

/-- The Philox-4x32 rounds still to run, from the round keys k0, k1. -/
def philoxRounds : Nat → Nat → Nat → (Nat × Nat × Nat × Nat) → Nat × Nat × Nat × Nat
  | 0, _, _, x => x
  | r + 1, k0, k1, (x0, x1, x2, x3) =>
    let p0 := 0xD2511F53 * x0
    let p1 := 0xCD9E8D57 * x2
    let y0 := ((p1 / 2 ^ 32) ^^^ x1) ^^^ k0
    let y2 := ((p0 / 2 ^ 32) ^^^ x3) ^^^ k1
    philoxRounds r ((k0 + 0x9E3779B9) % 2 ^ 32) ((k1 + 0xBB67AE85) % 2 ^ 32) (y0, p1 % 2 ^ 32, y2, p0 % 2 ^ 32)

/-- philox10 of R84: counter words and key words to four output words. -/
def philox10 (c : Nat × Nat × Nat × Nat) (k0 k1 : Nat) : Nat × Nat × Nat × Nat := philoxRounds 10 k0 k1 c

/-- The 16 random bits of element e under a job seed, a tensor identifier and a purpose code (R85). -/
def randBits (seed tid purpose e : Nat) : Nat :=
  let x := philox10 (bits e 34 3, bits e 63 35, tid % 2 ^ 32, purpose) (seed % 2 ^ 32) (bits seed 63 32)
  let lane := e % 8
  let w := match lane / 2 with
    | 0 => x.1
    | 1 => x.2.1
    | 2 => x.2.2.1
    | _ => x.2.2.2
  if lane % 2 = 0 then w % 65536 else w / 65536

/-! Exact block formats (R87 to R95). -/

/-- A block of 32 mantissas with its header (R87); `wide` is XB32, else XB16. -/
structure XBlock where
  wide : Bool
  m : List Int
  e : Nat
  g : Nat
  sat : Bool
  nan : Bool
  deriving DecidableEq, Repr

/-- A signed value limited to a magnitude. -/
def clampMag (lim : Nat) (v : Int) : Int := max (-(lim : Int)) (min (lim : Int) v)

/-- The largest XB32 and XB16 mantissa magnitudes. -/
def xbLim (wide : Bool) : Nat := if wide then 2147483647 else 32767

/-- The bytes of a block (R87). -/
def XBlock.bytes (b : XBlock) : List Byte :=
  (b.m.map (fun v => leBytes (if b.wide then 4 else 2) (unsext (if b.wide then 32 else 16) v))).flatten
    ++ leBytes 4 (b.e % 256 + 256 * (b.g % 32) + 8192 * b2n b.sat + 16384 * b2n b.nan)

/-- A block header is malformed (R88). -/
def headBad (wide : Bool) (e g rsv : Nat) : Bool := e == 0 || e == 255 || decide (16 < g) || (!wide && g != 16) || rsv != 0

/-- A block as the router treats it: with a malformed header as a block with NAN set (R88). -/
def XBlock.checked (b : XBlock) : XBlock := { b with nan := b.nan || headBad b.wide b.e b.g 0 }

/-- A block from its bytes; a malformed header reads as a block with NAN set (R88). -/
def XBlock.ofBytes (wide : Bool) (l : List Byte) : XBlock :=
  let w := if wide then 4 else 2
  let h := leAt l (32 * w) 4
  let e := bits h 7 0
  let g := bits h 12 8
  let bad := headBad wide e g (bits h 31 15)
  { wide := wide, m := (List.range 32).map (fun i => sext (8 * w) (leAt l (w * i) w)), e := e, g := g
    sat := bitAt h 13, nan := bitAt h 14 || bad }

/-- The local exponent of one member's FP32 contributions to a block (R89): zero and subnormal count as 1, NaNs and
infinities are ignored. -/
def localExp (xs : List Nat) : Nat :=
  xs.foldl (fun a x => let f := bits x 30 23; if f = 255 then a else max a (max f 1)) 1

/-- The guard of a reduction of N contributions (R89): the smallest G with 2^G at least N. -/
def guardOf (n : Nat) : Nat := if n ≤ 1 then 0 else bitLen (n - 1)

/-- m x 2^k rounded to an integer, ties to even (R80). -/
def intScale (v : Int) (k : Int) : Int := roundInt (decide (v < 0)) v.natAbs k

/-- The aligned mantissa of one FP32 contribution (R90), and whether it sets NAN. -/
def alignOne (e g x : Nat) : Int × Bool :=
  match f32 x with
  | .fin s m ex => (clampMag 2147483647 (roundInt s m (ex + 157 - (e : Int) - (g : Int))), false)
  | _ => (0, true)

/-- One member's aligned block (R90). -/
def alignBlock (e g : Nat) (xs : List Nat) : XBlock :=
  let l := xs.map (alignOne e g)
  { wide := true, m := l.map (·.1), e := e, g := g, sat := false, nan := l.any (·.2) }

/-- The sum of blocks of one E and G (R91): integer sums, saturated to the written width with SAT set; SAT and NAN
are the OR of all contributions'. -/
def sumBlocks (e g : Nat) (bs : List XBlock) : XBlock :=
  let s := (List.range 32).map (fun i => bs.foldl (fun a b => a + getAt 0 b.m i) 0)
  let ovr := s.any (fun v => decide (xbLim true < v.natAbs))
  { wide := true, m := s.map (clampMag (xbLim true)), e := e, g := g
    sat := ovr || bs.any (·.sat), nan := bs.any (·.nan) }

/-- The local exponent of a level-1 result for level 2, and whether the clamp at 254 acted (R93). -/
def narrowExp (b : XBlock) : Nat × Bool :=
  let big := b.m.foldl (fun a v => max a v.natAbs) 0
  if big = 0 then (1, false)
  else
    let x : Int := (bitLen big : Int) + (b.e : Int) + (b.g : Int) - 31
    ((max 1 (min 254 x)).toNat, decide (254 < x))

/-- Narrowing of a level-1 result to XB16 under the level-2 exponent (R93); the flags are carried over. -/
def narrowBlock (e2 : Nat) (b : XBlock) : XBlock :=
  let c := (narrowExp b).2
  let l := b.m.map (fun v => intScale v ((b.e : Int) + (b.g : Int) - (e2 : Int) - 16))
  { wide := false, m := l.map (clampMag 32767), e := e2, g := 16
    sat := b.sat || (c && l.any (fun v => decide (32767 < v.natAbs))), nan := b.nan }

/-- An XB16 block widened by sign extension (R94). -/
def widenBlock (b : XBlock) : XBlock := { b with wide := true }

/-- A result converted to a format (R95): exact value rounded once; NAN makes every element the canonical NaN. -/
def blockOut (f : Fmt) (b : XBlock) : List Nat :=
  if b.nan then b.m.map (fun _ => f.nan false)
  else b.m.map (fun v => f.encode .nearest (ofScaled false v ((b.e : Int) - 157 + (b.g : Int))))

/-! ## Check sums -/

/-- One byte of the reflected CRC-32 of IEEE 802.3. -/
def crcBits : Nat → Nat → Nat
  | 0, c => c
  | n + 1, c => crcBits n (if c % 2 = 1 then 0xEDB88320 ^^^ (c / 2) else c / 2)

/-- The CRC-32 of bytes (IEEE 802.3 polynomial; R32, R241, R359). -/
def crc32 (l : List Byte) : Nat := 0xFFFFFFFF ^^^ l.foldl (fun c b => crcBits 8 (c ^^^ b.toNat)) 0xFFFFFFFF

end Sys2Proof.Machine
end

