-- ==== Sys2Proof/Machine/Operands.lean ====
section
/-! DEFINITION. The operand forms: fields of step words (Tables ME-6, SF-1) and of stock descriptors (Tables ST-1 to
ST-3), the operand pairs of the matrix engine (Table ME-3), and reserved slots as their consumers read them (R130 to
R132). -/

namespace Sys2Proof.Machine

/-! ## Step words (R68, R97) -/

def swOp (w : Nat) : Nat := bits w 3 0
def swPlay (w : Nat) : Nat := bits w 7 4
def swCyc (w : Nat) : Nat := bits w 13 8
def swDelta (w : Nat) : Nat := bits w 31 16
def swWfmt (w : Nat) : Nat := bits w 35 32
def swAfmt (w : Nat) : Nat := bits w 39 36
def swOfmt (w : Nat) : Nat := bits w 43 40
def swNstg (w : Nat) : Nat := bits w 47 44
def swSrc (w : Nat) : Nat := bits w 69 48
def swDst (w : Nat) : Nat := bits w 91 70
def swAux1 (w : Nat) : Nat := bits w 113 92
def swAux2 (w : Nat) : Nat := bits w 135 114
def swRows (w : Nat) : Nat := bits w 146 136
def swFlip (w : Nat) : Bool := bitAt w 147
def swAcc (w : Nat) : Bool := bitAt w 148
def swLast (w : Nat) : Bool := bitAt w 149
def swProfile (w : Nat) : Nat := bits w 153 150
def swAstride (w : Nat) : Nat := bits w 165 154
def swDstride (w : Nat) : Nat := bits w 177 166
def swNcols (w : Nat) : Nat := bits w 185 178 + 1
def swPslot (w : Nat) : Nat := bits w 193 186
def swFills (w : Nat) : Nat := bits w 209 194

/-- The cycle of its trick in which a step word is due (R69, R96). A CYC of 48 or more may name a cycle behind the trick's
last: such a step is due once the cursor has moved on (DEDUCED, log 101). -/
def swDue (w : Nat) : Nat := 48 * swPlay w + swCyc w

/-- Reserved fields are 0, CYC lies below 48 and NSTG is at most 8 (R68, Table ME-6). -/
def swGood (w : Nat) : Bool :=
  bits w 15 14 == 0 && bits w 255 210 == 0 && decide (swCyc w < 48) && decide (bits w 47 44 ≤ 8)

/-- The step word is one of the vector unit (OP 8 to 15). -/
def swVector (w : Nat) : Bool := decide (8 ≤ swOp w)

def sfIfmt (w : Nat) : Nat := bits w 35 32
def sfOfmt (w : Nat) : Nat := bits w 39 36
def sfTab (w : Nat) : Nat := bits w 42 40
def sfMprog (w : Nat) : Nat := bits w 46 43
def sfNelem (w : Nat) : Nat := bits w 167 147
def sfSstride (w : Nat) : Nat := bits w 179 168
def sfDstride (w : Nat) : Nat := bits w 191 180
def sfNseed (w : Nat) : Nat := bits w 198 192
def sfPslot (w : Nat) : Nat := bits w 206 199
def sfValue (w : Nat) : Nat := bits w 222 207

/-- Reserved fields are 0, CYC below 48 and formats 0 or 1 (R97). -/
def sfGood (w : Nat) : Bool :=
  bits w 15 14 == 0 && bits w 47 47 == 0 && bits w 255 223 == 0 && decide (swCyc w < 48)
    && decide (sfIfmt w < 2) && decide (sfOfmt w < 2)

/-! ## Operand pairs (R48, R53) -/

/-- The operand pair that a weight and an activation format name (Table ME-3). -/
def pairOf (w a : Nat) : Option Nat :=
  let mxa := decide (4 ≤ a) && decide (a ≤ 7)
  if (w = 2 ∨ w = 3) ∧ (a = 2 ∨ a = 3) then some 1
  else if (w = 4 ∨ w = 5) ∧ mxa then some 2
  else if (w = 6 ∨ w = 7) ∧ mxa then some 3
  else if w = 8 ∧ mxa then some 4
  else if w = 8 ∧ a = 8 then some 5
  else if w = 1 ∧ a = 1 then some 6
  else none

/-- N of a pair. -/
def pairN (p : Nat) : Nat := if p = 5 then 256 else 128

/-- Weight row bytes of a pair (Table ME-3). -/
def pairWrow (p : Nat) : Nat := if p = 3 then 96 else if p = 4 then 64 else if p = 6 then 256 else 128

/-- Weight scale bytes of a pair (Table ME-3). -/
def pairWscale (p : Nat) : Nat := if p = 1 ∨ p = 6 then 0 else if p = 5 then 1024 else 512

/-- Weight set bytes of a pair (Table ME-3). -/
def pairSet (p : Nat) : Nat := 128 * pairWrow p + pairWscale p

/-- Activation row bytes of an activation format (Table ME-3). -/
def actRow (a : Nat) : Nat :=
  if a = 1 then 256 else if a = 4 ∨ a = 5 then 132 else if a = 6 ∨ a = 7 then 100 else if a = 8 then 68 else 128

/-- Cycles per row of a pair (Table ME-3). -/
def pairR (p : Nat) : Nat := if p = 6 then 2 else 1

/-- Drain cycles per row of a pair (R53). -/
def pairD (p : Nat) : Nat := if p = 5 then 2 else 1

/-- Bytes of one element of an output format, in bits. -/
def fmtBits (c : Nat) : Nat := ((fmtOf c).map Fmt.width).getD 8

/-! ## Stock descriptors (R143, R144) -/

/-- The descriptor at a place of a stock bank, as bytes. -/
def dsBytes (w : BitVec 512) : Nat := w.toNat

def dsKind (w : Nat) : Nat := bits w 3 0
def dsClass (w : Nat) : Nat := bits w 6 4
def dsWfill (w : Nat) : Bool := bitAt w 7
def dsPlay (w : Nat) : Nat := bits w 11 8
def dsCyc (w : Nat) : Nat := bits w 17 12
def dsDbgate (w : Nat) : Bool := bitAt w 18
def dsSlotaDst (w : Nat) : Bool := bitAt w 19
def dsLead (w : Nat) : Nat := bits w 27 20
def dsDelta (w : Nat) : Nat := bits w 47 32
def dsSlota (w : Nat) : Nat := bits w 55 48
def dsSlotb (w : Nat) : Nat := bits w 63 56
def dsSrc (w : Nat) : Nat := bits w 127 64
def dsDst (w : Nat) : Nat := bits w 191 128
def dsRowbytes (w : Nat) : Nat := bits w 223 192
def dsRows (w : Nat) : Nat := bits w 239 224
def dsFtag (w : Nat) : Nat := bits w 255 240
def dsSstride (w : Nat) : Nat := bits w 287 256
def dsDstride (w : Nat) : Nat := bits w 319 288
def dsFaddr (w : Nat) : Nat := bits w 383 320
/-- Bytes 48 to 63, the kind-specific part. -/
def dsTail (w : Nat) : Nat := bits w 511 384
def dsDue (w : Nat) : Nat := 48 * dsPlay w + dsCyc w

/-- EDGE: valid rows, valid bytes, offset of the scales, number of scale bytes. -/
def dsVrows (w : Nat) : Nat := bits w 399 384
def dsVbytes (w : Nat) : Nat := bits w 431 400
def dsScoff (w : Nat) : Nat := bits w 447 432
def dsNvblk (w : Nat) : Nat := bits w 463 448
/-- GATHER: page base, shift and offset. -/
def dsPbase (w : Nat) : Nat := bits w 447 384
def dsPshift (w : Nat) : Nat := bits w 455 448
def dsPoff (w : Nat) : Nat := bits w 511 480
/-- REFILL: target. PSWAP: SAME. -/
def dsTarget (w : Nat) : Nat := bits w 391 384

/-! ## Reserved slots (R130 to R132) -/

/-- What a consumer meets at a slot: it is unnamed, it holds the consumer back, or it gives a value; `empty` says
that a ZERO slot was read while FULL was 0. -/
inductive SlotRead where
  | unnamed
  | wait
  | value (v : Nat) (empty : Bool)
  deriving DecidableEq, Repr

/-- The outcome of reading a slot under its policy (Table HD-6). -/
def slotRead (x : Slot) : SlotRead :=
  if !x.named then .unnamed
  else if x.policy = 2 then .value x.value.toNat false
  else if x.full then .value x.value.toNat false
  else if x.policy = 1 then .value 0 true
  else .wait

/-- The slot after a read that gave a value: HOLD and ZERO lose FULL. -/
def slotAfter (x : Slot) : Slot := if x.policy = 2 then x else { x with full := false }

/-- Slot n of a tile. -/
def getSlot (d : Dev) (t n : Nat) : Slot := tget Slot.z (getTile d t).slots n

/-- Read slot n of a tile; number 0 names none. -/
def readSlot (d : Dev) (t n : Nat) : SlotRead := slotRead (getSlot d t n)

/-- Consume slot n of a tile; number 0 names none. -/
def takeSlot (t n : Nat) (d : Dev) : Dev :=
  if n = 0 then d
  else modTile t (fun x => { x with slots := tset Slot.z x.slots n (slotAfter (tget Slot.z x.slots n)) }) d

/-- A numbered slot holds its consumer back. -/
def slotWaits (d : Dev) (t n : Nat) : Bool := n != 0 && readSlot d t n == .wait

/-- A numbered slot is unnamed. -/
def slotUnnamed (d : Dev) (t n : Nat) : Bool := n != 0 && readSlot d t n == .unnamed

/-- The value of a numbered slot, 0 when there is none. -/
def slotValue (d : Dev) (t n : Nat) : Nat :=
  match readSlot d t n with
  | .value v _ => v
  | _ => 0

/-- SLOTW performed: the value is written and FULL set (R134). -/
def fillSlot (t n : Nat) (v : Dword) (d : Dev) : Dev :=
  modTile t (fun x =>
    { x with slots := tset Slot.z x.slots n { tget Slot.z x.slots n with next := some v } }) d

/-- The cycle's writes of slots, after its reads (R133). -/
def Slot.settle (x : Slot) : Slot :=
  match x.next with
  | some v => { x with value := v, full := true, next := none }
  | none => x
def settleSlots (t : Nat) (d : Dev) : Dev :=
  if (getTile d t).slots.any (fun p => p.2.next.isSome) then
    modTile t (fun x => { x with slots := x.slots.map (fun p => (p.1, p.2.settle)) }) d
  else d

end Sys2Proof.Machine
end

