-- ==== Sys2Proof/Machine/Flags.lean ====
section
/-! DEFINITION. Barrier flags and who produces them (R160, R161, R163), the stall counters that a wait is charged to,
when a tile's paths may start, and the flags and records that a fault of a path leaves (R73, R111, R164). -/

namespace Sys2Proof.Machine

/-! ## Barrier flags (R160, R161) -/

/-- The word of a barrier flag: TAG in bits [15:0], INDEX in bits [63:16]. -/
def flagWord (tag index : Nat) : Nat := tag % 2 ^ 16 + 2 ^ 16 * (index % 2 ^ 48)

/-- The flag passes for an expected value at a deal cursor (R160). -/
def flagPasses (word v cursor : Nat) : Bool :=
  word % 2 ^ 16 == v % 2 ^ 16 && decide (cursor % 2 ^ 48 ≤ word / 2 ^ 16 % 2 ^ 48)

/-- The global address of byte o of a tile's SRAM on this device (R13, R17). -/
def sramGlobal (d : Dev) (t o : Nat) : Nat := myDev d * 2 ^ 49 + sramAddr t o

/-- The flag at an SRAM offset of a tile passes. -/
def tileFlagPasses (d : Dev) (t o v cursor : Nat) : Bool := flagPasses (readNat d (sramAddr t o) 8) v cursor

/-! ## When a tile's paths may start -/

/-- The partition and deal cursor of a tile whose job runs, whose tile is not debug-halted and whose domain is on
(R39, R43, R335, R357). -/
def tileGo (d : Dev) (t : Nat) : Option (Nat × Nat) :=
  match tilePart d t with
  | some q =>
    if jobRuns d q && !d.body.tileHalt.contains t && (getEighth d (t / 18)).domain == .on then
      some (q, (getJob d q).cursor)
    else none
  | none => none

/-- The cycle of its trick up to which the work of the cursor's deal trick is due: in a late trick's followers all of
it, since what was due stays due (R39, R69). -/
def dueLim (d : Dev) (q : Nat) : Nat := if (getJob d q).stall = 0 then d.time.phase else 767

/-- A step or descriptor of a deal trick, due at a cycle of its trick, is due (R31, R69, R141). -/
def isDue (lim deal cursor cycle : Nat) : Bool :=
  decide (deal < cursor) || (deal == cursor && decide (cycle ≤ lim))

/-- The duty that applies (R354): the lower of the limiter's and the thermal duty. -/
def duty (d : Dev) : Nat := min d.power.pduty d.power.tduty

/-- The paths pause in this cycle: only the first D of every 16 cycles advance them (R354). -/
def gatedCycle (d : Dev) : Bool := decide (duty d ≤ d.time.phase % 16)

/-- Unfinished compute work is late with cause COMPUTE, or POWER in a trick in which the paths were gated (R41, R354). -/
def computeCause (d : Dev) : Nat := if d.body.tb.gated then 4 else 1

/-! ## Faults of the paths -/

/-- A fault of the matrix engine or vector unit path (R73). -/
def meFault (t : Nat) (at_ : StepRef) (code : Nat) (d : Dev) : Dev :=
  let d := modMe t (fun m => { m with faulted := true }) d
  let d := ctlSetN (regOff 16 t 0x48) (code % 256 + 256 * (at_.idx % 1024) + 2 ^ 18 * (at_.bank % 2)) d
  let d := event 16 t 0 d
  match tilePart d t with
  | some q => haltFor q 4 d
  | none => d

/-- A fault of the special function path (R111). -/
def sfFault (t : Nat) (at_ : StepRef) (code : Nat) (d : Dev) : Dev :=
  let d := modSf t (fun m => { m with faulted := true }) d
  let d := ctlSetN (regOff 17 t 0x44) (code % 256 + 256 * (at_.idx % 512) + 2 ^ 17 * (at_.bank % 2)) d
  let d := event 17 t 0 d
  match tilePart d t with
  | some q => haltFor q 4 d
  | none => d

/-- A fault of the stock path (R164), with the faulting address or 0. -/
def stFault (t : Nat) (at_ : StepRef) (code addr : Nat) (d : Dev) : Dev :=
  let d := modSt t (fun m => { m with faulted := true }) d
  let d := ctlSetN (regOff 20 t 0x44) (code % 256 + 256 * (at_.idx % 512) + 2 ^ 17 * (at_.bank % 2)) d
  let d := ctlSetPair (regOff 20 t 0x50) (addr % 2 ^ 64) d
  let d := event 20 t 0 d
  match tilePart d t with
  | some q => haltFor q 4 d
  | none => d

/-! ## The stock's program order -/

/-- Descriptor at a place of a stock bank, as the stock sees it. -/
def stWord (x : StSt) (bank idx : Nat) : Nat := (tget 0 x.prog.seen (512 * bank + idx)).toNat

/-- The descriptors still to start, in execution order through bank ends and PSWAPs, at most `fuel` of them. -/
def stAhead (x : StSt) : Nat → Nat → Nat → List Nat
  | 0, _, _ => []
  | f + 1, bank, idx =>
    if 512 ≤ idx then stAhead x f (1 - bank) 0
    else
      let w := stWord x bank idx
      if dsKind w = 6 then
        stAhead x f (if dsTarget w = 1 then bank else 1 - bank) 0
      else w :: stAhead x f bank (idx + 1)

/-! ## Producers and stall counters (R163, Table ST-6) -/

/-- Who produces what a step waits for. -/
inductive Producer where
  | transfer (x : Transfer)
  | ahead
  | foreign
  deriving DecidableEq, Repr

/-- The bank (0 A, 1 B) of a tile's own SRAM that a global address lies in, if it does. -/
def fillBank (d : Dev) (t addr : Nat) : Option Nat :=
  if gDev addr = myDev d ∧ sramAddr t 0 ≤ gOff addr ∧ gOff addr < sramAddr t 0x100000 then
    some ((gOff addr - sramAddr t 0) / 0x80000)
  else none

/-- The producer of a fill of a bank. -/
def fillProducer (d : Dev) (t bank : Nat) : Producer :=
  let x := getSt d t
  match x.xfers.find? (fun y => y.wfill && fillBank d t y.dst == some bank) with
  | some y => .transfer y
  | none =>
    if (stAhead x 1026 x.aprog x.pc).any (fun w => dsWfill w && fillBank d t (dsDst w) == some bank) then .ahead
    else .foreign

/-- The producer of the flag at a global address. -/
def flagProducer (d : Dev) (t addr : Nat) : Producer :=
  let x := getSt d t
  match x.xfers.find? (fun y => y.faddr == addr) with
  | some y => .transfer y
  | none =>
    if (stAhead x 1026 x.aprog x.pc).any (fun w => dsFaddr w == addr && dsKind w != 7) then .ahead else .foreign

/-- Every request of a transfer has been issued. -/
def allIssued (y : Transfer) : Bool :=
  decide (y.rows ≤ y.row)

/-- A waiting packet carries a request of a transfer of a tile's stock. -/
def pktOf (d : Dev) (t : Nat) (y : Transfer) (p : TxPkt) : Bool :=
  let mine (u id : Nat) : Bool := u == t && (getSt d t).reqs.any (fun r => r.id == id && r.xfer == y.id)
  match tget none d.body.tags p.pkt.tag.toNat with
  | some (.stockRead u id _) => mine u id
  | some (.stockWrite u id) => mine u id
  | _ => false

/-- The transfer has issued a request in this cycle, so that it still held one as the cycle began. -/
def issuedNow (d : Dev) (t : Nat) (y : Transfer) : Bool :=
  let x := getSt d t
  x.lastReq == some (now d) &&
    ((x.reqs.filter (fun r => !r.flag && x.xfers.any (fun z => z.id == r.xfer))).getLast?.map (·.xfer)) == some y.id

/-- The stall counter of a producer, by its offset in the stock page (Table ST-6, in order). The cycle in which a transfer
issues its last request counts as one in which it holds requests (Example ST-1). -/
def stallCounter (d : Dev) (t : Nat) : Producer → Nat
  | .foreign => 0x98
  | .ahead => 0x88
  | .transfer y =>
    let x := getSt d t
    if y.held then 0x90
    else if y.kind = 3 ∧ y.entries.length < y.rows then 0x94
    else if d.body.tx.any (fun p => p.stream == .cls t y.cls && pktOf d t y p) then 0x8C
    else if !allIssued y || issuedNow d t y || x.reqs.any (fun r => r.xfer == y.id && r.stage == .held) then 0x84
    else 0x80

/-- The cause of Table TB-4 for a wait on a producer: STOCK from the tile's own stock, else BARRIER (R58). -/
def waitCause : Producer → Nat
  | .foreign => 5
  | _ => 2

end Sys2Proof.Machine
end

