-- ==== Sys2Proof/Machine/TableFn.lean ====
section
/-! DEFINITION. Function tables and micro-programs of a tile's data pages (R99, R100, R103, R104), as pure functions of
the stored words. -/

namespace Sys2Proof.Machine

/-- A data page word as a number, by word index. -/
def dataWord (data : Tbl Word) (i : Nat) : Nat := (tget 0 data i).toNat

/-- A table's descriptor word 0 fields and lines (Table SF-3), at word index 0x800 t. -/
def tabHead (data : Tbl Word) (t : Nat) : Nat := dataWord data (0x800 * t)
def tabLo (h : Nat) : Nat := bits h 7 0
def tabHi (h : Nat) : Nat := bits h 15 8
def tabM (h : Nat) : Nat := bits h 18 16
def tabSign (h : Nat) : Nat := bits h 20 19

/-- A descriptor is valid (R99). -/
def tabValid (data : Tbl Word) (t : Nat) : Bool :=
  let h := tabHead data t
  let n := (tabHi h - tabLo h + 1) * 2 ^ tabM h
  bitAt h 21 && tabSign h != 3 && tabLo h != 0 && tabLo h != 255 && decide (tabLo h ≤ tabHi h)
    && decide (tabHi h ≤ 254) && decide (tabM h ≤ 4) && bits h 31 22 == 0 && dataWord data (0x800 * t + 7) == 0
    && decide (n ≤ 256) && (tabSign h != 0 || decide (n ≤ 128))

/-- A line y = a + b x as one fused multiply-add; an infinite x gives a when b is 0 (R100). -/
def tabLine (a b x : Nat) : Nat :=
  match f32 x with
  | .inf _ => if (f32 b).isZero then a else f32mul b x
  | _ => f32fma b x a

/-- Evaluation at x under SPLIT, or at |x| under ODD and EVEN (R100 steps 2 to 4). -/
def tabCore (data : Tbl Word) (t x : Nat) : Nat :=
  let h := tabHead data t
  let base := 0x800 * t
  let neg := bitAt x 31
  let e := bits x 30 23
  let m := tabM h
  if tabLo h ≤ e ∧ e ≤ tabHi h then
    let k := (e - tabLo h) * 2 ^ m + bits x 22 0 / 2 ^ (23 - m) + (if tabSign h = 0 ∧ neg then 128 else 0)
    let s := x % 2 ^ 31 / 2 ^ (23 - m) * 2 ^ (23 - m)
    let u := f32sub (x % 2 ^ 31) s
    let c (i : Nat) : Nat := dataWord data (base + 0x400 + 4 * k + i)
    f32fma (f32fma (f32fma (c 3) u (c 2)) u (c 1)) u (c 0)
  else
    let i := if e < tabLo h then 1 else if neg then 5 else 3
    tabLine (dataWord data (base + i)) (dataWord data (base + i + 1)) x

/-- Table function t at an FP32 value (R100); none when the descriptor is invalid. A NaN gives the canonical NaN of the
input's sign (R79). -/
def tabEval (data : Tbl Word) (t x : Nat) : Option Nat :=
  if !tabValid data t then none
  else if (f32 x).isNan then some (toF32 (f32 x))
  else
    match tabSign (tabHead data t) with
    | 0 => some (tabCore data t x)
    | 1 =>
      let y := tabCore data t (x % 2 ^ 31)
      some (if bitAt x 31 then toF32 (f32 y).negate else y)
    | _ => some (tabCore data t (x % 2 ^ 31))

/-! ## Micro-programs (R103, R104) -/

/-- Micro-step i of program p. -/
def mpStep (data : Tbl Word) (p i : Nat) : Nat := dataWord data (0x4000 + 0x40 * p + 8 + i)

/-- A micro-step is well-formed (R103). -/
def mpGood (w : Nat) : Bool :=
  let kind := bits w 2 0
  let dd := bits w 5 3
  let a := bits w 9 6
  let b := bits w 13 10
  let c := bits w 17 14
  let mode := bits w 20 18
  bits w 31 21 == 0 &&
    match kind with
    | 0 => mode == 0
    | 1 => decide (mode ≤ 2) && c == 0 && (mode == 2 || b == 0)
    | 2 => b == 0 && c == 0
    | 3 => decide (mode ≤ 3)
    | 4 => mode == 0 && dd == 0 && a == 0 && b == 0 && c == 0
    | _ => false

/-- The micro-steps of a program before its END, or none where R103 refuses it. -/
def mpList (data : Tbl Word) (p : Nat) : Nat → Nat → Option (List Nat)
  | 0, _ => none
  | f + 1, i =>
    let w := mpStep data p i
    if !mpGood w then none
    else if bits w 2 0 = 4 then some []
    else (mpList data p f (i + 1)).map (fun r => w :: r)

/-- XTR MANT (R104). -/
def xtrMant (a : Nat) : Nat :=
  match f32 a with
  | .fin s m e => if m = 0 then a else toF32 (.fin s m (e - FV.expo m e))
  | .nan s => toF32 (.nan s)
  | .inf _ => f32nan

/-- XTR EXPO (R104). -/
def xtrExpo (a : Nat) : Nat :=
  match f32 a with
  | .fin _ m e => if m = 0 then toF32 (FV.ofInt (-150)) else toF32 (FV.ofInt (FV.expo m e))
  | .nan s => toF32 (.nan s)
  | .inf _ => f32nan

/-- XTR SCALE (R104): n is B rounded to an integer and clamped to ±512. B a NaN gives the NaN of R79; an infinite B
clamps. -/
def xtrScale (a b : Nat) : Nat :=
  match f32 a, f32 b with
  | .nan s, _ => toF32 (.nan s)
  | _, .nan s => toF32 (.nan s)
  | x, .inf s => toF32 (x.scale2 (if s then -512 else 512))
  | x, .fin s m e => toF32 (x.scale2 (max (-512) (min 512 (roundInt s m e))))

/-- CMP (R104). -/
def mpCmp (mode a b : Nat) : Bool :=
  let x := f32 a
  let y := f32 b
  match mode with
  | 0 => FV.lt x y
  | 1 => FV.lt x y || FV.eq x y
  | 2 => FV.eq x y
  | _ => x.isNan || y.isNan

/-- Run micro-steps on the registers v0 to v7; k gives the constants. None where a table is invalid. -/
def mpRun (data : Tbl Word) (k : Nat → Nat) : List Nat → List Nat → Option Nat
  | [], v => some (getAt 0 v 0)
  | w :: r, v =>
    let opnd (i : Nat) : Nat := if i < 8 then getAt 0 v i else k (i - 8)
    let dd := bits w 5 3
    let a := opnd (bits w 9 6)
    let b := opnd (bits w 13 10)
    let c := opnd (bits w 17 14)
    let mode := bits w 20 18
    let y : Option Nat := match bits w 2 0 with
      | 0 => some (f32fma a b c)
      | 1 => some (if mode = 0 then xtrMant a else if mode = 1 then xtrExpo a else xtrScale a b)
      | 2 => tabEval data mode a
      | _ => some (if mpCmp mode a b then c else getAt 0 v dd)
    match y with
    | none => none
    | some z => mpRun data k r (setAt v dd z)

/-- Constant k_i of program p. -/
def mpConst (data : Tbl Word) (p i : Nat) : Nat := dataWord data (0x4000 + 0x40 * p + i)

end Sys2Proof.Machine
end

