-- ==== Sys2Proof/Machine/Matrix.lean ====
section
/-! DEFINITION. The matrix engine, its drain chain and the vector unit of a tile (spec/03_matrix_engine.md, R45 to
R75), with the attention entries (spec/08_attention.md, R177 to R185). A row of the table starts or ends the path's
next step; a step that is not that one, not due or that waits changes nothing. -/

namespace Sys2Proof.Machine

/-! ## The path (R31, R68 to R70) -/

/-- A step found ahead of a path: its place, its word, the NOPs and the bank changes passed on the way. -/
structure Found where
  ref : StepRef
  word : Nat
  nops : Nat
  swaps : Nat
  deriving DecidableEq, Repr

/-- The step word at a place, as the engine sees it. -/
def meWord (m : MeSt) (bank idx : Nat) : Nat := (tget 0 m.prog.seen (1024 * bank + idx)).toNat

/-- A NOP that takes effect: reserved fields and PSLOT are 0 (R68, R69). -/
def nopGood (w : Nat) : Bool := swGood w && swPslot w == 0

/-- Walk the matrix engine path from a place: vector steps are passed over, and so are due NOPs with `skip`, which take
no time and have no effect; behind the last step of a bank the path goes on in the other (R70). Answers where the walk
stops, and whether it stops at a step whose deal trick the cursor has reached. -/
def walkMe (m : MeSt) (skip : Bool) (lim cursor : Nat) : Nat → Nat → Nat → Nat → Nat → Nat → Found × Bool
  | 0, bank, idx, base, nops, swaps => (⟨⟨bank, idx, base⟩, 0, nops, swaps⟩, false)
  | f + 1, bank, idx, base, nops, swaps =>
    if 1024 ≤ idx then
      (if m.prog.pend then (⟨⟨bank, idx, base⟩, 0, nops, swaps⟩, false)
      else walkMe m skip lim cursor f (1 - bank) 0 base nops (swaps + 1))
    else
      let w := meWord m bank idx
      let deal := base + swDelta w
      if cursor < deal then (⟨⟨bank, idx, base⟩, 0, nops, swaps⟩, false)
      else if swVector w then walkMe m skip lim cursor f bank (idx + 1) deal nops swaps
      else if swOp w = 0 ∧ skip ∧ nopGood w ∧ isDue lim deal cursor (swDue w) then
        walkMe m skip lim cursor f bank (idx + 1) deal (nops + 1) swaps
      else (⟨⟨bank, idx, deal⟩, w, nops, swaps⟩, true)

/-- The next step of the matrix engine path whose deal trick the cursor has reached. -/
def scanMe (m : MeSt) (skip : Bool) (lim cursor : Nat) : Option Found :=
  let r := walkMe m skip lim cursor 2049 m.aprog m.pc m.base 0 0
  if r.2 then some r.1 else none

/-- The next step of the vector path: it passes over the other path's steps and follows the bank changes that the
matrix engine path has made (R69, R70). -/
def scanVec (m : MeSt) (cursor : Nat) : Nat → Nat → Nat → Nat → Nat → Option Found
  | 0, _, _, _, _ => none
  | f + 1, bank, idx, base, swaps =>
    if 1024 ≤ idx then
      (if m.vswaps + swaps < m.swaps then scanVec m cursor f (1 - bank) 0 base (swaps + 1) else none)
    else
      let w := meWord m bank idx
      let deal := base + swDelta w
      if cursor < deal then none
      else if swVector w then some ⟨⟨bank, idx, deal⟩, w, 0, swaps⟩
      else if swOp w = 4 then
        (if m.vswaps + swaps < m.swaps then
          scanVec m cursor f (if swFills w = 1 then bank else 1 - bank) 0 deal (swaps + 1)
        else none)
      else scanVec m cursor f bank (idx + 1) deal swaps

/-- The due step of the matrix engine path of a tile whose path runs: partition, cursor and step. -/
def meNext (d : Dev) (t : Nat) (skip : Bool) : Option (Nat × Nat × Found) :=
  match tileGo d t with
  | none => none
  | some (q, c) =>
    let m := getMe d t
    if !m.run || m.faulted then none
    else match scanMe m skip (dueLim d q) c with
      | none => none
      | some f => if isDue (dueLim d q) f.ref.deal c (swDue f.word) then some (q, c, f) else none

/-- The engine with its matrix engine path past what the walk passes: vector steps, the end of a bank and, with `skip`,
due NOPs, which count as completed. The base stays the deal trick of the last step passed. -/
def standMe (skip : Bool) (lim cursor : Nat) (m : MeSt) : MeSt :=
  let r := (walkMe m skip lim cursor 2049 m.aprog m.pc m.base 0 0).1
  { m with
    aprog := r.ref.bank, pc := r.ref.idx, base := r.ref.deal - swDelta r.word
    swaps := m.swaps + r.swaps, steps := (m.steps + r.nops) % 2 ^ 64 }

/-- Let the matrix engine path of a tile whose path runs stand at its next step. -/
def standTile (skip : Bool) (t : Nat) (d : Dev) : Dev :=
  match tileGo d t with
  | none => d
  | some (q, c) =>
    let m := getMe d t
    if !m.run || m.faulted then d else modMe t (standMe skip (dueLim d q) c) d

/-- The due step of the vector path. -/
def vecNext (d : Dev) (t : Nat) : Option (Nat × Nat × Found) :=
  match tileGo d t with
  | none => none
  | some (q, c) =>
    let m := standMe true (dueLim d q) c (getMe d t)
    if !m.run || m.faulted then none
    else match scanVec m c 2049 m.vbank m.vpc m.vbase 0 with
      | none => none
      | some f => if isDue (dueLim d q) f.ref.deal c (swDue f.word) then some (q, c, f) else none

/-- The path has reached the end of a bank and waits there, as a PSWAP to the other bank waits, for accepted writes to
become visible (R70). -/
def meAtEnd (d : Dev) (t : Nat) : Bool :=
  match tileGo d t with
  | none => false
  | some (q, c) =>
    let m := getMe d t
    m.run && !m.faulted && m.prog.pend
      && decide (1024 ≤ (walkMe m true (dueLim d q) c 2049 m.aprog m.pc m.base 0 0).1.ref.idx)

/-- Move the matrix engine path past a step; steps passed over count as completed. -/
def meAdvance (t : Nat) (f : Found) (d : Dev) : Dev :=
  modMe t (fun m =>
    { m with aprog := f.ref.bank, pc := f.ref.idx + 1, base := f.ref.deal, swaps := m.swaps + f.swaps
             steps := (m.steps + f.nops) % 2 ^ 64 }) d

/-- Move the vector path past a step. -/
def vecAdvance (t : Nat) (f : Found) (d : Dev) : Dev :=
  modMe t (fun m =>
    { m with vbank := f.ref.bank, vpc := f.ref.idx + 1, vbase := f.ref.deal, vswaps := m.vswaps + f.swaps }) d

/-- Count a completed step of the matrix engine path in `ME_STEPS` (Table ME-12). -/
def meCount (t : Nat) (d : Dev) : Dev := modMe t (fun m => { m with steps := (m.steps + 1) % 2 ^ 64 }) d

/-- The step cannot be read: a reserved field, CYC above 47, a reserved OP, or PSLOT on a NOP (R68, R69). -/
def meBad (w : Nat) : Bool := !swGood w || swOp w == 6 || swOp w == 7 || (swOp w == 0 && swPslot w != 0)

/-! ## What a step waits for (R54, R55, R57, R58, R69, R70, R132) -/

inductive PathWait where
  | unit
  | shift
  | fill (bank : Nat)
  | flag (addr : Nat)
  | visible
  | slot
  deriving DecidableEq, Repr

/-- The attention entry of a profile and its fields (Table AT-8). -/
def atProf (d : Dev) (t p : Nat) : Nat := ctlNat d (regOff 19 t (0x80 + 4 * p))
def atMode (w : Nat) : Nat := bits w 2 0
def atMslot (w : Nat) : Nat := bits w 12 5
def atPartner (w : Nat) : Nat := bits w 16 13

/-- The mask slot that a COMPUTE reads: none where the entry's mode is OFF (R177, R178). -/
def meMslot (d : Dev) (t w : Nat) : Nat :=
  let e := atProf d t (swProfile w)
  if atMode e = 0 then 0 else atMslot e

/-- Cycles from one row of a COMPUTE to the next: into the array, and out of the drain chain (R53). -/
def rowPace (v : StepEnv) : Nat := if swLast v.word then max (pairR v.pair) (pairD v.pair) else pairR v.pair

/-- The cycle in which a running step reads row i (R53, R74). -/
def readCycle (r : StepRun) (i : Nat) : Nat :=
  if swVector r.env.word then r.start + (if swWfmt r.env.word = 0 then i else i / 2) else r.start + i * pairR r.env.pair

/-- The cycle in which row i of a running step leaves the unit (R53, R74). -/
def outCycle (r : StepRun) (i : Nat) : Nat :=
  if swVector r.env.word then readCycle r i + 6
  else r.start + 132 + (if swLast r.env.word then 3 * swNstg r.env.word else 0) + i * rowPace r.env

/-- The step writes its output transposed (R425). -/
def transposed (v : StepEnv) : Bool := !swVector v.word && swLast v.word && bitAt v.entry 17

/-- The cycle in which row i of a running step is written: a transposed step writes 128 cycles after its last row. -/
def landCycle (r : StepRun) (i : Nat) : Nat :=
  if transposed r.env then outCycle r (r.env.rows - 1) + 128 else outCycle r i

/-- The last cycle of a running step (R53, R74, R179), or that of its fault. -/
def endCycle (r : StepRun) : Nat :=
  match r.fault with
  | some (_, c) => c
  | none =>
    if r.skip then r.start
    else if swVector r.env.word then
      r.start + (if swWfmt r.env.word = 0 then r.env.rows else ceilDiv r.env.rows 2) + 5
    else landCycle r (r.env.rows - 1)

/-- The cycle from which the array takes the next COMPUTE's first row (R53). -/
def freeCycle (r : StepRun) : Nat := if r.skip then r.start + 1 else r.start + r.env.rows * rowPace r.env

/-- The array is busy: a COMPUTE has not yet let the next one's first row in (R53, R69). -/
def arrayBusy (d : Dev) (m : MeSt) : Bool :=
  decide (now d < m.arrayFree) || m.computes.any (fun c => decide (now d < freeCycle c))

/-- The shift unit is busy, or its SHIFT has completed in this very cycle (R69). -/
def shiftBusy (d : Dev) (m : MeSt) : Bool := m.shift.isSome || decide (now d < m.shiftFree)

/-- The back bank's fill count (R57). -/
def backFill (m : MeSt) : Nat := if m.front = 0 then m.fillB else m.fillA

/-- What keeps a due matrix engine step from starting. -/
def meWait (d : Dev) (t cursor w : Nat) : Option PathWait :=
  let m := getMe d t
  match swOp w with
  | 1 => if shiftBusy d m then some .shift else none
  | 2 =>
    if arrayBusy d m then some .unit
    else if swFlip w ∧ shiftBusy d m then some .shift
    else if slotWaits d t (swPslot w) || slotWaits d t (meMslot d t w) then some .slot
    else none
  | 3 =>
    if shiftBusy d m then some .shift
    else if backFill m < swFills w then some (.fill (1 - m.front)) else none
  | 4 => if m.prog.pend ∧ swFills w = 0 then some .visible else none
  | 5 =>
    let o := swAux1 w
    if o % 8 ≠ 0 ∨ 0x300000 < o + 8 ∨ poisoned d (sramAddr t o) 8 then none
    else if tileFlagPasses d t o (swFills w) cursor then none else some (.flag (sramGlobal d t o))
  | _ => none

/-- Take the path's due step if it is one of an operation: a step that cannot be read faults with BAD_STEP, and so
does PSLOT on a step that does not read it; a step of another operation, or one that waits, is left. -/
def meTake (op t : Nat) (skip : Bool) (k : Nat → Nat → Found → Dev → Dev) (d : Dev) : Dev :=
  match (if gatedCycle d then none else meNext d t skip) with
  | none => d
  | some (q, c, f) =>
    if meBad f.word then meFault t f.ref 1 d
    else if swOp f.word ≠ op then d
    else if op ≠ 2 ∧ swPslot f.word ≠ 0 then meFault t f.ref 1 d
    else if (meWait d t c f.word).isSome then d
    else k q c f d

/-! ## Reads of tile SRAM by steps (R47, R66, R128) -/

/-- n bytes of a tile's SRAM as a step reads them; none where a word read is poisoned (R47). -/
def sramRead (d : Dev) (t o n : Nat) : Option (List Byte) :=
  if poisoned d (sramAddr t o) n then none else some (readBytes d (sramAddr t o) n)

/-- Every extent (offset, bytes) lies within the tile's SRAM (R66). -/
def inSram (l : List (Nat × Nat)) : Bool := l.all (fun e => decide (e.1 + e.2 ≤ 0x300000))

/-- Count the corrected single-bit errors of the extents that a step reads (R47). -/
def noteReads (t : Nat) (l : List (Nat × Nat)) (d : Dev) : Dev :=
  l.foldl (fun x e => noteRead (sramAddr t e.1) e.2 x) d

/-! ## SHIFT (R50, R54 to R56) -/

/-- End a SHIFT: the engine is at a shift boundary, so writes that waited for one may become visible at the next trick
boundary (R56, R71). -/
def atShiftBoundary (t : Nat) (d : Dev) : Dev :=
  let see {n : Nat} (p : Prog n) : Prog n :=
    { p with waits := p.waits.map (fun w => if w.shift then { w with shift := false, trick := d.time.trick } else w) }
  modTile t (fun x => { x with me := { x.me with prog := see x.me.prog }, sf := { x.sf with prog := see x.sf.prog } }) d

/-- The cycle in which a SHIFT copies its 128th row, or meets its fault. -/
def shiftEnd (r : ShiftRun) : Nat := if r.bad then r.start + r.got else r.start + 127

/-- Copy one weight row, with the scale bytes of the K block that it begins (R54). -/
def copyRow (d : Dev) (t : Nat) (r : ShiftRun) : ShiftRun :=
  let n := pairWrow r.pair
  let sc := if isMx r.wfmt ∧ r.got % 32 = 0 then pairN r.pair else 0
  match sramRead d t (r.src + n * r.got) n, sramRead d t (r.src + 128 * n + pairN r.pair * (r.got / 32)) sc with
  | some w, some b => { r with got := r.got + 1, weights := r.weights ++ w, scales := r.scales ++ b }
  | _, _ => { r with bad := true }

/-- Copy the rows of a SHIFT whose cycle has come, up to a cycle. -/
def copyRows (d : Dev) (t c : Nat) (r : ShiftRun) : ShiftRun :=
  forN (min 128 (c + 1 - r.start) - r.got) (fun _ x => if x.bad then x else copyRow d t x) r

def startShift (t : Nat) (f : Found) (d : Dev) : Dev :=
  let w := f.word
  let m := getMe d t
  let src := swSrc w
  let lo := 0x80000 * m.front
  match pairOf (swWfmt w) (swAfmt w) with
  | none => meFault t f.ref 1 d
  | some p =>
    if src % 64 ≠ 0 ∨ src < lo ∨ lo + 0x80000 < src + pairSet p then meFault t f.ref 1 d
    else
      let d := meAdvance t f (noteReads t [(src, pairSet p)] d)
      let r := copyRows d t (now d) ⟨f.ref, swWfmt w, p, src, now d, 0, [], [], false⟩
      modMe t (fun m => { m with shadow := none, shift := some r }) d

/-- SHIFT: R54. -/
def execShift (t : Sys2Proof.Tile) (s : State) : Out :=
  runMain (meTake 1 t.val true (fun _ _ f => startShift t.val f)) s

/-- SHIFT_DONE: the 128th row is copied (R69): the shadow plane becomes valid and the shift unit is free; or the SHIFT
meets its fault. -/
def endShift (t : Nat) (d : Dev) : Dev :=
  match (getMe d t).shift with
  | none => d
  | some x =>
    let r := copyRows d t (now d) x
    if gatedCycle d || decide (now d < shiftEnd r) then d
    else if r.bad then meFault t r.at_ 4 (atShiftBoundary t (modMe t (fun m => { m with shift := none }) d))
    else
      let p : Plane := ⟨r.wfmt, pairN r.pair, r.weights ++ r.scales⟩
      atShiftBoundary t (meCount t (modMe t (fun m =>
        { m with shift := none, shadow := some p, shiftFree := shiftEnd r + 1 }) d))

def execShiftDone (t : Sys2Proof.Tile) (s : State) : Out := runMain (endShift t.val) s

/-! ## The array (R50 to R52) -/

/-- A sum that would be -0 becomes +0 (R51). -/
def plusZero (x : Nat) : Nat := if x = 0x80000000 then 0 else x

/-- The value of weight (k, j) of a plane (R50, R78). -/
def weightAt (pl : Plane) (p k j : Nat) : FV :=
  let f := (fmtOf pl.wfmt).getD e4m3
  let v := unpackAt f.width (slice pl.bytes (pairWrow p * k) (pairWrow p)) j
  if isMx pl.wfmt then
    mxValue f (leAt pl.bytes (128 * pairWrow p + pairN p * (k / 32) + j) 1) v
  else f.decode v

/-- The 128 values of an activation row (R50, R78). -/
def actVals (afmt : Nat) (row : List Byte) : List FV :=
  let f := (fmtOf afmt).getD e4m3
  (List.range 128).map (fun k =>
    let v := unpackAt f.width row k
    if isMx afmt then mxValue f (leAt row (128 * f.width / 8 + k / 32) 1) v else f.decode v)

/-- The sum of one output column (R51): blocks of 32 summed exactly, or single products for pair 6, added in FP32. Of two
NaNs the activation's sign, as SRC's, comes first (R79), and so does the running sum's (log 100). -/
def colSum (pl : Plane) (p j : Nat) (acts : List FV) : Nat :=
  let prod (k : Nat) : FV := FV.mul (getAt (.fin false 0 0) acts k) (weightAt pl p k j)
  if p = 6 then
    (List.range 128).foldl (fun r k => plusZero (toF32 (FV.add (f32 r) (prod k)))) 0
  else
    (List.range 4).foldl (fun r b =>
      plusZero (toF32 (FV.add (f32 r) (FV.sum ((List.range 32).map (fun i => prod (32 * b + i))))))) 0

/-- The column sums of one activation row. -/
def rowSums (pl : Plane) (p afmt : Nat) (row : List Byte) : List Nat :=
  let acts := actVals afmt row
  (List.range (pairN p)).map (fun j => colSum pl p j acts)

/-- The accumulator cell of a row and column under a row width, under the rows in flight (R52). -/
def accAt (m : MeSt) (wide : Bool) (row j : Nat) : Nat :=
  let fly := (m.computes.map (fun c => c.fly)).flatten.filter (fun r => r.row == row && r.wide == wide)
  match fly.getLast? with
  | some r => getAt 0 r.sums j
  | none =>
    let key := (if wide then 256 else 128) * row + j
    let c := tget AccCell.z m.acc key
    if c = AccCell.z then 0
    else if c.wide = wide then c.v.toNat
    else (Config.accMix c.v key).toNat

/-! ## The drain chain (R59 to R62, R65, R425) -/

/-- Stage s of profile p, as `ME_PROFILE[p][s]` holds it. -/
def stageWord (d : Dev) (t p s : Nat) : Nat := ctlNat d (regOff 16 t (0x100 + 32 * p + 4 * s))
def sgKind (w : Nat) : Nat := bits w 3 0
def sgSel (w : Nat) : Bool := bitAt w 4
def sgParam (w : Nat) : Nat := bits w 31 8

/-- The stages of a profile that run. -/
def stagesOf (d : Dev) (t p n : Nat) : List Nat := (List.range n).map (stageWord d t p)

/-- A stage uses an operand address (Table ME-5). -/
def sgUses (aux2 w : Nat) : Bool :=
  match sgKind w with
  | 1 => true
  | 2 => !(sgSel w && aux2 == 0)
  | 4 => true
  | 6 => true
  | 7 => true
  | _ => false

/-- PARAM bits without a meaning for the stage's kind are 0, and a DROP threshold is not (R59, R60). -/
def sgParamOk (w : Nat) : Bool :=
  let p := sgParam w
  match sgKind w with
  | 1 => p == 0
  | 2 => true
  | 3 => decide (p < 8)
  | 4 => decide (p < 2)
  | 5 => decide (p < 65536) && p != 0
  | 6 => decide (p < 32)
  | 7 => p == 0
  | 8 => p == 0
  | _ => false

/-- How many stages are of a kind. -/
def sgCount (l : List Nat) (k : Nat) : Nat := (l.filter (fun w => sgKind w == k)).length

/-- The profile rules of R60. -/
def profileOk (l : List Nat) (ofmt aux2 : Nat) : Bool :=
  let kinds := l.map sgKind
  let uses := (l.filter (sgUses aux2)).map sgSel
  let mx := isMx ofmt
  l.all sgParamOk
    && [1, 3, 4, 5, 6, 7, 8].all (fun k => decide (sgCount l k ≤ 1)) && decide (sgCount l 2 ≤ 2)
    && decide (uses.length ≤ 2) && (uses.length != 2 || uses.getD 0 false != uses.getD 1 false)
    && (if kinds.contains 7 then mx && kinds.getLast? == some 7 else !mx)
    && (!kinds.contains 8 || (ofmt != 0
        && (kinds.getLast? == some 8 || (kinds.getLast? == some 7 && kinds.dropLast.getLast? == some 8))))
    && (match kinds.findIdx? (fun k => k == 6) with
        | some i => sgParam (getAt 0 l i) % 4 != 1 || !(kinds.drop i).contains 2
        | none => true)

/-- The attention rules of R181 and R184 that a step's profile and word must meet. -/
def attentionOk (l : List Nat) (e w rows : Nat) : Bool :=
  let mode := atMode e
  let aux2 := swAux2 w
  let trans := bitAt e 17
  decide (mode ≤ 4)
    && (mode == 0 || swLast w)
    && ((mode != 1 && mode != 4) || l.any (fun s => sgKind s == 6 && sgParam s % 4 == 1))
    && ((mode != 2 && mode != 3)
        || ((l.filter (sgUses aux2)).length == 1 && l.any (fun s => sgKind s == 4 && sgParam s == 1)))
    && (mode != 2 || swOfmt w == 0)
    && (!trans || ((mode == 0 || mode == 4) && decide (rows ≤ 128) && !isMx (swOfmt w) && swOfmt w != 0))
    && (mode == 0 || atMslot e == 0 || atMslot e != swPslot w)

/-- Columns written: NCOLS, for an MX output rounded up to whole blocks (R65). -/
def colsOut (w : Nat) : Nat := if isMx (swOfmt w) then ceilDiv (swNcols w) 32 * 32 else swNcols w

/-- The bytes of an output row. -/
def outRow (w : Nat) : Nat := (colsOut w * fmtBits (swOfmt w) + 7) / 8

/-- The extents that a COMPUTE touches (R66, R425): activation rows, output, stage operands, attention records. A RESID row
is read whole, all N columns of it, and not NCOLS: R425 gives its place only (DESIGN CHOICE, log 98). -/
def computeExtents (l : List Nat) (e w p rows : Nat) : List (Nat × Nat) :=
  let n := pairN p
  let src := (swSrc w, (rows - 1) * 16 * swAstride w + actRow (swAfmt w))
  if !swLast w then [src]
  else
    let dst :=
      if bitAt e 17 then (swDst w, (swNcols w - 1) * 16 * swDstride w + fmtBits (swOfmt w) / 8 * rows)
      else (swDst w, (rows - 1) * 16 * swDstride w + outRow w)
    let opa (s : Nat) : Nat := if sgSel s then swAux2 w else swAux1 w
    let ops := (l.filter (sgUses (swAux2 w))).map (fun s =>
      (opa s, match sgKind s with
        | 4 => (rows - 1) * 16 * swDstride w + (if sgParam s = 1 then 4 else 2) * n
        | 6 => (if atMode e = 1 ∨ atMode e = 4 then 16 else 8) * rows
        | 7 => (rows - 1) * (n / 32) + ceilDiv (swNcols w) 32
        | _ => 4 * n))
    let recs :=
      if atMode e = 2 ∨ atMode e = 3 then
        [((if l.any (fun s => sgKind s == 4 && sgSel s) then swAux1 w else swAux2 w), 16 * rows)]
      else []
    src :: dst :: (ops ++ recs)

/-- The drain of one row so far: the elements, the bytes that stages write, a row written as +0, a fault. -/
structure Drain where
  xs : List Nat
  out : List (Nat × List Byte)
  zrow : Bool
  fault : Option Nat

/-- n FP32 values of bytes. -/
def f32s (bs : List Byte) (n : Nat) : List Nat := (List.range n).map (fun i => leAt bs (4 * i) 4)

/-- Element (i, j) is masked (R178). -/
def masked (v : StepEnv) (i j : Nat) : Bool :=
  let q := bits v.mask 23 0
  let k := bits v.mask 47 24
  (bitAt v.entry 3 && decide (q + i < k + j)) || (bitAt v.entry 4 && decide (bits v.mask 56 48 ≤ j))

/-- All of a list of optional values. -/
def allSome {α : Type} : List (Option α) → Option (List α)
  | [] => some []
  | none :: _ => none
  | some a :: r => (allSome r).map (fun l => a :: l)

/-- Every value of a table at the elements, by the tile's tables `ev`; BAD_TABLE (0x10) where the table is invalid. -/
def tabAll (ev : Nat → Nat → Option Nat) (tb : Nat) (xs : List Nat) : Option (List Nat) := allSome (xs.map (ev tb))

/-- A row holds a NaN or plus infinity (R180). -/
def hasNan (xs : List Nat) : Bool := xs.any (fun x => (f32 x).isNan || x == 0x7F800000)

/-- The maximum of FP32 values in the pairwise tree. -/
def maxTree (xs : List Nat) : Nat := pairTree f32max f32ninf xs
/-- The sum of FP32 values in the pairwise tree. -/
def sumTree (xs : List Nat) : Nat := pairTree f32add 0 xs

/-- μ of R61 and R180: m, or 0 where m is minus infinity. -/
def muOf (m : Nat) : Nat := if m = f32ninf then 0 else m

/-- Row statistics of an ordinary STATS stage (R61). -/
def rowStats (ev : Nat → Nat → Option Nat) (mode tb : Nat) (xs : List Nat) : Option (Nat × Nat) :=
  match mode with
  | 0 => some (maxTree xs, 0)
  | 1 =>
    let m := maxTree xs
    (tabAll ev tb (xs.map (fun x => f32sub x (muOf m)))).map (fun es => (m, sumTree es))
  | 2 => some (sumTree xs, 0)
  | _ => some (sumTree (xs.map (fun x => f32mul x x)), 0)

/-- The STATS stage of a SCORE step on row i (R180): the record (m, l, α) and the elements passed on. -/
def scoreRow (v : StepEnv) (ev : Nat → Nat → Option Nat) (tb m0 l0 : Nat) (xs : List Nat) : Option (Nat × Nat × Nat × List Nat) :=
  let first := bitAt v.mask 57
  let mold := if first then f32ninf else m0
  let lold := if first then 0 else l0
  if hasNan xs then some (f32nan, f32nan, f32nan, xs.map (fun _ => f32nan))
  else
    let m := f32max mold (maxTree xs)
    let mu := muOf m
    match (if first then some 0 else ev tb (f32sub mold mu)), tabAll ev tb (xs.map (fun x => f32sub x mu)) with
    | some a, some es => some (m, f32fma lold a (sumTree es), a, es)
    | _, _ => none

/-- The STATS stage of a PROB step (R182), element by element: the elements passed on, and whether l was 0. -/
def probRow (ev : Nat → Nat → Option Nat) (tb m l : Nat) (xs : List Nat) : Option (List Nat × Bool) :=
  if (f32 l).isZero then some (xs.map (fun _ => 0), true)
  else
    let r := toF32 (FV.div (f32 0x3F800000) (f32 l))
    (tabAll ev tb (xs.map (fun x => f32sub x (muOf m)))).map (fun es => (es.map (fun e => f32mul e r), false))

/-- The element index of R62. -/
def elemIx (v : StepEnv) (i j : Nat) : Nat := (v.rowbase + i) * 256 + j

/-- One stage on row i; `rd` reads SRAM and answers none for poison. Columns at and beyond NCOLS ride along. -/
def stage (v : StepEnv) (ev : Nat → Nat → Option Nat) (rd : Nat → Nat → Option (List Byte)) (i : Nat) (a : Drain) (s : Nat) : Drain :=
  if a.fault.isSome then a
  else
    let w := v.word
    let nc := swNcols w
    let opa := if sgSel s then swAux2 w else swAux1 w
    let mode := atMode v.entry
    match sgKind s with
    | 1 => match rd opa (4 * pairN v.pair) with
      | none => { a with fault := some 4 }
      | some b => { a with xs := List.zipWith f32add a.xs (f32s b (pairN v.pair)) }
    | 2 =>
      if sgUses (swAux2 w) s then match rd opa (4 * pairN v.pair) with
        | none => { a with fault := some 4 }
        | some b => { a with xs := List.zipWith f32mul a.xs (f32s b (pairN v.pair)) }
      else { a with xs := a.xs.map (fun x => f32mul x (256 * sgParam s)) }
    | 3 => match tabAll ev (sgParam s) a.xs with
      | none => { a with fault := some 0x10 }
      | some l => { a with xs := l }
    | 4 =>
      let at_ := opa + 16 * swDstride w * i
      if mode = 2 ∨ mode = 3 then
        let rec_ := if sgSel s then swAux1 w else swAux2 w
        match rd (rec_ + 16 * i) 16 with
        | none => { a with fault := some 4 }
        | some rb =>
          let al := leAt rb 8 4
          let ll := leAt rb 4 4
          let zero := (f32 al).isZero && !v.dead
          match (if zero then some [] else rd at_ (4 * pairN v.pair)) with
          | none => { a with fault := some 4 }
          | some b =>
            let rs := f32s b (pairN v.pair)
            let ys :=
              if v.dead then rs
              else if zero then a.xs else List.zipWith (fun r x => f32fma r al x) rs a.xs
            if mode = 2 then { a with xs := ys }
            else if (f32 ll).isZero then { a with xs := ys.map (fun _ => 0), zrow := true }
            else
              let r := toF32 (FV.div (f32 0x3F800000) (f32 ll))
              { a with xs := ys.map (fun y => f32mul y r) }
      else if sgParam s = 1 then match rd at_ (4 * pairN v.pair) with
        | none => { a with fault := some 4 }
        | some b => { a with xs := List.zipWith f32add a.xs (f32s b (pairN v.pair)) }
      else match rd at_ (2 * pairN v.pair) with
        | none => { a with fault := some 4 }
        | some b => { a with xs := List.zipWith f32add a.xs ((List.range (pairN v.pair)).map (fun j => 65536 * leAt b (2 * j) 2)) }
    | 5 =>
      let th := sgParam s
      { a with xs := a.xs.zipIdx.map (fun p =>
          if randBits v.seed v.tid 1 (elemIx v i p.2) < th then toF32 (FV.div (FV.mul (f32 p.1) (FV.ofInt 65536)) (FV.ofInt th))
          else 0) }
    | 6 =>
      let tb := bits (sgParam s) 4 2
      let live := a.xs.take nc
      if mode = 1 ∨ mode = 4 then
        let xs := live.zipIdx.map (fun p => if masked v i p.2 then f32ninf else p.1)
        let at_ := opa + 16 * i
        match rd at_ 16 with
        | none => if mode = 1 ∧ bitAt v.mask 57 then
            match scoreRow v ev tb 0 0 xs with
            | none => { a with fault := some 0x10 }
            | some (m, l, al, es) =>
              { a with xs := es, out := a.out ++ [(at_, leBytes 4 m ++ leBytes 4 l ++ leBytes 4 al ++ leBytes 4 0)] }
          else { a with fault := some 4 }
        | some rb =>
          if mode = 1 then match scoreRow v ev tb (leAt rb 0 4) (leAt rb 4 4) xs with
            | none => { a with fault := some 0x10 }
            | some (m, l, al, es) =>
              { a with xs := es, out := a.out ++ [(at_, leBytes 4 m ++ leBytes 4 l ++ leBytes 4 al ++ leBytes 4 0)] }
          else match probRow ev tb (leAt rb 0 4) (leAt rb 4 4) xs with
            | none => { a with fault := some 0x10 }
            | some (es, z) => { a with xs := es, zrow := a.zrow || z }
      else match rowStats ev (sgParam s % 4) tb live with
        | none => { a with fault := some 0x10 }
        | some (x, y) => { a with out := a.out ++ [(opa + 8 * i, leBytes 4 x ++ leBytes 4 y)] }
    | _ => a

/-- The bytes of a drained row: the output elements in OFMT with the scale bytes that QUANT writes (R65, R80, R82,
R83). Answers the packed row, its element codes, and the scales. -/
def finish (v : StepEnv) (l : List Nat) (i : Nat) (xs : List Nat) : List Nat × List Byte :=
  let w := v.word
  let nc := swNcols w
  let sr := l.any (fun s => sgKind s == 8)
  let rd (j : Nat) : Rounding := if sr then .stochastic (randBits v.seed v.tid 0 (elemIx v i j)) else .nearest
  let f := (fmtOf (swOfmt w)).getD fp32
  if isMx (swOfmt w) then
    let blocks := (List.range (ceilDiv nc 32)).map (fun b =>
      mxQuant (swOfmt w) (fun k => rd (32 * b + k))
        ((List.range 32).map (fun k => if 32 * b + k < nc then f32 (getAt 0 xs (32 * b + k)) else .fin false 0 0)))
    ((blocks.map (fun b => b.2)).flatten, blocks.map (fun b => BitVec.ofNat 8 b.1))
  else ((xs.take nc).zipIdx.map (fun p => f.encode (rd p.2) (f32 p.1)), [])

/-- Drain row i (R59): stages in order, then the output; a row that attention writes as +0 is +0 (R181, R182). -/
def drainRow (v : StepEnv) (ev : Nat → Nat → Option Nat) (rd : Nat → Nat → Option (List Byte)) (i : Nat) (sums : List Nat) :
    List (Nat × List Byte) × Bool × Option Nat :=
  let w := v.word
  let l := v.stages
  let a := l.foldl (stage v ev rd i) ⟨sums, [], false, none⟩
  let fin := finish v l i (if a.zrow ∧ atMode v.entry = 3 then a.xs.map (fun _ => 0) else a.xs)
  let b := fmtBits (swOfmt w)
  let quant := match l.find? (fun s => sgKind s == 7) with
    | some s => [((if sgSel s then swAux2 w else swAux1 w) + i * (pairN v.pair / 32), fin.2)]
    | none => []
  let out :=
    if bitAt v.entry 17 then
      fin.1.zipIdx.map (fun p => (swDst w + 16 * swDstride w * p.2 + b / 8 * i, packElems b [p.1]))
    else [(swDst w + 16 * swDstride w * i, packElems b fin.1)]
  (a.out ++ out ++ quant, a.zrow, a.fault)

/-! ## COMPUTE (R51 to R55, R65, R66, R69) -/

/-- A COMPUTE's row enters the array: its activation row is read and its sums are made (R51, R53). With ACC = 1 the
accumulator's NaN comes before the column sum's: R79 orders SRC, AUX1 and AUX2 only (DESIGN CHOICE, log 100). -/
def enterRow (d : Dev) (t : Nat) (r : StepRun) : StepRun :=
  let v := r.env
  let w := v.word
  let i := r.got
  match sramRead d t (swSrc w + 16 * swAstride w * i) (actRow (swAfmt w)) with
  | none => { r with fault := some (4, readCycle r i) }
  | some row =>
    let wide := v.pair == 5
    let raw := rowSums v.plane v.pair (swAfmt w) row
    let sums := if swAcc w then raw.zipIdx.map (fun x => f32add (accAt (getMe d t) wide i x.2) x.1) else raw
    { r with got := i + 1, fly := r.fly ++ [⟨i, wide, sums, !swLast w, []⟩] }

/-- The oldest undrained row of a COMPUTE passes the drain chain (R59). -/
def passRow (d : Dev) (t : Nat) (r : StepRun) : StepRun :=
  match r.fly.find? (fun o => !o.drained) with
  | none => r
  | some o =>
    match drainRow r.env (tabEval (getSf d t).data) (sramRead d t) o.row o.sums with
    | (_, _, some code) => { r with fault := some (code, outCycle r o.row) }
    | (ws, zr, none) =>
      { r with
        zrows := r.zrows + b2n zr
        fly := r.fly.map (fun x => if x.row = o.row then { x with drained := true, writes := ws } else x) }

/-! ## The vector unit (R74) -/

/-- Formats and NSTG that R74 allows. -/
def vecOk (w : Nat) : Bool :=
  let lim := if swOp w = 14 then 3 else 1
  decide (swWfmt w ≤ lim) && decide (swOfmt w ≤ lim) && decide (swNstg w ≤ (if swOp w = 14 then 1 else 0))

/-- Operands of a vector operation: AUX1 is read, AUX2 is read. -/
def vecUses1 (op : Nat) : Bool := op != 14 && op != 15
def vecUses2 (op : Nat) : Bool := op == 10 || op == 13

/-- Greater than +0, as VSEL asks (R74). -/
def gtZero : FV → Bool
  | .nan _ => false
  | .inf s => !s
  | .fin s m _ => !s && m != 0

/-- One lane of a vector operation, before its one rounding to OFMT (R74). -/
def vecLane (op : Nat) (a b c : FV) : FV :=
  match op with
  | 8 => FV.add a b
  | 9 => FV.mul a b
  | 10 => FV.fma a b c
  | 11 => FV.maxOf a b
  | 12 => FV.minOf a b
  | 13 => if gtZero a then b else c
  | _ => a

/-- VRED (R74): the sum with each addition rounded to FP32, or the maximum. -/
def vecReduce (most : Bool) (l : List FV) : FV :=
  if most then pairTree FV.maxOf (.fin false 0 0) l
  else f32 (pairTree f32add 0 (l.map toF32))

/-- One output row of a vector step from its input rows (R74); `rd` gives each element's rounding. -/
def vecRow (w : Nat) (rd : Nat → Rounding) (a b c : List Byte) : List Byte :=
  let fi := (fmtOf (swWfmt w)).getD fp32
  let fo := (fmtOf (swOfmt w)).getD fp32
  let el (x : List Byte) (j : Nat) : FV := fi.decode (unpackAt fi.width x j)
  if swOp w = 15 then
    packElems fo.width [fo.encode .nearest (vecReduce (swAcc w) ((List.range 64).map (el a)))]
  else
    packElems fo.width ((List.range 64).map (fun j => fo.encode (rd j) (vecLane (swOp w) (el a j) (el b j) (el c j))))

/-- Bytes of an input and an output row. -/
def vecIn (w : Nat) : Nat := 8 * fmtBits (swWfmt w)
def vecOut (w : Nat) : Nat := if swOp w = 15 then fmtBits (swOfmt w) / 8 else 8 * fmtBits (swOfmt w)

/-- The extents of a vector step (R66, R74). -/
def vecExtents (w rows : Nat) : List (Nat × Nat) :=
  let inp (o : Nat) : Nat × Nat := (o, (rows - 1) * 16 * swAstride w + vecIn w)
  [inp (swSrc w), (swDst w, (rows - 1) * 16 * swDstride w + vecOut w)]
    ++ (if vecUses1 (swOp w) then [inp (swAux1 w)] else []) ++ (if vecUses2 (swOp w) then [inp (swAux2 w)] else [])

/-- A vector step reads a row and makes its output row. -/
def vecStepRow (d : Dev) (t : Nat) (r : StepRun) : StepRun :=
  let v := r.env
  let w := v.word
  let i := r.got
  let get (use : Bool) (o : Nat) : Option (List Byte) :=
    if use then sramRead d t (o + 16 * swAstride w * i) (vecIn w) else some []
  match get true (swSrc w), get (vecUses1 (swOp w)) (swAux1 w), get (vecUses2 (swOp w)) (swAux2 w) with
  | some a, some b, some c =>
    let rd (j : Nat) : Rounding :=
      if swNstg w = 1 then .stochastic (randBits v.seed v.tid 2 (elemIx v i j)) else .nearest
    { r with got := i + 1, fly := r.fly ++ [⟨i, false, [], true, [(swDst w + 16 * swDstride w * i, vecRow w rd a b c)]⟩] }
  | _, _, _ => { r with fault := some (4, readCycle r i) }

/-! ## Rows of running steps, cycle by cycle (R53, R74, R128) -/

/-- How many rows of a running step have been read at the end of a cycle, unless it has faulted. -/
def rowsRead (r : StepRun) (c : Nat) : Nat :=
  let k := c + 1 - r.start
  min r.env.rows
    (if swVector r.env.word then (if swWfmt r.env.word = 0 then k else 2 * k) else ceilDiv k (pairR r.env.pair))

/-- Read the rows of a running step, and drain those of them, whose cycles have come, up to a cycle. A drained row's
operands (BIAS, SCALE, RESID, records) are read in the cycle in which it leaves the drain chain: R53 and R425 give none
(DESIGN CHOICE, log 98). -/
def rowsUpTo (d : Dev) (t c : Nat) (r : StepRun) : StepRun :=
  if r.skip then r
  else
    let r := forN (rowsRead r c - r.got) (fun _ x =>
      if x.fault.isSome then x else if swVector x.env.word then vecStepRow d t x else enterRow d t x) r
    forN r.fly.length (fun _ x => match x.fly.find? (fun o => !o.drained) with
      | some o => if x.fault.isNone ∧ outCycle x o.row ≤ c then passRow d t x else x
      | none => x) r

/-- What a vector step reads for row i (R74). -/
def vecReads (w i : Nat) : List (Nat × Nat) :=
  let at_ (o : Nat) : Nat × Nat := (o + 16 * swAstride w * i, vecIn w)
  [at_ (swSrc w)] ++ (if vecUses1 (swOp w) then [at_ (swAux1 w)] else []) ++ (if vecUses2 (swOp w) then [at_ (swAux2 w)] else [])

/-- What the drain stages of a COMPUTE read for row i (R425, R180 to R182): vectors, the residual row where it counts, and
the attention record where it is not the first block's. -/
def stageReads (d : Dev) (t : Nat) (v : StepEnv) (i : Nat) : List (Nat × Nat) :=
  let w := v.word
  let mode := atMode v.entry
  let n := pairN v.pair
  (v.stages.map (fun s =>
    let opa := if sgSel s then swAux2 w else swAux1 w
    let row := opa + 16 * swDstride w * i
    match sgKind s with
    | 1 => [(opa, 4 * n)]
    | 2 => if sgUses (swAux2 w) s then [(opa, 4 * n)] else []
    | 4 =>
      if mode = 2 ∨ mode = 3 then
        let rec_ := (if sgSel s then swAux1 w else swAux2 w) + 16 * i
        (rec_, 16) :: (if (f32 (readNat d (sramAddr t (rec_ + 8)) 4)).isZero && !v.dead then [] else [(row, 4 * n)])
      else [(row, (if sgParam s = 1 then 4 else 2) * n)]
    | 6 => if mode = 4 ∨ (mode = 1 ∧ !bitAt v.mask 57) then [(opa + 16 * i, 16)] else []
    | _ => [])).flatten

/-- What a running step has read between two of its states (R47): rows that entered, and operands of rows that drained. -/
def readsBetween (d : Dev) (t : Nat) (r n : StepRun) : List (Nat × Nat) :=
  let w := r.env.word
  let went := (List.range (n.got - r.got)).map (fun k => r.got + k)
  if swVector w then (went.map (vecReads w)).flatten
  else
    let out := n.fly.filter (fun o => o.drained && !r.fly.any (fun p => p.row == o.row && p.drained))
    went.map (fun i => (swSrc w + 16 * swAstride w * i, actRow (swAfmt w)))
      ++ (if swLast w then (out.map (fun o => stageReads d t r.env o.row)).flatten else [])

/-- The running steps of a tile as they read on up to a cycle, with the corrected errors of what they read counted. -/
def readOn (t c : Nat) (l : List StepRun) (d : Dev) : List StepRun × Dev :=
  l.foldr (fun r a => let n := rowsUpTo d t c r; (n :: a.1, noteReads t (readsBetween d t r n) a.2)) ([], d)

/-! ## COMPUTE (R51 to R55, R65, R66, R69) -/

/-- Set the skip latch of an entry (R179). -/
def setLatch (t p : Nat) (on : Bool) (d : Dev) : Dev :=
  let v := ctlNat d (regOff 19 t 0x40)
  let o := v - (if bitAt v p then 2 ^ p else 0)
  ctlSetN (regOff 19 t 0x40) (o + (if on then 2 ^ p else 0)) d

/-- The plane that a COMPUTE uses. -/
def planeOf (m : MeSt) (w : Nat) : Option Plane := if swFlip w then m.shadow else m.active

/-- FLIP: the shadow plane becomes active and the shadow plane invalid (R55). -/
def doFlip (t w : Nat) (d : Dev) : Dev :=
  if swFlip w then modMe t (fun m => { m with active := m.shadow, shadow := none }) d else d

/-- ROWS of a step: from PSLOT where there is one (R69). -/
def stepRows (d : Dev) (t pslot field : Nat) : Nat :=
  if pslot = 0 then field else slotValue d t pslot % 2 ^ 11

/-- ROWBASE (R62): bits [63:32] of the slot. -/
def stepRowbase (d : Dev) (t pslot : Nat) : Nat := if pslot = 0 then 0 else slotValue d t pslot / 2 ^ 32

/-- Every element of the step is masked (R179). -/
def allMasked (e mask rows : Nat) : Bool :=
  (bitAt e 4 && bits mask 56 48 == 0) || (bitAt e 3 && decide (bits mask 23 0 + rows - 1 < bits mask 47 24))

/-- The step is skipped: SCORE and PROB by their indices, VALUE by its partner's latch (R179). -/
def isSkipped (d : Dev) (t e mask rows : Nat) : Bool :=
  let mode := atMode e
  ((mode == 1 || mode == 4) && allMasked e mask rows)
    || (mode == 2 && bitAt (ctlNat d (regOff 19 t 0x40)) (atPartner e))

/-- Start a COMPUTE whose slots are here. Of several checks that fail the code is BAD_STEP, else WEIGHTS_INVALID, else
SRAM_BOUNDS: R73 gives no order among them (DESIGN CHOICE, log 99). -/
def startCompute (t q : Nat) (f : Found) (d : Dev) : Dev :=
  let w := f.word
  let e := atProf d t (swProfile w)
  let ms := meMslot d t w
  if slotUnnamed d t (swPslot w) || slotUnnamed d t ms then meFault t f.ref 1 d
  else
    let rows := stepRows d t (swPslot w) (swRows w)
    let rowbase := stepRowbase d t (swPslot w)
    let mask := if ms = 0 then 0 else slotValue d t ms
    if swPslot w ≠ 0 ∧ rows = 0 then
      -- a slot value of 0: the step completes at once with no effect (R69)
      meCount t (meAdvance t f (takeSlot t ms (takeSlot t (swPslot w) d)))
    else match pairOf (swWfmt w) (swAfmt w) with
    | none => meFault t f.ref 1 d
    | some p =>
      let l := stagesOf d t (swProfile w) (if swLast w then swNstg w else 0)
      let bad := rows == 0 || decide ((if p = 5 then 512 else 1024) < rows)
        || decide (16 * swAstride w < actRow (swAfmt w)) || decide (8 < swNstg w) || decide (8 < swOfmt w)
        || (swLast w && (!profileOk l (swOfmt w) (swAux2 w) || decide (pairN p < swNcols w)))
        || !attentionOk l e w rows || mask / 2 ^ 58 != 0
      if bad then meFault t f.ref 1 d
      else match planeOf (getMe d t) w with
      | none => meFault t f.ref 2 d
      | some pl =>
        if pl.wfmt ≠ swWfmt w ∨ pl.n ≠ pairN p then meFault t f.ref 2 d
        else if !inSram (computeExtents l e w p rows) then meFault t f.ref 3 d
        else
          let skip := isSkipped d t e mask rows
          let env : StepEnv :=
            { word := w, pair := p, rows := rows, rowbase := rowbase, entry := e, mask := mask
              tid := ctlNat d (regOff 16 t (0x80 + 4 * swProfile w)), seed := (getJob d q).deal.seed, stages := l
              dead := atMode e == 3 && bitAt (ctlNat d (regOff 19 t 0x40)) (atPartner e), plane := pl }
          let d := takeSlot t ms (takeSlot t (swPslot w) d)
          let d := if atMode e = 0 then d else setLatch t (swProfile w) skip d
          if skip then
            let d := ctlAdd (regOff 19 t 0x44) 1 d
            let d := modMe t (fun m => { m with computes := m.computes ++ [⟨f.ref, env, now d, 0, [], 0, none, true⟩] }) d
            doFlip t w (meAdvance t f d)
          else
            let x := readOn t (now d) [⟨f.ref, env, now d, 0, [], 0, none, false⟩] d
            doFlip t w (meAdvance t f (modMe t (fun m => { m with computes := m.computes ++ x.1 }) x.2))

/-- COMPUTE: R53. -/
def execCompute (t : Sys2Proof.Tile) (s : State) : Out :=
  runMain (meTake 2 t.val true (fun q _ f => startCompute t.val q f)) s

/-- Write bytes into a tile's SRAM by offset; words written in part are read first (R47). -/
def sramWrites (t : Nat) (l : List (Nat × List Byte)) (d : Dev) : Dev :=
  l.foldl (fun x w => writeRaw (sramAddr t w.1) w.2 (noteParts (sramAddr t w.1) w.2.length x)) d

/-- Put a row's sums into the accumulator (R51, R52). -/
def accPut (r : RowOut) (a : Tbl AccCell) : Tbl AccCell :=
  r.sums.zipIdx.foldl (fun a x =>
    tset AccCell.z a ((if r.wide then 256 else 128) * r.row + x.2) ⟨r.wide, BitVec.ofNat 32 x.1⟩) a

/-- Rows of a run take effect: accumulator rows and writes, in order (R51 to R53, R74). -/
def landRows (t : Nat) (l : List RowOut) (d : Dev) : Dev :=
  sramWrites t (l.map (fun o => o.writes)).flatten
    (modMe t (fun m => { m with acc := l.foldl (fun a o => accPut o a) m.acc }) d)

/-- A run has ended: the rows it still has in flight take effect, and its rows of +0 are counted. -/
def endRun (t : Nat) (r : StepRun) (d : Dev) : Dev :=
  let d := landRows t (r.fly.filter (fun o => o.drained)) d
  if r.zrows = 0 then d else ctlAdd (regOff 19 t 0x48) r.zrows d

/-- COMPUTE_DONE: the oldest COMPUTE in flight has written its last byte, or meets its fault (R53, R73). -/
def endCompute (t : Nat) (d : Dev) : Dev :=
  match (getMe d t).computes with
  | [] => d
  | x :: rest =>
    let r := rowsUpTo d t (now d) x
    if gatedCycle d || decide (now d < endCycle r) then d
    else
      let d := endRun t r (modMe t (fun m => { m with computes := rest, arrayFree := max m.arrayFree (freeCycle r) }) d)
      match r.fault with
      | some (c, _) => meFault t r.at_ c d
      | none => meCount t d

def execComputeDone (t : Sys2Proof.Tile) (s : State) : Out := runMain (endCompute t.val) s

/-! ## SWAP, PSWAP, WAITFLAG, NOP (R57, R58, R70) -/

/-- The banks exchange roles and the new back bank's fill count becomes 0 (R57). -/
def swapBanks (m : MeSt) : MeSt :=
  { m with
    front := 1 - m.front
    fillA := if m.front = 0 then 0 else m.fillA
    fillB := if m.front = 0 then m.fillB else 0 }

/-- SWAP: R57. -/
def execSwap (t : Sys2Proof.Tile) (s : State) : Out :=
  runMain (meTake 3 t.val true (fun _ _ f d => modMe t.val swapBanks (meCount t.val (meAdvance t.val f d)))) s

/-- Continue the path at step 0 of a bank (R70). -/
def meJump (t bank : Nat) (f : Found) (d : Dev) : Dev :=
  modMe t (fun m => { m with aprog := bank, pc := 0, swaps := m.swaps + 1 }) (meCount t (meAdvance t f d))

/-- PSWAP: R70. -/
def execMePswap (t : Sys2Proof.Tile) (s : State) : Out :=
  runMain (meTake 4 t.val true (fun _ _ f d =>
    if 1 < swFills f.word then meFault t.val f.ref 1 d
    else meJump t.val (if swFills f.word = 1 then f.ref.bank else 1 - f.ref.bank) f d)) s

/-- A WAITFLAG whose flag passes; an address it cannot test faults (R58, R66, R160). -/
def passFlag (t : Nat) (f : Found) (d : Dev) : Dev :=
  let o := swAux1 f.word
  if o % 8 ≠ 0 then meFault t f.ref 1 d
  else if 0x300000 < o + 8 then meFault t f.ref 3 d
  else if poisoned d (sramAddr t o) 8 then meFault t f.ref 4 d
  else meCount t (meAdvance t f (noteReads t [(o, 8)] d))

/-- WAITFLAG: R58. -/
def execWaitflag (t : Sys2Proof.Tile) (s : State) : Out :=
  runMain (meTake 5 t.val true (fun _ _ f => passFlag t.val f)) s

/-- ME_NOP: a NOP does nothing; the path goes past it (R68). -/
def execMeNop (t : Sys2Proof.Tile) (s : State) : Out :=
  runMain (meTake 0 t.val false (fun _ _ f d => meCount t.val (meAdvance t.val f d))) s

/-! ## The vector path (R69, R74) -/

/-- Start a vector step. -/
def startVec (t q : Nat) (f : Found) (d : Dev) : Dev :=
  let w := f.word
  if slotUnnamed d t (swPslot w) || !vecOk w then meFault t f.ref 1 d
  else if slotWaits d t (swPslot w) then d
  else
    let rows := stepRows d t (swPslot w) (swRows w)
    if swPslot w ≠ 0 ∧ rows = 0 then vecAdvance t f (takeSlot t (swPslot w) d)
    else if rows = 0 ∨ 1024 < rows then meFault t f.ref 1 d
    else if !inSram (vecExtents w rows) then meFault t f.ref 3 d
    else
      let env : StepEnv :=
        { word := w, pair := 0, rows := rows, rowbase := stepRowbase d t (swPslot w), entry := 0, mask := 0
          tid := ctlNat d (regOff 16 t (0x80 + 4 * swProfile w)), seed := (getJob d q).deal.seed, stages := []
          dead := false, plane := ⟨0, 0, []⟩ }
      let d := takeSlot t (swPslot w) d
      let x := readOn t (now d) [⟨f.ref, env, now d, 0, [], 0, none, false⟩] d
      vecAdvance t f (modMe t (fun m => { m with vec := x.1.head? }) x.2)

/-- The previous vector step has not written its last result before this cycle (R69). -/
def vecBusy (d : Dev) (t : Nat) : Bool := (getMe d t).vec.isSome || decide (now d < (getMe d t).vecFree)

/-- Take the vector path's due step if it is one of an operation. -/
def vecTake (op t : Nat) (d : Dev) : Dev :=
  if vecBusy d t || gatedCycle d then d
  else match vecNext d t with
  | none => d
  | some (q, _, f) =>
    if swOp f.word ≠ op then d
    else
      let d := standTile true t d
      if swGood f.word then startVec t q f d else meFault t f.ref 1 d

/-- VADD, VMUL, VFMA, VMAX, VMIN, VSEL, VCVT, VRED: R74. -/
def execVadd (t : Sys2Proof.Tile) (s : State) : Out := runMain (vecTake 8 t.val) s
def execVmul (t : Sys2Proof.Tile) (s : State) : Out := runMain (vecTake 9 t.val) s
def execVfma (t : Sys2Proof.Tile) (s : State) : Out := runMain (vecTake 10 t.val) s
def execVmax (t : Sys2Proof.Tile) (s : State) : Out := runMain (vecTake 11 t.val) s
def execVmin (t : Sys2Proof.Tile) (s : State) : Out := runMain (vecTake 12 t.val) s
def execVsel (t : Sys2Proof.Tile) (s : State) : Out := runMain (vecTake 13 t.val) s
def execVcvt (t : Sys2Proof.Tile) (s : State) : Out := runMain (vecTake 14 t.val) s
def execVred (t : Sys2Proof.Tile) (s : State) : Out := runMain (vecTake 15 t.val) s

/-- VECTOR_STEP_DONE: the vector step has written its last result, or meets its fault (R73, R74). -/
def endVec (t : Nat) (d : Dev) : Dev :=
  match (getMe d t).vec with
  | none => d
  | some x =>
    let r := rowsUpTo d t (now d) x
    if gatedCycle d || decide (now d < endCycle r) then d
    else
      let d := endRun t r (modMe t (fun m => { m with vec := none, vecFree := endCycle r + 1 }) d)
      match r.fault with
      | some (c, _) => meFault t r.at_ c d
      | none => d

def execVectorStepDone (t : Sys2Proof.Tile) (s : State) : Out := runMain (endVec t.val) s

/-! ## Boundaries and cycles -/

/-- The causes for which a tile's matrix engine and vector paths make a trick late (R39, R41, R57, R58, R71, R132,
R354). -/
def meLate (d : Dev) (t : Nat) : List Nat :=
  let m := getMe d t
  let cc := computeCause d
  let running := if m.computes.isEmpty && m.vec.isNone && m.shift.isNone then [] else [cc]
  let me := match meNext d t true with
    | none => if meAtEnd d t then [cc] else []
    | some (_, c, f) =>
      if meBad f.word then [cc]
      else match meWait d t c f.word with
        | some (.fill _) => [2]
        | some (.flag a) => [waitCause (flagProducer d t a)]
        | some .slot => [5]
        | _ => [cc]
  let ve := match vecNext d t with
    | none => []
    | some (_, _, f) => [if m.vec.isNone && slotWaits d t (swPslot f.word) then 5 else cc]
  running ++ me ++ ve

/-- The paths of a tile pause for a cycle: what runs takes one cycle longer (R71, R335, R354). -/
def pauseRun (cyc : Nat) (r : StepRun) : StepRun :=
  { r with
    start := r.start + 1
    fault := r.fault.map (fun f => if cyc ≤ f.2 then (f.1, f.2 + 1) else f) }

/-- A SHIFT pauses between weight rows for a cycle (R71). -/
def pauseShift (r : ShiftRun) : ShiftRun := { r with start := r.start + 1 }

def pauseTile (cyc : Nat) (x : Tile) : Tile :=
  { x with
    me := { x.me with
            computes := x.me.computes.map (pauseRun cyc)
            vec := x.me.vec.map (pauseRun cyc)
            shift := x.me.shift.map pauseShift
            arrayFree := if cyc < x.me.arrayFree then x.me.arrayFree + 1 else x.me.arrayFree }
    sf := { x.sf with
            running := x.sf.running.map (fun r => { r with endAt := r.endAt + 1 })
            freeAt := if cyc < x.sf.freeAt then x.sf.freeAt + 1 else x.sf.freeAt } }

/-- A run without the rows that have landed by the end of a cycle. -/
def stillFlying (cyc : Nat) (r : StepRun) : StepRun :=
  { r with fly := r.fly.filter (fun o => !o.drained || decide (cyc < landCycle r o.row)) }

/-- The rows of a run that land by the end of a cycle. -/
def landing (cyc : Nat) (r : StepRun) : List RowOut :=
  r.fly.filter (fun o => o.drained && decide (landCycle r o.row ≤ cyc))

/-- The rows of a tile's running steps that this cycle writes (R53, R74). -/
def landTile (t : Nat) (d : Dev) : Dev :=
  let m := getMe d t
  let runs := m.computes ++ m.vec.toList
  if runs.isEmpty then d
  else
    let c := now d
    landRows t (runs.map (landing c)).flatten
      (modMe t (fun x => { x with computes := x.computes.map (stillFlying c), vec := x.vec.map (stillFlying c) }) d)

/-- The paths pause in the next cycle (R354). -/
def gatedNext (d : Dev) : Bool := decide (duty d ≤ (d.time.phase + 1) % 16)

/-- What the running steps of a tile read in the next cycle, once every write of this one has been performed (R128). A
debug-halted tile copies no weight row (R335). -/
def readTile (t : Nat) (d : Dev) : Dev :=
  let m := getMe d t
  if gatedNext d || (m.computes.isEmpty && m.vec.isNone && m.shift.isNone) then d
  else
    let c := now d + 1
    let halted := d.body.tileHalt.contains t
    let cs := readOn t c m.computes d
    let ve := readOn t c m.vec.toList cs.2
    modMe t (fun x =>
      { x with
        computes := cs.1
        vec := ve.1.head?
        shift := if halted then x.shift else x.shift.map (copyRows d t c) }) ve.2

/-- What the matrix engine path's due step waits for in this cycle. -/
def meWaiting (d : Dev) (t : Nat) : Option PathWait :=
  match meNext d t true with
  | none => if meAtEnd d t then some .visible else none
  | some (_, c, f) => if meBad f.word then none else meWait d t c f.word

/-- A deck step of the matrix engine or vector path waits on a HOLD slot (Table HD-7). -/
def meSlotHeld (d : Dev) (t : Nat) : Bool :=
  meWaiting d t == some .slot
    || (match vecNext d t with
        | some (_, _, f) => !vecBusy d t && slotWaits d t (swPslot f.word)
        | none => false)

/-- Charge one cycle of a wait to `ME_WAIT` (Table ME-12). -/
def meCycle (t : Nat) (d : Dev) : Dev :=
  match meWaiting d t with
  | none => d
  | some .unit => d
  | some .slot => d
  | some _ => ctlAdd (regOff 16 t 0x58) 1 d

/-- The stall counter that a wait of the matrix engine path is charged to (R163). -/
def meStall (d : Dev) (t : Nat) : Option Nat :=
  match meWaiting d t with
  | some (.fill b) => some (stallCounter d t (fillProducer d t b))
  | some (.flag a) => some (stallCounter d t (flagProducer d t a))
  | _ => none

/-! ## Forced tile reset (R72) -/

/-- `ME_STAT.RUN` falls to 0: every accepted write becomes visible at once (R71, R140). -/
def allVisible (x : Tile) : Tile :=
  let see {n : Nat} (p : Prog n) : Prog n := { p with seen := p.words, waits := [] }
  { x with
    me := { x.me with prog := see x.me.prog }
    sf := { x.sf with prog := see x.sf.prog }
    st := { x.st with prog := see x.st.prog } }

/-- A forced tile reset of the matrix engine (R72, R111, R179). -/
def forceReset (t : Nat) (d : Dev) : Dev :=
  let d := modTile t (fun x =>
    let x := allVisible x
    { x with
      me := { x.me with
              run := false, faulted := false, pc := 0, front := 0, fillA := 0, fillB := 0, active := none
              shadow := none, shift := none, computes := [], acc := [], arrayFree := 0, shiftFree := 0 }
      sf := { x.sf with faulted := false, pc := 0 } }) d
  let d := ctlSet (regOff 19 t 0x40) 0 d
  match tilePart d t with
  | some q => haltFor q 6 d
  | none => d

end Sys2Proof.Machine
end

