-- ==== Sys2Proof/Machine/Reach.lean ====
section
/-! DEFINITION. How a request reaches its home and how the answer comes back: routing over the torus (R226 to R230),
packets and their tags (R225), the channel queues (R198), requests served for other devices, and the delivery of a
completion to whoever asked. -/

namespace Sys2Proof.Machine

/-! ## Routing (R213, R227 to R230) -/

/-- log2 of the X, Y and Z extents, and whether jokers are fitted (`RT_CFG`). -/
def extX (d : Dev) : Nat := 2 ^ bits (ctlNat d (regOff 7 0 0x40)) 3 1
def extY (d : Dev) : Nat := 2 ^ bits (ctlNat d (regOff 7 0 0x40)) 6 4
def extZ (d : Dev) : Nat := 2 ^ bits (ctlNat d (regOff 7 0 0x40)) 9 7
def jokers (d : Dev) : Bool := bitAt (ctlNat d (regOff 7 0 0x40)) 0

/-- The positions of a physical Z ring (R229). -/
def ringLen (d : Dev) : Nat := if jokers d then extZ d + 1 else extZ d

/-- This device's place: x, y, ring position. -/
def myX (d : Dev) : Nat := bits (ctlNat d (regOff 7 0 0x44)) 4 0
def myY (d : Dev) : Nat := bits (ctlNat d (regOff 7 0 0x44)) 9 5
def myPos (d : Dev) : Nat := bits (ctlNat d (regOff 7 0 0x48)) 4 0

/-- A position is FAILED (R230): only in a system with jokers. -/
def posFailed (d : Dev) (k : Nat) : Bool := jokers d && bitAt (seatWord d k) 5

/-- The number of the device at a position of this ring with coordinates x, y (R14, R230). -/
def numberAt (d : Dev) (x y k : Nat) : Option Nat :=
  let low := x + 32 * y
  if !jokers d then some (low + 1024 * k)
  else if posFailed d k then none
  else if bitAt (seatWord d k) 4 then some (low + 1024 * (seatWord d k % 16))
  else some (16384 + low)

/-- The ring position of a device number's seat, or of a joker (R230). -/
def posOf (d : Dev) (n : Nat) : Nat :=
  if !jokers d then n / 1024 % 16
  else ((List.range (ringLen d)).find? (fun k => (numberAt d (n % 32) (n / 32 % 32) k) == some n)).getD 0

/-- The hops from one place to another in the + direction of a ring. -/
def hopsUp (len start stop : Nat) : Nat := (stop + len - start) % len

/-- The port by which a packet for a device leaves (R227): X, then Y, then Z; the direction of fewer hops, + on a tie.
In Z a bypassed position costs no hop of its own (R232; log 20). -/
def nextPort (d : Dev) (n : Nat) : Nat :=
  let ux := hopsUp (extX d) (myX d) (n % 32)
  let uy := hopsUp (extY d) (myY d) (n / 32 % 32)
  if ux ≠ 0 then (if ux ≤ extX d - ux then 0 else 1)
  else if uy ≠ 0 then (if uy ≤ extY d - uy then 2 else 3)
  else
    let len := ringLen d
    let up := hopsUp len (myPos d) (posOf d n)
    let live (f : Nat → Nat) (m : Nat) : Nat := ((List.range m).filter (fun i => !posFailed d (f (i + 1)))).length
    let a := live (fun i => (myPos d + i) % len) up
    let b := live (fun i => (myPos d + len - i) % len) (len - up)
    if a ≤ b then 4 else 5

/-- A port's neighbour at distance one is FAILED (R232). -/
def bypassed (d : Dev) (p : Nat) : Bool :=
  let len := ringLen d
  if p = 4 then posFailed d ((myPos d + 1) % len)
  else if p = 5 then posFailed d ((myPos d + len - 1) % len)
  else false

/-- The device number that the seat table and extents predict at the far end of a link (R216, R229). -/
def neighbour (d : Dev) (p l : Nat) : Option Nat :=
  let x := myX d
  let y := myY d
  let k := myPos d
  let len := ringLen d
  let step := if jokers d ∧ l = 3 then 2 else 1
  if p = 0 then numberAt d ((x + 1) % extX d) y k
  else if p = 1 then numberAt d ((x + extX d - 1) % extX d) y k
  else if p = 2 then numberAt d x ((y + 1) % extY d) k
  else if p = 3 then numberAt d x ((y + extY d - 1) % extY d) k
  else if p = 4 then numberAt d x y ((k + step) % len)
  else numberAt d x y ((k + 2 * len - step) % len)

/-! ## Packets (R225) -/

/-- The kind codes of Table LK-5. -/
def PKind.code : PKind → Nat
  | .write => 1 | .read => 2 | .data => 3 | .atomic => 4 | .completion => 5 | .collective => 6

/-- The bytes of a packet: a header of 32 and its payload (R225). -/
def pktBytes (k : Packet) : Nat := 32 + k.payload.length

/-- The flits of a packet, 256 bytes to a flit (R214, R225). -/
def pktFlits (k : Packet) : Nat := ceilDiv (pktBytes k) 256

/-- An open packet takes its place at its output port: in order of arrival, and by input port within a cycle, those of the
device's own requesters last (R227). -/
def openInsert (x : TxPkt) (q : List TxPkt) : List TxPkt :=
  let before (y : TxPkt) : Bool := y.sent != 0 || y.cyc != x.cyc || decide (y.inport ≤ x.inport)
  q.takeWhile before ++ x :: q.dropWhile before

/-- Queue a packet that came in by a port, or by 6 from this device's own requesters, on its stream (R223, R227). -/
def sendFrom (inport : Nat) (stream : Stream) (dev : Nat) (kind : PKind) (k : Packet) (d : Dev) : Dev :=
  let p := nextPort d dev
  let x : TxPkt := { stream := stream, port := p, link := none, dev := dev, since := d.time.trick, cyc := now d, inport := inport
                     sent := 0, kind := kind, pkt := { k with kind := BitVec.ofNat 8 kind.code } }
  if stream = .opened then modPort p (fun y => { y with openq := openInsert x y.openq }) d
  else modBody (fun b => { b with tx := b.tx ++ [x] }) d

/-- Queue a packet of this device's own. -/
def sendPkt (stream : Stream) (dev : Nat) (kind : PKind) (k : Packet) (d : Dev) : Dev := sendFrom 6 stream dev kind k d

/-- The POISON field for bytes of a payload, by index (R225). -/
def poisonField (bad : List Nat) : Word :=
  BitVec.ofNat 32 ((List.range 32).foldl (fun a k => if bad.any (fun i => i / 8 == k) then a + 2 ^ k else a) 0)

/-- The bytes of a payload that a POISON field names. -/
def fieldBad (w : Word) (n : Nat) : List Nat := (List.range n).filter (fun i => bitAt w.toNat (i / 8))

/-- The lowest tag from 1 that no outstanding request holds, taken for a request (the spec gives no rule of its choice;
tag 0 is that of COLLECTIVE packets, R252; log 21). -/
def newTag (who : Who) (d : Dev) : Nat × Dev :=
  let t := d.body.tags
  let n := (((List.range (t.length + 1)).find? (fun i => (tget none t (i + 1)).isNone)).getD 0) + 1
  (n, modBody (fun b => { b with tags := tset none b.tags n (some who) }) d)

/-- A request packet of this device with a new tag (R225). -/
def sendReq (stream : Stream) (addr : Nat) (kind : PKind) (arg : Dword) (bs : List Byte) (bad : List Nat) (who : Who)
    (d : Dev) : Dev :=
  let r := newTag who d
  sendPkt stream (gDev addr) kind
    { kind := 0, status := 0, src := BitVec.ofNat 16 (myDev d), tag := BitVec.ofNat 16 r.1, dst := BitVec.ofNat 64 addr, arg := arg
      poison := poisonField bad, rsv := 0, payload := bs } r.2

/-- The code of an atomic in an ATOMIC packet's payload (log 21). -/
def atomCode : AtomOp → Nat
  | .swap => 0 | .cas => 1 | .add => 2 | .and => 3 | .or => 4 | .xor => 5 | .mins => 6 | .maxs => 7 | .minu => 8
  | .maxu => 9

/-- The atomic of a code. -/
def atomOf : Nat → Option AtomOp
  | 0 => some .swap | 1 => some .cas | 2 => some .add | 3 => some .and | 4 => some .or | 5 => some .xor
  | 6 => some .mins | 7 => some .maxs | 8 => some .minu | 9 => some .maxu | _ => none

/-- Send what a memory request asks to another device. An ATOMIC carries its operand in ARG, and in its payload the
operation, the size and the compare value (R225 names these fields without their layout; log 21). -/
def sendMem (stream : Stream) (addr : Nat) (op : MemReq) (who : Who) (d : Dev) : Dev :=
  match op with
  | .read n => sendReq stream addr .read (BitVec.ofNat 64 n) [] [] who d
  | .write bs bad => sendReq stream addr .write 0 bs bad who d
  | .atomic o size b c =>
    sendReq stream addr .atomic b (leBytes 8 (atomCode o + 256 * size) ++ leBytes 8 c.toNat) [] who d

/-! ## Requests at their home (R47, R125, R198, R200) -/

/-- The status codes of a COMPLETION (Table LK-5) for the outcome of a check. -/
def Verdict.code : Verdict → Nat
  | .ok => 0
  | .address => 1
  | .access => 2
  | .domainOff => 3

/-- The bytes of a range, by index, that read as poisoned. -/
def badBytes (d : Dev) (a n : Nat) : List Nat := (List.range n).filter (fun i => wordPoison d ((a + i) / 8))

/-- A write of bytes some of which, by index, are poisoned: their 8-byte words become poisoned (R165, R201). -/
def writeBad (a : Nat) (bs : List Byte) (bad : List Nat) (d : Dev) : Dev :=
  ((bad.map (fun i => (a + i) / 8)).eraseDups).foldl (fun x w => poisonWord w x) (writeBytes a bs d)

/-- What a memory request asks, performed at its home (R47, R125, R200) but for the counts of its code: the bytes it
returns, which of them are poisoned, and the device after it. An atomic on a poisoned word leaves it poisoned. -/
def performRaw (a : Nat) (op : MemReq) (d : Dev) : List Byte × List Nat × Dev :=
  match op with
  | .read n => (readBytes d a n, badBytes d a n, d)
  | .write bs bad => ([], [], writeBad a bs bad d)
  | .atomic o size b c =>
    let bs := readBytes d a size
    let bad := badBytes d a size
    let e := writeBytes a (leBytes size (atomNew o size (leNat bs) b.toNat c.toNat)) d
    (bs, bad, if bad.isEmpty then e else poisonWord (a / 8) e)

/-- A memory request performed, with what its reads of cells count (R47, R201, R207). -/
def perform (a : Nat) (op : MemReq) (d : Dev) : List Byte × List Nat × Dev :=
  performRaw a op (match op with
    | .read n => noteRead a n d
    | .write bs _ => noteParts a bs.length d
    | .atomic _ size _ _ => noteRead a size d)

/-- The bytes that a request covers. -/
def MemReq.len : MemReq → Nat
  | .read n => n
  | .write bs _ => bs.length
  | .atomic _ size _ _ => size

/-- The permission that a request needs (R325). -/
def MemReq.perm : MemReq → Nat
  | .read _ => permR
  | .write _ _ => permW
  | .atomic _ _ _ _ => permA

/-- Two ranges touch a common 64-byte sector. -/
def sectorsMeet (a n b m : Nat) : Bool :=
  overlaps (a / 64 * 64) ((a + n + 63) / 64 * 64 - a / 64 * 64) (b / 64 * 64) ((b + m + 63) / 64 * 64 - b / 64 * 64)

/-- Put a request at the end of its channel's queue (R198). -/
def enqueue (c : Nat) (r : ChanReq) (d : Dev) : Dev :=
  modBody (fun b =>
    { b with chans := tset Chan.z b.chans c { tget Chan.z b.chans c with q := (tget Chan.z b.chans c).q ++ [r] } }) d

/-- The parts of a range cut at granules of g bytes. -/
def granules (g : Nat) : Nat → Nat → Nat → List (Nat × Nat)
  | 0, _, _ => []
  | f + 1, a, n => if n = 0 then [] else let m := min n (g - a % g); (a, m) :: granules g f (a + m) (n - m)

/-- A request cut at granules of g bytes, with the place of each part: one channel holds 256 consecutive bytes (R192), and
a tile's SRAM serves 64 at a time (R46). -/
def splitReq (g a : Nat) (op : MemReq) : List (Nat × Nat × MemReq) :=
  (granules g (op.len + 1) a op.len).map fun c =>
    (c.1, c.1 - a, match op with
      | .read _ => .read c.2
      | .write bs bad =>
        .write ((bs.drop (c.1 - a)).take c.2)
          ((bad.filter (fun i => decide (c.1 - a ≤ i) && decide (i < c.1 - a + c.2))).map (fun i => i - (c.1 - a)))
      | o => o)

/-! ## Bias (R313 to R315) -/

/-- The offset of a register of the host-link page. -/
def hlOff (o : Nat) : Nat := regOff 8 0 o

/-- The partition that `HL_WIN_PART` or `HL_HDM_PART` names, if it is enabled. -/
def namedPart (d : Dev) (off : Nat) : Option Nat :=
  let v := ctlNat d off
  if bitAt v 3 ∧ isPart d (v % 8) then some (v % 8) else none

/-- A local offset lies in the HDM range: its partition's HBM or GDDR7, within 64 GiB of the base. -/
def inHdm (d : Dev) (a : Nat) : Bool :=
  match namedPart d (hlOff 0x60) with
  | none => false
  | some p =>
    let b := ctlPair d (hlOff 0x58)
    decide (b ≤ a) && decide (a < b + 2 ^ 36) && ((homeOf d a).kind == 1 || (homeOf d a).kind == 2)
      && ((homeOf d a).eighth.bind (ownerOf d)) == some p

/-- A page is in host bias. -/
def hostBias (d : Dev) (a : Nat) : Bool := d.body.hl.proto != 0 && d.body.hl.bias.contains (a / 4096)

/-- The bias of a page is being flipped. -/
def flipping (d : Dev) (a : Nat) : Bool := d.body.hl.flips.any (fun p => p.1 == a / 4096)

/-- The 64-byte lines that a range touches, by first address. -/
def linesOf (a n : Nat) : List Nat :=
  if n = 0 then [] else (List.range ((a + n - 1) / 64 - a / 64 + 1)).map (fun i => 64 * (a / 64 + i))

/-- An access of the device to a range waits for the bias of a page of it: a flip is in progress, or the host has not
answered for one of its lines (R315). -/
def biasWaits (d : Dev) (a n : Nat) : Bool :=
  d.body.hl.proto != 0 && !(d.body.hl.bias.isEmpty && d.body.hl.flips.isEmpty)
    && (linesOf a n).any (fun l => flipping d l || (hostBias d l && !d.body.hl.answered.contains l))

/-- An access uses up the host's answers for its lines. -/
def useLines (a n : Nat) (d : Dev) : Dev :=
  if d.body.hl.answered.isEmpty then d
  else modHl (fun y => { y with answered := y.answered.filter (fun l => !overlaps l 64 a n) }) d

/-- A device request waits, outside its channel's queue, for the bias of its page; accesses of the host itself ignore it
(R304, R315; log 39). -/
def parks (d : Dev) (who : Who) (a : Nat) : Bool :=
  match who with
  | .window _ => false
  | _ => d.body.hl.proto != 0 && (hostBias d a || flipping d a)

/-- Let a device request wait for the bias of its page. -/
def park (r : ChanReq) (d : Dev) : Dev :=
  modHl (fun y => { y with parked := y.parked ++ [⟨r, if flipping d r.addr then [] else linesOf r.addr r.op.len⟩] }) d

/-- The requests that wait no more go to their channels, past none to a common sector. -/
def unpark (d : Dev) : Dev :=
  d.body.hl.parked.foldl (fun e p =>
    let before := e.body.hl.parked.takeWhile (fun x => x != p)
    if !p.need.isEmpty || flipping e p.req.addr || before.any (fun x => sectorsMeet x.req.addr x.req.op.len p.req.addr p.req.op.len) then e
    else enqueue ((channelOf e p.req.addr).getD 0) p.req (modHl (fun y => { y with parked := y.parked.erase p }) e)) d

/-! ## Resources under test (R381) -/

/-- The physical tile of a logical one in force (R9, R360). -/
def physTile (d : Dev) (t : Nat) : Nat := tget (if t < 72 then t else t + 8) d.body.board.tileMap t

/-- A self-test holds a channel's stack or device: its requests stay in the queue. -/
def chanTested (d : Dev) (c : Nat) : Bool :=
  d.body.bt.acts.any (fun a => if c < 256 then a.kind == 2 && a.unit == c / 32 else a.kind == 3 && a.unit == (c - 256) / 4)

/-- A flash channel of a pair, and the channel of an offset of its range: 64 KiB granules alternate between the two of a
pair, the even one first (R206). -/
def flashChan (d : Dev) (pair base a : Nat) : Nat :=
  if !bitAt d.body.board.flashFitted (2 * pair) then 2 * pair + 1
  else if !bitAt d.body.board.flashFitted (2 * pair + 1) then 2 * pair
  else 2 * pair + (a - base) / 65536 % 2

/-- A self-test holds a flash channel. -/
def flashTested (d : Dev) (c : Nat) : Bool := d.body.bt.acts.any (fun a => a.kind == 6 && a.unit == c)

/-- A self-test runs on a logical tile's physical tile: its SRAM serves nothing else. -/
def tileTested (d : Dev) (t : Nat) : Bool := d.body.bt.acts.any (fun a => a.kind == 8 && a.unit == physTile d t)

/-- What holds a local offset is under test. -/
def underTest (d : Dev) (a : Nat) : Bool :=
  match homeOf d a with
  | .flash p b => flashTested d (flashChan d p b a)
  | .sram t _ => tileTested d t
  | _ => match channelOf d a with
    | some c => chanTested d c
    | none => false

/-! ## Accesses of the device's own units (R196, R198, R201) -/

/-- An access of a unit waits: an older request to one of its sectors is in a channel's queue, or to one of its lines in a
tile's (R46, R198), the host has yet to answer for one of its lines (R315), or a self-test holds what it reaches (R381). -/
def unitWaits (d : Dev) (a n : Nat) : Bool :=
  d.body.chans.any (fun p => p.2.q.any (fun r => sectorsMeet r.addr r.op.len a n))
    || d.body.tiles.any (fun p => p.2.sramq.any (fun r => sectorsMeet r.addr r.op.len a n))
    || d.body.hl.parked.any (fun p => sectorsMeet p.req.addr p.req.op.len a n) || biasWaits d a n
    || (!d.body.bt.acts.isEmpty && (granules 256 (n + 1) a n).any (fun c => underTest d c.1))

/-- Each 256 bytes that a unit accesses in HBM or GDDR7 is one request that their channel serves (R192, R196). -/
def unitCount (a n : Nat) (d : Dev) : Dev :=
  (granules 256 (n + 1) a n).foldl (fun x p => match channelOf x p.1 with
    | some c => modBody (fun b =>
        let y := tget Chan.z b.chans c
        { b with chans := tset Chan.z b.chans c { y with count := y.count + 1 } }) x
    | none => x) d

/-- A unit reads n bytes: the bytes, which of them are poisoned, and the device after it. -/
def unitRead (a n : Nat) (d : Dev) : List Byte × List Nat × Dev := perform a (.read n) (useLines a n (unitCount a n d))

/-- A unit writes bytes, some of which, by index, are poisoned. -/
def unitWrite (a : Nat) (bs : List Byte) (bad : List Nat) (d : Dev) : Dev :=
  (perform a (.write bs bad) (useLines a bs.length (unitCount a bs.length d))).2.2

/-! ## Token buckets and turns of the units that queues share (R38, R151, R173, R205, R208, R287, R316) -/

/-- The number of the play that runs, since the count began. -/
def playNow (d : Dev) : Nat := 16 * d.time.trick + d.time.phase / 48

/-- The tokens that a unit's bucket holds in this play: RATE more for each play boundary since it was last used, up to
4 × RATE. -/
def bucketNow (d : Dev) (k rate : Nat) : Int :=
  let b := tget Bucket.z d.body.buckets k
  min (4 * rate : Int) (b.tokens + rate * (playNow d - b.play : Nat))

/-- A unit may make its next accesses: its bucket is not spent (log 70). -/
def bucketOpen (d : Dev) (k rate : Nat) : Bool := decide (0 < bucketNow d k rate)

/-- A unit's accesses of n bytes take their tokens, ahead of the plays that bring them where the bucket holds fewer
(log 70). -/
def takeTokens (k rate n : Nat) (d : Dev) : Dev :=
  modBody (fun b => { b with buckets := tset Bucket.z b.buckets k ⟨bucketNow d k rate - ceilDiv n 64, playNow d⟩ }) d

/-- A queue's RATE changes: what its bucket gained at the old rate stays. -/
def keepTokens (k rate : Nat) (d : Dev) : Dev :=
  modBody (fun b => { b with buckets := tset Bucket.z b.buckets k ⟨bucketNow d k rate, playNow d⟩ }) d

/-- A deal is accepted: a bucket holds its DEPTH (R151). -/
def fillBucket (k rate : Nat) (d : Dev) : Dev :=
  modBody (fun b => { b with buckets := tset Bucket.z b.buckets k ⟨4 * rate, playNow d⟩ }) d

/-- The keys of the buckets of the movers, the flash controllers and the input engines by queue of a half, of the snapshot
writer and the write-back engine by partition. -/
def mvBucket (h q : Nat) : Nat := 4 * h + q
def flBucket (h q : Nat) : Nat := 8 + 4 * h + q
def inBucket (h q : Nat) : Nat := 16 + 4 * h + q
def wrBucket (q : Nat) : Nat := 24 + q
def wbBucket (q : Nat) : Nat := 32 + q

/-- The queue of a half whose turn it is at a unit: the first in rotation of those that have work for it. -/
def turnOf (d : Dev) (k : Nat) (ready : Nat → Bool) : Option Nat :=
  ((List.range 4).map (fun i => (tget 0 d.body.turns k + i) % 4)).find? ready

/-- A turn is over: the next queue in rotation comes first (R173, R208, R287). -/
def nextTurn (k q : Nat) (d : Dev) : Dev := modBody (fun b => { b with turns := tset 0 b.turns k ((q + 1) % 4) }) d

/-! ## Host memory (R309, R312) -/

/-- An entry takes an access of a requester: one that is being freed, only the accesses in flight through it (R310). -/
def Region.takes (r : Region) (who : Who) : Bool :=
  match r.freeing with
  | none => true
  | some l => l.contains who

/-- The OUTBOUND entry that covers a range of host-region offsets for a requester, with its number (R310, R312). -/
def hostEntry (d : Dev) (who : Who) (h n : Nat) : Option (Nat × Region) :=
  (d.body.hl.regions.findSome? fun p =>
    match p.2 with
    | some r => if r.kind = 2 ∧ r.takes who ∧ r.hoff ≤ h ∧ h + n ≤ r.hoff + r.len then some (p.1, r) else none
    | none => none)

/-- Whether a device access to host memory is admitted (R312, R325): its status, and the bus address with the number of its
entry. `purpose` is the write purpose that the requester needs, 0 any (log 23); none for a read. The entry belongs to the
requester's partition, or grants admit the access. -/
def hostAdmits (d : Dev) (who : Who) (part : Option Nat) (src h n : Nat) (purpose : Option Nat) : Nat × Nat × Nat :=
  match hostEntry d who h n with
  | none => (1, 0, 0)
  | some (k, r) =>
    let off := Config.hostBase + h
    let perm := if purpose.isSome then permW else permR
    let own := ownerOf d (k / 512)
    let mine := match part with
      | some q => own == some q ||
          (granted d q false (myDev d) off n perm && (match own with | some o => granted d o true (myDev d) off n perm | none => false))
      | none => match own with | some o => granted d o true src off n perm | none => false
    let may := match purpose with
      | none => bitAt r.use 0
      | some 0 => bits r.use 2 1 != 0
      | some p => bits r.use 2 1 == p
    if mine && may then (0, r.bus + (h - r.hoff), k) else (2, 0, 0)

/-- The parts of a range cut at 4 KiB boundaries. -/
def pagePieces : Nat → Nat → Nat → List (Nat × Nat)
  | 0, _, _ => []
  | f + 1, a, n => if n = 0 then [] else let m := min n (4096 - a % 4096); (a, m) :: pagePieces f (a + m) (n - m)

/-- A transfer between a range of the host region and the device, part by part, since each access finds its own entry
(R312): the first status that is not 0, and for each part its bus address with its entry, its place and its length. -/
def hostRange (d : Dev) (who : Who) (part : Option Nat) (h n : Nat) (purpose : Option Nat) :
    Nat × List ((Nat × Nat) × Nat × Nat) :=
  let ps := (pagePieces (n / 4096 + 2) h n).map (fun c => (hostAdmits d who part (myDev d) c.1 c.2 purpose, c.1 - h, c.2))
  (((ps.find? (fun x => x.1.1 != 0)).map (fun x => x.1.1)).getD 0, ps.map (fun x => (x.1.2, x.2.1, x.2.2)))

/-- A posted write to the host waits for credit, behind those of its kind (R317, R318). -/
def hostPost (who : Who) (at_ : Nat × Nat) (bs : List Byte) (d : Dev) : Dev :=
  modHl (fun x => { x with posted := x.posted ++ [⟨who, at_, bs⟩] }) d

/-- The part of a range that `m` bytes from `from_` on cover, with what they send. -/
def hostSends (who : Who) (ps : List ((Nat × Nat) × Nat × Nat)) (bs : List Byte) (m : Nat) : List HostWrite :=
  (ps.filter (fun c => decide (c.2.1 < m))).map (fun c =>
    ⟨who, c.1, (bs.drop c.2.1).take (min c.2.2 (m - c.2.1))⟩)

/-- Writes leave for the host (R317). -/
def hostLeave (l : List HostWrite) (d : Dev) : Dev := modHl (fun y => { y with sent := y.sent ++ l }) d

/-- The entries of which no access is in flight any more are free (R310). -/
def HlSt.sweep (y : HlSt) : HlSt :=
  { y with regions := y.regions.filter (fun p => match p.2 with
      | some r => r.freeing != some [] || y.posted.any (fun w => w.at_.2 == p.1)
      | none => false) }

/-- An access of a requester to the host is over: it is in flight no more (R310). -/
def dropFlight (who : Who) (d : Dev) : Dev :=
  modHl (fun y => HlSt.sweep { y with regions := y.regions.map (fun p =>
    (p.1, p.2.map (fun r => { r with freeing := r.freeing.map (fun l => l.filter (· != who)) }))) }) d

/-! ## Completions (R118, R120, R155, R226) -/

/-- The code of Table HD-8 for a completion's status. -/
def handCode (st : Nat) : Nat := if st = 2 then 5 else if st = 3 then 8 else 4

/-- The code of Table ST-7 for a completion's status. -/
def stockCode (st : Nat) : Nat := if st = 2 then 4 else if st = 3 then 5 else 3

/-- Answer a request that another device sent (R223, R226): data or an OK completion in the partition's response
stream when the request came in a slot, everything else and every error completion in the open channel. -/
def answer (x : Serve) (d : Dev) : Dev :=
  let stream := match x.part with
    | some q => if x.status = 0 then Stream.response q else .opened
    | none => .opened
  let place (l : List Byte) (p : Nat × List Byte) : List Byte := l.take p.1 ++ p.2 ++ l.drop (p.1 + p.2.length)
  let bs := x.data.foldl place (List.replicate x.len 0)
  let ok := x.status = 0 ∧ x.kind ≠ .write
  sendPkt stream x.dev (if ok then .data else .completion)
    { kind := 0, status := BitVec.ofNat 8 x.status, src := BitVec.ofNat 16 (myDev d), tag := BitVec.ofNat 16 x.tag
      dst := BitVec.ofNat 64 (x.dev * 2 ^ 49), arg := 0, poison := if ok then poisonField x.bad else 0, rsv := 0
      payload := if ok then bs else [] } d

/-- The served requests that have all their parts answer in the order in which they arrived, each partition's by each port:
one that is not done holds up those behind it (R223). -/
def flushServes (d : Dev) : Dev :=
  (d.body.order.foldl (fun (a : List (Nat × Nat) × Dev) id =>
    match tget none a.2.body.serves id with
    | none => a
    | some x =>
      let key := (x.part.getD 8, nextPort a.2 x.dev)
      if x.left = 0 ∧ (x.part = none ∨ x.status ≠ 0 ∨ !a.1.contains key) then
        (a.1, answer x (modBody (fun b => { b with serves := tset none b.serves id none, order := b.order.filter (· != id) }) a.2))
      else (key :: a.1, a.2)) ([], d)).2

/-- Keep a request of another device, behind those that came before it. -/
def openServe (id : Nat) (x : Serve) (d : Dev) : Dev :=
  modBody (fun b => { b with serves := tset none b.serves id (some x), order := b.order ++ [id] }) d

/-- One part of a served request is done; the last one lets it answer. -/
def serveDone (id st pos : Nat) (bs : List Byte) (bad : List Nat) (d : Dev) : Dev :=
  match tget none d.body.serves id with
  | none => d
  | some x =>
    let y := { x with left := x.left - 1, data := x.data ++ [(pos, bs)], bad := x.bad ++ bad.map (fun i => pos + i)
                      status := if x.status = 0 then st else x.status }
    flushServes (modBody (fun b => { b with serves := tset none b.serves id (some y) }) d)

/-- A stock request after one of its parts is back (R155). -/
def reqBack (st pos : Nat) (bs : List Byte) (bad : List Nat) (fin : ReqStage) (r : StReq) : StReq :=
  let left := r.out - 1
  { r with
    out := left
    data := if bs.isEmpty then r.data else r.data ++ [(pos, bs)]
    poison := r.poison ++ bad.map (fun i => pos + i)
    stage := match r.stage with
      | .failed c => .failed c
      | _ => if st ≠ 0 then .failed (stockCode st) else if left = 0 then fin else r.stage }

/-- A part of an access of the host is back: the last one answers a read (R304). -/
def windowBack (id pos : Nat) (bs : List Byte) (bad : List Nat) (d : Dev) : Dev :=
  match tget none d.body.hl.windows id with
  | none => d
  | some w =>
    let k := (w.addr + pos) / 256
    let x := { w with left := tset 0 w.left k (tget 0 w.left k - 1), data := w.data ++ [(pos, bs)], bad := w.bad ++ bad.map (fun i => pos + i) }
    if !x.left.isEmpty then modHl (fun y => { y with windows := tset none y.windows id (some x) }) d
    else
      let d := dropFlight (.window id) (modHl (fun y => { y with windows := tset none y.windows id none }) d)
      if x.wr then d
      else reply (.data (x.data.foldl (fun l p => l.take p.1 ++ p.2 ++ l.drop (p.1 + p.2.length)) (List.replicate x.len 0)) (!x.bad.isEmpty)) d

/-- Deliver a completion: its status, and for a read or an atomic the bytes with the poisoned ones by index. -/
def deliver (who : Who) (st pos : Nat) (bs : List Byte) (bad : List Nat) (d : Dev) : Dev :=
  match who with
  | .hand t h => modHand t h (fun x =>
      { x with miss := x.miss.map (fun m =>
          if m.res = .pending then
            { m with res := if st ≠ 0 then .error (handCode st) else .data (BitVec.ofNat 512 (leNat bs)) (!bad.isEmpty) }
          else m) }) d
  | .post t h id => modHand t h (fun x =>
      { x with posted := x.posted.map (fun p =>
          if p.id = id ∧ p.res = none then { p with res := some (if st = 0 then 0 else handCode st) } else p) }) d
  | .stockRead t id _ => modSt t (fun x =>
      { x with reqs := x.reqs.map (fun r => if r.id = id then reqBack st pos bs bad .gotData r else r) }) d
  | .stockWrite t id => modSt t (fun x =>
      { x with reqs := x.reqs.map (fun r => if r.id = id then reqBack st pos [] [] .done r else r) }) d
  | .remote id => serveDone id st pos bs bad d
  | .window id => windowBack id pos bs bad d
  | .coll a op => modBody (fun b => { b with positions := b.positions.map (fun p => if p.1 = a then (p.1, p.2.map (fun r =>
      if r.seq = op then { r with out := r.out - 1, status := if st = 0 then r.status else if st = 3 then 5 else 4 } else r)) else p) }) d
  | _ => d

/-- The rank of an access among those that reach a tile's SRAM in one cycle: the tile's own hands by number, then window
accesses (R46). -/
def sramRank (t : Nat) : Who → Nat
  | .hand u h => if u = t then h else 64
  | _ => 64

/-- An access takes its place in a tile's queue: in order of arrival, and by rank within a cycle (R46). -/
def sramInsert (t : Nat) (r : SramReq) (q : List SramReq) : List SramReq :=
  let before (x : SramReq) : Bool := x.came != r.came || decide (sramRank t x.who ≤ sramRank t r.who)
  q.takeWhile before ++ r :: q.dropWhile before

/-- Queue an access at a tile's SRAM, line by line (R46). -/
def queueSram (t : Nat) (who : Who) (a : Nat) (op : MemReq) (pos : Nat) (d : Dev) : Dev :=
  (splitReq 64 a op).foldl (fun x p =>
    modTile t (fun y => { y with sramq := sramInsert t ⟨who, now d, p.1, pos + p.2.1, p.2.2⟩ y.sramq }) x) d

/-- The tile whose stock makes a request, a unit of the deck. -/
def Who.stock? : Who → Option Nat
  | .stockRead t _ _ => some t
  | .stockWrite t _ => some t
  | _ => none

/-- Issue a request to memory of this device, already checked: a tile's SRAM takes it into its queue, but for a read by its
own stock, which reads at once what was performed before this cycle (R46, R128); an HBM or GDDR7
channel takes it into its queue part by part once its page's bias lets it (R315), flash performs it at once, host memory waits for the host link (R125, R198,
R312), and control space for the page's own checks (R396). `pos` is the
place of the first byte in what the requester collects. -/
def issueLocal (trump : Bool) (a : Nat) (op : MemReq) (who : Who) (pos : Nat) (d : Dev) : Dev :=
  let put (x : Dev) (p : Nat × Nat × MemReq) : Dev :=
    let r : ChanReq := ⟨who, trump, p.1, pos + p.2.1, p.2.2⟩
    if parks x who p.1 then park r x else enqueue ((channelOf d p.1).getD 0) r x
  match homeOf d a with
  | .hbm _ _ => (splitReq 256 a op).foldl put d
  | .gddr _ _ => (splitReq 256 a op).foldl put d
  | .host _ => d
  | .ctl _ => d
  | .sram t _ =>
    match who, op with
    | .stockRead u _ _, .read _ =>
      if u = t then
        (splitReq 64 a op).foldl (fun x p => let r := perform p.1 p.2.2 x; deliver who 0 (pos + p.2.1) r.1 r.2.1 r.2.2) d
      else queueSram t who a op pos d
    | _, _ => queueSram t who a op pos d
  | _ => let r := perform a op d; deliver who 0 pos r.1 r.2.1 r.2.2

/-- How many parts a request to this device's memory is issued in. -/
def partsOf (d : Dev) (a : Nat) (op : MemReq) : Nat :=
  match homeOf d a with
  | .hbm _ _ => (splitReq 256 a op).length
  | .gddr _ _ => (splitReq 256 a op).length
  | .sram _ _ => (splitReq 64 a op).length
  | _ => 1

/-! ## Flags (R161) -/

/-- The status with which a partition's 8-byte flag at a global address is refused, or 0 (R312, R325): for a flag in host
memory, by the write purpose that its unit needs. -/
def flagStatus (d : Dev) (purpose q addr : Nat) : Nat :=
  let v := checkGlobal d q addr 8 permW
  if v.2 ≠ .ok then v.2.code
  else if !v.1 then 0
  else match homeOf d (gOff addr) with
    | .host h => (hostAdmits d .other (some q) (myDev d) h 8 (some purpose)).1
    | _ => 0

/-- Write an 8-byte flag at a global address for a partition: on this device as a request of its channel or tile, to a
peer as a packet of a stream, to the host as a posted write. The status of a failed check, or 0 (R161, R312, R325). -/
def putFlag (stream : Stream) (purpose q addr word : Nat) (d : Dev) : Nat × Dev :=
  let st := flagStatus d purpose q addr
  if st ≠ 0 then (st, d)
  else if gDev addr ≠ myDev d then (0, sendMem stream addr (.write (leBytes 8 word) []) .other d)
  else match homeOf d (gOff addr) with
    | .host h => (0, hostPost .other (hostAdmits d .other (some q) (myDev d) h 8 (some purpose)).2 (leBytes 8 word) d)
    | _ => (0, issueLocal false (gOff addr) (.write (leBytes 8 word) []) .other 0 d)

end Sys2Proof.Machine
end

