-- ==== Sys2Proof/Machine/Ring.lean ====
section
/-! DEFINITION. The command rings that the swap mover, the flash controller and the snapshot writer share (R173, R175,
R208, R316): submission by the tail register, the next command, and its completion. -/

namespace Sys2Proof.Machine

/-- The registers of a ring, by offset in control space: page, ring address, configuration, tail, head, failures. -/
structure RingRegs where
  page : Nat
  qbase : Nat
  cfg : Nat
  tail : Nat
  head : Nat
  fails : Nat
  deriving DecidableEq, Repr

def mvRing (h q : Nat) : RingRegs :=
  let o := regOff 14 h (0x80 + 0x40 * q)
  ⟨pageBase 14 h, o, o + 0x18, o + 0x1C, o + 0x20, o + 0x24⟩
def flRing (h q : Nat) : RingRegs :=
  let o := regOff 13 h (0x80 + 0x20 * q)
  ⟨pageBase 13 h, o, o + 0x8, o + 0xC, o + 0x10, o + 0x14⟩
def wrRing (q : Nat) : RingRegs :=
  let o := regOff 8 0 (0x80 + 0x20 * q)
  ⟨pageBase 8 0, o + 0x8, o + 0x10, o + 0x14, o + 0x18, o + 0x1C⟩

/-- A queue is enabled. -/
def ringEn (d : Dev) (r : RingRegs) : Bool := bitAt (ctlNat d r.cfg) 0

/-- A ring's slot is memory of this device that its partition may read and write (R325). -/
def slotMay (d : Dev) (p slot : Nat) : Bool :=
  checkGlobal d p slot 32 permR == (true, .ok) && checkGlobal d p slot 32 permW == (true, .ok)

/-- The global address of the next command of an enabled queue that has one: a slot that its partition may not reach, or
that older requests wait to write, is not read (log 25). -/
def ringNext (d : Dev) (p : Nat) (r : RingRegs) : Option Nat :=
  let slot := ctlPair d r.qbase + 32 * (ctlNat d r.head % 256)
  if ringEn d r ∧ ctlNat d r.tail ≠ ctlNat d r.head ∧ slotMay d p slot ∧ !unitWaits d (gOff slot) 32 then some slot else none

/-- The bytes of a command of a ring. -/
def ringCmd (d : Dev) (slot : Nat) : List Byte := readBytes d (gOff slot) 32

/-- The next command is read (R196, R201). -/
def ringRead (slot : Nat) (d : Dev) : Dev := (unitRead (gOff slot) 32 d).2.2

/-- A tail write (R173): more than 256 commands ahead of the head, or behind it, is refused. -/
def tailEff (req : Req) (r : RingRegs) (v : Nat) (d : Dev) : Dev :=
  if 256 < (v + 2 ^ 32 - ctlNat d r.head) % 2 ^ 32 then refuse req r.page r.tail cValue true d else ctlSetN r.tail v d

/-- A command ends (R175): its STATUS is written, the head advances, the new head is written at FADDR, and a status other
than OK counts and raises the queue's event. A FADDR that the partition may not write gets no flag (log 25). -/
def ringEnd (r : RingRegs) (purpose q slot status faddr kind inst bit : Nat) (d : Dev) : Dev :=
  let d := if slotMay d q slot then unitWrite (gOff slot + 1) (leBytes 1 status) [] d else d
  let head := (ctlNat d r.head + 1) % 2 ^ 32
  let d := ctlSetN r.head head d
  let d := if faddr = 0 then d else (putFlag .opened purpose q faddr head d).2
  if status = 1 then d else event kind inst bit (ctlAdd r.fails 1 d)

/-- The partition that a queue of a half serves. -/
def queuePart (d : Dev) (h q : Nat) : Option Nat := ownerOf d (4 * h + q)

end Sys2Proof.Machine
end

