-- ==== Sys2Proof/Machine/MemTiers.lean ====
section
/-! DEFINITION. The memory tiers (spec/09_memory_tiers.md): channel queues, trump, errors, imbalance and temperature
(R196 to R202), write-back (R203 to R205), and the flash write path (R206 to R210). -/

namespace Sys2Proof.Machine

/-! ## Channel queues (R198 to R201) -/

def getChan (d : Dev) (c : Nat) : Chan := tget Chan.z d.body.chans c
def modChan (c : Nat) (f : Chan → Chan) (d : Dev) : Dev :=
  modBody (fun b => { b with chans := tset Chan.z b.chans c (f (tget Chan.z b.chans c)) }) d

/-- Two requests touch a common 64-byte sector. -/
def sameSector (x y : ChanReq) : Bool := sectorsMeet x.addr x.op.len y.addr y.op.len

/-- The place in the queue of the request that leaves next, and whether it leaves as a trump request whose size the counter
loses (R199): only the oldest trump request of the 256 in the queue may, within the counter, and past no access to its
own sector. -/
def nextOut (x : Chan) : Option (Nat × Bool) :=
  match x.q with
  | [] => none
  | _ =>
    match (x.q.take 256).findIdx? (fun r => r.trump) with
    | some i =>
      match x.q[i]? with
      | some r =>
        if decide (r.op.len ≤ x.trump) && !(x.q.take i).any (fun y => sameSector y r) then some (i, true)
        else some (0, false)
      | none => some (0, false)
    | none => some (0, false)

/-- The sectors that a request reads from their cells: all but the whole sectors of a write (R200). -/
def readSectors (r : ChanReq) : List Nat :=
  let n := r.op.len
  let l := if n = 0 then [] else (List.range ((r.addr + n - 1) / 64 - r.addr / 64 + 1)).map (fun i => r.addr / 64 + i)
  match r.op with
  | .write _ _ => l.filter (fun s => !(decide (r.addr ≤ 64 * s) && decide (64 * s + 64 ≤ r.addr + n)))
  | _ => l

/-- What the code finds on each sector that a request reads: what the reading itself shows, or an error that memory
holds (log 71). -/
def foundOn (d : Dev) (l : List Ecc) (r : ChanReq) : List (Nat × Ecc) :=
  (readSectors r).zipIdx.map (fun p =>
    (p.1, match l[p.2]?, sectorErr d p.1 with
      | some .uncorrectable, _ => .uncorrectable
      | _, .uncorrectable => .uncorrectable
      | some .corrected, _ => .corrected
      | _, e => e))

/-- Perform a request that leaves the queue (R200 to R202, R204), with what its code found on each sector read. -/
def serve (c : Nat) (r : ChanReq) (ecc : List Ecc) (d : Dev) : Dev :=
  let l := foundOn d ecc r
  let lost := (l.filter (fun p => p.2 == .uncorrectable)).map (·.1)
  let d := l.foldl (fun x p => countFound c p.2 x) d
  let e := performRaw r.addr r.op d
  let d := match r.op with
    | .read _ => e.2.2
    | _ => lost.foldl (fun x s => poisonWord (8 * s) x) e.2.2
  deliver r.who 0 r.pos e.1
    ((e.2.1 ++ (List.range e.1.length).filter (fun i => lost.contains ((r.addr + i) / 64))).eraseDups) d

/-- The next request leaves its channel's queue. -/
def dequeue (c : Nat) (ecc : List Ecc) (d : Dev) : Dev :=
  let x := getChan d c
  if chanTested d c then d
  else match nextOut x with
  | none => d
  | some (i, early) =>
    match x.q[i]? with
    | none => d
    | some r =>
      serve c r ecc (modChan c (fun y =>
        { y with q := y.q.eraseIdx i, count := y.count + 1, trump := if early then y.trump - r.op.len else y.trump }) d)

/-- CHANNEL_DEQUEUE: R198 to R202, R204. -/
def execChannelDequeue (c : ChanId) (ecc : List Ecc) (s : State) : Out := runMain (dequeue c.val ecc) s

/-- The gain of a channel's trump counter at a play boundary (R199). -/
def trumpGain (d : Dev) (c : Nat) : Nat :=
  let e := if c < 256 then c / 32 else (c - 256) / 12
  match ownerOf d e with
  | none => 0
  | some q =>
    let j := getJob d q
    if !j.loaded then 0 else if c < 256 then j.deal.tfracH * 128 else j.deal.tfracG * 72

/-- A channel's trump counter gains, up to four plays' gain. -/
def gainTrump (c : Nat) (d : Dev) : Dev :=
  let at_ := now d
  if d.time.phase % 48 = 0 ∧ (getChan d c).gained ≠ some at_ then
    let g := trumpGain d c
    modChan c (fun x => { x with trump := min (4 * g) (x.trump + g), gained := some at_ }) d
  else d

/-- TRUMP_COUNTER_GAIN: R199. -/
def execTrumpCounterGain (c : ChanId) (s : State) : Out := runMain (gainTrump c.val) s

/-! ## Imbalance and temperature (R196, R197) -/

def getStack (d : Dev) (s : Nat) : Stack := tget Stack.z d.body.hbmStacks s
def modStack (s : Nat) (f : Stack → Stack) (d : Dev) : Dev :=
  modBody (fun b => { b with hbmStacks := tset Stack.z b.hbmStacks s (f (tget Stack.z b.hbmStacks s)) }) d

/-- The live channels of a stack. -/
def liveOf (d : Dev) (s : Nat) : List Nat := (List.range 32).filter (fun c => bitAt (hbmMask d s) c)

/-- A window ends: an imbalanced one is counted and names its busiest channel, and the first since the last read raises
MM_HOT; the counts start again. -/
def windowEnd (s : Nat) (d : Dev) : Dev :=
  if d.time.trick % 1024 ≠ 0 ∨ d.time.phase ≠ 0 then d
  else
    let live := liveOf d s
    let cnt (c : Nat) : Nat := (getChan d (32 * s + c)).count
    let total := (live.map cnt).foldl (· + ·) 0
    let top := (live.map cnt).foldl max 0
    let hot := (live.find? (fun c => cnt c == top)).getD 0
    let clear (x : Dev) : Dev := live.foldl (fun a c => modChan (32 * s + c) (fun y => { y with count := 0 }) a) x
    if 4096 ≤ total ∧ 4 * total < top * live.length then
      let first := !(getStack d s).counted
      let d := ctlAdd (regOff 12 (s / 4) (0xA0 + 4 * (s % 4))) 1 d
      let d := modStack s (fun x => { x with hot := hot, counted := true }) d
      clear (if first then event 12 (s / 4) (s % 4) d else d)
    else clear d

/-- IMBALANCE_WINDOW_END: R196. -/
def execImbalanceWindowEnd (s : Eighth) (st : State) : Out := runMain (windowEnd s.val) st

/-- The throttle step after a reading: each step is released 5 °C below the temperature that set it (R197). -/
def throttleStep (old t : Nat) : Nat :=
  if 100 ≤ t ∨ (old = 2 ∧ 95 < t) then 2 else if 95 ≤ t ∨ (1 ≤ old ∧ 90 < t) then 1 else 0

/-- A stack reports its temperature and its channels'. -/
def tempSample (s : Nat) (t : Nat) (ts : List Nat) (d : Dev) : Dev :=
  modStack s (fun x =>
    { x with
      temp := t
      temps := (ts.take 32).zipIdx.foldl (fun m p => tset 0 m p.2 p.1) x.temps
      refresh := (ts.take 32).zipIdx.foldl (fun l p =>
        if 85 ≤ p.1 then setAdd l p.2 else if p.1 < 80 then setDel l p.2 else l) x.refresh
      throttle := throttleStep x.throttle t }) d

/-- HBM_TEMP_SAMPLE: R197. -/
def execHbmTempSample (s : Eighth) (stack : Byte) (chans : List Byte) (st : State) : Out :=
  runMain (tempSample s.val stack.toNat (chans.map (fun b => b.toNat))) st

/-! ## Write-back (R203 to R205) -/

/-- The deal trick of a point or start point comes at a cursor: it is the cursor, or lies in the period and recurs
(R31, R37, R205). -/
def recursAt (dl : Deal) (deal cursor : Nat) : Bool :=
  decide (deal < dl.prologue + dl.period) &&
    (deal == cursor || (decide (dl.prologue ≤ deal) && decide (deal ≤ cursor) && (cursor - deal) % dl.period == 0))

/-- Clear the dirty bit of a block, and let its next write be marked again (R204, R205). -/
def cleanBlock (q a : Nat) (d : Dev) : Dev :=
  let dl := (getJob d q).deal
  match dirtyBit dl a with
  | none => d
  | some bit =>
    let w := dl.dbase % 2 ^ 49 + bit / 64 * 8
    let v := readNat d w 8
    let h := (((homeOf d a).eighth).getD q) / 4
    let d := (performRaw w (.write (leBytes 8 (if bitAt v (bit % 64) then v - 2 ^ (bit % 64) else v)) []) (unitCount w 8 d)).2.2
    modBody (fun b => { b with marked := tset [] b.marked h ((tget [] b.marked h).filter (fun x => x != a / 4096)) }) d

/-- A block is dirty. -/
def isDirty (d : Dev) (q a : Nat) : Bool :=
  let dl := (getJob d q).deal
  match dirtyBit dl a with
  | none => false
  | some bit => bitAt (readNat d (dl.dbase % 2 ^ 49 + bit / 64 * 8) 8) (bit % 64)

/-- What becomes of a block that is written home: it is there, it waits to leave for the host, or it does not reach its
home. -/
inductive WbEnd where
  | home
  | waits
  | lost
  deriving DecidableEq, Repr

/-- Write one block home: in this device's memory directly, to the host as the host takes it. A block that does not
reach its home is marked dirty again (Table HL-5). -/
def blockHome (q a home : Nat) (host : HostOut) (d : Dev) : WbEnd × Dev :=
  let r := unitRead a 4096 d
  let d := r.2.2
  match homeOf d (gOff home) with
  | .host o =>
    let e := hostAdmits d (.writeBack q a) (some q) (myDev d) o 4096 (some 2)
    if e.1 ≠ 0 ∨ gDev home ≠ myDev d then (.lost, markBlock q a d)
    else (match host with
      | .taken => (.home, hostLeave [⟨.writeBack q a, e.2, r.1⟩] d)
      | .stall m => (.waits, hostPost (.writeBack q a) (e.2.1 + min m 4096, e.2.2) (r.1.drop m)
          (if m = 0 then d else hostLeave [⟨.writeBack q a, e.2, r.1.take m⟩] d))
      | .error => (.lost, markBlock q a d))
  | _ =>
    if checkGlobal d q home 4096 permW = (true, .ok) then (.home, unitWrite (gOff home) r.1 r.2.1 d)
    else (.lost, markBlock q a d)

/-- The counter of blocks written back of the half of a working copy. -/
def wbCounter (d : Dev) (a : Nat) : Nat := regOff 12 ((((homeOf d a).eighth).getD 0) / 4) 0x4C

/-- The dirty blocks of a window, in increasing order: place in the window and first address. -/
def dirtyBlocks (d : Dev) (q : Nat) (w : Window) : List (Nat × Nat) :=
  ((List.range (16 * w.len)).map (fun i => (i, gOff w.work + 4096 * i))).filter (fun p => isDirty d q p.2)

/-- Walk a window: each dirty block is cleared, read and written home (R205); the blocks that wait to leave for the
host. -/
def walkWindow (q : Nat) (w : Window) (host : HostOut) (d : Dev) : List Nat × Dev :=
  (dirtyBlocks d q w).foldl (fun x p =>
    let r := blockHome q p.2 (w.home + 4096 * p.1) host (cleanBlock q p.2 x.2)
    match r.1 with
    | .home => (x.1, ctlAdd (wbCounter r.2 p.2) 1 r.2)
    | .waits => (x.1 ++ [p.2], r.2)
    | .lost => (x.1, r.2)) ([], d)

def getWb (d : Dev) (q : Nat) : WbSt := tget WbSt.z d.body.wbs q
def modWb (q : Nat) (f : WbSt → WbSt) (d : Dev) : Dev :=
  modBody (fun b => { b with wbs := tset WbSt.z b.wbs q (f (tget WbSt.z b.wbs q)) }) d

/-- The write-backs of a partition whose every block is home or lost write their flags (R161, R205). -/
def wbFlags (q : Nat) (d : Dev) : Dev :=
  let l := (getWb d q).runs.filter (fun r => r.blocks.isEmpty)
  l.foldl (fun e r => if r.faddr = 0 then e else (putFlag .opened 2 q r.faddr r.word e).2)
    (modWb q (fun x => { x with runs := x.runs.filter (fun r => !r.blocks.isEmpty) }) d)

/-- A block that waited to leave for the host has left, or is lost and marked dirty again (R205, Table HL-5). -/
def wbBlockEnd (q a : Nat) (left : Bool) (d : Dev) : Dev :=
  let d := if left then ctlAdd (wbCounter d a) 1 d else markBlock q a d
  wbFlags q (modWb q (fun x => { x with runs := x.runs.map (fun r => { r with blocks := r.blocks.filter (· != a) }) }) d)

/-- A write-back point comes in the global trick that runs its deal trick (R39, R205): once. -/
def wbComes (q n : Nat) (p : WbPoint) (d : Dev) : Dev :=
  let j := getJob d q
  if jobRuns d q && recursAt j.deal p.deal j.cursor && tget 0 j.fired n != j.cursor + 1 then
    modWb q (fun x => { x with owed := x.owed ++ [(n, j.cursor)] })
      (modJob q (fun x => { x with fired := tset 0 x.fired n (j.cursor + 1) }) d)
  else d

/-- The walk of a window waits for older requests to what it reads and writes (R198). -/
def walkWaits (d : Dev) (q : Nat) (w : Window) : Bool :=
  (dirtyBlocks d q w).any (fun p => unitWaits d p.2 4096 || (gDev w.home == myDev d && unitWaits d (gOff w.home + 4096 * p.1) 4096)
    || (match dirtyBit (getJob d q).deal p.2 with
      | some bit => unitWaits d ((getJob d q).deal.dbase % 2 ^ 49 + bit / 64 * 8) 8
      | none => false))

/-- A point that has come starts when no write-back of its window runs and the engine has tokens, or needs none: its
window is walked, and its flag written once every block has left (R205). -/
def wbStart (q n : Nat) (p : WbPoint) (w : Window) (host : HostOut) (d : Dev) : Dev :=
  let dl := (getJob d q).deal
  let blocks := dirtyBlocks d q w
  match (getWb d q).owed.find? (fun o => o.1 == n) with
  | none => d
  | some o =>
    if (getWb d q).runs.any (fun r => r.window == p.window) || walkWaits d q w
      || (!blocks.isEmpty && !bucketOpen d (wbBucket q) dl.wbrate) then d
    else
      let d := modWb q (fun x => { x with owed := x.owed.erase o }) d
      let r := walkWindow q w host (if blocks.isEmpty then d else takeTokens (wbBucket q) dl.wbrate (4096 * blocks.length) d)
      wbFlags q (modWb q (fun x =>
        { x with runs := x.runs ++ [⟨p.window, p.faddr, p.ftag % 2 ^ 16 + 2 ^ 16 * (o.2 % 2 ^ 48), r.1⟩] }) r.2)

/-- A write-back point comes, or starts after it had to wait. -/
def writeback (q n : Nat) (host : HostOut) (d : Dev) : Dev :=
  let dl := (getJob d q).deal
  match dl.points[n]? with
  | none => d
  | some p => match dl.windows[p.window]? with
    | none => d
    | some w => wbStart q n p w host (wbComes q n p d)

/-- WRITEBACK_POINT: R204, R205. -/
def execWritebackPoint (q : Eighth) (n : Nat) (host : HostOut) (s : State) : Out := runMain (writeback q.val n host) s

/-! ## The flash write path (R206 to R210) -/

def flKey (h q : Nat) : Nat := 4 * h + q
def getFlash (d : Dev) (h q : Nat) : Option FlashRun := tget none d.body.flash (flKey h q)
def setFlash (h q : Nat) (x : Option FlashRun) (d : Dev) : Dev :=
  modBody (fun b => { b with flash := tset none b.flash (flKey h q) x }) d

/-- A zone by its key. -/
def getZone (d : Dev) (z : Nat) : Zone := tget Zone.z d.body.zones z
def setZone (z : Nat) (x : Zone) (d : Dev) : Dev := modBody (fun b => { b with zones := tset Zone.z b.zones z x }) d

/-- The zone of a flash region offset (as a local offset) and the byte within it. -/
def flZone (d : Dev) (a : Nat) : Option (Nat × Nat × Nat) :=
  match homeOf d a with
  | .flash p b => let z := zoneOf p b a; some (p, z.1, z.2)
  | _ => none

/-- The command at a slot (R209): the flash offset counts from the start of the flash region. -/
def flCmd (l : List Byte) (slot : Nat) : FlashRun := ⟨leAt l 0 1, leAt l 4 4, leAt l 8 8, leAt l 16 8, leAt l 24 8, 0, slot, 0⟩

/-- The local offset that a command names. -/
def flAddr (x : FlashRun) : Nat := Config.flashBase + x.off

/-- The status with which a command is refused at its start, or 0 (Table MM-6). -/
def flRefusal (d : Dev) (h q : Nat) (l : List Byte) (x : FlashRun) : Nat :=
  if (x.op ≠ 1 ∧ x.op ≠ 2) ∨ leAt l 2 2 ≠ 0 then 2
  else match (if x.off < 0x040000000000 then flZone d (flAddr x) else none) with
    | none => 2
    | some (p, z, o) =>
      if p / 4 ≠ h ∨ x.off % 65536 ≠ 0 ∨ x.len = 0 ∨ (x.op = 1 ∧ x.src % 64 ≠ 0) then 2
      else if ownerOf d p ≠ queuePart d h q then 7
      else if x.op = 2 then 0
      else
        let zn := getZone d z
        if zn.ptr ≠ o ∨ zn.state = .full ∨ zn.state = .offline then 3
        else if Config.zoneSize < o + 65536 * x.len then 4
        else 0

/-- The next command of a queue when none is in progress. -/
def flFront (d : Dev) (h q : Nat) : Option (List Byte × FlashRun) :=
  match getFlash d h q, queuePart d h q with
  | none, some p => (ringNext d p (flRing h q)).map (fun slot => let l := ringCmd d slot; (l, flCmd l slot))
  | _, _ => none

/-- Start the queue's next command if it is one of an operation; a refused one stands with its status. -/
def flTake (op h q : Nat) (k : FlashRun → Dev → Dev) (d : Dev) : Dev :=
  match flFront d h q with
  | none => d
  | some (l, x) =>
    let st := flRefusal d h q l x
    if x.op ≠ op ∧ (x.op = 1 ∨ x.op = 2) then d
    else if st ≠ 0 then setFlash h q (some { x with status := st }) (ringRead x.slot d)
    else k x (ringRead x.slot d)

/-- WRITE starts: its units follow one by one. -/
def execFlashWrite (h : Half) (q : Queue) (s : State) : Out :=
  runMain (flTake 1 h.val q.val (fun x d => setFlash h.val q.val (some x) d)) s

/-- RESET: the zone's pointer becomes 0 and its state EMPTY, then it is erased; an erase that fails, as that of an OFFLINE
zone does, leaves it OFFLINE (R209, Table MM-6; log 27). -/
def resetZone (h q : Nat) (x : FlashRun) (mediaFail : Bool) (d : Dev) : Dev :=
  match flZone d (flAddr x) with
  | none => d
  | some (p, z, o) =>
    if flashTested d (2 * p) || flashTested d (2 * p + 1) then d
    else if (getZone d z).state = .offline then setFlash h q (some { x with status := 6 }) d
    else if mediaFail then setFlash h q (some { x with status := 6 }) (setZone z ⟨0, .offline⟩ d)
    else
      let d := memDo (.clear (flAddr x - o) Config.zoneSize) d
      setFlash h q (some { x with status := 1 }) (setZone z ⟨0, .empty⟩ d)

/-- RESET: R209. -/
def execFlashReset (h : Half) (x : FlashErase) (s : State) : Out :=
  runMain (flTake 2 h.val x.queue.val (fun y d => resetZone h.val x.queue.val y x.mediaFail d)) s

/-- The RATE of a queue (R208). -/
def flRate (d : Dev) (h q : Nat) : Nat := bits (ctlNat d (flRing h q).cfg) 7 1

/-- The place in memory where the next unit of a WRITE goes. -/
def flNext (x : FlashRun) : Nat := flAddr x + 65536 * x.units

/-- A queue has a unit to write: a WRITE in progress, tokens, and no self-test on its channel (R208, R381). -/
def flReady (d : Dev) (h q : Nat) : Bool :=
  bucketOpen d (flBucket h q) (flRate d h q) &&
    match getFlash d h q with
    | some x => x.op == 1 && x.status == 0 && (match homeOf d (flNext x) with
      | .flash p b => !flashTested d (flashChan d p b (flNext x))
      | _ => false)
    | none => false

/-- A unit of a WRITE: its source is read, and it is programmed and becomes durable, or fails (R209, R210). -/
def writeUnit (h q : Nat) (x : FlashRun) (mediaFail : Bool) (d : Dev) : Dev :=
  let src := x.src + 65536 * x.units
  match flZone d (flNext x) with
  | none => d
  | some (_, z, o) =>
    let v := checkGlobal d ((queuePart d h q).getD 0) src 65536 permR
    let k := (homeRange d (gOff src) 65536).kind
    if v ≠ (true, .ok) ∨ (k ≠ 1 ∧ k ≠ 2) then setFlash h q (some { x with status := 7 }) d
    else
      let r := unitRead (gOff src) 65536 (takeTokens (flBucket h q) (flRate d h q) 65536 d)
      let d := r.2.2
      if !r.2.1.isEmpty then setFlash h q (some { x with status := 5 }) d
      else if mediaFail then setFlash h q (some { x with status := 6 }) (setZone z { getZone d z with state := .offline } d)
      else
        let p := o + 65536
        let n := x.units + 1
        setFlash h q (some { x with units := n, status := if n = x.len then 1 else 0 })
          (writeRaw (flNext x) r.1 (setZone z ⟨p, if p = Config.zoneSize then .full else .open_⟩ d))

/-- The next 64 KiB unit of a WRITE, in its queue's turn (R208). -/
def flashUnit (h q : Nat) (mediaFail : Bool) (d : Dev) : Dev :=
  match getFlash d h q with
  | none => d
  | some x =>
    if turnOf d (2 + h) (flReady d h) ≠ some q ∨ unitWaits d (gOff (x.src + 65536 * x.units)) 65536 then d
    else nextTurn (2 + h) q (writeUnit h q x mediaFail d)

/-- FLASH_UNIT_DURABLE: R208 to R210. -/
def execFlashUnitDurable (h : Half) (q : Queue) (mediaFail : Bool) (s : State) : Out :=
  runMain (flashUnit h.val q.val mediaFail) s

/-- A flash command ends. -/
def flashEnd (h q : Nat) (d : Dev) : Dev :=
  match getFlash d h q with
  | none => d
  | some x =>
    if x.status = 0 ∨ unitWaits d (gOff x.slot) 32 then d
    else setFlash h q none (ringEnd (flRing h q) 0 ((queuePart d h q).getD 0) x.slot x.status x.faddr 13 h q d)

/-- FLASH_COMMAND_COMPLETE: R208, R209. -/
def execFlashCommandComplete (h : Half) (q : Queue) (s : State) : Out := runMain (flashEnd h.val q.val) s

/-- FL_TAIL_WRITE: R208. -/
def execFlTailWrite (r : Req) (h : Half) (q : Queue) (v : Word) (s : State) : Out :=
  runMain (access r (flRing h.val q.val).tail 4 true v.toNat (tailEff r (flRing h.val q.val) v.toNat)) s

end Sys2Proof.Machine
end

