-- ==== Sys2Proof/Machine/Mover.lean ====
section
/-! DEFINITION. The swap mover (spec/08_attention.md, R168, R169, R173 to R176). -/

namespace Sys2Proof.Machine

def mvKey (h q : Nat) : Nat := 4 * h + q
def getMover (d : Dev) (h q : Nat) : Option MoverRun := tget none d.body.movers (mvKey h q)
def setMover (h q : Nat) (x : Option MoverRun) (d : Dev) : Dev :=
  modBody (fun b => { b with movers := tset none b.movers (mvKey h q) x }) d

/-- PSHIFT, the number of frames, and the addresses of a page's descriptor and frame (R166, R168, R174). -/
def mvPshift (d : Dev) (h q : Nat) : Nat := bits (ctlNat d (mvRing h q).cfg) 5 1
def mvNpage (d : Dev) (h q : Nat) : Nat := ctlNat d (regOff 14 h (0xA8 + 0x40 * q))
def pdtAddr (d : Dev) (h q p : Nat) : Nat := ctlPair d (regOff 14 h (0x88 + 0x40 * q)) + 16 * p
def frameAddr (d : Dev) (h q p : Nat) : Nat := ctlPair d (regOff 14 h (0x90 + 0x40 * q)) + p * 2 ^ mvPshift d h q

/-- A page descriptor as one 128-bit number, and its fields (Table AT-2). -/
def pdtGet (d : Dev) (h q p : Nat) : Nat := readNat d (gOff (pdtAddr d h q p)) 16
def pdState (w : Nat) : Nat := bits w 2 0
def pdLock (w : Nat) : Bool := bitAt w 3
def pdFill (w : Nat) : Nat := bits w 12 4
def pdRef (w : Nat) : Nat := bits w 47 32

/-- Whether the mover may read and write a page's descriptor, by its partition's grants, and finds no poison in it: the
status of Table AT-5. -/
def pdtStatus (d : Dev) (p h q page : Nat) : Nat :=
  let a := pdtAddr d h q page
  if checkGlobal d p a 16 permR ≠ (true, .ok) ∨ checkGlobal d p a 16 permW ≠ (true, .ok) then 7
  else if poisoned d (gOff a) 16 then 6
  else 1

/-- The mover reads a page's descriptor (R196, R201). -/
def pdtRead (h q page : Nat) (d : Dev) : Dev := (unitRead (gOff (pdtAddr d h q page)) 16 d).2.2

/-- Write STATE into a page's first 4 bytes, other fields kept. -/
def setPageState (h q p st : Nat) (d : Dev) : Dev :=
  let w := pdtGet d h q p
  unitWrite (gOff (pdtAddr d h q p)) (leBytes 4 (w % 2 ^ 32 / 8 * 8 + st)) [] d

/-- Write HOSTPG, bits [43:12] of the host-region offset of the host copy. -/
def setHostPg (h q p host : Nat) (d : Dev) : Dev :=
  unitWrite (gOff (pdtAddr d h q p) + 12) (leBytes 4 (bits (gOff host - Config.hostBase) 43 12)) [] d

/-- The command at a slot as a run (Table AT-4). -/
def mvCmd (l : List Byte) (slot : Nat) : MoverRun :=
  ⟨leAt l 0 1, leAt l 4 4, leAt l 8 4, leAt l 12 2, leAt l 14 2, leAt l 16 8, leAt l 24 8, slot, 0, false, 0⟩

/-- BAD_CMD (Table AT-5): a reserved OP, a non-zero RSV, a page or frame number too high, a misaligned HOSTADDR. -/
def mvBad (d : Dev) (h q : Nat) (l : List Byte) (x : MoverRun) : Bool :=
  x.op == 0 || decide (3 < x.op) || leAt l 2 2 != 0 || decide (mvNpage d h q ≤ x.page)
    || (x.op == 3 && decide (mvNpage d h q ≤ x.arg)) || (x.op != 3 && x.host % 2 ^ mvPshift d h q != 0)

/-- BAD_STATE (R175). -/
def mvState (d : Dev) (h q : Nat) (x : MoverRun) : Bool :=
  let w := pdtGet d h q x.page
  match x.op with
  | 1 => pdState w == 1 && pdRef w == 1 && !pdLock w
  | 2 => pdState w == 0
  | _ => let v := pdtGet d h q x.arg; pdState w == 1 && pdState v == 1 && pdRef v == 1

/-- Whether what is left of the host copy of a command, of n bytes, is admitted: status, and its parts by bus address,
place and length. The host copy lies in this device's host region (log 26). -/
def mvHost (d : Dev) (h q p : Nat) (x : MoverRun) (n : Nat) (purpose : Option Nat) : Nat × List ((Nat × Nat) × Nat × Nat) :=
  if gDev x.host ≠ myDev d then (1, [])
  else match homeOf d (gOff x.host) with
    | .host o => hostRange d (.mover h q) (some p) (o + x.at_) (n - x.at_) purpose
    | _ => (1, [])

/-- The next command of a queue, when none is in progress: its partition, its bytes and the command. -/
def mvFront (d : Dev) (h q : Nat) : Option (Nat × List Byte × MoverRun) :=
  match getMover d h q, queuePart d h q with
  | none, some p => (ringNext d p (mvRing h q)).map (fun slot => let l := ringCmd d slot; (p, l, mvCmd l slot))
  | _, _ => none

/-- The RATE of a queue (R173). -/
def mvRate (d : Dev) (h q : Nat) : Nat := bits (ctlNat d (mvRing h q).cfg) 12 6

/-- A queue has a request for the mover: its next command, or one that the host has stalled, and tokens (R173). -/
def mvReady (d : Dev) (h q : Nat) : Bool :=
  bucketOpen d (mvBucket h q) (mvRate d h q) &&
    match getMover d h q with
    | some x => x.status == 0
    | none => (mvFront d h q).isSome

/-- It is the queue's turn (R173): the queues of a half are served in fixed rotation. -/
def mvTurn (d : Dev) (h q : Nat) : Bool := turnOf d h (mvReady d h) == some q

/-- The copy of one page takes the queue's turn and its tokens (R173; log 70). -/
def mvSpend (h q : Nat) (d : Dev) : Dev :=
  nextTurn h q (takeTokens (mvBucket h q) (mvRate d h q) (2 ^ mvPshift d h q) d)

/-- A command waits for older requests to the descriptors and frames that it uses (R198). -/
def mvWaits (d : Dev) (h q : Nat) (x : MoverRun) : Bool :=
  let pages := if x.op = 3 then [x.page, x.arg] else [x.page]
  pages.any (fun k => unitWaits d (gOff (pdtAddr d h q k)) 16 || unitWaits d (gOff (frameAddr d h q k)) (2 ^ mvPshift d h q))

/-- Start the queue's next command if it is one of an operation and its turn has come; a command that is refused stands
with its status. -/
def mvTake (op h q : Nat) (k : Nat → MoverRun → Dev → Dev) (d : Dev) : Dev :=
  match mvFront d h q with
  | none => d
  | some (p, l, x) =>
    if !mvTurn d h q then d
    else if mvBad d h q l x then setMover h q (some { x with status := 2 }) (nextTurn h q (ringRead x.slot d))
    else if x.op ≠ op ∨ mvWaits d h q x then d
    else
      let st := if pdtStatus d p h q x.page ≠ 1 then pdtStatus d p h q x.page
        else if x.op = 3 then pdtStatus d p h q x.arg else 1
      let d := pdtRead h q x.page (ringRead x.slot d)
      let d := if x.op = 3 then pdtRead h q x.arg d else d
      if st ≠ 1 then setMover h q (some { x with status := st }) (nextTurn h q d)
      else if !mvState d h q x then setMover h q (some { x with status := 3 }) (nextTurn h q d)
      else k p { x with begun := true } (mvSpend h q d)

/-- The status with which a page's frame is read: 1 if the partition may read it and none of it is poisoned. -/
def frameStatus (d : Dev) (p h q page : Nat) : Nat :=
  let n := 2 ^ mvPshift d h q
  let a := frameAddr d h q page
  if checkGlobal d p a n permR ≠ (true, .ok) then 7 else if poisoned d (gOff a) n then 6 else 1

/-- `m` bytes of a frame are read from byte `i` (R196, R201). -/
def frameRead (h q page i m : Nat) (d : Dev) : List Byte × Dev :=
  let r := unitRead (gOff (frameAddr d h q page) + i) m d
  (r.1, r.2.2)

/-- Copy what is left of a frame out to the host as the host takes it (R175, R176, R318): the host that stalls leaves the
command waiting for its deadline, with what has left gone. -/
def swapOutRun (h q p : Nat) (x : MoverRun) (host : HostOut) (d : Dev) : Dev :=
  let n := 2 ^ mvPshift d h q
  let a := mvHost d h q p x n (some 1)
  let st := frameStatus d p h q x.page
  let send (m : Nat) (x : MoverRun) : Dev :=
    let r := frameRead h q x.page x.at_ m d
    setMover h q (some { x with at_ := x.at_ + m }) (hostLeave (hostSends (.mover h q) a.2 r.1 m) r.2)
  if a.1 ≠ 0 then setMover h q (some { x with status := 7 }) d
  else if st ≠ 1 then setMover h q (some { x with status := st }) (frameRead h q x.page x.at_ (n - x.at_) d).2
  else match host with
    | .stall m => send (min m (n - x.at_)) x
    | .error => setMover h q (some { x with status := 7 }) d
    | .taken => send (n - x.at_) { x with status := 1 }

/-- A command that the host has stalled goes on in its turn. -/
def mvAgain (op h q : Nat) (x : MoverRun) (k : Nat → MoverRun → Dev → Dev) (d : Dev) : Dev :=
  if x.op = op ∧ x.status = 0 ∧ mvTurn d h q ∧ !mvWaits d h q x then k ((queuePart d h q).getD 0) x (nextTurn h q d) else d

/-- SWAP_OUT starts, or goes on after the host had stalled. -/
def swapOut (h q : Nat) (host : HostOut) (d : Dev) : Dev :=
  match getMover d h q with
  | some x => mvAgain 1 h q x (fun p x d => swapOutRun h q p x host d) d
  | none => mvTake 1 h q (fun p x d => swapOutRun h q p x host (setHostPg h q x.page x.host (setPageState h q x.page 2 d))) d

/-- SWAP_OUT: R169, R173 to R176. -/
def execSwapOut (h : Half) (q : Queue) (host : HostOut) (s : State) : Out := runMain (swapOut h.val q.val host) s

/-- Copy what is left of a page in from the host as the host answers. -/
def swapInRun (h q p : Nat) (x : MoverRun) (host : HostIn) (d : Dev) : Dev :=
  let n := 2 ^ mvPshift d h q
  let a := mvHost d h q p x n none
  let f := frameAddr d h q x.page
  let put (bs : List Byte) (x : MoverRun) : Dev :=
    setMover h q (some { x with at_ := x.at_ + bs.length }) (unitWrite (gOff f + x.at_) bs [] d)
  if a.1 ≠ 0 ∨ checkGlobal d p f n permW ≠ (true, .ok) then setMover h q (some { x with status := 7 }) d
  else match host with
    | .stall bs => put (bs.take (n - x.at_)) x
    | .error => setMover h q (some { x with status := 7 }) d
    | .poison => setMover h q (some { x with status := 6 }) d
    | .data bs => put (slice bs 0 (n - x.at_)) { x with status := 1 }

/-- SWAP_IN starts, or goes on after the host had stalled. -/
def swapIn (h q : Nat) (host : HostIn) (d : Dev) : Dev :=
  match getMover d h q with
  | some x => mvAgain 2 h q x (fun p x d => swapInRun h q p x host d) d
  | none => mvTake 2 h q (fun p x d => swapInRun h q p x host (setPageState h q x.page 4 d)) d

/-- SWAP_IN: R169, R173 to R176. -/
def execSwapIn (h : Half) (q : Queue) (host : HostIn) (s : State) : Out := runMain (swapIn h.val q.val host) s

/-- COPY: the source frame into the destination's. -/
def moverCopy (h q p : Nat) (x : MoverRun) (d : Dev) : Dev :=
  let n := 2 ^ mvPshift d h q
  let f := frameAddr d h q x.arg
  let st := frameStatus d p h q x.page
  if st = 7 then setMover h q (some { x with status := 7 }) d
  else
    let r := frameRead h q x.page 0 n d
    if st ≠ 1 then setMover h q (some { x with status := st }) r.2
    else if checkGlobal d p f n permW ≠ (true, .ok) then setMover h q (some { x with status := 7 }) r.2
    else setMover h q (some { x with status := 1 }) (unitWrite (gOff f) r.1 [] r.2)

/-- COPY: R172, R174, R175. -/
def execMoverCopy (h : Half) (q : Queue) (s : State) : Out := runMain (mvTake 3 h.val q.val (moverCopy h.val q.val)) s

/-- The page's transition at the end of a SWAP_OUT, and the command's status (Tables AT-3, AT-5): a page that another
requester has moved is left. -/
def swapOutEnd (h q : Nat) (x : MoverRun) (d : Dev) : Nat × Dev :=
  let w := pdtGet d h q x.page
  if pdState w ≠ 2 then (3, d)
  else if pdRef w = 0 then ((if x.status = 1 then 5 else x.status), setPageState h q x.page 0 d)
  else if pdRef w ≠ 1 then ((if x.status = 1 then 5 else x.status), setPageState h q x.page 1 d)
  else if x.status = 1 then (1, setPageState h q x.page 3 d)
  else (x.status, setPageState h q x.page 1 d)

/-- The frame's transition at the end of a SWAP_IN: FILL, LAYER, OWNER and HOSTPG with REFCNT 1, or FREE. -/
def swapInEnd (h q : Nat) (x : MoverRun) (d : Dev) : Nat × Dev :=
  let w := pdtGet d h q x.page
  if pdState w ≠ 4 then (3, d)
  else if x.status = 1 then
    (1, setHostPg h q x.page x.host (unitWrite (gOff (pdtAddr d h q x.page))
      (leBytes 4 (w % 2 ^ 32 / 2 ^ 13 * 2 ^ 13 + x.fill % 512 * 16 + w % 16 / 8 * 8 + 1) ++ leBytes 2 1 ++ leBytes 2 x.layer
        ++ leBytes 4 x.arg) [] d))
  else (x.status, setPageState h q x.page 0 d)

/-- The end of a COPY: the destination's FILL is set to the source's, if no other requester has changed the state of
either page (R175, R176). -/
def copyEnd (h q : Nat) (x : MoverRun) (d : Dev) : Nat × Dev :=
  if x.status ≠ 1 then (x.status, d)
  else if !mvState d h q x then (3, d)
  else
    let v := pdtGet d h q x.arg % 2 ^ 32
    (1, unitWrite (gOff (pdtAddr d h q x.arg))
      (leBytes 4 (v / 2 ^ 13 * 2 ^ 13 + pdFill (pdtGet d h q x.page) * 16 + v % 16)) [] d)

/-- The end of a mover command: its status, and its page's last transition. A command that was refused, or whose
descriptors the mover cannot reach, changes none (Table AT-5). -/
def moverLast (h q p : Nat) (x : MoverRun) (d : Dev) : Nat × Dev :=
  let st := if pdtStatus d p h q x.page ≠ 1 then pdtStatus d p h q x.page
    else if x.op = 3 then pdtStatus d p h q x.arg else 1
  if !x.begun then (x.status, d)
  else if st ≠ 1 then (if x.status = 1 then st else x.status, d)
  else
    let d := pdtRead h q x.page d
    if x.op = 1 then swapOutEnd h q x d else if x.op = 2 then swapInEnd h q x d else copyEnd h q x d

/-- A mover command ends with a status, or with its own (R175). -/
def moverFinish (h q : Nat) (forced : Option Nat) (d : Dev) : Dev :=
  match getMover d h q with
  | none => d
  | some x =>
    let p := (queuePart d h q).getD 0
    let r := moverLast h q p { x with status := if x.begun then forced.getD x.status else x.status } d
    dropFlight (.mover h q) (setMover h q none (ringEnd (mvRing h q) 1 p x.slot (forced.getD r.1) x.faddr 14 h q r.2))

/-- A mover command ends. -/
def moverEnd (h q : Nat) (d : Dev) : Dev :=
  match getMover d h q with
  | none => d
  | some x => if x.status = 0 ∨ mvWaits d h q x ∨ unitWaits d (gOff x.slot) 32 then d else moverFinish h q none d

/-- MOVER_COMMAND_COMPLETE: R169, R175, R176. -/
def execMoverCommandComplete (h : Half) (q : Queue) (s : State) : Out := runMain (moverEnd h.val q.val) s

/-- MV_TAIL_WRITE: R173. -/
def execMvTailWrite (r : Req) (h : Half) (q : Queue) (v : Word) (s : State) : Out :=
  runMain (access r (mvRing h.val q.val).tail 4 true v.toNat (tailEff r (mvRing h.val q.val) v.toNat)) s

end Sys2Proof.Machine
end

