-- ==== Sys2Proof/Machine/HostLink.lean ====
section
/-! DEFINITION. The host link (spec/14_host_link.md, R299 to R320): training, the window, host commands, regions, bias,
device accesses to host memory, the snapshot writer, and deadlines. -/

namespace Sys2Proof.Machine

/-- An access that completes as an unsupported request (R302, R304, R305, R311). -/
def hostUr (d : Dev) : Dev := reply .unsupported (unsupported d)

/-- The function takes accesses to its BARs: link up, step 12 reached; outside SPLIT (R366, R371). -/
def hostUp (d : Dev) : Bool := d.power.mainOn && d.body.hl.rate != 0 && d.body.hl.ready && d.power.phase != 6

/-- Every page is in device bias: what waited for the host goes on (R300, R313). -/
def biasClear (d : Dev) : Dev :=
  unpark (modHl (fun y =>
    { y with bias := [], flips := [], asked := [], answered := [], parked := y.parked.map (fun x => { x with need := [] }) }) d)

/-! ## Link and function (R300, R366) -/

/-- The HOST item of the settings in force, kept at start-up: highest rate, widest width, CXL offered (Table PW-4). In
SPLIT no CXL is offered (R371). -/
def hostItem (d : Dev) : Nat := d.body.board.hostItem

/-- The protocol that a rate carries (Table HL-1): CXL 3.1 at 64.0 GT/s, CXL 2.0 at 32.0 GT/s, else PCIe. -/
def hostProto (rate offered accepted : Nat) : Nat :=
  let m := min offered accepted
  if m = 2 ∧ rate = 6 then 2 else if 1 ≤ m ∧ rate = 5 then 1 else 0

/-- The widest width code whose lanes, the lowest ones, include none that a repair excludes (R384; log 117). -/
def pcieWidth (out : Nat) : Nat := if out % 2 ^ 4 ≠ 0 then 0 else if out % 2 ^ 8 ≠ 0 then 1 else if out % 2 ^ 16 ≠ 0 then 2 else 3

/-- The link comes up at the highest rate and width that the host and the settings allow. -/
def hostTrain (rate width cxl : Nat) (d : Dev) : Dev :=
  let x := hostItem d
  let r := min rate (bits x 2 0)
  let w := min (min width (bits x 4 3)) (pcieWidth (tget 0 d.body.board.laneOut 24))
  if !d.body.hl.perst ∨ !d.power.mainOn ∨ d.body.bt.acts.any (fun a => a.kind == 5) ∨ r = 0 ∨ w = 0 then d
  else
    let d := modHl (fun y => { y with rate := r, width := w, proto := hostProto r (bits x 6 5) cxl }) d
    if d.body.hl.proto = 0 then biasClear d else d

/-- HOST_LINK_TRAIN: R299, R300, R366. -/
def execHostLinkTrain (rate : Fin 7) (width : Fin 4) (cxl : Fin 3) (s : State) : Out :=
  runMain (hostTrain rate.val width.val cxl.val) s

/-- PERST_DEASSERT: R366: the physical layer may train. -/
def execPerstDeassert (s : State) : Out := runMain (modHl (fun y => { y with perst := true })) s

/-- A configuration request: Request Retry Status until step 12, in SPLIT success; what a configuration register holds is
not given. -/
def configRequest (d : Dev) : Dev :=
  if d.body.hl.rate = 0 then d
  else if d.body.hl.ready ∨ d.power.phase = 6 then let v := draw d; reply (.value v.1) v.2
  else reply .waits (modHl (fun y => { y with crs := y.crs + 1 }) d)

/-- CONFIG_REQUEST: R366, R371. -/
def execConfigRequest (s : State) : Out := runMain configRequest s

/-! ## The window (R303, R304) -/

/-- Set a plain pair at once, and drop what was staged for it (R392, R393). -/
def setPair (off mask v : Nat) (d : Dev) : Dev :=
  modPage (off / 0x1000 * 0x1000) (fun p => { p with staged := p.staged.filter (fun x => x.off != off) })
    (ctlSetPair off (v &&& mask) d)

/-- The bits of `HL_WIN_BASE` and `HL_HDM_BASE` that a write sets. -/
def winMask : Nat := 0x1FFFFC0000000

/-- HL_WIN_BASE_WRITE: R303, R320. -/
def execHlWinBaseWrite (r : Req) (v : Dword) (s : State) : Out :=
  runMain (access r (hlOff 0x50) 8 true v.toNat (setPair (hlOff 0x50) winMask v.toNat)) s

/-- A range lies in a partition's own memory, and the access passes its check. -/
def ownedRange (d : Dev) (p a n perm : Nat) : Bool :=
  checkLocal d (some p) (myDev d) a n perm == .ok
    && ((homeOf d a).eighth.bind (ownerOf d)) == some p && ((homeOf d (a + n - 1)).eighth.bind (ownerOf d)) == some p
    && (homeOf d a).kind != 6

/-- The request entries of the East half that accesses of the host hold (R155, R304). -/
def winUsed (d : Dev) : Nat := d.body.hl.windows.foldl (fun a p => a + (match p.2 with | some w => w.left.length | none => 0)) 0

/-- An admitted access of the host or a peer goes to memory, 256 bytes to a request (R304); it waits where no entry is
free (log 114). -/
def hostIssue (entry : Option Nat) (a n : Nat) (wr : Option (List Byte)) (d : Dev) : Dev :=
  let ps := granules 256 (n + 1) a n
  let op (p : Nat × Nat) : MemReq := match wr with
    | some bs => .write ((bs.drop (p.1 - a)).take p.2) []
    | none => .read p.2
  let id := d.body.hl.winNext
  if 256 < winUsed d + ps.length then reply .waits d
  else
    ps.foldl (fun e p => issueLocal false p.1 (op p) (.window id) (p.1 - a) e) (modHl (fun y =>
      { y with
        winNext := id + 1
        windows := tset none y.windows id (some ⟨entry, a, n, wr.isSome,
          ps.foldl (fun t p => tset 0 t (p.1 / 256) (partsOf d p.1 (op p))) [], [], []⟩) }) d)

/-- The length of an access that reads n bytes or writes some. -/
def accessLen (n : Nat) (wr : Option (List Byte)) : Nat := match wr with | some bs => bs.length | none => n

/-- The permission that it needs. -/
def accessPerm (wr : Option (List Byte)) : Nat := if wr.isSome then permW else permR

/-- A BAR2 access. -/
def windowAccess (off n : Nat) (wr : Option (List Byte)) (d : Dev) : Dev :=
  let n := accessLen n wr
  let a := ctlPair d (hlOff 0x50) + off
  if !hostUp d ∨ n = 0 then d
  else match namedPart d (hlOff 0x4C) with
    | none => hostUr d
    | some p => if 2 ^ 36 < off + n ∨ !ownedRange d p a n (accessPerm wr) then hostUr d else hostIssue none a n wr d

/-- HOST_WINDOW_ACCESS: R303, R304. -/
def execHostWindowAccess (off : BitVec 36) (n : Nat) (wr : Option (List Byte)) (s : State) : Out :=
  runMain (windowAccess off.toNat n wr) s

/-! ## Host commands (R305 to R308) -/

/-- The key of a command slot, and its bytes. -/
def slotKey (q i : Nat) : Nat := 32 * q + i
def slotBytes512 (d : Dev) (q i : Nat) : List Byte := slice (tget [] d.body.hl.slots (slotKey q i)) 0 512
def cqTail (q : Nat) : Nat := hlOff (0x80 + 0x20 * q)
def cqHead (q : Nat) : Nat := hlOff (0x84 + 0x20 * q)

/-- A byte of the MSI-X table after reset: PRESUMED of PCIe, every vector masked by bit 0 of its control word (log 112). -/
def msixReset (i : Nat) : Byte := if i % 16 = 12 then 1 else 0
def msixByte (d : Dev) (i : Nat) : Byte := tget (msixReset i) d.body.hl.msixTab i

/-- A vector is masked in the MSI-X table. -/
def msixMasked (d : Dev) (v : Nat) : Bool := bitAt (msixByte d (16 * v + 12)).toNat 0

/-- A vector is raised: its message goes, or is pending while the vector is masked (R308; log 112). -/
def msixRaise (v : Nat) (d : Dev) : Dev :=
  if msixMasked d v then modHl (fun y => { y with msixPend := setAdd y.msixPend v }) d
  else modHl (fun y => { y with msix := y.msix ++ [v] }) d

/-- Messages that were pending on vectors that are masked no more go. -/
def msixSend (d : Dev) : Dev :=
  d.body.hl.msixPend.foldl (fun e v =>
    if msixMasked e v then e else msixRaise v (modHl (fun y => { y with msixPend := setDel y.msixPend v }) e)) d

/-- A range of BAR0 beyond the host-link page is mapped (Table HL-2): the MSI-X table, the pending bits, a command slot's
bytes. -/
def bar0Mapped (o n : Nat) : Bool :=
  (decide (0x1000 ≤ o) && decide (o + n ≤ 0x1100)) || (decide (0x2000 ≤ o) && decide (o + n ≤ 0x2008))
    || (decide (0x100000 ≤ o) && decide (o + n ≤ 0x120000))

/-- A mapped byte of BAR0. -/
def bar0Byte (d : Dev) (o : Nat) : Byte :=
  if o < 0x2000 then msixByte d (o - 0x1000)
  else if o < 0x100000 then BitVec.ofNat 8 ((List.range 8).foldl (fun a i =>
    if d.body.hl.msixPend.contains (8 * (o - 0x2000) + i) then a + 2 ^ i else a) 0)
  else ((slice (tget [] d.body.hl.slots ((o - 0x100000) / 512)) 0 512)[(o - 0x100000) % 512]?).getD 0

/-- A byte written to BAR0: pending bits are read only. -/
def bar0Put (o : Nat) (b : Byte) (d : Dev) : Dev :=
  if o < 0x2000 then modHl (fun y => { y with msixTab := tset (msixReset (o - 0x1000)) y.msixTab (o - 0x1000) b }) d
  else if o < 0x100000 then d
  else modHl (fun y =>
    let k := (o - 0x100000) / 512
    { y with slots := tset [] y.slots k ((slice (tget [] y.slots k) 0 512).set ((o - 0x100000) % 512) b) }) d

/-- An access of the host to BAR0 beyond the host-link page. -/
def bar0Access (x : Bar0) (d : Dev) : Dev :=
  match x with
  | .write off l =>
    if !bar0Mapped off.toNat l.length then hostUr d
    else msixSend ((l.zipIdx).foldl (fun e p => bar0Put (off.toNat + p.2) p.1 e) d)
  | .read off n =>
    if !bar0Mapped off.toNat n then hostUr d
    else reply (.data ((List.range n).map (fun i => bar0Byte d (off.toNat + i))) false) d

/-- A tail write that still has commands to start. -/
def tailLive (d : Dev) (q : Nat) (r : Nat × Nat) : Bool :=
  let n := (r.1 + 2 ^ 32 - ctlNat d (cqHead q)) % 2 ^ 32
  n != 0 && decide (n ≤ 32)

/-- A tail write: refused when more than 32 commands would wait, or behind the head. It notes which accesses of the host
came before it. -/
def cqTailWrite (q v : Nat) (d : Dev) : Dev :=
  if 32 < (v + 2 ^ 32 - ctlNat d (cqHead q)) % 2 ^ 32 then unsupported d
  else ctlSetN (cqTail q) v (modHl (fun y =>
    { y with fences := tset [] y.fences q ((tget [] y.fences q).filter (tailLive d q) ++ [(v, y.winNext)]) }) d)

/-- A write through the window or BAR4 that came before the tail write of the queue's next command is not performed yet
(R305). -/
def fenced (d : Dev) (q : Nat) : Bool :=
  match (tget [] d.body.hl.fences q).find? (tailLive d q) with
  | some r => d.body.hl.windows.any (fun p => decide (p.1 < r.2) && (match p.2 with | some w => w.wr | none => false))
  | none => false

/-- HL_CQ_TAIL_WRITE: R299, R302, R305, R320. The host's accesses to BAR0 before the tail write come with it. -/
def execHlCqTailWrite (r : Req) (q : Eighth) (v : Word) (bar0 : List Bar0) (s : State) : Out :=
  runMain (fun d =>
    access r (cqTail q.val) 4 true v.toNat (cqTailWrite q.val v.toNat)
      (if r = .host ∧ hostUp d then bar0.foldl (fun e x => bar0Access x e) d else d)) s

/-- The fields of a command (Table HL-3). -/
structure HostCmd where
  op : Nat
  flags : Nat
  len : Nat
  doff : Nat
  hoff : Nat
  bus : Nat
  region : Nat
  kind : Nat
  use : Nat
  inline_ : List Byte
  deriving DecidableEq, Repr

def hostCmdOf (l : List Byte) : HostCmd :=
  ⟨leAt l 0 1, leAt l 2 1, leAt l 4 4, leAt l 8 8, leAt l 16 8, leAt l 24 8, leAt l 32 2, leAt l 34 1, leAt l 35 1, slice l 64 256⟩

/-- A partition's teardown has begun (R324). -/
def tearing (d : Dev) (p : Nat) : Bool := (partEighths d p).any (fun e => let x := getEighth d e; x.scrub || x.gate || x.scrubbing)

/-- The status of a range that a command writes in its partition's reach: 0 or 3 ADDRESS. -/
def cmdWriteStatus (d : Dev) (p a n : Nat) : Nat :=
  if n = 0 then 0
  else if 2 ^ 49 ≤ a ∨ (homeOf d a).kind = 6 ∨ checkLocal d (some p) (myDev d) a n permW ≠ .ok then 3
  else 0

/-- BAD_CMD common to every operation: a reserved OP, FLAGS or RSV bit. -/
def cmdBad (l : List Byte) (c : HostCmd) : Bool :=
  decide (5 < c.op) || decide (1 < c.flags) || leAt l 3 1 != 0 || (slice l 36 28).any (· != 0) || (slice l 320 192).any (· != 0)

/-- The command in progress of a queue. -/
def getRun (d : Dev) (q : Nat) : Option HostRun := tget none d.body.hl.runs q
def setRun (q : Nat) (x : Option HostRun) (d : Dev) : Dev := modHl (fun y => { y with runs := tset none y.runs q x }) d

/-- A command stands at its slot with its outcome. -/
def endCmd (q i st : Nat) (d : Dev) : Dev := setRun q (some ⟨i, st, 0⟩) d

/-- An earlier UNREGISTER of a region entry still waits for accesses in flight (R308, R310). -/
def entryFreeing (d : Dev) (n : Nat) : Bool :=
  d.body.hl.runs.any (fun p => match p.2 with
    | some r => let c := hostCmdOf (slotBytes512 d p.1 r.slot); r.status == 0 && c.op == 4 && c.region == n
    | none => false)

/-- The status that refuses a command before it acts, 0 for none (R307, R308). -/
def cmdStatus (d : Dev) (p : Option Nat) (l : List Byte) (c : HostCmd) : Nat :=
  match p with
  | none => 3
  | some p =>
    if tearing d p then 6
    else if (c.op = 3 ∨ c.op = 4) ∧ entryFreeing d c.region then 6
    else if cmdBad l c then 2
    else 0

/-- Start the queue's next command if it is of an operation, or is refused whatever its operation, once every write through
the window and BAR4 before its tail write has been performed (R305). -/
def cmdTake (op q : Nat) (k : Nat → Nat → HostCmd → Dev → Dev) (d : Dev) : Dev :=
  match getRun d q with
  | some _ => d
  | none =>
    if ctlNat d (cqTail q) = ctlNat d (cqHead q) ∨ fenced d q then d
    else
      let i := ctlNat d (cqHead q) % 32
      let l := slotBytes512 d q i
      let c := hostCmdOf l
      let p := ownerOf d q
      let st := cmdStatus d p l c
      if st ≠ 0 then endCmd q i st d
      else if c.op ≠ op then d
      else k i (p.getD 0) c d

/-- HOST_NOP: R307. -/
def execHostNop (q : Eighth) (s : State) : Out := runMain (cmdTake 0 q.val (fun i _ _ d => endCmd q.val i 1 d)) s

/-- WRITE_INLINE writes its payload in increasing address order, once older requests to it have left their queues. -/
def writeInline (q i p : Nat) (c : HostCmd) (d : Dev) : Dev :=
  if c.len < 4 ∨ 256 < c.len ∨ c.len % 4 ≠ 0 ∨ c.doff % 4 ≠ 0 then endCmd q i 2 d
  else if cmdWriteStatus d p c.doff c.len ≠ 0 then endCmd q i 3 d
  else if unitWaits d c.doff c.len then d
  else endCmd q i 1 (unitWrite c.doff (c.inline_.take c.len) [] d)

/-- WRITE_INLINE: R307. -/
def execWriteInline (q : Eighth) (s : State) : Out := runMain (cmdTake 1 q.val (writeInline q.val)) s

/-- COPY_IN goes on as the host answers; a host that stalls leaves the command waiting for its deadline, with what has come
written (R318). -/
def copyInGo (q p : Nat) (c : HostCmd) (r : HostRun) (host : HostIn) (d : Dev) : Dev :=
  let a := c.doff + r.at_
  let n := c.len - r.at_
  let ends (st : Nat) : Dev := setRun q (some { r with status := st }) d
  let put (st : Nat) (bs : List Byte) : Dev :=
    if unitWaits d a bs.length then d
    else setRun q (some { r with status := st, at_ := r.at_ + bs.length }) (unitWrite a bs [] d)
  if (hostRange d (.command q) (some p) (c.hoff + r.at_) n none).1 ≠ 0 ∨ cmdWriteStatus d p a n ≠ 0 then ends 3
  else match host with
    | .stall bs => put 0 (bs.take n)
    | .error => ends 3
    | .poison => ends 5
    | .data bs => put 1 (slice bs 0 n)

/-- COPY_IN starts. -/
def copyIn (q : Nat) (host : HostIn) (i p : Nat) (c : HostCmd) (d : Dev) : Dev :=
  if c.len % 64 ≠ 0 then endCmd q i 2 d else copyInGo q p c ⟨i, 0, 0⟩ host d

/-- COPY_IN starts, or goes on after the host had stalled: with ADDRESS if its eighth belongs to no partition any more, with
BUSY if its partition is being torn down (R308; log 113). -/
def copyInRow (q : Nat) (host : HostIn) (d : Dev) : Dev :=
  match getRun d q with
  | some r =>
    let c := hostCmdOf (slotBytes512 d q r.slot)
    if r.status ≠ 0 ∨ c.op ≠ 2 then d
    else match ownerOf d q with
      | none => setRun q (some { r with status := 3 }) d
      | some p => if tearing d p then setRun q (some { r with status := 6 }) d else copyInGo q p c r host d
  | none => cmdTake 2 q (copyIn q host) d

/-- COPY_IN: R307, R318. -/
def execCopyIn (q : Eighth) (host : HostIn) (s : State) : Out := runMain (copyInRow q.val host) s

/-! ## Regions (R309, R310) -/

/-- A region number is a partition's. -/
def ownRegion (d : Dev) (p n : Nat) : Bool := decide (n < 4096) && ownerOf d (n / 512) == some p

/-- BAD_CMD of a REGISTER. -/
def registerBad (d : Dev) (p : Nat) (c : HostCmd) : Bool :=
  !ownRegion d p c.region || (tget none d.body.hl.regions c.region).isSome || (c.kind != 1 && c.kind != 2)
    || decide (15 < c.use) || c.hoff % 4096 != 0 || c.doff % 4096 != 0 || c.bus % 4096 != 0 || c.len % 4096 != 0 || c.len == 0
    || decide ((if c.kind = 1 then 2 ^ 40 else Config.hostSize) < c.hoff + c.len)
    || (c.kind == 2 && bitAt c.use 3 && d.body.hl.proto == 0)
    || d.body.hl.regions.any (fun y => match y.2 with
      | some r => r.kind == c.kind && overlaps c.hoff c.len r.hoff r.len
      | none => false)

/-- REGISTER fills its entry; an inbound range outside the partition's HBM and GDDR7 is an address error. -/
def register (q i p : Nat) (c : HostCmd) (d : Dev) : Dev :=
  if registerBad d p c then endCmd q i 2 d
  else if c.kind = 1 ∧ (2 ^ 49 ≤ c.doff ∨ !ownedRange d p c.doff c.len permR ∨ ((homeOf d c.doff).kind ≠ 1 ∧ (homeOf d c.doff).kind ≠ 2)) then
    endCmd q i 3 d
  else endCmd q i 1 (modHl (fun y =>
    { y with regions := tset none y.regions c.region (some ⟨c.kind, c.hoff, c.doff, c.bus, c.len, c.use, none⟩) }) d)

/-- REGISTER: R309. -/
def execRegister (q : Eighth) (s : State) : Out := runMain (cmdTake 3 q.val (register q.val)) s

/-- The host-region offset of a global address of this device. -/
def hostOffOf (d : Dev) (addr : Nat) : Option Nat :=
  if gDev addr ≠ myDev d then none
  else match homeOf d (gOff addr) with
    | .host o => some o
    | _ => none

/-- The requesters whose accesses are in flight through an entry (R310): for an inbound one accesses through BAR4; for an
outbound one loads, posted stores and stock requests that have been issued, requests of other devices, and transfers of the
movers, the writers and COPY_IN that have begun. -/
def flights (d : Dev) (n : Nat) (r : Region) : List Who :=
  let host (addr m : Nat) : Bool := match hostOffOf d addr with | some o => overlaps o m r.hoff r.len | none => false
  if r.kind = 1 then d.body.hl.windows.filterMap (fun p => match p.2 with
    | some w => if w.entry = some n then some (Who.window p.1) else none
    | none => none)
  else
    d.body.hands.flatMap (fun p => (match p.2.miss with
        | some m => if m.hold = 0 ∧ m.res = .pending ∧ host m.addr m.op.len then [Who.hand (p.1 / 64) (p.1 % 64)] else []
        | none => [])
      ++ (p.2.posted.filter (fun x => x.res.isNone && host x.addr x.op.len)).map (fun x => Who.post (p.1 / 64) (p.1 % 64) x.id))
    ++ d.body.tiles.flatMap (fun p => p.2.st.reqs.filterMap (fun x =>
        if !host x.addr x.len then none
        else if x.stage = .reading then some (Who.stockRead p.1 x.id 0)
        else if x.stage = .writing then some (Who.stockWrite p.1 x.id) else none))
    ++ d.body.serves.filterMap (fun p => match p.2 with
        | some x => (match homeOf d x.addr with
          | .host o => if overlaps o x.len r.hoff r.len then some (Who.remote p.1) else none
          | _ => none)
        | none => none)
    ++ d.body.movers.filterMap (fun p => match p.2 with
        | some x => if x.begun ∧ x.op ≠ 3 ∧ x.status = 0 ∧ host x.host (2 ^ mvPshift d (p.1 / 4) (p.1 % 4)) then
            some (Who.mover (p.1 / 4) (p.1 % 4)) else none
        | none => none)
    ++ d.body.hl.writers.filterMap (fun p => match p.2 with
        | some x => if x.status = 0 ∧ overlaps x.host x.len r.hoff r.len then some (Who.writer p.1) else none
        | none => none)
    ++ d.body.hl.runs.filterMap (fun p => match p.2 with
        | some x =>
          let c := hostCmdOf (slotBytes512 d p.1 x.slot)
          if x.status = 0 ∧ c.op = 2 ∧ overlaps c.hoff c.len r.hoff r.len then some (Who.command p.1) else none
        | none => none)

/-- An entry is freed, once what is in flight through it has completed; new accesses do not find it (R310). -/
def freeEntry (n : Nat) (d : Dev) : Dev :=
  modHl (fun y => HlSt.sweep { y with regions := y.regions.map (fun p =>
    if p.1 = n then (p.1, p.2.map (fun r => { r with freeing := some (flights d n r) })) else p) }) d

/-- UNREGISTER frees its entry, and waits for the accesses in flight. -/
def unregister (q i p : Nat) (c : HostCmd) (d : Dev) : Dev :=
  if (tget none d.body.hl.regions c.region).isNone ∨ !ownRegion d p c.region then endCmd q i 2 d
  else
    let e := freeEntry c.region d
    endCmd q i (if (tget none e.body.hl.regions c.region).isNone then 1 else 0) e

/-- UNREGISTER starts, or ends once nothing is in flight. -/
def unregisterRow (q : Nat) (d : Dev) : Dev :=
  match getRun d q with
  | some r =>
    let c := hostCmdOf (slotBytes512 d q r.slot)
    if r.status = 0 ∧ c.op = 4 ∧ (tget none d.body.hl.regions c.region).isNone then setRun q (some { r with status := 1 }) d else d
  | none => cmdTake 4 q (unregister q) d

/-- UNREGISTER: R310. -/
def execUnregister (q : Eighth) (s : State) : Out := runMain (unregisterRow q.val) s

/-! ## Bias (R313 to R315) -/

/-- The device's own accesses to a page in its channels' queues. -/
def pageInFlight (d : Dev) (a : Nat) : Bool :=
  d.body.chans.any (fun p => p.2.q.any (fun r =>
    (match r.who with | .window _ => false | _ => true) && overlaps r.addr r.op.len (a / 4096 * 4096) 4096))

/-- A flip of a page's bias starts: accesses that meet it wait (R315). -/
def flipBegin (auto : Bool) (a : Nat) (d : Dev) : Dev :=
  if flipping d a then d else modHl (fun y => { y with flips := y.flips ++ [(a / 4096, auto)] }) d

/-- A flip ends: the page has its new bias, and the accesses that waited act on it (R314, R315). -/
def flipEnd (toHost : Bool) (a : Nat) (d : Dev) : Dev :=
  unpark (modHl (fun y =>
    { y with
      flips := y.flips.filter (fun p => p.1 != a / 4096)
      bias := if toHost then setAdd y.bias (a / 4096) else setDel y.bias (a / 4096)
      answered := y.answered.filter (fun l => l / 4096 != a / 4096)
      asked := y.asked.filter (fun l => l / 4096 != a / 4096)
      parked := y.parked.map (fun x =>
        if x.req.addr / 4096 = a / 4096 then { x with need := if toHost then linesOf x.req.addr x.req.op.len else [] } else x) }) d)

/-- What the host's answers to snoops bring: contents of lines that it held modified. -/
def snoopData (a : Nat) (x : HostBytes) (d : Dev) : Dev :=
  let at_ (o : Nat) : Bool := decide (o / 4096 = a / 4096)
  (x.bad.filter at_).foldl (fun e o => poisonWord (o / 8) e)
    ((x.data.filter (fun p => at_ p.1 && at_ (p.1 + p.2.length - 1))).foldl (fun e p => writeBytes p.1 p.2 e) d)

/-- Flip one page (R314): to host bias once the device's own accesses in flight to it have completed; to device bias under
CXL 3.1 once the host has answered a snoop of every line. Whether it is done. -/
def flipPage (toHost : Bool) (host : Option HostBytes) (a : Nat) (d : Dev) : Bool × Dev :=
  if d.body.hl.flips.contains (a / 4096, true) then (false, d)
  else if hostBias d a = toHost ∧ !flipping d a then (true, d)
  else if toHost then
    let d := flipBegin false a d
    if pageInFlight d a then (false, d) else (true, flipEnd true a d)
  else if d.body.hl.proto ≠ 2 then (true, flipEnd false a d)
  else
    let d := if flipping d a then d
      else modHl (fun y => { y with snoops := y.snoops ++ (List.range 64).map (fun i => a / 4096 * 4096 + 64 * i) }) (flipBegin false a d)
    match host with
    | none => (false, d)
    | some x => (true, flipEnd false a (snoopData a x d))

/-- Flip pages in increasing order until one has to wait, or lies outside the range or the partition's reach: the status,
and the pages done. -/
def flipPages (p : Nat) (toHost : Bool) (host : Option HostBytes) (a : Nat) : Nat → Nat → Dev → Nat × Nat × Dev
  | 0, k, d => (1, k, d)
  | n + 1, k, d =>
    if !inHdm d (a + 4096 * k) then (2, k, d)
    else if checkLocal d (some p) (myDev d) (a + 4096 * k) 4096 permW ≠ .ok then (3, k, d)
    else
      let r := flipPage toHost host (a + 4096 * k) d
      if r.1 then flipPages p toHost host a n (k + 1) r.2 else (0, k, r.2)

/-- BIAS goes on with the pages that are left. -/
def biasGo (q p : Nat) (c : HostCmd) (r : HostRun) (host : Option HostBytes) (d : Dev) : Dev :=
  let x := flipPages p (c.kind == 1) host c.doff (c.len / 4096 - r.at_) r.at_ d
  setRun q (some { r with status := x.1, at_ := x.2.1 }) x.2.2

/-- BIAS flips the pages from DOFF. -/
def biasCmd (q : Nat) (host : Option HostBytes) (i p : Nat) (c : HostCmd) (d : Dev) : Dev :=
  if c.doff % 4096 ≠ 0 ∨ c.len % 4096 ≠ 0 ∨ 1 < c.kind ∨ d.body.hl.proto = 0 then endCmd q i 2 d
  else biasGo q p c ⟨i, 0, 0⟩ host d

/-- BIAS starts, or goes on after it had to wait. -/
def biasRow (q : Nat) (host : Option HostBytes) (d : Dev) : Dev :=
  match getRun d q with
  | some r =>
    let c := hostCmdOf (slotBytes512 d q r.slot)
    if r.status = 0 ∧ c.op = 5 then biasGo q ((ownerOf d q).getD 0) c r host d else d
  | none => cmdTake 5 q (biasCmd q host) d

/-- BIAS: R313, R314. -/
def execBias (x : BiasTurn) (s : State) : Out := runMain (biasRow x.queue.val x.host) s

/-- The host has answered for a line: the first request that waits for it needs it no more, else a unit's next access to
it goes on. -/
def lineAnswered (l : Nat) (d : Dev) : Dev :=
  let d := modHl (fun y => { y with asked := y.asked.filter (· != l) }) d
  match d.body.hl.parked.find? (fun x => x.need.contains l) with
  | some x => unpark (modHl (fun y => { y with parked := y.parked.map (fun z => if z = x then { z with need := z.need.filter (· != l) } else z) }) d)
  | none => modHl (fun y => { y with answered := setAdd y.answered l }) d

/-- A device access to a line of a host-bias page: under CXL 3.1 a snoop is sent; what the host returns becomes the
line's contents before the access acts (log 39). -/
def biasAccess (a : Nat) (host : HostIn) (d : Dev) : Dev :=
  let l := a / 64 * 64
  if !hostBias d a ∨ !inHdm d a ∨ flipping d a then d
  else
    let d := if d.body.hl.asked.contains l then d
      else modHl (fun y => { y with asked := y.asked ++ [l], snoops := if y.proto = 2 then y.snoops ++ [l] else y.snoops }) d
    match host with
    | .data bs => lineAnswered l (writeBytes l (bs.take 64) d)
    | .poison => lineAnswered l (forN 8 (fun i e => poisonWord (l / 8 + i) e) d)
    | .error => lineAnswered l d
    | .stall _ => d

/-- HOST_BIAS_ACCESS: R315. -/
def execHostBiasAccess (off : BitVec 49) (host : HostIn) (s : State) : Out := runMain (biasAccess off.toNat host) s

/-- Flip the pages of a range that are in device bias to host bias, each counted as its flip starts (R314, R315). -/
def autoFlip (a n : Nat) (d : Dev) : Dev :=
  (blocksOf a n).foldl (fun e b =>
    let e := if hostBias e b ∨ flipping e b then e else flipBegin true b (ctlAdd (hlOff 0x6C) 1 e)
    if e.body.hl.flips.contains (b / 4096, true) ∧ !pageInFlight e b then flipEnd true b e else e) d

/-- A CXL.mem access of the host. -/
def cxlMem (off n : Nat) (wr : Option (List Byte)) (d : Dev) : Dev :=
  let n := accessLen n wr
  let a := ctlPair d (hlOff 0x58) + off
  if !hostUp d ∨ d.body.hl.proto = 0 ∨ n = 0 then d
  else if !inHdm d a ∨ !inHdm d (a + n - 1)
      ∨ checkLocal d (namedPart d (hlOff 0x60)) (myDev d) a n (accessPerm wr) ≠ .ok then hostUr d
  else
    let d := autoFlip a n d
    if (blocksOf a n).any (flipping d) then reply .waits d
    else hostIssue none a n wr (modHl (fun y => { y with answered := y.answered.filter (fun l => !overlaps l 64 a n) }) d)

/-- HOST_CXL_MEM_ACCESS: R313, R315. -/
def execHostCxlMemAccess (off : BitVec 36) (n : Nat) (wr : Option (List Byte)) (s : State) : Out :=
  runMain (cxlMem off.toNat n wr) s

/-- A host command ends (R308). -/
def cmdComplete (q : Nat) (d : Dev) : Dev :=
  match getRun d q with
  | none => d
  | some r =>
    if r.status = 0 then d
    else
      let l := slotBytes512 d q r.slot
      let d := modHl (fun y =>
        { y with
          slots := tset [] y.slots (slotKey q r.slot) (l.take 1 ++ leBytes 1 r.status ++ l.drop 2)
        }) d
      let d := dropFlight (.command q) (ctlSetN (cqHead q) ((ctlNat d (cqHead q) + 1) % 2 ^ 32) (setRun q none d))
      let d := if bitAt (leAt l 2 1) 0 then msixRaise q d else d
      if r.status = 1 then d else event 8 0 q (ctlAdd (hlOff 0x70) 1 d)

/-- HOST_COMMAND_COMPLETE: R308. -/
def execHostCommandComplete (q : Eighth) (s : State) : Out := runMain (cmdComplete q.val) s

/-! ## The peer aperture (R311) -/

/-- The INBOUND entry that covers a range of BAR4 offsets, with its number. -/
def inboundEntry (d : Dev) (o n : Nat) : Option (Nat × Region) :=
  d.body.hl.regions.findSome? fun p =>
    match p.2 with
    | some r => if r.kind = 1 ∧ r.freeing.isNone ∧ r.hoff ≤ o ∧ o + n ≤ r.hoff + r.len then some (p.1, r) else none
    | none => none

/-- A BAR4 access of a peer. -/
def bar4Access (off n : Nat) (wr : Option (List Byte)) (d : Dev) : Dev :=
  let n := accessLen n wr
  if !hostUp d ∨ n = 0 then d
  else match inboundEntry d off n with
    | none => hostUr d
    | some (k, r) =>
      let a := r.doff + (off - r.hoff)
      let may := if wr.isSome then bits r.use 2 1 != 0 else bitAt r.use 0
      if !may ∨ checkLocal d (ownerOf d (k / 512)) (myDev d) a n (accessPerm wr) ≠ .ok then hostUr d
      else hostIssue (some k) a n wr d

/-- BAR4_ACCESS: R311. -/
def execBar4Access (off : BitVec 40) (n : Nat) (wr : Option (List Byte)) (s : State) : Out :=
  runMain (bar4Access off.toNat n wr) s

/-! ## Device accesses to host memory (R312, R317, R318) -/

/-- A host access ends: its requester is answered, and it is in flight no more (R310). -/
def hostDone (who : Who) (st : Nat) (bs : List Byte) (bad : List Nat) (d : Dev) : Dev := dropFlight who (deliver who st 0 bs bad d)

/-- A read of host memory: refused, answered as the host answers, or still out. -/
def hostFetch (part : Option Nat) (src : Nat) (who : Who) (o n : Nat) (host : HostIn) (d : Dev) : Dev :=
  let a := hostAdmits d who part src o n none
  if a.1 ≠ 0 then hostDone who a.1 [] [] d
  else match host with
    | .data bs => hostDone who 0 (slice bs 0 n) [] d
    | .poison => hostDone who 0 (List.replicate n 0) (List.range n) d
    | .error => hostDone who 1 [] [] d
    | .stall _ => d

/-- The same requester's earlier writes still wait for credit (R317). -/
def sameRequester : Who → Who → Bool
  | .post t h _, .post u k _ => t == u && h == k
  | .stockWrite t _, .stockWrite u _ => t == u
  | .remote a, .remote b => a == b
  | _, _ => false

/-- A write of host memory: refused, gone with credit, or waiting for it behind the requester's earlier ones. -/
def hostStore (part : Option Nat) (src : Nat) (who : Who) (o : Nat) (bs : List Byte) (purpose : Nat) (host : HostIn)
    (d : Dev) : Dev :=
  if d.body.hl.posted.any (fun w => w.who == who) then d
  else
    let a := hostAdmits d who part src o bs.length (some purpose)
    if a.1 ≠ 0 then hostDone who a.1 [] [] d
    else match host with
      | .error => hostDone who 1 [] [] d
      | .poison => hostDone who 1 [] [] d
      | .stall _ => hostPost who a.2 bs d
      | .data _ =>
        if d.body.hl.posted.any (fun w => sameRequester w.who who) then hostPost who a.2 bs d
        else hostDone who 0 [] [] (hostLeave [⟨who, a.2, bs⟩] d)

/-- An earlier posted store of a hand to bytes of a host store has not been performed: they keep their order (R126). -/
def storeWaits (d : Dev) (l : List Posted) (p : Posted) : Bool :=
  (l.takeWhile (fun x => x.id != p.id)).any (fun x =>
    x.res.isNone && (hostOffOf d x.addr).isSome && overlaps x.addr x.op.len p.addr p.op.len)

/-- The host read that a hand waits for, if its earlier host stores have been performed (R317). -/
def handHostLoad (d : Dev) (t h : Nat) : Option (Nat × Nat) :=
  let x := getHand d t h
  match x.miss with
  | some m =>
    if m.hold = 0 ∧ m.res = .pending ∧ !x.posted.any (fun p => p.res.isNone && (hostOffOf d p.addr).isSome) then
      (hostOffOf d m.addr).map (fun o => (o, m.op.len))
    else none
  | none => none

/-- A device access to the host region. -/
def hostAccess (acc : HostAcc) (host : HostIn) (d : Dev) : Dev :=
  match acc with
  | .load t h => match handHostLoad d t.val h.val with
    | some (o, n) => hostFetch (tilePart d t.val) 0 (.hand t.val h.val) o n host d
    | none => d
  | .store t h id => match (getHand d t.val h.val).posted.find? (fun p => p.id == id && p.res.isNone) with
    | some p => match hostOffOf d p.addr, p.op with
      | some o, .write bs _ =>
        if storeWaits d (getHand d t.val h.val).posted p then d
        else hostStore (tilePart d t.val) 0 (.post t.val h.val id) o bs 0 host d
      | _, _ => d
    | none => d
  | .stockRead t req _ => match (getSt d t.val).reqs.find? (fun r => r.id == req && r.stage == .reading) with
    | some r => match hostOffOf d r.addr with
      | some o => hostFetch (tilePart d t.val) 0 (.stockRead t.val req 0) o r.len host d
      | none => d
    | none => d
  | .stockWrite t req => match (getSt d t.val).reqs.find? (fun r => r.id == req && r.stage == .writing) with
    | some r => match hostOffOf d r.addr with
      | some o => hostStore (tilePart d t.val) 0 (.stockWrite t.val req) o
          (r.data.foldl (fun l p => l.take p.1 ++ p.2 ++ l.drop (p.1 + p.2.length)) (List.replicate r.len 0)) 2 host d
      | none => d
    | none => d
  | .remote id => match tget none d.body.serves id with
    | some x => match homeOf d x.addr with
      | .host o =>
        if x.kind = .read then hostFetch none x.dev (.remote id) o x.len host d
        else if x.kind = .write then hostStore none x.dev (.remote id) o ((x.data.map (·.2)).flatten) 0 host d
        else d
      | _ => d
    | none => d

/-- HOST_REGION_ACCESS: R312, R317, R318. -/
def execHostRegionAccess (acc : HostAcc) (host : HostIn) (s : State) : Out := runMain (hostAccess acc host) s

/-- A posted write is over: gone, or abandoned. -/
def postDone (left : Bool) (w : HostWrite) (d : Dev) : Dev :=
  match w.who with
  | .writeBack q a => dropFlight w.who (wbBlockEnd q a left d)
  | _ => hostDone w.who (if left then 0 else 1) [] [] d

/-- Posted credit comes back: that many waiting writes leave and are performed. -/
def creditBack (n : Nat) (d : Dev) : Dev :=
  let go := d.body.hl.posted.take n
  go.foldl (fun e w => postDone true w e) (hostLeave go (modHl (fun y => { y with posted := y.posted.drop n }) d))

/-- POSTED_CREDIT_RETURN: R317, R318. -/
def execPostedCreditReturn (n : Nat) (s : State) : Out := runMain (creditBack n) s

/-! ## The snapshot writer (R316) -/

def getWriter (d : Dev) (q : Nat) : Option WriterRun := tget none d.body.hl.writers q
def setWriter (q : Nat) (x : Option WriterRun) (d : Dev) : Dev := modHl (fun y => { y with writers := tset none y.writers q x }) d

/-- HL_WTAIL_WRITE: R316, R320: the host does not write it. -/
def execHlWtailWrite (r : Req) (q : Eighth) (v : Word) (s : State) : Out :=
  runMain (access r (wrRing q.val).tail 4 true v.toNat (fun d =>
    if r = .host then refuse r (pageBase 8 0) (wrRing q.val).tail cRequester true d else tailEff r (wrRing q.val) v.toNat d)) s

/-- The command at a slot of a writer queue. -/
def wrCmd (l : List Byte) (slot : Nat) : WriterRun :=
  ⟨leAt l 0 1, leAt l 4 4, leAt l 8 8, leAt l 16 8, leAt l 24 8, slot, 0, 0⟩

/-- BAD_CMD: a reserved OP, non-zero reserved bytes, a length that is no multiple of 64, a misaligned flag. -/
def wrBad (l : List Byte) (x : WriterRun) : Bool :=
  (x.op != 1 && x.op != 2) || leAt l 2 2 != 0 || x.len % 64 != 0 || x.faddr % 8 != 0

/-- The RATE of a writer queue (R316). -/
def wrRate (d : Dev) (q : Nat) : Nat := bits (ctlNat d (wrRing q).cfg) 7 1

/-- Copy what is left of a range of device memory to the host as the host takes it. -/
def writerRun (q : Nat) (x : WriterRun) (host : HostOut) (d : Dev) : Dev :=
  let p := ownerOf d q
  let a := gOff x.src + x.at_
  let n := x.len - x.at_
  let h := hostRange d (.writer q) p (x.host + x.at_) n (some (x.op + 1))
  let inMem := n = 0 ∨ (gDev x.src = myDev d ∧ ownedRange d (p.getD 0) a n permR ∧ ((homeOf d a).kind = 1 ∨ (homeOf d a).kind = 2))
  let send (m : Nat) (x : WriterRun) : Dev :=
    let r := unitRead a m d
    setWriter q (some { x with at_ := x.at_ + m }) (hostLeave (hostSends (.writer q) h.2 r.1 m) r.2.2)
  if p.isNone ∨ h.1 ≠ 0 ∨ !inMem then setWriter q (some { x with status := 7 }) d
  else if poisoned d a n then setWriter q (some { x with status := 6 }) (unitRead a n d).2.2
  else match host with
    | .stall m => send (min m n) x
    | .error => setWriter q (some { x with status := 7 }) d
    | .taken => send n { x with status := 1 }

/-- A writer command waits for older requests to what it reads (R198). -/
def writerWaits (d : Dev) (x : WriterRun) : Bool := unitWaits d (gOff x.src + x.at_) (x.len - x.at_)

/-- A writer command of an operation starts, with tokens of its queue's bucket (R151), or goes on after the host had
stalled. -/
def writer (op q : Nat) (host : HostOut) (d : Dev) : Dev :=
  match getWriter d q with
  | some x => if x.op = op ∧ x.status = 0 ∧ !writerWaits d x then writerRun q x host d else d
  | none =>
    match ringNext d ((ownerOf d q).getD q) (wrRing q) with
    | none => d
    | some slot =>
      let l := ringCmd d slot
      let x := wrCmd l slot
      if wrBad l x then setWriter q (some { x with status := 2 }) (ringRead slot d)
      else if x.op = op ∧ !writerWaits d x ∧ bucketOpen d (wrBucket q) (wrRate d q) then
        writerRun q x host (takeTokens (wrBucket q) (wrRate d q) x.len (ringRead slot d))
      else d

/-- SNAPSHOT: R312, R316. -/
def execSnapshot (q : Eighth) (host : HostOut) (s : State) : Out := runMain (writer 1 q.val host) s
/-- LOG: R312, R316. -/
def execLog (q : Eighth) (host : HostOut) (s : State) : Out := runMain (writer 2 q.val host) s

/-- A writer command ends with a status, or with its own (R316, R175). -/
def writerFinish (q : Nat) (forced : Option Nat) (d : Dev) : Dev :=
  match getWriter d q with
  | none => d
  | some x =>
    let p := (ownerOf d q).getD q
    dropFlight (.writer q) (ringEnd (wrRing q) (x.op + 1) p x.slot (forced.getD x.status) x.faddr 8 0 p (setWriter q none d))

/-- A writer command ends. -/
def writerEnd (q : Nat) (d : Dev) : Dev :=
  match getWriter d q with
  | none => d
  | some x => if x.status = 0 ∨ unitWaits d (gOff x.slot) 32 then d else writerFinish q none d

/-- WRITER_COMMAND_COMPLETE: R316. -/
def execWriterCommandComplete (q : Eighth) (s : State) : Out := runMain (writerEnd q.val) s

/-! ## Deadlines (R318) -/

/-- One abandoned transfer. -/
def stalled (d : Dev) : Dev := ctlAdd (hlOff 0x68) 1 d

/-- Drop the waiting posted writes of a requester. -/
def dropPosted (who : Who) (d : Dev) : Dev := modHl (fun y => { y with posted := y.posted.filter (fun w => w.who != who) }) d

/-- The host-bound work of a hand that is out: its load, else its oldest waiting store. -/
def abandonHand (t h : Nat) (d : Dev) : Dev :=
  if (handHostLoad d t h).isSome then hostDone (.hand t h) 1 [] [] (stalled d)
  else match d.body.hl.posted.find? (fun w => match w.who with | .post u k _ => u == t && k == h | _ => false) with
    | some w => hostDone w.who 1 [] [] (dropPosted w.who (stalled d))
    | none => d

/-- A host-bound transfer is abandoned (Table HL-5). -/
def abandon (x : HostXfer) (d : Dev) : Dev :=
  match x with
  | .mover h q => match getMover d h.val q.val with
    | some m => if m.status = 0 then stalled (setMover h.val q.val (some { m with status := 4 }) d) else d
    | none => d
  | .writer q => match getWriter d q.val with
    | some w => if w.status = 0 then stalled (setWriter q.val (some { w with status := 4 }) d) else d
    | none => d
  | .writeback q b =>
    if d.body.hl.posted.any (fun w => w.who == .writeBack q.val b) then
      dropFlight (.writeBack q.val b) (wbBlockEnd q.val b false (dropPosted (.writeBack q.val b) (stalled d)))
    else d
  | .stock t req => match (getSt d t.val).reqs.find? (fun r => r.id == req && (hostOffOf d r.addr).isSome) with
    | some r =>
      if r.stage = .reading then hostDone (.stockRead t.val req 0) 1 [] [] (stalled d)
      else if r.stage = .writing then hostDone (.stockWrite t.val req) 1 [] [] (dropPosted (.stockWrite t.val req) (stalled d))
      else d
    | none => d
  | .hand t h => abandonHand t.val h.val d
  | .command q => match getRun d q.val with
    | some r =>
      if r.status = 0 ∧ (hostCmdOf (slotBytes512 d q.val r.slot)).op = 2 then stalled (setRun q.val (some { r with status := 4 }) d) else d
    | none => d

/-- HOST_DEADLINE_EXPIRY: R318, Table HL-5. -/
def execHostDeadlineExpiry (x : HostXfer) (s : State) : Out := runMain (abandon x) s

/-! ## Resets and teardown (R320, R369) -/

/-- Every host-bound transfer in flight is abandoned (R369). -/
def abandonAll (d : Dev) : Dev :=
  let d := forN 2 (fun h e => forN 4 (fun q e => match getMover e h q with
    | some m => if m.status = 0 then stalled (setMover h q (some { m with status := 4 }) e) else e
    | none => e) e) d
  let d := d.body.hl.posted.foldl (fun e w => postDone false w (stalled e)) (modHl (fun y => { y with posted := [] }) d)
  let d := d.body.hands.foldl (fun e p =>
    if (handHostLoad e (p.1 / 64) (p.1 % 64)).isSome then hostDone (.hand (p.1 / 64) (p.1 % 64)) 1 [] [] (stalled e) else e) d
  d.body.tiles.foldl (fun e p => (getSt e p.1).reqs.foldl (fun e r =>
    if (hostOffOf e r.addr).isSome ∧ r.stage = .reading then hostDone (.stockRead p.1 r.id 0) 1 [] [] (stalled e) else e) e) d

/-- What a teardown does in the host-link block: the partition's entries are freed, its writer queue is disabled and its
counters are 0 with the command in progress ended by HOST_STALL, and the window and the range close. -/
def hlTeardown (q : Nat) (d : Dev) : Dev :=
  let d := writerFinish q (some 4) (match getWriter d q with
    | some x => if x.status = 0 then stalled d else d
    | none => d)
  let d := ((d.body.hl.regions.map (·.1)).filter (fun n => (partEighths d q).contains (n / 512))).foldl (fun e n => freeEntry n e) d
  let d := ctlSetN (wrRing q).cfg (ctlNat d (wrRing q).cfg / 2 * 2) (ctlSetN (wrRing q).tail 0 (ctlSetN (wrRing q).head 0 d))
  let close (o : Nat) (d : Dev) : Dev := let v := ctlNat d (hlOff o); if v % 8 = q then ctlSetN (hlOff o) (v % 8) d else d
  close 0x60 (close 0x4C d)

end Sys2Proof.Machine
end

