-- ==== Sys2Proof/Machine/HandCtl.lean ====
section
/-! DEFINITION. Hands apart from their instructions (R112 to R120, R126, R127, R132 to R139): states and issue, misses
and posted stores, waits, faults, and the commands that start, stop and wake them. -/

namespace Sys2Proof.Machine

/-! ## Registers of a hand -/

/-- General register n: g0 reads as 0 (R123). -/
def gGet (x : HandSt) (n : Nat) : Dword := if n = 0 then 0 else tget 0 x.g n
/-- Write general register n: writes to g0 are ignored (R123). -/
def gSet (n : Nat) (v : Dword) (x : HandSt) : HandSt := if n = 0 then x else { x with g := tset 0 x.g n v }
def wGet (x : HandSt) (n : Nat) : BitVec 512 := tget 0 x.w n
def wSet (n : Nat) (v : BitVec 512) (x : HandSt) : HandSt := { x with w := tset 0 x.w n v }

/-! ## Faults (R138, R139) -/

/-- Write a record into the tile's fault log and raise HAND_FAULT. -/
def faultRecord (t h code addr : Nat) (imprecise : Bool) (pc : Nat) (d : Dev) : Dev :=
  let cnt := ctlNat d (regOff 18 t 0x48)
  let o := regOff 18 t (0x400 + 16 * (cnt % 16))
  let d := ctlSetN o (code % 256 + 256 * h + 2 ^ 14 * b2n imprecise + 2 ^ 16 * (pc % 2 ^ 16)) d
  let d := ctlSetN (o + 4) (d.time.trick % 2 ^ 32) d
  let d := ctlSetPair (o + 8) (addr % 2 ^ 64) d
  let d := ctlSetN (regOff 18 t 0x48) ((cnt + 1) % 2 ^ 32) d
  event 18 t 0 d

/-- A fault stops the hand with its registers kept. -/
def handFault (t h code addr pc : Nat) (d : Dev) : Dev :=
  faultRecord t h code addr false pc
    (modHand t h (fun x => { x with state := .faulted, wait := .none, miss := none }) d)

/-- A posted store's error completion (R139): a HALTED hand becomes FAULTED, one that is FAULTED, IDLE or STOPPING gets
the record only (the last two: DEDUCED, log 22). -/
def imprecise (t h code addr : Nat) (d : Dev) : Dev :=
  let x := getHand d t h
  let d := if x.state = .faulted ∨ x.state = .idle ∨ x.state = .stopping then d
    else modHand t h (fun x => { x with state := .faulted, wait := .none, miss := none }) d
  faultRecord t h code addr true x.pc.toNat d

/-! ## Issue (R113) -/

/-- The hand is READY, has no access to its own tile's SRAM outstanding, and four cycles have passed since its last
issue. -/
def eligible (d : Dev) (x : HandSt) : Bool :=
  x.state == .ready && x.miss.isNone && (match x.lastIssue with
    | none => true
    | some c => decide (c + 4 ≤ now d))

/-- The hand at which the port stops: the first one after the one looked at last that is eligible or STALLED. -/
def portStop (d : Dev) (t : Nat) : Option Nat :=
  ((List.range 64).map (fun i => ((getTile d t).port + 1 + i) % 64)).find? (fun h =>
    let x := getHand d t h
    eligible d x || x.state == .stalled)

/-- The tile's port has not looked in this cycle, and its domain is on. -/
def portFree (d : Dev) (t : Nat) : Bool :=
  (getTile d t).looked != some (now d) && (getEighth d (t / 18)).domain != .off

/-- The port issues the next instruction of a hand in this cycle. -/
def mayIssue (d : Dev) (t h : Nat) : Bool :=
  portFree d t && portStop d t == some h && eligible d (getHand d t h)

/-- Add one to a 64-bit counter kept as a stored pair. -/
def ctlPairAdd (off : Nat) (d : Dev) : Dev := ctlSetPair off ((ctlPair d off + 1) % 2 ^ 64) d

/-- The issue itself: the port has looked at the hand, the hand's program counter advances modulo 0x1_0000 (R115), and
the tile's count of issued instructions gains one. -/
def noteIssue (t h : Nat) (d : Dev) : Dev :=
  let c := now d
  let d := modTile t (fun x => { x with port := h, looked := some c }) d
  let d := modHand t h (fun x => { x with lastIssue := some c, pc := x.pc + 4 }) d
  ctlPairAdd (regOff 18 t 0x50) d

/-- Issue an instruction of a hand: `k` is its effect, given its program counter. -/
def issue (t h : Nat) (k : Nat → Dev → Dev) (d : Dev) : Dev :=
  if mayIssue d t h then k (getHand d t h).pc.toNat (noteIssue t h d) else d

/-! ## Doorbells (R135, R148, R245, R246, R285, R286) -/

/-- Add to the doorbell of an input queue; a count above 256 stops the queue. -/
def ringInput (half q n : Nat) (d : Dev) : Dev :=
  let k := 4 * half + q
  let x := tget InQ.z d.body.inqs k
  let c := (x.db + n) % 2 ^ 32
  let ovr := decide (256 < c)
  let d := modBody (fun b => { b with inqs := tset InQ.z b.inqs k { x with db := c, ovr := x.ovr || ovr } }) d
  if ovr && !x.ovr then event 15 half q d else d

/-- Add to the doorbell of a suit, and copy the count into its runtime entry, which a suit of the deal has (R245). -/
def ringSuit (q s n : Nat) (d : Dev) : Dev :=
  let k := 4096 * q + s
  let x := tget SuitRun.z d.body.suits k
  let c := (x.db + n) % 2 ^ 32
  let d := modBody (fun b => { b with suits := tset SuitRun.z b.suits k { x with db := c } }) d
  if (getJob d q).deal.suits.any (fun y => y.num == s) then
    writeBytes ((getJob d q).deal.runaddr % 2 ^ 49 + 16 * s + 12) (leBytes 4 c) d
  else d

/-- Add to the doorbell of a stock class. -/
def ringClass (t c n : Nat) (d : Dev) : Dev :=
  modSt t (fun x =>
    let y := tget StClass.z x.classes c
    { x with classes := tset StClass.z x.classes c { y with db := (y.db + n) % 2 ^ 32 } }) d

/-- The doorbell entry that the loaded deal of a tile's partition gives a number. -/
def bellOf (d : Dev) (t n : Nat) : Doorbell :=
  match tilePart d t with
  | some q => if (getJob d q).loaded then tget Doorbell.z (getJob d q).deal.doorbells n else Doorbell.z
  | none => Doorbell.z

/-- RING: add to the doorbell that the loaded deal names. -/
def ringBell (t bell n : Nat) (d : Dev) : Dev :=
  let b := bellOf d t bell
  if b.kind = 0 then ringClass (b.target % 256) (b.target / 256 % 8) n d
  else if b.kind = 1 then ringSuit ((tilePart d t).getD 0) b.target n d
  else ringInput (b.target % 2) (b.target / 2 % 4) n d

/-! ## Slots of other hands' making (R133, R134) -/

/-- A slot may be named by a hand of a tile (R134): the slot is named, the tile is of the partition, a deal is loaded. -/
def slotOk (d : Dev) (t a b : Nat) : Bool :=
  decide (a < 144) && decide (b ≠ 0) && decide (b < 256) &&
    match tilePart d t with
    | some q => tilePart d a == some q && (getJob d q).loaded && (getSlot d a b).named
    | none => false

/-- A SLOTW waits: the slot is HOLD or ZERO and full, or another SLOTW fills it in this cycle (Table HD-6). -/
def slotBlocks (x : Slot) : Bool := x.policy != 2 && (x.full || x.next.isSome)

/-! ## Misses and posted stores (R117 to R120) -/

/-- The tile's partition uses miss-switching (R117). -/
def tileMsw (d : Dev) (t : Nat) : Bool := (getEighth d (t / 18)).msw

/-- The state of a hand that waits for a miss (R118, R119). -/
def missState (d : Dev) (t : Nat) : HState := if tileMsw d t then .switched else .stalled

/-- A waiting instruction holds a table entry once it is issued. -/
def Miss.tracked (m : Miss) : Bool :=
  m.hold == 0 && (match m.kind with
    | .fence => false
    | .ring _ _ => false
    | _ => true)

/-- The entries of a half's miss-tracking table in use (R118, R120). -/
def mttUsed (d : Dev) (half : Nat) : Nat :=
  d.body.hands.foldl (fun n p =>
    if p.1 / 64 / 72 = half ∧ tileMsw d (p.1 / 64) then
      n + p.2.posted.length + (match p.2.miss with
        | some m => b2n m.tracked
        | none => 0)
    else n) 0

/-- Some earlier access of the hand has not been performed (R126). -/
def unperformed (x : HandSt) : Bool := x.posted.any (fun p => p.res.isNone)

/-- The address lies in the hand's own tile SRAM (R117). -/
def ownSram (d : Dev) (t addr : Nat) : Bool :=
  decide (gDev addr = myDev d) && decide (sramAddr t 0 ≤ gOff addr) && decide (gOff addr < sramAddr t 0x300000)

/-- Whether the kind of a waiting instruction is a memory access, and whether it is posted. -/
def MissKind.isAccess : MissKind → Bool
  | .load _ _ _ => true
  | .vector _ => true
  | .store => true
  | _ => false

/-- Why an instruction is held before it is issued (R118 to R120, R126): 0 when it goes on. -/
def holdOf (d : Dev) (t h : Nat) (m : Miss) : Nat :=
  let x := getHand d t h
  let msw := tileMsw d t
  let away := match m.kind with
    | .slotw a _ _ => a != t
    | k => k.isAccess && !ownSram d t m.addr
  if m.ordered && unperformed x then 1
  else if !away then 0
  else if !msw && decide (1 ≤ x.posted.length) then 2
  else if msw && m.kind == .store && decide (4 ≤ x.posted.length) then 2
  else if msw && decide (8192 ≤ mttUsed d (t / 72)) then 3
  else 0

/-- The value that a load leaves in its general register: the low `size` bytes, sign- or zero-extended. -/
def loadValue (size : Nat) (signed : Bool) (v : BitVec 512) : Dword :=
  let n := v.toNat % 2 ^ (8 * size)
  if signed then BitVec.ofInt 64 (sext (8 * size) n) else BitVec.ofNat 64 n

/-- Write what a load, atomic or vector load returned. -/
def landValue (k : MissKind) (v : BitVec 512) (x : HandSt) : HandSt :=
  match k with
  | .load d size signed => gSet d (loadValue size signed v) x
  | .vector d => wSet d v x
  | _ => x

/-- The hand goes on: READY, nothing outstanding but posted stores. -/
def handReady (x : HandSt) : HandSt := { x with state := .ready, wait := .none, miss := none }

/-- The status with which memory of a tile's own device answers a hand's access: 0, or why it is not performed (R324,
R325). Control space answers for itself (R396). -/
def targetStatus (d : Dev) (t addr : Nat) (op : MemReq) : Nat :=
  match homeOf d (gOff addr), tilePart d t with
  | .ctl _, _ => 0
  | _, none => 0
  | _, some q => (checkGlobal d q addr op.len op.perm).2.code

/-- Send a hand's request to memory: its own device refuses, performs or queues it, another device gets a packet in the
open channel (R125, R227). -/
def sendHand (t : Nat) (who : Who) (addr : Nat) (op : MemReq) (d : Dev) : Dev :=
  if gDev addr = myDev d then
    let st := targetStatus d t addr op
    if st = 0 then issueLocal false (gOff addr) op who 0 d else deliver who st 0 [] [] d
  else sendMem .opened addr op who d

/-- An access to the hand's own tile SRAM waits for the port: the hand stays READY and is not eligible (R46, R113). -/
def ownAccess (t h : Nat) (m : Miss) (d : Dev) : Dev :=
  queueSram t (.hand t h) (gOff m.addr) m.op 0
    (modHand t h (fun x => { x with state := .ready, wait := .none, miss := some { m with hold := 0 } }) d)

/-- The access of a READY hand to its own tile's SRAM has been performed: the hand goes on, or faults on poison (R113,
R138). -/
def ownLand (t h : Nat) (d : Dev) : Dev :=
  let x := getHand d t h
  match x.state, x.miss with
  | .ready, some m =>
    (match m.res with
      | .data v bad =>
        if m.kind ≠ .store ∧ bad then handFault t h 7 m.addr m.pc d
        else modHand t h (fun y => handReady (landValue m.kind v y)) d
      | _ => d)
  | _, _ => d

/-- Perform an access that a tile's SRAM serves (R46, R47). -/
def serveSram (t : Nat) (d : Dev) (r : SramReq) : Dev :=
  let x := perform r.addr r.op d
  let d := deliver r.who 0 r.pos x.1 x.2.1 x.2.2
  match r.who with
  | .hand u h => if u = t then ownLand t h d else d
  | _ => d

/-- The sub-bank of a local offset in a tile's SRAM window, of 64 KiB (R46). -/
def subBank (a : Nat) : Nat := a / 0x10000

/-- What a tile's SRAM serves in a cycle, and what waits on: in the cycles that are 3 modulo 4 the first access in order to
each sub-bank, in the others the writes of the tile's own stock (R46). -/
def sramTurn (t phase : Nat) (q : List SramReq) : List SramReq × List SramReq :=
  q.foldl (fun a r =>
    let deck := r.who.stock? == some t
    if (if phase % 4 = 3 then !deck && !a.1.any (fun x => subBank x.addr == subBank r.addr) else deck) then (a.1 ++ [r], a.2)
    else (a.1, a.2 ++ [r])) ([], [])

/-- One cycle of a tile's SRAM ports (R46); one under test serves nothing (R381). -/
def sramCycle (t : Nat) (d : Dev) : Dev :=
  if (getTile d t).sramq.isEmpty || tileTested d t then d
  else
    let s := sramTurn t d.time.phase (getTile d t).sramq
    s.1.foldl (serveSram t) (modTile t (fun x => { x with sramq := s.2 }) d)

/-- SLOTW performed or waiting (R132, R134). -/
def slotWrite (t h a b : Nat) (v : Dword) (pc : Nat) (d : Dev) : Dev :=
  if !slotOk d t a b then handFault t h 9 0 pc d
  else if slotBlocks (getSlot d a b) then
    modHand t h (fun x => { x with state := .slotwait, wait := .slot a b v, miss := none }) d
  else modHand t h handReady (fillSlot a b v d)

/-- The number for a new posted store of a hand. -/
def postId (x : HandSt) : Nat := ((List.range (x.posted.length + 1)).find? (fun i => !x.posted.any (fun p => p.id == i))).getD 0

/-- Post a store and let the hand go on (R120). -/
def postStore (t h : Nat) (m : Miss) (d : Dev) : Dev :=
  let id := postId (getHand d t h)
  let d := modHand t h (fun x => handReady { x with posted := x.posted ++ [⟨id, m.addr, m.op, none⟩] }) d
  sendHand t (.post t h id) m.addr m.op d

/-- An instruction that may wait: held with its reason, or on its way (R117 to R120, R126, R127). -/
def goOn (t h : Nat) (m : Miss) (d : Dev) : Dev :=
  let k := holdOf d t h m
  if k ≠ 0 then
    modHand t h (fun x =>
      { x with state := (if k = 3 then .stalled else missState d t), miss := some { m with hold := k } }) d
  else match m.kind with
    | .fence => modHand t h handReady d
    | .ring bell n =>
      if (bellOf d t bell).named then modHand t h handReady (ringBell t bell n d) else handFault t h 10 0 m.pc d
    | .slotw a b v =>
      if a = t then slotWrite t h a b v m.pc d
      else modHand t h (fun x => { x with state := missState d t, miss := some { m with hold := 0 } }) d
    | .store => if ownSram d t m.addr then ownAccess t h m d else postStore t h m d
    | _ =>
      if ownSram d t m.addr then ownAccess t h m d
      else sendHand t (.hand t h) m.addr m.op
        (modHand t h (fun x => { x with state := missState d t, miss := some { m with hold := 0 } }) d)

/-- A miss has come back, or what held an instruction has ended: the hand goes on (R118, R119, R126, R127). -/
def missBack (t h : Nat) (d : Dev) : Dev :=
  let x := getHand d t h
  if x.state = .switched ∨ x.state = .stalled then
    match x.miss with
    | none => d
    | some m =>
      if m.hold = 0 then
        match m.kind with
        | .slotw a b v => slotWrite t h a b v m.pc d
        | k => match m.res with
          | .pending => d
          | .error c => handFault t h c m.addr m.pc d
          | .data v bad =>
            if bad then handFault t h 7 m.addr m.pc d
            else modHand t h (fun y => handReady (landValue k v y)) d
      else if m.hold ≠ 3 ∧ holdOf d t h m = 0 then goOn t h m d
      else d
  else d

/-- A table entry frees for a hand that waits for one (R118). -/
def entryFrees (t h : Nat) (d : Dev) : Dev :=
  let x := getHand d t h
  match x.miss with
  | some m => if x.state = .stalled ∧ m.hold = 3 ∧ holdOf d t h m = 0 then goOn t h m d else d
  | none => d

/-- A posted store of a hand, if it has completed with a code. -/
def postedBack (x : HandSt) (id code : Nat) : Option Posted := x.posted.find? (fun p => p.id == id && p.res == some code)

/-- A posted store ends without an error: its entry is freed (R120). -/
def postEnds (t h id : Nat) (d : Dev) : Dev :=
  match postedBack (getHand d t h) id 0 with
  | none => d
  | some _ => modHand t h (fun x => { x with posted := x.posted.filter (fun p => p.id != id) }) d

/-- POSTED_STORE_COMPLETE: R120. -/
def execPostedStoreComplete (t : Sys2Proof.Tile) (h : HandId) (id : Nat) (s : State) : Out :=
  runMain (postEnds t.val h.val id) s

/-- The states in which a hand stands between two instructions. -/
def betweenInstrs (x : HandSt) : Bool :=
  match x.state with
  | .switched => false
  | .stalled => false
  | .waiting => false
  | .slotwait => false
  | .debug => false
  | .ready => x.miss.isNone
  | _ => true

/-- The error completion of a posted store raises its fault after the hand's current instruction (R139). -/
def postFails (t h id : Nat) (d : Dev) : Dev :=
  let x := getHand d t h
  match x.posted.find? (fun p => p.id == id) with
  | none => d
  | some p => match p.res with
    | some (c + 1) =>
      if betweenInstrs x then
        imprecise t h (c + 1) p.addr
          (modHand t h (fun y => { y with posted := y.posted.filter (fun z => z.id != id) }) d)
      else d
    | _ => d

/-- IMPRECISE_FAULT: R139. -/
def execImpreciseFault (t : Sys2Proof.Tile) (h : HandId) (id : Nat) (s : State) : Out :=
  runMain (postFails t.val h.val id) s

/-! ## Waits (R127, R132 to R134) -/

/-- Test the word of a WAIT: the hand goes on when it differs, and faults when it is poisoned. -/
def waitTest (t h addr : Nat) (v : Dword) (pc : Nat) (d : Dev) : Dev :=
  if badBytes d (gOff addr) 8 ≠ [] then handFault t h 7 addr pc (noteRead (gOff addr) 8 d)
  else if readNat d (gOff addr) 8 = v.toNat then
    modHand t h (fun x => { x with state := .waiting, wait := .word addr v }) (noteRead (gOff addr) 8 d)
  else modHand t h handReady (noteRead (gOff addr) 8 d)

/-- The word of a waiting hand is tested again. -/
def wakeWord (t h : Nat) (d : Dev) : Dev :=
  let x := getHand d t h
  match x.wait with
  | .word a v => if x.state = .waiting then waitTest t h a v (x.pc - 4).toNat d else d
  | _ => d

/-- WAIT_WAKE: R127. -/
def execWaitWake (t : Sys2Proof.Tile) (h : HandId) (s : State) : Out := runMain (wakeWord t.val h.val) s

/-- A WAITT wakes once the trick counter has reached its operand. -/
def wakeTrick (t h : Nat) (d : Dev) : Dev :=
  let x := getHand d t h
  match x.wait with
  | .trick v => if x.state = .waiting ∧ v.toNat ≤ d.time.trick then modHand t h handReady d else d
  | _ => d

/-- WAITT_WAKE: R127. -/
def execWaittWake (t : Sys2Proof.Tile) (h : HandId) (s : State) : Out := runMain (wakeTrick t.val h.val) s

/-- A SLOTW that waits is performed once its slot has been read (R132, R133). -/
def releaseSlot (t h : Nat) (d : Dev) : Dev :=
  let x := getHand d t h
  match x.wait with
  | .slot a b v =>
    if x.state = .slotwait ∧ !slotBlocks (getSlot d a b) then modHand t h handReady (fillSlot a b v d) else d
  | _ => d

/-- SLOTWAIT_RELEASE: R132, R133. -/
def execSlotwaitRelease (t : Sys2Proof.Tile) (h : HandId) (s : State) : Out := runMain (releaseSlot t.val h.val) s

/-! ## START and STOP (R116) -/

/-- A hand in IDLE, HALTED or FAULTED rests. -/
def resting (x : HandSt) : Bool := x.state == .idle || x.state == .halted || x.state == .faulted

/-- START of a resting hand. -/
def startHand (t h : Nat) (d : Dev) : Dev :=
  modHand t h (fun x =>
    { x with state := .ready, pc := BitVec.ofNat 16 (ctlNat d (regOff 18 t (0x100 + 4 * h))), g := [], w := []
             elapsed := 0, wait := .none, miss := none }) d

/-- START, or its record when the hand does not rest. -/
def tryStart (r : Req) (t h off : Nat) (d : Dev) : Dev :=
  if resting (getHand d t h) then startHand t h d else logError (pageBase 18 t) cState (Req.code r) off true d

/-- Something of the hand is still outstanding: posted stores, or an access that has been issued and is not back. -/
def outstanding (x : HandSt) : Bool :=
  !x.posted.isEmpty || (match x.miss with
    | some m => m.hold == 0 && m.kind.isAccess && m.res == .pending
    | none => false)

/-- An access of the hand has been issued and the hand has not gone on since: it waits for it. -/
def awaits (x : HandSt) : Bool :=
  match x.miss with
  | some m => m.hold == 0 && m.kind.isAccess
  | none => false

/-- STOP: issue ends at once; the hand is STOPPING while something is outstanding, else IDLE. -/
def stopHand (t h : Nat) (d : Dev) : Dev :=
  let x := getHand d t h
  if x.state = .idle then d
  else if outstanding x || awaits x then modHand t h (fun y => { y with state := .stopping, wait := .none }) d
  else modHand t h (fun y => { y with state := .idle, wait := .none, miss := none }) d

/-- START: R116. -/
def execStart (r : Req) (t : Sys2Proof.Tile) (h : HandId) (s : State) : Out :=
  runMain (access r (regOff 18 t.val 0x44) 4 true h.val
    (mgmtOnly r (pageBase 18 t.val) (regOff 18 t.val 0x44) (tryStart r t.val h.val (regOff 18 t.val 0x44)))) s

/-- STOP: R116. -/
def execStop (r : Req) (t : Sys2Proof.Tile) (h : HandId) (s : State) : Out :=
  runMain (access r (regOff 18 t.val 0x44) 4 true (h.val + 64)
    (mgmtOnly r (pageBase 18 t.val) (regOff 18 t.val 0x44) (stopHand t.val h.val))) s

/-- The last outstanding access of a STOPPING hand has completed. -/
def handStops (t h : Nat) (d : Dev) : Dev :=
  let x := getHand d t h
  if x.state = .stopping ∧ !outstanding x then modHand t h (fun y => { y with state := .idle, miss := none }) d else d

/-- HAND_STOPPED: R116. -/
def execHandStopped (t : Sys2Proof.Tile) (h : HandId) (s : State) : Out := runMain (handStops t.val h.val) s

/-! ## One core cycle (R136, R137) -/

/-- A hand's elapsed time runs (R136). -/
def elapses (x : HandSt) : Bool := !resting x && x.state != .debug

/-- One cycle of a tile's hands: the counters of Table HD-7 but for `HD_HELD` and `HD_SLOTHOLD`. -/
def handsCycle (t : Nat) (d : Dev) : Dev :=
  let hs := (List.range 64).map (fun h => getHand d t h)
  let d := if hs.any (fun x => !resting x) && !hs.any (fun x => eligible d x || x.lastIssue == some (now d)) then
      ctlAdd (regOff 18 t 0x58) 1 d else d
  if hs.any (fun x => x.state == .stalled && (match x.miss with | some m => m.hold == 3 | none => false)) then
    ctlAdd (regOff 18 t 0x60) 1 d else d

/-- One cycle of elapsed time of every hand (R136). -/
def elapseAll (d : Dev) : Dev :=
  modBody (fun b => { b with hands := b.hands.map (fun p =>
    (p.1, if elapses p.2 then { p.2 with elapsed := (p.2.elapsed + 1) % 2 ^ 64 } else p.2)) }) d

end Sys2Proof.Machine
end

