-- ==== Sys2Proof/Machine/Input.lean ====
section
/-! DEFINITION. The input engine (spec/13_input_engine.md, R285 to R298): queues, the tokeniser with its dictionary, the
image unit, deadlines. -/

namespace Sys2Proof.Machine

def inKey (h q : Nat) : Nat := 4 * h + q
def getInq (d : Dev) (h q : Nat) : InQ := tget InQ.z d.body.inqs (inKey h q)
def modInq (h q : Nat) (f : InQ → InQ) (d : Dev) : Dev :=
  modBody (fun b => { b with inqs := tset InQ.z b.inqs (inKey h q) (f (tget InQ.z b.inqs (inKey h q))) }) d
/-- The offset of a register of queue q of a half. -/
def inOff (h q o : Nat) : Nat := regOff 15 h (0x80 + 0x20 * q + o)
def inCfg (d : Dev) (h q : Nat) : Nat := ctlNat d (inOff h q 8)

/-! ## Starting, deadlines and completion (R286, R289, R290) -/

/-- An underrun: flagged, counted and raised once, and the job halts (R290). -/
def underrun (h q : Nat) (d : Dev) : Dev :=
  match (getInq d h q).run, ownerOf d (4 * h + q) with
  | some r, some p =>
    let j := getJob d p
    if r.deadline ≠ 0 ∧ j.loaded ∧ j.started ∧ r.deadline ≤ j.cursor ∧ !bitAt r.flags 1 then
      haltFor p 3 (event 15 h (4 + q) (ctlAdd (regOff 15 h 0x48) 1
        (modInq h q (fun x => { x with run := some { r with flags := r.flags + 2 } }) d)))
    else d
  | _, _ => d

/-- The address of a queue's next command. -/
def inSlot (d : Dev) (h q : Nat) : Nat := ctlPair d (inOff h q 0) + 64 * ((getInq d h q).started % 256)

/-- A queue's command may be read and its status written by its partition (R325), and no older request to it is queued. -/
def inSlotFree (d : Dev) (h q : Nat) : Bool :=
  match ownerOf d (4 * h + q) with
  | none => false
  | some p => slotMay d p (inSlot d h q) && slotMay d p (inSlot d h q + 32) && !unitWaits d (gOff (inSlot d h q)) 64

/-- The next command starts (R286); one whose deadline has passed underruns at once. -/
def inputStart (h q : Nat) (d : Dev) : Dev :=
  let x := getInq d h q
  if !x.en ∨ x.ovr ∨ x.run.isSome ∨ x.db = 0 ∨ !inSlotFree d h q then d
  else
    let a := inSlot d h q
    let l := readBytes d (gOff a) 64
    underrun h q (modInq h q (fun y =>
      { y with db := y.db - 1, started := y.started + 1
               run := some { addr := a, op := leAt l 0 1, deadline := leAt l 8 8, faddr := leAt l 16 8, ftag := leAt l 4 2
                             status := 0, flags := 0, done := false, next := 0 } }) (unitRead (gOff a) 64 d).2.2)

/-- INPUT_COMMAND_START: R286, R288, R290. -/
def execInputCommandStart (h : Half) (q : Queue) (s : State) : Out := runMain (inputStart h.val q.val) s

/-- At play 0 of a trick the deadline of the command in progress is checked (R290). -/
def inputCheck (h q : Nat) (d : Dev) : Dev := if d.time.phase < 48 then underrun h q d else d

/-- INPUT_DEADLINE_CHECK: R290. -/
def execInputDeadlineCheck (h : Half) (q : Queue) (s : State) : Out := runMain (inputCheck h.val q.val) s

/-- End the command in progress with a status and flags; its completion is INPUT_COMMAND_COMPLETE. -/
def inputEnd (h q st fl : Nat) (d : Dev) : Dev :=
  modInq h q (fun x => { x with run := x.run.map (fun r => { r with status := st, flags := r.flags ||| fl, done := true }) }) d

/-- The command in progress completes (R289). -/
def inputComplete (h q : Nat) (d : Dev) : Dev :=
  match (getInq d h q).run with
  | none => d
  | some r =>
    if !r.done then d
    else
      let p := (ownerOf d (4 * h + q)).getD 0
      let d := if slotMay d p r.addr then unitWrite (gOff r.addr + 1) (leBytes 1 r.status ++ leBytes 1 r.flags) [] d else d
      let d := ctlSetN (inOff h q 0x10) ((ctlNat d (inOff h q 0x10) + 1) % 2 ^ 32) d
      let d := modInq h q (fun x => { x with run := none }) d
      if r.status ≠ 1 then event 15 h q (ctlAdd (inOff h q 0x14) 1 d)
      else if r.faddr = 0 then d
      else (putFlag .opened 0 p r.faddr
        (r.ftag % 2 ^ 16 + 2 ^ 16 * (if r.deadline = 0 then 2 ^ 48 - 1 else r.deadline % 2 ^ 48)) d).2

/-- INPUT_COMMAND_COMPLETE: R289. -/
def execInputCommandComplete (h : Half) (q : Queue) (s : State) : Out := runMain (inputComplete h.val q.val) s

/-! ## Sources and destinations (R287, R288) -/

/-- The tier of a home: 0 HBM, 1 GDDR7, 2 flash, 3 host, 8 any other. -/
def homeTier : Home → Nat
  | .hbm _ _ => 0
  | .gddr _ _ => 1
  | .flash _ _ => 2
  | .host _ => 3
  | _ => 8

/-- A source lies in a tier outside R287: neither HBM nor the queue's STIER, or on another device. -/
def badSource (d : Dev) (h q a : Nat) : Bool :=
  let t := homeTier (homeOf d (gOff a))
  gDev a != myDev d || (t != 0 && t != bits (inCfg d h q) 9 8)

/-- A destination outside the partition's HBM and GDDR7. -/
def badDest (d : Dev) (h q a : Nat) : Bool :=
  let x := homeOf d (gOff a)
  gDev a != myDev d || decide (1 < homeTier x) || (x.eighth.bind (ownerOf d)) != ownerOf d (4 * h + q)

/-- The host's bytes of a range, if the host has given all of them. -/
def hostBytes (host : HostBytes) (a n : Nat) : Option (List Byte) :=
  (List.range n).foldr (fun i acc =>
    match acc, host.data.findSome? (fun p => if p.1 ≤ a + i then p.2[a + i - p.1]? else none) with
    | some l, some b => some (b :: l)
    | _, _ => none) (some [])

/-- What a read of a source gives: a status of Table IN-2, 0 to wait for the host or for older requests, and the bytes. -/
def inRead (d : Dev) (h q : Nat) (host : HostBytes) (a n : Nat) : Nat × List Byte :=
  let p := (ownerOf d (4 * h + q)).getD 0
  if n = 0 then (1, [])
  else if badSource d h q a then (2, [])
  else if checkGlobal d p a n permR ≠ (true, .ok) then (5, [])
  else match homeOf d (gOff a) with
    | .host o =>
      if (hostRange d .other (some p) o n none).1 ≠ 0 then (5, [])
      else match hostBytes host (gOff a) n with
        | some l => if (List.range n).any (fun i => host.bad.contains (gOff a + i)) then (4, []) else (1, l)
        | none => (0, [])
    | _ =>
      if unitWaits d (gOff a) n then (0, [])
      else if poisoned d (gOff a) n then (4, [])
      else (1, readBytes d (gOff a) n)

/-- A read of a source as its channels count it (R196, R201). -/
def inNote (a n : Nat) (d : Dev) : Dev :=
  match homeOf d (gOff a) with
  | .host _ => d
  | _ => if n = 0 then d else (unitRead (gOff a) n d).2.2

/-- The status of writing a destination, 0 while an older request to it is queued. -/
def inWriteStatus (d : Dev) (h q a n : Nat) : Nat :=
  if n = 0 then 1
  else if badDest d h q a then 2
  else if checkGlobal d ((ownerOf d (4 * h + q)).getD 0) a n permW ≠ (true, .ok) then 5
  else if unitWaits d (gOff a) n then 0
  else 1

/-- The status of a command's flag address (R289, R312). -/
def inFlagStatus (d : Dev) (h q a : Nat) : Nat :=
  if a % 8 ≠ 0 then 2
  else if a = 0 then 1
  else if flagStatus d 0 ((ownerOf d (4 * h + q)).getD 0) a = 0 then 1 else 5

/-- The first status that is not OK, or OK. -/
def inFirst (l : List Nat) : Nat := (l.find? (fun s => s != 1)).getD 1

/-! ## The dictionary (R291, R292) -/

/-- A byte of a half's dictionary SRAM, kept by words: word i of half h has the key 2^23 h + i. -/
def dictKey (h w : Nat) : Nat := 2 ^ 23 * h + w
def dictWord (d : Dev) (h w : Nat) : Nat := (tget 0 d.body.dict (dictKey h w)).toNat
def dictNat (d : Dev) (h a : Nat) : Nat := dictWord d h (a / 4)
def dictByte (d : Dev) (h a : Nat) : Byte := BitVec.ofNat 8 (dictWord d h (a / 4) / 2 ^ (8 * (a % 4)))

/-- The start of a queue's image, and its size limit: 6 MiB for each eighth that the partition owns in the half. -/
def dictBase (q : Nat) : Nat := 0x800000 * q
def dictLimit (d : Dev) (h q : Nat) : Nat :=
  match ownerOf d (4 * h + q) with
  | some p => 0x600000 * ((partEighths d p).filter (fun e => e / 4 == h)).length
  | none => 0

/-- One entry: the offset of its string, its length, its token identifier. -/
structure DictEnt where
  off : Nat
  len : Nat
  tok : Nat
  deriving DecidableEq, Repr

def dictEnt (d : Dev) (h base n : Nat) : DictEnt :=
  let a := dictNat d h (base + 32 + 8 * n)
  let b := dictNat d h (base + 36 + 8 * n)
  ⟨bits a 23 0 + 2 ^ 24 * bits b 20 20, bits a 29 24 + 1, bits b 19 0⟩

/-- The string of an entry. -/
def dictStr (d : Dev) (h base : Nat) (e : DictEnt) : List Byte := (List.range e.len).map (fun i => dictByte d h (base + e.off + i))

/-- The entries of an image, strings with identifiers. -/
def dictEntries (d : Dev) (h base : Nat) : List (List Byte × Nat) :=
  (List.range (dictNat d h (base + 4))).map (fun n => let e := dictEnt d h base n; (dictStr d h base e, e.tok))

/-- The refusal code of an image, 0 when it is accepted (R292). A BYTEBASE whose byte range reaches 2^20 counts as code 5,
a LEN that cannot hold the entries as code 2. -/
def dictCheck (d : Dev) (h q : Nat) : Nat :=
  let base := dictBase q
  let nent := dictNat d h (base + 4)
  let bb := dictNat d h (base + 8)
  let len := dictNat d h (base + 12)
  if dictNat d h base ≠ 0x54444C4A then 1
  else if nent = 0 ∨ 2 ^ 20 < nent ∨ dictLimit d h q < len ∨ len < 32 + 8 * nent then 2
  else
    let es := (List.range nent).map (dictEnt d h base)
    if es.any (fun e => decide (len < e.off + e.len)) then 3
    else if !((es.map (dictStr d h base)).Nodup : Bool) then 4
    else if 2 ^ 20 ≤ bb + 255 ∨ es.any (fun e => decide (bb ≤ e.tok) && decide (e.tok ≤ bb + 255)) then 5
    else 0

/-- The dictionary check ends. -/
def dictDone (h q : Nat) (d : Dev) : Dev :=
  if (getInq d h q).dict ≠ 1 then d
  else
    let c := dictCheck d h q
    modInq h q (fun x => { x with dict := if c = 0 then 2 else 3, derr := c }) d

/-- DICTIONARY_BUILD_DONE: R292. -/
def execDictionaryBuildDone (h : Half) (q : Queue) (s : State) : Out := runMain (dictDone h.val q.val) s

/-- A write of `IN_QCFG` (R292, R298). Setting EN starts the check of the image with its counts from 0; a STIER of 0
leaves EN at 0. Clearing it ends the command in progress with ABANDONED. The other fields change only while the queue is
disabled. -/
def qcfgWrite (r : Req) (h q v : Nat) (d : Dev) : Dev :=
  let o := inOff h q 8
  let x := getInq d h q
  let w := v % 2 ^ 10
  if !isMgmt d r then refuse r (pageBase 15 h) o cRequester true d
  else if 96 < bits w 7 1 then refuse r (pageBase 15 h) o cValue true d
  else if x.en then
    if w / 2 ≠ inCfg d h q / 2 then refuse r (pageBase 15 h) o cState true d
    else if bitAt w 0 then d
    else
      let d := match x.run with
        | some y => if y.done then d else inputEnd h q 6 0 d
        | none => d
      modInq h q (fun y => { y with en := false, dict := if y.dict = 1 then 0 else y.dict }) (ctlSetN o (w / 2 * 2) d)
  else
    let d := keepTokens (inBucket h q) (bits (inCfg d h q) 7 1) d
    if bitAt w 0 ∧ bits w 9 8 ≠ 0 then
      modInq h q (fun y => { y with en := true, dict := 1, derr := 0, ovr := false, db := 0, started := 0 }) (ctlSetN o w d)
    else ctlSetN o (w / 2 * 2) d

/-- IN_QCFG_ENABLE: R292, R298: a write with EN 1. -/
def execInQcfgEnable (r : Req) (h : Half) (q : Queue) (v : Word) (s : State) : Out :=
  runMain (fun d => if bitAt v.toNat 0 then access r (inOff h.val q.val 8) 4 true v.toNat (qcfgWrite r h.val q.val v.toNat) d else d) s

/-- IN_QCFG_DISABLE: R298: a write with EN 0. -/
def execInQcfgDisable (r : Req) (h : Half) (q : Queue) (v : Word) (s : State) : Out :=
  runMain (fun d => if bitAt v.toNat 0 then d else access r (inOff h.val q.val 8) 4 true v.toNat (qcfgWrite r h.val q.val v.toNat) d) s

/-! ## The tokeniser (R293, R294) -/

/-- The longest entry, of at most 64 bytes, that the bytes begin with: its length and identifier (R293). -/
def longest (es : List (List Byte × Nat)) (l : List Byte) : Option (Nat × Nat) :=
  es.foldl (fun a e =>
    if e.1.isPrefixOf l then
      (match a with
        | some x => if x.1 < e.1.length then some (e.1.length, e.2) else a
        | none => some (e.1.length, e.2))
    else a) none

/-- The tokens of a sample: at each byte the longest entry, else the byte's own token. -/
def tokens (es : List (List Byte × Nat)) (bb : Nat) : Nat → List Byte → List Nat
  | 0, _ => []
  | _, [] => []
  | f + 1, b :: r =>
    match longest es (b :: r) with
    | some (n, t) => t :: tokens es bb f ((b :: r).drop n)
    | none => (bb + b.toNat) :: tokens es bb f r

/-- A row of S tokens, padded. -/
def tokenRow (s pad : Nat) (ts : List Nat) : List Byte :=
  ((ts.take s).map (leBytes 4)).flatten ++ (List.replicate (s - ts.length) (leBytes 4 pad)).flatten

/-- The command in progress of a queue, if it is of an operation and runs. -/
def inRun (d : Dev) (h q op : Nat) : Option (InRun × List Byte) :=
  match (getInq d h q).run with
  | some r => if r.done ∨ (r.op ≠ op ∧ (r.op = 1 ∨ r.op = 2)) then none else some (r, readBytes d (gOff r.addr) 64)
  | none => none

/-- BAD_CMD of the common fields and of a TOKENISE (R288, R294). -/
def tokBad (d : Dev) (h q : Nat) (l : List Byte) : Bool :=
  leAt l 0 1 != 1 || leAt l 3 1 != 0 || leAt l 6 2 != 0 || leAt l 24 8 % 4 != 0 || leAt l 32 8 % 4 != 0
    || leAt l 56 8 % 8 != 0 || decide (leAt l 44 4 < leAt l 40 4) || leAt l 44 4 == 0 || decide (65536 < leAt l 44 4)
    || leAt l 48 4 == 0 || decide (2 ^ 24 < leAt l 48 4) || decide (2 ^ 20 ≤ leAt l 52 4)
    || badDest d h q (leAt l 24 8) || badDest d h q (leAt l 56 8)

/-- It is a queue's turn at a unit of its half, 4 + h the tokeniser and 6 + h the image unit: fixed rotation over the queues
with a command for it whose bucket is open (R287; log 70). -/
def inTurn (d : Dev) (unit h q op : Nat) : Bool :=
  turnOf d (unit + h) (fun k => (inRun d h k op).isSome && bucketOpen d (inBucket h k) (bits (inCfg d h k) 7 1)) == some q

/-- A turn at a unit is taken, with the tokens of n bytes read. -/
def inSpend (unit h q n : Nat) (d : Dev) : Dev :=
  nextTurn (unit + h) q (takeTokens (inBucket h q) (bits (inCfg d h q) 7 1) n d)

/-- A row of a TOKENISE is written: its tokens, padded, and its length. -/
def tokWrite (dst lenv s pad n : Nat) (ts : List Nat) (d : Dev) : Dev :=
  unitWrite (gOff lenv + 4 * n) (leBytes 4 (min s ts.length)) [] (unitWrite (gOff dst + 4 * s * n) (tokenRow s pad ts) [] d)

/-- The entry of a TOKENISE's sample n: its status, address and length. -/
def tokEntry (d : Dev) (h q : Nat) (host : HostBytes) (slist n : Nat) : Nat × Nat × Nat :=
  let e := inRead d h q host (slist + 16 * n) 16
  let len := leAt e.2 8 4
  (if e.1 ≠ 1 then e.1 else if leAt e.2 12 4 ≠ 0 ∨ 2 ^ 24 < len ∨ leAt e.2 0 8 % 4 ≠ 0 then 2 else 1, leAt e.2 0 8, len)

/-- The rows past the samples hold PADTOK alone, and the command ends OK. -/
def tokPad (h q : Nat) (dst lenv s pad nsamp b : Nat) (d : Dev) : Dev :=
  inputEnd h q 1 0 (forN (b - nsamp) (fun i e => tokWrite dst lenv s pad (nsamp + i) [] e) d)

/-- One sample is tokenised into its row (R293, R294); after the last the rest is padded. -/
def tokSample (h q : Nat) (host : HostBytes) (r : InRun) (l : List Byte) (d : Dev) : Dev :=
  let nsamp := leAt l 40 4
  let s := leAt l 48 4
  let e := tokEntry d h q host (leAt l 32 8) r.next
  let x := if e.1 ≠ 1 then (e.1, []) else inRead d h q host e.2.1 e.2.2
  if x.1 = 0 then d
  else if x.1 ≠ 1 then nextTurn (4 + h) q (inputEnd h q x.1 0 d)
  else
    let ts := tokens (dictEntries d h (dictBase q)) (dictNat d h (dictBase q + 8)) (e.2.2 + 1) x.2
    let ovr := decide (s < ts.length)
    let d := inSpend 4 h q (16 + e.2.2) (inNote e.2.1 e.2.2 (inNote (leAt l 32 8 + 16 * r.next) 16 d))
    let d := tokWrite (leAt l 24 8) (leAt l 56 8) s (leAt l 52 4) r.next ts d
    let d := if ovr then ctlAdd (regOff 15 h 0x44) 1 d else d
    let d := modInq h q (fun y => { y with run := y.run.map (fun z => { z with next := z.next + 1, flags := z.flags ||| b2n ovr }) }) d
    if r.next + 1 < nsamp then d else tokPad h q (leAt l 24 8) (leAt l 56 8) s (leAt l 52 4) nsamp (leAt l 44 4) d

/-- A turn of a TOKENISE: one sample, unless bytes of the host are still missing or older requests wait. -/
def tokenise (h q : Nat) (host : HostBytes) (d : Dev) : Dev :=
  match inRun d h q 1 with
  | none => d
  | some (r, l) =>
    if !inTurn d 4 h q 1 then d
    else
      let st := if tokBad d h q l then 2 else if (getInq d h q).dict ≠ 2 then 3
        else inFirst [inFlagStatus d h q r.faddr, inWriteStatus d h q (leAt l 24 8) (4 * leAt l 48 4 * leAt l 44 4),
          inWriteStatus d h q (leAt l 56 8) (4 * leAt l 44 4)]
      if st = 0 then d
      else if st ≠ 1 then nextTurn (4 + h) q (inputEnd h q st 0 d)
      else if leAt l 40 4 = 0 then
        nextTurn (4 + h) q (tokPad h q (leAt l 24 8) (leAt l 56 8) (leAt l 48 4) (leAt l 52 4) 0 (leAt l 44 4) d)
      else tokSample h q host r l d

/-- TOKENISE: R288, R291, R293, R294. -/
def execTokenise (h : Half) (q : Queue) (host : HostBytes) (s : State) : Out :=
  runMain (tokenise h.val q.val host) s

/-! ## The image unit (R295 to R297) -/

/-- The parameters of an IMAGE and of its record. -/
structure ImgCmd where
  src : Nat
  w : Nat
  h : Nat
  ow : Nat
  oh : Nat
  fmt : Nat
  dst : Nat
  par : List Byte
  deriving DecidableEq, Repr

/-- Bytes per pixel, channels and patch side (R295). -/
def imgBpp (x : ImgCmd) : Nat := if bits x.fmt 1 0 = 0 then 1 else if bits x.fmt 1 0 = 1 then 3 else 4
def imgChans (x : ImgCmd) : Nat := if bits x.fmt 1 0 = 0 then 1 else 3
def imgSide (x : ImgCmd) : Nat := if bits x.fmt 3 2 = 0 then 14 else if bits x.fmt 3 2 = 1 then 16 else 32
/-- A word of the record (Table IN-4). -/
def imgPar (x : ImgCmd) (o : Nat) : Nat := leAt x.par o 4
def imgMesh (x : ImgCmd) : Nat := leAt x.par 64 8
def imgNx (x : ImgCmd) : Nat := leAt x.par 72 2
def imgNy (x : ImgCmd) : Nat := leAt x.par 74 2
def imgPitch (x : ImgCmd) : Nat := leAt x.par 76 4

/-- BAD_CMD of an IMAGE's own fields (R288, R295). -/
def imgBad (d : Dev) (h q : Nat) (l : List Byte) : Bool :=
  let f := leAt l 48 1
  let side := if bits f 3 2 = 0 then 14 else if bits f 3 2 = 1 then 16 else 32
  leAt l 0 1 != 2 || leAt l 3 1 != 0 || leAt l 6 2 != 0 || leAt l 49 7 != 0 || leAt l 24 8 % 4 != 0 || leAt l 32 8 % 4 != 0
    || leAt l 56 8 % 64 != 0 || bits f 1 0 == 3 || bits f 3 2 == 3 || bits f 7 4 != 0
    || leAt l 40 2 == 0 || decide (16384 < leAt l 40 2) || leAt l 42 2 == 0 || decide (16384 < leAt l 42 2)
    || leAt l 44 2 == 0 || decide (8192 < leAt l 44 2) || leAt l 46 2 == 0 || decide (8192 < leAt l 46 2)
    || leAt l 44 2 % side != 0 || leAt l 46 2 % side != 0 || badDest d h q (leAt l 24 8)

/-- BAD_CMD of an IMAGE's record (Table IN-4). -/
def imgParBad (x : ImgCmd) : Bool :=
  decide (imgPitch x < x.w * imgBpp x) || (x.par.drop 80).any (· != 0) || imgMesh x % 4 != 0
    || (imgMesh x != 0 && (decide (imgNx x < 2) || decide (65 < imgNx x) || decide (imgNy x < 2) || decide (65 < imgNy x)))

/-- An FP32 integer, division, and floor as an integer where the value is finite. -/
def f32int (n : Nat) : Nat := toF32 (FV.ofInt n)
def f32div (a b : Nat) : Nat := toF32 (FV.div (f32 a) (f32 b))
def f32floor (a : Nat) : Option Int :=
  match f32 a with
  | .fin s m e => some ((if s then -(m : Int) else (m : Int)) * (2 : Int) ^ e.toNat / (2 : Int) ^ (-e).toNat)
  | _ => none

/-- The orders in which the interpolation of four FP32 values at two fractions may be evaluated, each operation rounded: the
four weighted values summed, or two steps along one coordinate and one along the other, each of the form p + a(q - p) or
(1 - a)p + aq (R296; log 40). -/
def bilerpOrders (v00 v10 v01 v11 a b : Nat) : List Nat :=
  let na := f32sub (f32int 1) a
  let nb := f32sub (f32int 1) b
  let lerp (p q t : Nat) : Nat := f32add p (f32mul t (f32sub q p))
  let mix (p q t : Nat) : Nat := f32add (f32mul (f32sub (f32int 1) t) p) (f32mul t q)
  [f32add (f32add (f32add (f32mul (f32mul na nb) v00) (f32mul (f32mul a nb) v10)) (f32mul (f32mul na b) v01)) (f32mul (f32mul a b) v11),
    lerp (lerp v00 v10 a) (lerp v01 v11 a) b, lerp (lerp v00 v01 b) (lerp v10 v11 b) a,
    mix (mix v00 v10 a) (mix v01 v11 a) b, mix (mix v00 v01 b) (mix v10 v11 b) a]

/-- Bilinear interpolation in FP32 (R296): the value that every order of evaluation gives, or a free value where they
differ. -/
def bilerp (v00 v10 v01 v11 a b : Nat) : Nat :=
  let l := bilerpOrders v00 v10 v01 v11 a b
  let v := l.headD 0
  if l.all (· == v) then v else (Config.bilinear v00 v10 v01 v11 a b).toNat

/-- One coordinate on the mesh: node index and fraction (R296 step 1). -/
def meshPos (u n ext : Nat) : Nat × Nat :=
  let g := if ext = 1 then 0 else f32div (f32mul (f32int u) (f32int (n - 1))) (f32int (ext - 1))
  let a := min ((f32floor g).getD 0).toNat (n - 2)
  (a, f32sub g (f32int a))

/-- The ideal point of an output pixel (R296 step 1). -/
def idealPoint (x : ImgCmd) (mesh : List Byte) (u v : Nat) : Nat × Nat :=
  if imgMesh x = 0 then (f32int u, f32int v)
  else
    let p := meshPos u (imgNx x) x.ow
    let r := meshPos v (imgNy x) x.oh
    let node (i j k : Nat) : Nat := leAt mesh (8 * ((r.1 + j) * imgNx x + p.1 + i) + 4 * k) 4
    let go (k : Nat) : Nat := bilerp (node 0 0 k) (node 1 0 k) (node 0 1 k) (node 1 1 k) p.2 r.2
    (go 0, go 1)

/-- The source point of an output pixel: every operation rounded, from left to right as R296 writes it (log 38). -/
def sourcePoint (x : ImgCmd) (mesh : List Byte) (u v : Nat) : Nat × Nat :=
  let i := idealPoint x mesh u v
  let fx := imgPar x 0
  let fy := imgPar x 4
  let px := f32div (f32sub i.1 (imgPar x 8)) fx
  let py := f32div (f32sub i.2 (imgPar x 12)) fy
  let xx := f32mul px px
  let yy := f32mul py py
  let r2 := f32add xx yy
  let r4 := f32mul r2 r2
  let r6 := f32mul r4 r2
  let dd := f32add (f32add (f32add (f32int 1) (f32mul (imgPar x 16) r2)) (f32mul (imgPar x 20) r4)) (f32mul (imgPar x 24) r6)
  let two := f32int 2
  let p1 := imgPar x 28
  let p2 := imgPar x 32
  let xd := f32add (f32add (f32mul px dd) (f32mul (f32mul (f32mul two p1) px) py)) (f32mul p2 (f32add r2 (f32mul two xx)))
  let yd := f32add (f32add (f32mul py dd) (f32mul p1 (f32add r2 (f32mul two yy)))) (f32mul (f32mul (f32mul two p2) px) py)
  (f32add (f32mul fx xd) (imgPar x 8), f32add (f32mul fy yd) (imgPar x 12))

/-- The channel value of a source pixel as FP32, FILL outside the image (R296 step 4). -/
def imgPixel (x : ImgCmd) (src : List Byte) (i j : Int) (c : Nat) : Nat :=
  if 0 ≤ i ∧ i < (x.w : Int) ∧ 0 ≤ j ∧ j < (x.h : Int) then f32int (leAt src (j.toNat * imgPitch x + i.toNat * imgBpp x + c) 1)
  else imgPar x 36

/-- Output channel c of pixel (u, v) as BF16 (R296 steps 4 and 5). -/
def imgOut (x : ImgCmd) (mesh src : List Byte) (u v c : Nat) : Nat :=
  let p := sourcePoint x mesh u v
  let s := match f32floor p.1, f32floor p.2 with
    | some i, some j =>
      bilerp (imgPixel x src i j c) (imgPixel x src (i + 1) j c) (imgPixel x src i (j + 1) c) (imgPixel x src (i + 1) (j + 1) c)
        (f32sub p.1 (toF32 (FV.ofInt i))) (f32sub p.2 (toF32 (FV.ofInt j)))
    | _, _ => (Config.bilinear (imgPar x 36) (imgPar x 36) (imgPar x 36) (imgPar x 36) p.1 p.2).toNat
  bf16.encode .nearest (f32 (f32fma s (imgPar x (40 + 4 * c)) (imgPar x (52 + 4 * c))))

/-- The bytes of patch (px, py): row-major pixels with interleaved channels (R297). -/
def imgPatch (x : ImgCmd) (mesh src : List Byte) (px py : Nat) : List Byte :=
  let n := imgSide x
  ((List.range n).map (fun j => ((List.range n).map (fun i => ((List.range (imgChans x)).map (fun c =>
    leBytes 2 (imgOut x mesh src (px * n + i) (py * n + j) c))).flatten)).flatten)).flatten

/-- The command's own fields. -/
def imgCmd (l par : List Byte) : ImgCmd :=
  ⟨leAt l 32 8, leAt l 40 2, leAt l 42 2, leAt l 44 2, leAt l 46 2, leAt l 48 1, leAt l 24 8, par⟩

/-- One row of patches is written; the last one ends the command. -/
def imgRow (h q : Nat) (x : ImgCmd) (mesh src : List Byte) (row : Nat) (d : Dev) : Dev :=
  let n := imgSide x
  let wide := x.ow / n
  let size := n * n * imgChans x * 2
  let d := forN wide (fun px e => unitWrite (gOff x.dst + (row * wide + px) * size) (imgPatch x mesh src px row) [] e) d
  let d := modInq h q (fun y => { y with run := y.run.map (fun z => { z with next := z.next + 1 }) }) d
  if row + 1 < x.oh / n then d else inputEnd h q 1 0 d

/-- A turn of an IMAGE: one output patch row, unless bytes of the host are still missing or older requests wait. Its sources
are read at its first turn (log 70). -/
def image (h q : Nat) (host : HostBytes) (d : Dev) : Dev :=
  match inRun d h q 2 with
  | none => d
  | some (r, l) =>
    let par := inRead d h q host (leAt l 56 8) 128
    let x := imgCmd l par.2
    let meshN := 8 * imgNx x * imgNy x
    let srcN := (x.h - 1) * imgPitch x + x.w * imgBpp x
    let n := imgSide x
    let size := n * n * imgChans x * 2
    let mesh := if imgMesh x = 0 then (1, []) else inRead d h q host (imgMesh x) meshN
    let src := inRead d h q host x.src srcN
    let st := if imgBad d h q l then 2 else if par.1 ≠ 1 then par.1 else if imgParBad x then 2
      else inFirst [inFlagStatus d h q r.faddr, mesh.1, src.1, inWriteStatus d h q x.dst (size * ((x.ow / n) * (x.oh / n)))]
    if !inTurn d 6 h q 2 ∨ st = 0 then d
    else if st ≠ 1 then nextTurn (6 + h) q (inputEnd h q st 0 d)
    else if r.next = 0 then
      let read := 128 + srcN + (if imgMesh x = 0 then 0 else meshN)
      imgRow h q x mesh.2 src.2 0 (inSpend 6 h q read (inNote x.src srcN
        ((if imgMesh x = 0 then id else inNote (imgMesh x) meshN) (inNote (leAt l 56 8) 128 d))))
    else imgRow h q x mesh.2 src.2 r.next (nextTurn (6 + h) q d)

/-- IMAGE: R288, R295 to R297. -/
def execImage (h : Half) (q : Queue) (host : HostBytes) (s : State) : Out := runMain (image h.val q.val host) s

end Sys2Proof.Machine
end

