-- ==== Sys2Proof/Machine/Partition.lean ====
section
/-! DEFINITION. Partitions, life cycle, attestation and debug (spec/15_partitions_security.md, R321 to R337). -/

namespace Sys2Proof.Machine

/-- Offsets of registers of the partition page. -/
def piOff (o : Nat) : Nat := regOff 3 0 o

/-! ## Memories that are zeroed (R324, R357, R381) -/

/-- A program's banks are zero. -/
def zeroProg {n : Nat} (p : Prog n) : Prog n := { p with words := [], seen := [], waits := [] }

/-- Tile SRAM, hand instruction memory and program banks of a tile are zero (R357, R381). -/
def zeroTile (t : Nat) (d : Dev) : Dev :=
  memDo (.clear (sramAddr t 0) Config.window) (modTile t (fun x =>
    { x with
      me := { x.me with prog := zeroProg x.me.prog }
      sf := { x.sf with prog := zeroProg x.sf.prog }
      st := { x.st with prog := zeroProg x.st.prog }
      imem := [] }) d)

/-- The tiles of an eighth. -/
def eighthTiles (q : Nat) : List Nat := (List.range 18).map (fun i => 18 * q + i)

/-- Set n consecutive registers to 0. -/
def zeroRegs (off n : Nat) (d : Dev) : Dev := forN n (fun i e => ctlSetN (off + 4 * i) 0 e) d

/-- What the scrub writes as zeros in a tile (R324). -/
def scrubTile (t : Nat) (d : Dev) : Dev :=
  let d := modTile t (fun x => { x with slots := [], sf := { x.sf with data := [] } }) (zeroTile t d)
  let d := forN 64 (fun h e => modHand t h (fun x => { x with g := [], w := [] }) e) d
  zeroRegs (regOff 19 t 0x80) 16 (zeroRegs (regOff 16 t 0x100) 128 (zeroRegs (regOff 16 t 0x80) 16 d))

/-- The start and size of a GDDR7 device, and of an HBM stack, in local offsets (R190). -/
def hbmRange (d : Dev) (s : Nat) : Nat × Nat :=
  (Config.hbmBase + (List.range s).foldl (fun a i => a + stackSize d i) 0, stackSize d s)
def gddrRange (d : Dev) (g : Nat) : Nat × Nat :=
  (Config.gddrBase + (List.range g).foldl (fun a i => a + gddrSize d i) 0, gddrSize d g)

/-! ## Keys (R202, R330) -/

/-- A new epoch of a memory key: a number no key had before. -/
def freshEpoch (d : Dev) : Nat × Dev := (d.body.free + 1, modBody (fun b => { b with free := b.free + 1 }) d)

/-- The device secret as a number: the root from which the flash keys are derived. -/
def secretCode : Secret → Nat
  | .blank => 0
  | .fused => 1
  | .overwritten => 2

/-- The epoch of a flash key: equal for equal device secret, tag, eighths, shape and fused epoch, and for no others. -/
def flashEpoch (d : Dev) (shape lowest : Nat) : Nat :=
  1 + d.body.ktag.toNat + 2 ^ 64 * (shape + 4 * (lowest + 8 * (secretCode d.sec.secret + 3 * d.sec.epoch)))

/-- The identity key can be derived: its secret is in the fuses (R330). -/
def hasIdentity (d : Dev) : Bool := d.sec.secret == .fused

/-- Put the partition's keys in force, or none when encryption is off. -/
def newKeys (q shape : Nat) (enc : Bool) (d : Dev) : Dev :=
  let es := (List.range (shapeEighths shape)).map (fun i => q + i)
  let f := freshEpoch d
  es.foldl (fun a e => memDo (.current (8 + e) (if enc then flashEpoch d shape q else 0))
    (memDo (.current e (if enc then f.1 else 0)) a)) f.2

/-! ## Set-up (R323, R381) -/

/-- PI_DONE: a command ends with its code. -/
def piDone (code : Nat) (d : Dev) : Dev :=
  event 3 0 0 (modBody (fun b => { b with piCode := code, piBusy := false }) d)

/-- The eighths that a command names. -/
def cmdEighths (shape q : Nat) : List Nat := (List.range (shapeEighths shape)).map (fun i => q + i)

/-- The outcome code of a SETUP (Table PI-3), in its order. -/
def setupCode (d : Dev) (q shape : Nat) : Nat :=
  if !shapeFits shape q then 1
  else if (cmdEighths shape q).any (fun e => let x := getEighth d e; x.used || x.scrubbing || x.scrub) then 2
  else if d.sec.lc = .scrapped then 6
  else 0

/-- A self-test holds resources of an eighth (R379, R381). -/
def eighthTested (d : Dev) (q : Nat) : Bool :=
  d.body.bt.acts.any (fun a =>
    (a.kind == 2 && a.unit == q) || (a.kind == 3 && a.unit / 3 == q) || (a.kind == 6 && a.unit / 2 == q)
      || (a.kind == 8 && (List.range 18).any (fun i => tget (if 18 * q + i < 72 then 18 * q + i else 18 * q + i + 8)
        d.body.board.tileMap (18 * q + i) == a.unit)))

/-- A SETUP takes effect: membership, keys, seed 0, the hands' mode, powered tiles, and no service token left (R377). A domain
that still gates or drains is powered on as soon as it is off (R357). -/
def setupDo (q shape : Nat) (enc : Bool) (d : Dev) : Dev :=
  let d := newKeys q shape enc d
  let d := (cmdEighths shape q).foldl (fun a e =>
    let off := (getEighth a e).domain == .off
    let a := modEighth e (fun x =>
      { x with used := true, shape := shape, lowest := q, enc := enc, msw := decide (2 ≤ shape)
               domain := if x.domain = .gating then .gating else .on, onWaits := decide (x.domain = .gating) }) a
    let a := ctlSetN (regOff 12 (e / 4) (0x90 + 4 * (e % 4))) 0 a
    let pd := regOff 9 0 0x60
    let a := if bitAt (ctlNat a pd) e then ctlSetN pd (ctlNat a pd - 2 ^ e) a else a
    if off then (eighthTiles e).foldl (fun b t => zeroTile t b) a else a) d
  piDone 0 (ctlSetN (regOff 10 0 0x48) 0 d)

/-- A SETUP: refused, waiting for a self-test, or done. -/
def setup (q shape : Nat) (enc : Bool) (d : Dev) : Dev :=
  let c := setupCode d q shape
  if c ≠ 0 then piDone c d
  else if (cmdEighths shape q).any (eighthTested d) then
    modBody (fun b => { b with setupWait := some ⟨q, shape, enc⟩, piBusy := true }) d
  else setupDo q shape enc d

/-- A SETUP that waited goes on once the tokens are released (R381). -/
def setupGoes (d : Dev) : Dev :=
  match d.body.setupWait with
  | some w =>
    if (cmdEighths w.shape w.q).any (eighthTested d) then d
    else setupDo w.q w.shape w.enc (modBody (fun b => { b with setupWait := none }) d)
  | none => d

/-! ## Teardown (R324) -/

/-- A hand of a partition is neither IDLE, HALTED nor FAULTED. -/
def handsRun (d : Dev) (q : Nat) : Bool :=
  d.body.hands.any (fun p => tilePart d (p.1 / 64) == some q && !resting p.2)

/-- The outcome code of a TEARDOWN (Table PI-3). -/
def teardownCode (d : Dev) (q : Nat) : Nat :=
  if !isPart d q then 3 else if (getJob d q).loaded then 4 else if handsRun d q then 5 else 0

/-- A TEARDOWN is refused, or accepted: SCRUB is set, the command runs. -/
def teardown (q : Nat) (erase : Bool) (d : Dev) : Dev :=
  let c := teardownCode d q
  if c ≠ 0 then piDone c d
  else
    (partEighths d q).foldl (fun a e => modEighth e (fun x => { x with scrub := true, erase := erase, tearAt := d.time.trick }) a)
      (modBody (fun b => { b with piBusy := true }) d)

/-- A write of `PI_CMD` (R323, R337): action 0 does nothing, 3 is reserved. -/
def piCmd (r : Req) (v : Nat) (d : Dev) : Dev :=
  let o := piOff 0x44
  let act := bits v 6 5
  mgmtOnly r (pageBase 3 0) o (fun d =>
    if d.power.phase ≠ 5 ∨ (act = 1 ∧ d.body.bt.needRst) then refuse r (pageBase 3 0) o cState true d
    else if d.body.piBusy then refuse r (pageBase 3 0) o cBusy true d
    else if act = 0 then d
    else if act = 3 then piDone 1 d
    else if act = 1 then setup (v % 8) (bits v 4 3) (bitAt v 7) d
    else if !shapeFits (bits v 4 3) (v % 8) then piDone 1 d
    else teardown (v % 8) (bitAt v 8) d) d

/-- SETUP: R323. -/
def execSetup (r : Req) (q : Eighth) (shape : Fin 4) (enc : Bool) (s : State) : Out :=
  let v := q.val + 8 * shape.val + 32 + 128 * b2n enc
  run (access r (piOff 0x44) 4 true v (piCmd r v)) s

/-- TEARDOWN: R323, R324. -/
def execTeardown (r : Req) (q : Eighth) (erase : Bool) (s : State) : Out :=
  let v := q.val + 64 + 256 * b2n erase
  run (access r (piOff 0x44) 4 true v (piCmd r v)) s

/-- A partition's mover queue of a half is disabled, its command in progress ending with HOST_STALL. -/
def mvTeardown (h q : Nat) (d : Dev) : Dev :=
  let d := moverFinish h q (some 4) d
  let r := mvRing h q
  ctlSetN r.cfg (ctlNat d r.cfg / 2 * 2) (ctlSetN r.tail 0 (ctlSetN r.head 0 d))

/-- A partition's flash queue of a half is disabled; a WRITE in progress stops after its last durable unit (R211). -/
def flTeardown (h q : Nat) (d : Dev) : Dev :=
  let r := flRing h q
  ctlSetN r.cfg (ctlNat d r.cfg / 2 * 2) (ctlSetN r.tail 0 (ctlSetN r.head 0 (setFlash h q none d)))

/-- A partition's input queue of a half is disabled, its command in progress ending ABANDONED (R298). -/
def inTeardown (h q : Nat) (d : Dev) : Dev :=
  let x := getInq d h q
  let d := match x.run with
    | some y => inputComplete h q (if y.done then d else inputEnd h q 6 0 d)
    | none => d
  let o := inOff h q 8
  modInq h q (fun y => { y with en := false, db := 0, dict := if y.dict = 1 then 0 else y.dict })
    (ctlSetN o (ctlNat d o / 2 * 2) (ctlSetN (inOff h q 0x10) 0 d))

/-- The queues of a partition: one of each kind in each half that it spans. -/
def partQueues (d : Dev) (q : Nat) : List (Nat × Nat) :=
  (partEighths d q).filterMap (fun e => if queueEighth d q (e / 4) = e then some (e / 4, e % 4) else none)

/-- The gate closes at play 0 of the trick after the TEARDOWN, and the queues are disabled (Table PI-4). -/
def partGate (q : Nat) (d : Dev) : Dev :=
  let x := getEighth d q
  if !isPart d q ∨ !x.scrub ∨ x.gate ∨ d.time.trick < x.tearAt + 1 then d
  else
    let d := (partQueues d q).foldl (fun a p => inTeardown p.1 p.2 (flTeardown p.1 p.2 (mvTeardown p.1 p.2 a))) d
    let d := hlTeardown q d
    (partEighths d q).foldl (fun a e => modEighth e (fun y => { y with gate := true }) a) d

/-- PARTITION_GATE_CLOSE: R324. -/
def execPartitionGateClose (q : Eighth) (s : State) : Out := run (partGate q.val) s

/-- The words of an eighth's grant entries. -/
def zeroGrants (q : Nat) (d : Dev) : Dev := zeroRegs (grantOff q 0 0) 128 d

/-- Port-plan entries that name an eighth become IDLE. -/
def idlePlan (q : Nat) (d : Dev) : Dev :=
  forN 384 (fun i e =>
    let o := regOff 7 0 (0x400 + 4 * i)
    let w := ctlNat e o
    if w % 4 = 1 ∧ bits w 4 2 = q then ctlSetN o 0 e else e) d

/-- The memory of an eighth reads as zeros under no key; its tiles, dictionary region, kitty share (its positions, Table
PI-2), grants and plan are cleared. -/
def scrubEighth (q : Nat) (d : Dev) : Dev :=
  let h := hbmRange d q
  let d := memDoAll ([MemOp.clear h.1 h.2, .current q 0, .baseline q 0, .current (8 + q) 0]
    ++ (List.range 3).map (fun i => let g := gddrRange d (3 * q + i); MemOp.clear g.1 g.2)) d
  let d := (eighthTiles q).foldl (fun a t => scrubTile t a) d
  let d := modBody (fun b =>
    { b with dict := dropRange b.dict (2 ^ 23 * (q / 4) + 2 ^ 21 * (q % 4)) (2 ^ 21), positions := dropRange b.positions (8 * q) 8 }) d
  idlePlan q (zeroGrants q d)

/-- The scrub starts three tricks after the TEARDOWN, with the memory key destroyed; memory reads as scrubbed from here
on, since nothing but the scrub reaches it. -/
def scrubStart (q : Nat) (d : Dev) : Dev :=
  let x := getEighth d q
  if !isPart d q ∨ !x.gate ∨ x.scrubbing ∨ d.time.trick < x.tearAt + 3 then d
  else
    let es := partEighths d q
    let d := es.foldl (fun a e => scrubEighth e a) d
    es.foldl (fun a e => modEighth e (fun y => { y with scrubbing := true }) a) d

/-- SCRUB_START: R324. -/
def execScrubStart (q : Eighth) (s : State) : Out := run (scrubStart q.val) s

/-- Every zone of an eighth's flash channels is reset (R324, R209). -/
def eraseFlash (q : Nat) (d : Dev) : Dev :=
  forN (pairSize d q / Config.zoneSize) (fun i e => setZone (2048 * q + i) Zone.z e)
    (memDo (.clear (Config.flashBase + (List.range q).foldl (fun a k => a + pairSize d k) 0) (pairSize d q)) d)

/-- The tricks that a scrub takes: 49,152 for HBM, 43,690 for GDDR7 alone, none without either. -/
def scrubTricks (d : Dev) (q : Nat) : Nat :=
  let es := partEighths d q
  if es.any (fun e => stackSize d e != 0) then 49152
  else if es.any (fun e => (List.range 3).any (fun i => gddrSize d (3 * e + i) != 0)) then 43690
  else 0

/-- The scrub ends: flash is erased if asked, the eighths are free, PI_DONE. -/
def scrubEnd (q : Nat) (d : Dev) : Dev :=
  let x := getEighth d q
  if !isPart d q ∨ !x.scrubbing ∨ d.time.trick < x.tearAt + 3 + scrubTricks d q then d
  else
    let es := partEighths d q
    let d := if x.erase then es.foldl (fun a e => eraseFlash e a) d else d
    piDone 0 (es.foldl (fun a e => modEighth e (fun y =>
      { EighthSt.z with domain := y.domain, offAt := y.offAt, onWaits := y.onWaits }) a) d)

/-- SCRUB_END: R324. -/
def execScrubEnd (q : Eighth) (s : State) : Out := run (scrubEnd q.val) s

/-! ## Life cycle (R331) -/

/-- `PI_DBGLOG.UNLOCKS` gains one, up to 65,535. -/
def countUnlock (d : Dev) : Dev :=
  let v := ctlNat d (piOff 0x4C)
  if 65535 ≤ v / 65536 then d else ctlSetN (piOff 0x4C) (v + 65536) d
/-- `PI_DBGLOG.FORCED` gains one, up to 65,535. -/
def countForced (d : Dev) : Dev :=
  let v := ctlNat d (piOff 0x4C)
  if 65535 ≤ v % 65536 then d else ctlSetN (piOff 0x4C) (v + 1) d

/-- No partition is set up. -/
def noParts (d : Dev) : Bool := (List.range 8).all (fun q => !(getEighth d q).used)

/-- Table PI-7 has a transition, and who authorises it. -/
def lcEdge (a b : LcState) : Bool :=
  match a, b with
  | .blank, .provisioned => true
  | .provisioned, .production => true
  | .production, .return_ => true
  | .return_, .provisioned => true
  | .scrapped, _ => false
  | _, .scrapped => true
  | _, _ => false
def lcSigned (a b : LcState) (s : Signer) : Bool :=
  match b with
  | .scrapped => s == .owner || (s == .vendor && a != .production)
  | .return_ => s == .owner
  | _ => s == .vendor

/-- A transition request over a secured session: it takes effect at the next reset, one at a time (log 80); a request that
fails verification is counted. A transition to PRODUCTION names the owner's key. -/
def lcRequest (into : LcState) (s : Signer) (owner : BitVec 384) (d : Dev) : Dev :=
  let a := d.sec.lc
  if !d.sec.session ∨ d.sec.next.isSome ∨ !lcEdge a into then d
  else if !lcSigned a into s then countUnlock d
  else if !noParts d ∨ (a = .return_ ∧ into = .provisioned ∧ 4 ≤ d.sec.owners.length) then d
  else { d with sec := { d.sec with next := some into, named := owner } }

/-- LC_TRANSITION_REQUEST: R331. -/
def execLcTransitionRequest (into : LcState) (x : LcSigned) (s : State) : Out :=
  runSec (lcRequest into x.signer x.owner) s

/-- What the fuses and the certificate hold after a transition (Table PI-7): the device secret and the certificate, an
owner's digest in the next slot, the epoch, the last slot retired, or the secret overwritten. -/
def lcEffect (a b : LcState) (x : SecSt) : SecSt :=
  match a, b with
  | .blank, .provisioned => { x with secret := .fused, cert := true }
  | .provisioned, .production => { x with owners := x.owners ++ [(x.named, false)] }
  | .production, .return_ => { x with epoch := x.epoch + 1 }
  | .return_, .provisioned => { x with owners := x.owners.map (fun p => (p.1, true)) }
  | _, .scrapped => { x with secret := .overwritten }
  | _, _ => x

/-! ## Attestation (R332) -/

/-- `PI_LC` and `PI_PART[q]` as they read (R337). -/
def LcState.code : LcState → Nat
  | .blank => 0 | .provisioned => 1 | .production => 2 | .return_ => 3 | .scrapped => 4
def piLcWord (d : Dev) : Nat := LcState.code d.sec.lc + 8 * b2n (debugOpen d.sec)
def piPartWord (d : Dev) (q : Nat) : Nat :=
  let x := getEighth d q
  b2n x.used + 2 * x.shape + 8 * x.lowest + 64 * b2n x.enc + 128 * b2n x.scrub
    + 256 * b2n (x.used && (getJob d x.lowest).loaded)

/-- What a measurement is taken over when it is requested; none for an index without one (Table PI-8). -/
def measured (d : Dev) (i : Nat) : Option (List Nat) :=
  if i = 4 then some [LcState.code d.sec.lc, b2n (debugOpen d.sec), d.sec.epoch]
  else if i = 5 then some ((List.range 8).map (piPartWord d)
    ++ ((List.range 8).map (fun q => (List.range 128).map (fun w => ctlNat d (grantOff q 0 w)))).flatten
    ++ (List.range 384).map (fun k => ctlNat d (regOff 7 0 (0x400 + 4 * k))))
  else if 16 ≤ i ∧ i < 24 ∧ isPart d (i - 16) then
    let x := getEighth d (i - 16)
    some [x.shape, b2n x.enc, if (getJob d (i - 16)).loaded then (getJob d (i - 16)).deal.check else 0]
  else none

/-- The answer to a request for a measurement: one of the three that the last reset took, one taken now, or 0 for an eighth
that is no partition's lowest. -/
def measurement (d : Dev) (i : Nat) : Option Dword :=
  if 1 ≤ i ∧ i ≤ 3 then some ((d.sec.taken[i - 1]?).getD 0)
  else match measured d i with
    | some l => some (Config.digest i l)
    | none => if 16 ≤ i ∧ i < 24 then some 0 else none

/-- An SPDM request is answered over the host function (R332): a measurement, the certificate chain where there is one, a
secured session, or IDE keys in it. SCRAPPED attests its state only. -/
def spdm (x : SpdmReq) (d : Dev) : Dev :=
  let gone := d.sec.lc = .scrapped
  if !hostUp d then d
  else match x with
  | .measurement i =>
    if gone ∧ i.val ≠ 4 then reply .unsupported d
    else match measurement d i.val with
      | some v => reply (.value v) d
      | none => reply .unsupported d
  | .certificate =>
    if gone ∨ !d.sec.cert ∨ !hasIdentity d then reply .unsupported d else reply (.value (Config.digest 256 [])) d
  | .keyExchange => if gone then reply .unsupported d else { d with sec := { d.sec with session := true } }
  | .endSession => { d with sec := { d.sec with session := false } }
  | .ideKeys => if gone ∨ !d.sec.session then reply .unsupported d else { d with sec := { d.sec with ide := true } }

/-- SPDM_REQUEST: R301, R332. -/
def execSpdmRequest (x : SpdmReq) (s : State) : Out := runSec (spdm x) s

/-! ## Debug (R333, R335) -/

/-- An unlock request: it opens debug until the next reset, or is counted as failed. -/
def unlock (s : Signer) (d : Dev) : Dev :=
  let ok := (d.sec.lc = .provisioned ∧ s = .vendor) ∨ (d.sec.lc = .production ∧ s = .owner ∧ noParts d)
  let d := countUnlock d
  if ok then { d with sec := { d.sec with unlocked := true } } else d

/-- DEBUG_UNLOCK: R333. -/
def execDebugUnlock (by_ : Signer) (s : State) : Out := runSec (unlock by_) s

/-- The port halts a core, a hand or a tile's paths. -/
def debugHalt (x : DebugTarget) (d : Dev) : Dev :=
  if !debugOpen d.sec then d
  else match x with
    | .core c => modBody (fun b => { b with coreHalt := setAdd b.coreHalt c.val }) d
    | .hand t h =>
      if d.power.mainOn then modHand t.val h.val (fun y => if y.state = .debug then y else { y with state := .debug, before := y.state }) d
      else d
    | .tile t => if d.power.mainOn then modBody (fun b => { b with tileHalt := setAdd b.tileHalt t.val }) d else d

/-- DEBUG_HALT: R335, R336. -/
def execDebugHalt (x : DebugTarget) (s : State) : Out := run (debugHalt x) s

/-- The port resumes it: a hand in the state it left. -/
def debugResume (x : DebugTarget) (d : Dev) : Dev :=
  if !debugOpen d.sec then d
  else match x with
    | .core c => modBody (fun b => { b with coreHalt := setDel b.coreHalt c.val }) d
    | .hand t h =>
      ownLand t.val h.val (modHand t.val h.val (fun y => if y.state = .debug then { y with state := y.before, before := .idle } else y) d)
    | .tile t => modBody (fun b => { b with tileHalt := setDel b.tileHalt t.val }) d

/-- DEBUG_RESUME: R335, R336. -/
def execDebugResume (x : DebugTarget) (s : State) : Out := run (debugResume x) s

end Sys2Proof.Machine
end

