-- ==== Sys2Proof/Machine/Links.lean ====
section
/-! DEFINITION. Links and the router (spec/10_links.md, R213 to R239): training, width changes, slots, packets, the open
channel, the skip link, powering a port down, and errors. -/

namespace Sys2Proof.Machine

/-- The key of link l of port p (R213). -/
def lkKey (p l : Nat) : Nat := 4 * p + l
/-- The offset of a register of a port's link page. -/
def lkOff (p o : Nat) : Nat := regOff 11 p o
/-- State codes of `LK_LSTAT`. -/
def lkDown : Nat := 0
def lkTraining : Nat := 1
def lkUp : Nat := 2
def lkChanging : Nat := 3
def lkMiswired : Nat := 4
def lkOffState : Nat := 5

/-! ## Training (R216, R217, R230) -/

/-- The lowest n set bits of a mask of 8. -/
def lowLanes (n mask : Nat) : Nat :=
  (((List.range 8).filter (fun i => bitAt mask i)).take n).foldl (fun a i => a + 2 ^ i) 0

/-- The n lanes of a mask with the fewest corrected symbols, of two with as many the lower (R236). -/
def bestLanes (n mask : Nat) (corr : Tbl Nat) : Nat :=
  let better (i j : Nat) : Bool := decide (tget 0 corr j < tget 0 corr i) || (tget 0 corr j == tget 0 corr i && decide (j < i))
  ((List.range 8).filter (fun i => bitAt mask i
    && decide (((List.range 8).filter (fun j => bitAt mask j && better i j)).length < n))).foldl (fun a i => a + 2 ^ i) 0

/-- Send a control word on a link: those of this trick and the last are kept (Table LK-2). -/
def sendWord (p l : Nat) (w : CtlWord) (d : Dev) : Dev :=
  let t := d.time.trick
  modLink (lkKey p l) (fun y => { y with words := y.words.filter (fun x => decide (t ≤ x.1 + 1)) ++ [(t, w)] }) d

/-- Lanes of a width code: 1 width 8, 2 width 6, 3 width 4. -/
def widthLanes (w : Nat) : Nat := if w = 1 then 8 else if w = 2 then 6 else 4

/-- The candidates of R217 as (generation, width code), in order. -/
def lkCandidates : List (Nat × Nat) := [(2, 1), (2, 2), (2, 3), (1, 1), (1, 2), (1, 3)]

/-- The generation and width that training selects: allowed at both ends, no wider than a retraining asked, supplied
by the lanes that pass. -/
def lkSelect (maxGen : Nat) (x : LinkSt) (i : TrainIn) : Option (Nat × Nat) :=
  lkCandidates.find? (fun c =>
    decide (c.1 ≤ maxGen) && decide (c.1 ≤ i.peerMaxGen.val) && decide (x.maxWidth ≤ c.2)
      && decide (widthLanes c.2 ≤ popcountN 8 (if c.1 = 2 then i.pass2.toNat else i.pass1.toNat)))

/-- The identity exchange finds a mistake (R216). -/
def miswired (d : Dev) (p l : Nat) (i : TrainIn) : Bool :=
  let cfg := ctlNat d (regOff 7 0 0x40)
  i.peerPort.val != p ^^^ 1 || i.peerLink.val != l || i.peerX.val != bits cfg 3 1 || i.peerY.val != bits cfg 6 4
    || i.peerZ.val != bits cfg 9 7 || i.peerJokers != jokers d || some i.peerDev.val != neighbour d p l
    || (jokers d && decide (4 ≤ p) && decide (min 2 i.peerProto.val ≤ 1))

/-- A port is off or on its way there. -/
def portOff (d : Dev) (p : Nat) : Bool := (getPort d p).state == 4

/-- The lanes of a link that no repair excludes (R384). -/
def laneKeep (d : Dev) (p l : Nat) : Byte := ~~~ BitVec.ofNat 8 (tget 0 d.body.board.laneOut (lkKey p l))

/-- What training found, without the lanes that a repair excludes (R217, R384). -/
def trainLanes (d : Dev) (p l : Nat) (i : TrainIn) : TrainIn :=
  { i with pass2 := i.pass2 &&& laneKeep d p l, pass1 := i.pass1 &&& laneKeep d p l }

/-- A Z link that trains puts the seat table, as it is written, in force (R233; log 108). -/
def takeSeats (p : Nat) (d : Dev) : Dev :=
  if p < 4 then d
  else modBody (fun b => { b with seats := (List.range 17).foldl (fun a k => tset 0 a k (ctlNat d (regOff 7 0 (0x80 + 4 * k)))) [] }) d

/-- A link that trains comes up, or comes up MISWIRED; one towards a FAILED device stays DOWN, and so do those
of a device that is FAILED or parked itself (R230, R279). With no candidate it goes on training. -/
def linkTrain (p l : Nat) (i : TrainIn) (d : Dev) : Dev :=
  let x := getLink d (lkKey p l)
  if x.state ≠ lkTraining ∨ portOff d p then d
  else if (neighbour d p l).isNone ∨ (devNumber d).isNone then modLink (lkKey p l) (fun y => { y with state := lkDown }) d
  else match lkSelect (bits (ctlNat d (lkOff p 0x40)) 2 1) x i with
    | none => d
    | some (g, w) =>
      modLink (lkKey p l) (fun y =>
        { y with
          state := if miswired d p l i then lkMiswired else lkUp
          gen := g - 1, width := w, lanes := lowLanes (widthLanes w) (if g = 2 then i.pass2.toNat else i.pass1.toNat)
          proto := min 2 i.peerProto.val, peerPort := i.peerPort.val, peerLink := i.peerLink.val
          serial := i.peerSerial, asked := none, agreed := none, maxWidth := 1, peerGate := false
          laneCorr := [], degrade := false }) d

/-- LINK_TRAIN: R216, R217, R230, R233. -/
def execLinkTrain (p : Port) (l : Link) (i : TrainIn) (s : State) : Out :=
  runMain (fun d => linkTrain p.val l.val (trainLanes d p.val l.val i)
    (if (getLink d (lkKey p.val l.val)).state = lkTraining ∧ !portOff d p.val then takeSeats p.val d else d)) s

/-- A link that is still training is DOWN and raises LK_DOWN. -/
def trainTimeout (p l : Nat) (d : Dev) : Dev :=
  if (getLink d (lkKey p l)).state = lkTraining then
    event 11 p (4 + l) (modLink (lkKey p l) (fun y => { y with state := lkDown, maxWidth := 1 }) d)
  else d

/-- LINK_TRAIN_TIMEOUT: R217. -/
def execLinkTrainTimeout (p : Port) (l : Link) (s : State) : Out := runMain (trainTimeout p.val l.val) s

/-- A DOWN link trains again. -/
def trainRetry (p l : Nat) (d : Dev) : Dev :=
  if (getLink d (lkKey p l)).state = lkDown ∧ !portOff d p then
    modLink (lkKey p l) (fun y => { y with state := lkTraining }) d
  else d

/-- LINK_TRAIN_RETRY: R217. -/
def execLinkTrainRetry (p : Port) (l : Link) (s : State) : Out := runMain (trainRetry p.val l.val) s

/-! ## Width changes and retraining (R218, R219) -/

/-- The operation of two colliding requests: a RETRAIN if either is one, the smaller width (R219). -/
def mergeReq (a b : Bool × Nat) : Bool × Nat := (a.1 || b.1, max a.2 b.2)

/-- A REQUEST of the peer arrives: it is answered with ACK, or merged with a request of our own that is unanswered, and
then neither end sends one (R219). -/
def peerRequest (p l : Nat) (retrain : Bool) (w : Nat) (d : Dev) : Dev :=
  if (getLink d (lkKey p l)).state ≠ lkUp ∨ w = 0 then d
  else match (getLink d (lkKey p l)).asked with
    | some a => modLink (lkKey p l) (fun y => { y with agreed := some (mergeReq a (retrain, w)), asked := none }) d
    | none => sendWord p l .ack (modLink (lkKey p l) (fun y => { y with agreed := some (retrain, w) }) d)

/-- WIDTH: R218, R219. -/
def execWidth (p : Port) (l : Link) (w : Fin 4) (s : State) : Out := runMain (peerRequest p.val l.val false w.val) s

/-- RETRAIN: R218, R219. -/
def execRetrain (p : Port) (l : Link) (w : Fin 4) (s : State) : Out := runMain (peerRequest p.val l.val true w.val) s

/-- The peer acknowledges our request. -/
def peerAck (p l : Nat) (d : Dev) : Dev :=
  modLink (lkKey p l) (fun y => match y.asked with
    | some a => { y with agreed := some a, asked := none }
    | none => y) d

/-- ACK: R218. -/
def execAck (p : Port) (l : Link) (s : State) : Out := runMain (peerAck p.val l.val) s

/-- The width that a re-check of the lanes leaves: the widest, no wider than asked, that the lanes which pass supply. -/
def widthOf (w pass : Nat) : Option Nat :=
  [1, 2, 3].find? (fun c => decide (w ≤ c) && decide (widthLanes c ≤ popcountN 8 pass))

/-- The lanes of a link at a new width: the lowest that pass (R217); when this end asked because of its errors, those in use
with the fewest corrected symbols (R236). -/
def lanesAt (x : LinkSt) (n pass : Nat) : Nat :=
  let used := (BitVec.ofNat 8 pass &&& BitVec.ofNat 8 x.lanes).toNat
  if x.degrade ∧ n ≤ popcountN 8 used then bestLanes n used x.laneCorr else lowLanes n pass

/-- Both ends switch at the trick boundary after the ACK: a WIDTH change re-checks the lanes and stops the link for 2,048
tricks, a RETRAIN repeats training. `pass` are the lanes that pass at both ends; where they supply no width, the link is
DOWN and raises LK_DOWN (log 110). -/
def linkSwitch (p l pass : Nat) (d : Dev) : Dev :=
  let x := getLink d (lkKey p l)
  match x.agreed with
  | none => d
  | some (re, w) =>
    if d.time.phase ≠ 0 ∨ x.state ≠ lkUp then d
    else if re then modLink (lkKey p l) (fun y =>
      { y with state := lkTraining, maxWidth := w, agreed := none, downAt := d.time.trick }) d
    else match widthOf w pass with
      | some c => modLink (lkKey p l) (fun y =>
          { y with state := lkChanging, width := c, lanes := lanesAt y (widthLanes c) pass, changeAt := d.time.trick
                   agreed := none, degrade := false }) d
      | none => event 11 p (4 + l) (modLink (lkKey p l) (fun y =>
          { y with state := lkDown, agreed := none, degrade := false, downAt := d.time.trick }) d)

/-- LINK_SWITCH: R218, R236, R384. -/
def execLinkSwitch (p : Port) (x : LaneCheck) (s : State) : Out :=
  runMain (fun d => linkSwitch p.val x.link.val (x.pass &&& laneKeep d p.val x.link.val).toNat d) s

/-- A width change ends after 2,048 tricks. -/
def widthChangeEnd (p l : Nat) (d : Dev) : Dev :=
  let x := getLink d (lkKey p l)
  if x.state = lkChanging ∧ x.changeAt + 2048 ≤ d.time.trick then
    modLink (lkKey p l) (fun y => { y with state := lkUp }) d
  else d

/-- WIDTH_CHANGE_END: R218. -/
def execWidthChangeEnd (p : Port) (l : Link) (s : State) : Out := runMain (widthChangeEnd p.val l.val) s

/-! ## Control words and errors (R215, R227, R234 to R237) -/

/-- Credits of the open channel come back, 64 flits at most. -/
def execCredit (p : Port) (n : Nat) (s : State) : Out :=
  runMain (modPort p.val (fun y => { y with credits := min 64 (y.credits + n) })) s

/-- The peer names the first flit of a codeword that it lost: of the flits kept, the three that the codeword touches, 2.5 of
them long, wait to be sent again (R214, R235; log 111). -/
def replayFlits (p l first : Nat) (d : Dev) : Dev :=
  modLink (lkKey p l) (fun y =>
    { y with again := y.again ++ y.wire.filter (fun f => decide (first ≤ f.num) && decide (f.num < first + 3) && !y.again.contains f) }) d

/-- REPLAY: R235. -/
def execReplay (p : Port) (l : Link) (first : Fin 400) (s : State) : Out := runMain (replayFlits p.val l.val first.val) s

/-- GATE_CLOSED: the peer has closed its inbound gate (R234). -/
def execGateClosed (p : Port) (l : Link) (s : State) : Out :=
  runMain (modLink (lkKey p.val l.val) (fun y => { y with peerGate := true })) s

/-- An uncorrectable codeword is counted, also in the running window of 1,024 tricks (R236); its flits, of the streams
named, are lost and awaited, and REPLAY names the first (R235). -/
def codewordBad (p l first : Nat) (owners : List Nat) (d : Dev) : Dev :=
  let w := d.time.trick / 1024
  if (getLink d (lkKey p l)).state ≠ lkUp then d
  else ctlAdd (lkOff p (0x8C + 0x20 * l)) 1 (sendWord p l (.replay first)
    (modLink (lkKey p l) (fun y =>
      { y with unc := if y.window = w then y.unc + 1 else 1, window := w
               lost := owners.foldl (fun a o => tset 0 a o (tget 0 a o + 1)) y.lost }) d))

/-- CODEWORD_UNCORRECTABLE: R235, R236. -/
def execCodewordUncorrectable (p : Port) (x : LostFlits) (s : State) : Out :=
  runMain (codewordBad p.val x.link.val x.first.val x.owners) s

/-- More than 16 uncorrectable codewords in the window: LK_DEGRADED, and a request for the next narrower width, or at
width 4 for a retraining (R236; at width 8, log 29). -/
def degraded (p l : Nat) (d : Dev) : Dev :=
  let x := getLink d (lkKey p l)
  let w := d.time.trick / 1024
  if x.window = w ∧ 16 < x.unc ∧ x.raised ≠ w + 1 ∧ x.state = lkUp then
    let r := if x.width = 3 then (true, 1) else (false, x.width + 1)
    event 11 p l (sendWord p l (.request r.1 r.2)
      (modLink (lkKey p l) (fun y => { y with raised := w + 1, asked := some r, degrade := !r.1 }) d))
  else d

/-- LK_DEGRADED: R236. -/
def execLkDegraded (p : Port) (l : Link) (s : State) : Out := runMain (degraded p.val l.val) s

/-- A link loses its signal: it is DOWN and raises LK_DOWN (R236, R237). -/
def signalLost (p l : Nat) (d : Dev) : Dev :=
  let x := getLink d (lkKey p l)
  if x.state = lkUp ∨ x.state = lkChanging then
    event 11 p (4 + l) (modLink (lkKey p l) (fun y => { y with state := lkDown, asked := none, agreed := none, downAt := d.time.trick }) d)
  else d

/-- LINK_SIGNAL_LOST: R237. -/
def execLinkSignalLost (p : Port) (l : Link) (s : State) : Out := runMain (signalLost p.val l.val) s

/-! ## The port plan and the deal's owners (R222, R223) -/

/-- A plan entry (Table LK-3). -/
def planOff (p l play : Nat) : Nat := regOff 7 0 (0x400 + 4 * (64 * p + 16 * l + play))
def planWord (d : Dev) (p l play : Nat) : Nat := ctlNat d (planOff p l play)
def planKind (w : Nat) : Nat := bits w 1 0
def planEighth (w : Nat) : Nat := bits w 4 2
def planInport (w : Nat) : Nat := bits w 7 5
def planInlink (w : Nat) : Nat := bits w 9 8

/-- The deal trick that a cursor value runs (R31). -/
def dealTrick (dl : Deal) (c : Nat) : Nat := if c < dl.prologue then c else dl.prologue + (c - dl.prologue) % dl.period

/-- The suit record of a number in the loaded deal of a partition. -/
def suitOf (d : Dev) (q s : Nat) : Option Suit :=
  if (getJob d q).loaded then (getJob d q).deal.suits.find? (fun x => x.num == s) else none

/-- The run-time state of a suit of a partition. -/
def getSuit (d : Dev) (q s : Nat) : SuitRun := tget SuitRun.z d.body.suits (4096 * q + s)
def modSuit (q s : Nat) (f : SuitRun → SuitRun) (d : Dev) : Dev :=
  modBody (fun b => { b with suits := tset SuitRun.z b.suits (4096 * q + s) (f (tget SuitRun.z b.suits (4096 * q + s))) }) d

/-- The operation in progress on a position. -/
def getPos (d : Dev) (a : Nat) : Option CoRun := tget none d.body.positions a
def setPos (a : Nat) (x : Option CoRun) (d : Dev) : Dev :=
  modBody (fun b => { b with positions := tset none b.positions a x }) d

/-- A suit's window is open (R243). -/
def windowOpen (d : Dev) (q : Nat) (x : Suit) : Bool :=
  let j := getJob d q
  let c := dealTrick j.deal j.cursor
  j.started && decide (x.wfirst ≤ c) && decide (c ≤ x.wlast)

/-- A suit holds its position: its window is open, or an operation or a start of it keeps the position (R243, R247). -/
def suitHolds (d : Dev) (q : Nat) (x : Suit) : Bool :=
  windowOpen d q x || !(getSuit d q x.num).waiting.isEmpty
    || (match getPos d (8 * q + x.act) with | some r => r.q == q && r.suit == x.num | none => false)

/-- The stream that owns a slot (R222, R223); a suit that holds no position leaves its slots idle (R259). -/
def slotStream (d : Dev) (p l play : Nat) : Option Stream :=
  let w := planWord d p l play
  if planKind w = 2 then some (.transit p l play)
  else if planKind w = 1 then
    let q := planEighth w
    let j := getJob d q
    if !j.loaded then none
    else (j.deal.links.find? (fun e => e.port == p && e.link == l && e.play == play)).bind (fun e =>
      if e.kind = 0 then some (.cls e.owner e.cls)
      else if e.kind = 1 then
        (match suitOf d q e.owner with
          | some x => if suitHolds d q x then some (.suit q e.owner) else none
          | none => none)
      else some (.response q))
  else none

/-- The flits per trick of a link at its generation and width (Table LK-1). -/
def trickFlits (x : LinkSt) : Nat :=
  let n := if x.width = 1 then 400 else if x.width = 2 then 300 else 200
  if x.gen = 1 then n else n / 2

/-- The first flit that begins in a play, and the flits of its slot: those that begin in it, less the last (R221). -/
def slotFirst (x : LinkSt) (play : Nat) : Nat := ceilDiv (play * trickFlits x) 16
def slotFlits (x : LinkSt) (play : Nat) : Nat := slotFirst x (play + 1) - slotFirst x play - 1

/-- The payload bytes of the slot of a play. -/
def slotBytes (x : LinkSt) (play : Nat) : Nat := 256 * slotFlits x play

/-- The bytes that a slot is planned to carry: at the rate that the deal of its owner assumes for the port (R223), or at the
link's own for a forwarded slot. -/
def planBytes (d : Dev) (p l play : Nat) : Nat :=
  let x := getLink d (lkKey p l)
  let w := planWord d p l play
  let b := getAt 0 (getJob d (planEighth w)).deal.ports p
  if planKind w = 1 ∧ b % 4 ≠ 0 then slotBytes { x with gen := bits b 2 2, width := b % 4 } play else slotBytes x play

/-- Bytes of a packet that have not left. -/
def TxPkt.rest (x : TxPkt) : Nat := pktBytes x.pkt - x.sent

/-- The packets of a stream join a link's own until it holds the bytes that its slot is planned for: what joined leaves by
that link alone (R220; log 30). -/
def joinLink (st : Stream) (p l : Nat) : Nat → List TxPkt → List TxPkt
  | _, [] => []
  | need, x :: r =>
    if x.stream = st ∧ x.port = p then
      match x.link with
      | some k => x :: joinLink st p l (if k = l then need - x.rest else need) r
      | none => if need = 0 then x :: joinLink st p l 0 r else { x with link := some l } :: joinLink st p l (need - x.rest) r
    else x :: joinLink st p l need r

/-- The bytes of some packets that a room takes, in order, and the packets after it: one that does not fit whole leaves in
part and goes on in the next slot (R221). -/
def takeBytes (mine : TxPkt → Bool) : Nat → List TxPkt → List FlitPart × List TxPkt
  | _, [] => ([], [])
  | room, x :: r =>
    if mine x then
      if room = 0 then ([], x :: r)
      else if x.rest ≤ room then let y := takeBytes mine (room - x.rest) r; (⟨x, x.sent, x.rest⟩ :: y.1, y.2)
      else ([⟨x, x.sent, room⟩], { x with sent := x.sent + room } :: r)
    else let y := takeBytes mine room r; (y.1, x :: y.2)

/-- Up to n flits of some packets, numbered from `num` on, and the packets after them. -/
def takeFlits (mine : TxPkt → Bool) (st : Stream) (t : Nat) : Nat → Nat → List TxPkt → List Flit × List TxPkt
  | 0, _, l => ([], l)
  | n + 1, num, l =>
    let r := takeBytes mine 256 l
    if r.1.isEmpty then ([], l) else let y := takeFlits mine st t n (num + 1) r.2; (⟨num, t, st, r.1⟩ :: y.1, y.2)

/-- The packets whose last byte is among some pieces. -/
def ended (l : List FlitPart) : List TxPkt :=
  (l.filter (fun c => c.start + c.len == pktBytes c.x.pkt)).map (fun c => { c.x with sent := 0 })

/-- Free a tag, and the request that holds it. -/
def freeTag (tag : Nat) (d : Dev) : Option Who × Dev :=
  (tget none d.body.tags tag, modBody (fun b => { b with tags := tset none b.tags tag none }) d)

/-- A completion for a request of this device (R226, R234): the tag is freed and its requester answered; a DOMAIN_OFF is
counted. -/
def completeTag (tag st : Nat) (bs : List Byte) (bad : List Nat) (d : Dev) : Dev :=
  let d := if st = 3 then ctlAdd (regOff 7 0 0x54) 1 d else d
  let r := freeTag tag d
  match r.1 with
  | some w => deliver w st 0 bs bad r.2
  | none => r.2

/-- A member list's entry: device number and lowest eighth (R241). -/
def memDev (w : Nat) : Nat := bits w 14 0
def memEighth (w : Nat) : Nat := bits w 17 15

/-- The partitions of this device that are members of a suit and load it, among those that have the given member at a
rank (R241, R252: a packet names no partition; log 33). -/
def suitParts (d : Dev) (s rank member : Nat) : List Nat :=
  (List.range 8).filter (fun q => isPart d q && match suitOf d q s with
    | some x => getAt 0 x.members rank % 2 ^ 15 == member
    | none => false)

/-- A COLLECTIVE packet of this device met an error completion: its operation ends (R250, Table CO-6). `arg` names the
suit and this member's rank. -/
def coRefused (arg st : Nat) (d : Dev) : Dev :=
  let d := if st = 3 then ctlAdd (regOff 7 0 0x54) 1 d else d
  let s := bits arg 11 0
  let rank := bits arg 61 48
  (suitParts d s rank (myDev d)).foldl (fun e q =>
    match suitOf e q s with
    | none => e
    | some x =>
      if memEighth (getAt 0 x.members rank) ≠ q then e
      else match getPos e (8 * q + x.act) with
        | some r => if r.suit = s ∧ !r.done then
            setPos (8 * q + x.act) (some { r with status := if st = 3 then 5 else 4, done := true }) e else e
        | none => e) d

/-- A completion or an error of a request of this device: tag 0 is that of COLLECTIVE packets (R252). -/
def takeCompletion (tag st arg : Nat) (d : Dev) : Dev :=
  if tag = 0 then (if st = 0 then d else coRefused arg st d) else completeTag tag st [] [] d

/-- Answer a packet with a COMPLETION of an error status: to this device's own requester directly, to another device in
the open channel (R226, R234, R237). ARG is that of the packet (log 21). -/
def answerError (k : Packet) (st : Nat) (d : Dev) : Dev :=
  if k.src.toNat % 2 ^ 15 = myDev d then takeCompletion k.tag.toNat st k.arg.toNat d
  else sendPkt .opened (k.src.toNat % 2 ^ 15) .completion
    { kind := 0, status := BitVec.ofNat 8 st, src := BitVec.ofNat 16 (myDev d), tag := k.tag
      dst := BitVec.ofNat 64 (k.src.toNat % 2 ^ 15 * 2 ^ 49), arg := k.arg, poison := 0, rsv := 0, payload := [] } d

/-- A packet bound through a link whose far gate is closed is answered DOMAIN_OFF and counted (R234). -/
def answerOff (p l : Nat) (x : TxPkt) (d : Dev) : Dev := answerError x.pkt 3 (ctlAdd (lkOff p (0x94 + 0x20 * l)) 1 d)

/-- Put flits on a link; the last trick of them is kept for replay (R235). -/
def putWire (p l : Nat) (xs : List Flit) (d : Dev) : Dev :=
  let t := d.time.trick
  let n := match xs with | x :: _ => x.num | [] => 0
  modLink (lkKey p l) (fun y =>
    { y with wire := y.wire.filter (fun x => x.trick == t || (x.trick + 1 == t && decide (n ≤ x.num))) ++ xs }) d

/-- Lost flits of a stream go again, before new ones, in n flits of its slot from number `num` on; each counts in
`LK_REPLAY`. How many went (R235). -/
def resend (p l : Nat) (st : Stream) (n num : Nat) (d : Dev) : Nat × Dev :=
  let x := getLink d (lkKey p l)
  let go := (x.again.filter (fun f => f.stream == st)).take n
  let sent := (List.range go.length).zipWith (fun i f => { f with num := num + i, trick := d.time.trick }) go
  if go.isEmpty then (0, d)
  else (go.length, ctlAdd (lkOff p (0x90 + 0x20 * l)) go.length (putWire p l sent
    (modLink (lkKey p l) (fun y => { y with again := y.again.filter (fun f => !go.contains f) }) d)))

/-- The room of a skip link's queue: one trick of its slots (R232). -/
def skipRoom (x : LinkSt) : Nat := 256 * (trickFlits x - 16)
def queued (l : List TxPkt) : Nat := l.foldl (fun n x => n + x.rest) 0

/-- Take packets of a stream that a link has joined: the bytes that a room takes leave `tx`. -/
def takeTx (mine : TxPkt → Bool) (room : Nat) (d : Dev) : List FlitPart × Dev :=
  let r := takeBytes mine room d.body.tx
  (r.1, modBody (fun b => { b with tx := r.2 }) d)

/-- The flits of a stream that a slot holds leave on its link: those to be sent again, then new ones. -/
def slotFlitsOut (p l play : Nat) (st : Stream) (d : Dev) : Dev :=
  let x := getLink d (lkKey p l)
  let a := resend p l st (slotFlits x play) (slotFirst x play) d
  let r := takeFlits (fun y => y.stream == st && y.port == p && y.link == some l) st d.time.trick (slotFlits x play - a.1)
    (slotFirst x play + a.1) a.2.body.tx
  putWire p l r.1 (modBody (fun b => { b with tx := r.2 }) a.2)

/-- The slot of a play leaves (R220 to R223, R228, R231, R232, R234, R237): packets of its owner join its link; what fits goes
onto it, or into the skip link's queue when the port is bypassed; towards a closed gate each is answered. A link that
carries nothing keeps what joined it. -/
def slotSend (p l play : Nat) (d : Dev) : Dev :=
  let x := getLink d (lkKey p l)
  if d.time.phase / 48 ≠ play ∨ x.sentAt = some (playNow d) ∨ portOff d p then d
  else match slotStream d p l play with
    | none => d
    | some st =>
      let mine (y : TxPkt) : Bool := y.stream == st && y.port == p && y.link == some l
      let up := x.state == lkUp
      let plan := planBytes d p l play
      let d := modBody (fun b => { b with tx := joinLink st p l (if up then max plan (slotBytes x play) else plan) b.tx }) d
      let d := modLink (lkKey p l) (fun y => { y with sentAt := some (playNow d) }) d
      if bypassed d p && decide (l < 3) then
        let r := takeTx mine (min plan (skipRoom (getLink d (lkKey p 3)) - queued (getPort d p).skipq)) d
        modPort p (fun y => { y with skipq := y.skipq ++ ended r.1 }) r.2
      else if !up then d
      else if x.peerGate then
        (d.body.tx.filter mine).foldl (fun a k => answerOff p l k a)
          (modBody (fun b => { b with tx := b.tx.filter (fun y => !mine y) }) d)
      else slotFlitsOut p l play st d

/-- LINK_SLOT_SEND: R220 to R224, R228, R231, R234, R237. -/
def execLinkSlotSend (p : Port) (l : Link) (play : Play) (s : State) : Out :=
  runMain (slotSend p.val l.val play.val) s

/-- One slot of the skip link carries what waits for a bypassed port (R232); towards a closed gate it is answered (R234). -/
def skipForward (p : Nat) (d : Dev) : Dev :=
  let x := getLink d (lkKey p 3)
  let play := d.time.phase / 48
  if !bypassed d p ∨ x.state ≠ lkUp ∨ x.sentAt = some (playNow d) ∨ planKind (planWord d p 3 play) ≠ 3 then d
  else
    let d := modLink (lkKey p 3) (fun y => { y with sentAt := some (playNow d) }) d
    if x.peerGate then
      (getPort d p).skipq.foldl (fun a k => answerOff p 3 k a) (modPort p (fun y => { y with skipq := [] }) d)
    else
      let a := resend p 3 (.skip p) (slotFlits x play) (slotFirst x play) d
      let r := takeFlits (fun _ => true) (.skip p) d.time.trick (slotFlits x play - a.1) (slotFirst x play + a.1)
        (getPort a.2 p).skipq
      putWire p 3 r.1 (modPort p (fun y => { y with skipq := r.2 }) a.2)

/-- SKIP_LINK_FORWARD: R228, R232, R234. -/
def execSkipLinkForward (p : Port) (s : State) : Out := runMain (skipForward p.val) s

/-! ## The open channel (R221, R227, R228, R235, R237) -/

/-- The links by which a port's packets for its neighbour leave: not the skip link of a Z port, unless the port is bypassed,
and then that alone (R228, R229, R232). -/
def portLinks (d : Dev) (p : Nat) : List Nat :=
  if 4 ≤ p ∧ jokers d then (if bypassed d p then [3] else [0, 1, 2]) else [0, 1, 2, 3]

/-- The first link of a port that is up for its neighbour. -/
def upLink (d : Dev) (p : Nat) : Option Nat := (portLinks d p).find? (fun l => (getLink d (lkKey p l)).state == lkUp)

/-- A port's packets wait for a DOWN link: none of its links is UP or changes its width. -/
def portDown (d : Dev) (p : Nat) : Bool :=
  (portLinks d p).all (fun l => let s := (getLink d (lkKey p l)).state; s != lkUp && s != lkChanging)

/-- Credits of the open channel go back to the sender of what came in by a port (R227). -/
def returnCredit (p n : Nat) (d : Dev) : Dev :=
  match (List.range 4).find? (fun l => (getLink d (lkKey p l)).state == lkUp) with
  | some l => if p < 6 then sendWord p l (.credit n) d else d
  | none => d

/-- The link of a port whose open flit in this play is free: the one that the packet is on, if any. -/
def openLink (d : Dev) (p : Nat) (on : Option Nat) : Option Nat :=
  (portLinks d p).find? (fun l => (on == none || on == some l) && (getLink d (lkKey p l)).state == lkUp
    && (getLink d (lkKey p l)).openAt != some (playNow d))

/-- The link of a port with a lost flit of the open channel to send again and its open flit of this play free. -/
def openAgain (d : Dev) (p : Nat) : Option Nat :=
  (portLinks d p).find? (fun l => (openLink d p (some l)).isSome && (getLink d (lkKey p l)).again.any (fun f => f.stream == .opened))

/-- The number of the last flit that begins in the present play: the open channel's (R221). -/
def openNum (d : Dev) (p l : Nat) : Nat := slotFirst (getLink d (lkKey p l)) (d.time.phase / 48 + 1) - 1

/-- A link's open flit of the present play is used. -/
def openUsed (p l : Nat) (d : Dev) : Dev := modLink (lkKey p l) (fun y => { y with openAt := some (playNow d) }) d

/-- The last flit of this play on one link carries the open channel (R221): a lost flit again, or the next 256 bytes of the
oldest packet, for one credit. A packet bound through a closed gate is answered; when a packet has left, the credits of its
place here go back. -/
def openForward (p : Nat) (d : Dev) : Dev :=
  match openAgain d p with
  | some l => openUsed p l (resend p l .opened 1 (openNum d p l) d).2
  | none =>
    match (getPort d p).openq with
    | [] => d
    | x :: r =>
      match openLink d p x.link with
      | none => d
      | some l =>
        if (getLink d (lkKey p l)).peerGate then
          answerOff p l x (returnCredit x.inport (pktFlits x.pkt) (modPort p (fun y => { y with openq := r }) d))
        else if (getPort d p).credits = 0 then d
        else
          let f := takeBytes (fun _ => true) 256 [x]
          let d := openUsed p l (putWire p l [⟨openNum d p l, d.time.trick, .opened, f.1⟩] d)
          let d := modPort p (fun y => { y with openq := f.2.map (fun z => { z with link := some l }) ++ r, credits := y.credits - 1 }) d
          if f.2.isEmpty then returnCredit x.inport (pktFlits x.pkt) d else d

/-- OPEN_PACKET_FORWARD: R221, R227, R235. -/
def execOpenPacketForward (p : Port) (s : State) : Out := runMain (openForward p.val) s

/-- The trick since which a port's oldest packet waits for a DOWN link: that in which it was queued, or the last of the port's
links stopped being UP. -/
def waitsSince (d : Dev) (p : Nat) (x : TxPkt) : Nat :=
  (portLinks d p).foldl (fun a l => max a (getLink d (lkKey p l)).downAt) x.since

/-- The oldest open packet of a port is answered DOMAIN_OFF when it has waited 4,096 tricks for a DOWN link. -/
def openTimeout (p : Nat) (d : Dev) : Dev :=
  match (getPort d p).openq with
  | [] => d
  | x :: r =>
    if portDown d p ∧ waitsSince d p x + 4096 ≤ d.time.trick then
      answerError x.pkt 3 (returnCredit x.inport (pktFlits x.pkt) (modPort p (fun y => { y with openq := r }) d))
    else d

/-- OPEN_PACKET_TIMEOUT: R237. -/
def execOpenPacketTimeout (p : Port) (s : State) : Out := runMain (openTimeout p.val) s

/-! ## Packets that arrive (R225, R226, R325) -/

/-- FWD of a port (R224). -/
def portFwd (d : Dev) (p : Nat) : Nat := bits (ctlNat d (lkOff p 0x40)) 14 11

/-- The TRANSIT entry that forwards an incoming slot: port, link and play of the outgoing one (R224; FWD of the port by
which the slot came, log 31). -/
def transitOf (d : Dev) (port link play : Nat) : Option (Nat × Nat × Nat) :=
  let out := (play + portFwd d port) % 16
  (List.range 24).findSome? fun i =>
    let w := planWord d (i / 4) (i % 4) out
    if planKind w = 2 ∧ planInport w = port ∧ planInlink w = link then some (i / 4, i % 4, out) else none

/-- A packet for another device goes on: through a TRANSIT entry when it came in a slot, by X, then Y, then Z when it
came openly; a scheduled one that no entry names is answered UNROUTED. -/
def passOn (at_ : Arrival) (kind : PKind) (k : Packet) (d : Dev) : Dev :=
  let dev := gDev k.dst.toNat
  match at_.slot with
  | none => sendFrom at_.port.val .opened dev kind k d
  | some play =>
    match transitOf d at_.port.val at_.link.val play.val with
    | some (p, l, o) =>
      modBody (fun b => { b with tx := b.tx ++ [{ stream := .transit p l o, port := p, link := some l, dev := dev
                                                  since := d.time.trick, cyc := now d, inport := at_.port.val, sent := 0
                                                  kind := kind, pkt := k }] }) d
    | none => answerError k 4 (ctlAdd (regOff 7 0 0x50) 1 d)

/-- The next number for a request served for another device. -/
def newServe (d : Dev) : Nat :=
  ((List.range (d.body.serves.length + 1)).find? (fun i => (tget none d.body.serves i).isNone)).getD 0

/-- An access of another device to control space is refused and logged (R396). -/
def logRemote (off : Nat) (write : Bool) (d : Dev) : Dev :=
  match ctlAt off with
  | .page p _ => logError p.base cRemote 9 off write d
  | .array a => logError (arrayPage a) cRemote 9 off write d
  | .unmapped => d

/-- Serve a request of another device: checked, then issued to its home; its answer follows (R226, R325). -/
def serveReq (at_ : Arrival) (kind : PKind) (k : Packet) (op : MemReq) (d : Dev) : Dev :=
  let a := gOff k.dst.toNat
  let src := k.src.toNat % 2 ^ 15
  let v := checkLocal d none src a (max 1 op.len) op.perm
  let part := (homeOf d a).eighth.bind (ownerOf d)
  let x : Serve := { dev := src, tag := k.tag.toNat, kind := kind, part := if at_.slot.isSome then part else none
                     addr := a, len := (match op with | .read n => n | .atomic _ n _ _ => n | _ => 0)
                     left := if op.len = 0 then 0 else partsOf d a op, data := (match op with | .write bs _ => [(0, bs)] | _ => []), bad := []
                     status := v.code }
  let d := match homeOf d a with
    | .ctl o => logRemote o (kind != .read) d
    | _ => d
  let id := newServe d
  if v ≠ .ok then answer x d
  else if op.len = 0 then flushServes (openServe id x d)
  else issueLocal false a op (.remote id) 0 (openServe id x d)

/-- A READ whose ARG is no length of 0 to 256 is answered as an address error (log 32). -/
def takeRead (at_ : Arrival) (k : Packet) (d : Dev) : Dev :=
  if 256 < k.arg.toNat then answerError k 1 d else serveReq at_ .read k (.read k.arg.toNat) d

/-- An ATOMIC's operation, size and compare value (log 21). -/
def takeAtomic (at_ : Arrival) (k : Packet) (d : Dev) : Dev :=
  let size := leAt k.payload 1 1
  match atomOf (leAt k.payload 0 1) with
  | some o =>
    if (size = 4 ∨ size = 8) ∧ k.dst.toNat % size = 0 then
      serveReq at_ .atomic k (.atomic o size k.arg (BitVec.ofNat 64 (leAt k.payload 8 8))) d
    else answerError k 1 d
  | none => answerError k 1 d

/-! ## Powering a port down, and port requests (R218, R234, R239) -/

/-- A plan entry of a port keeps it up: PARTITION for a partition with a deal loaded, or TRANSIT. -/
def portHeld (d : Dev) (p : Nat) : Bool :=
  (List.range 64).any (fun i =>
    let w := planWord d p (i / 16) (i % 16)
    planKind w == 2 || (planKind w == 1 && (getJob d (planEighth w)).loaded))

/-- `LK_PCTRL.OFF` written 1: refused, or the port starts to power down. -/
def portOffWrite (r : Req) (p : Nat) (d : Dev) : Dev :=
  if portHeld d p then refuse r (pageBase 11 p) (lkOff p 0x40) cState true d
  else if (getPort d p).state = 3 ∨ (getPort d p).state = 4 then d
  else
    let v := ctlNat d (lkOff p 0x40)
    modPort p (fun y => { y with state := 3, offTrick := d.time.trick, gate := false })
      (ctlSetN (lkOff p 0x40) (v / 2 * 2 + 1) d)

/-- A write of `LK_PCTRL` by a requester. -/
def pctrlWrite (r : Req) (p v : Nat) (eff : Dev → Dev) (d : Dev) : Dev :=
  access r (lkOff p 0x40) 4 true v (mgmtOnly r (pageBase 11 p) (lkOff p 0x40) eff) d

/-- LK_PCTRL_OFF: R234. -/
def execLkPctrlOff (r : Req) (p : Port) (s : State) : Out :=
  runMain (pctrlWrite r p.val (ctlNat s.dev (lkOff p.val 0x40) / 2 * 2 + 1) (portOffWrite r p.val)) s

/-- The inbound gate closes at play 0 of the trick after the write, and GATE_CLOSED goes out on every link. -/
def portGate (p : Nat) (d : Dev) : Dev :=
  let x := getPort d p
  if x.state = 3 ∧ !x.gate ∧ x.offTrick + 1 ≤ d.time.trick then
    forN 4 (fun l e => if (getLink e (lkKey p l)).state = lkUp then sendWord p l .gateClosed e else e)
      (modPort p (fun y => { y with gate := true }) d)
  else d

/-- PORT_GATE_CLOSE: R234, Table LK-6. -/
def execPortGateClose (p : Port) (s : State) : Out := runMain (portGate p.val) s

/-- The lanes go off three tricks after the write. -/
def portLanes (p : Nat) (d : Dev) : Dev :=
  let x := getPort d p
  if x.state = 3 ∧ x.gate ∧ x.offTrick + 3 ≤ d.time.trick then
    forN 4 (fun l e => modLink (lkKey p l) (fun y => { y with state := lkOffState, asked := none, agreed := none, downAt := d.time.trick }) e)
      (modPort p (fun y => { y with state := 4 }) d)
  else d

/-- PORT_LANES_OFF: R234, Table LK-6. -/
def execPortLanesOff (p : Port) (s : State) : Out := runMain (portLanes p.val) s

/-- `LK_PCTRL.OFF` written 0: the port retrains. -/
def portOnWrite (p : Nat) (d : Dev) : Dev :=
  if (getPort d p).state = 3 ∨ (getPort d p).state = 4 then
    let v := ctlNat d (lkOff p 0x40)
    forN 4 (fun l e => modLink (lkKey p l) (fun y => { y with state := lkTraining, maxWidth := 1 }) e)
      (modPort p (fun y => { y with state := 0, gate := false }) (ctlSetN (lkOff p 0x40) (v / 2 * 2) d))
  else d

/-- LK_PCTRL_ON: R234. -/
def execLkPctrlOn (r : Req) (p : Port) (s : State) : Out :=
  runMain (pctrlWrite r p.val (ctlNat s.dev (lkOff p.val 0x40) / 2 * 2) (portOnWrite p.val)) s

/-- Send a request of our own on a link that is up. -/
def ownRequest (p l : Nat) (retrain : Bool) (w : Nat) (d : Dev) : Dev :=
  if (getLink d (lkKey p l)).state = lkUp ∧ w ≠ 0 then
    sendWord p l (.request retrain w) (modLink (lkKey p l) (fun y => { y with asked := some (retrain, w) }) d)
  else d

/-- `LK_PCTRL.RETRAIN`: a request at width 8 on each link named. -/
def retrainLinks (p m : Nat) (d : Dev) : Dev := forN 4 (fun l e => if bitAt m l then ownRequest p l true 1 e else e) d

/-- LK_PCTRL_RETRAIN: R218, R239. -/
def execLkPctrlRetrain (r : Req) (p : Port) (links : BitVec 4) (s : State) : Out :=
  runMain (pctrlWrite r p.val (ctlNat s.dev (lkOff p.val 0x40) + 8 * links.toNat) (retrainLinks p.val links.toNat)) s

/-- LK_PCTRL_WIDTH: R218, R239. -/
def execLkPctrlWidth (r : Req) (p : Port) (l : Link) (w : Fin 4) (s : State) : Out :=
  runMain (pctrlWrite r p.val (ctlNat s.dev (lkOff p.val 0x40) + 128 * l.val + 512 * w.val)
    (ownRequest p.val l.val false w.val)) s

/-! ## Writes of the router page (R233) -/

/-- A plan value may stand or be written while deals run: IDLE, or PARTITION for a partition without a deal. -/
def planFree (d : Dev) (w : Nat) : Bool := planKind w == 0 || (planKind w == 1 && !(getJob d (planEighth w)).loaded)

/-- A router register write is admitted in the present state. -/
def routerMay (d : Dev) (off v : Nat) : Bool :=
  !anyDeal d || (decide (regOff 7 0 0x400 ≤ off) && planFree d (ctlNat d off) && planFree d v)

/-- Write `RT_CFG`, `RT_XY`, `RT_POS`, `RT_SEAT` or the plan: by the management complex, in the states of R233. A value that
names no extent or ring of R19 is taken as it is written: DESIGN CHOICE (log 108). -/
def routerWrite (r : Req) (off v mask : Nat) (d : Dev) : Dev :=
  if !isMgmt d r then refuse r (pageBase 7 0) off cRequester true d
  else if !routerMay d off v then refuse r (pageBase 7 0) off cState true d
  else ctlSetN off (v &&& mask) d

/-- The mask of a router register that software writes. -/
def routerMask (off : Nat) : Option Nat :=
  match ctlAt off with
  | .page p o => if p.kind = 7 then (match regAt 7 o with
      | some x => (match x.acc with | .rw m => some m | _ => none)
      | none => none) else none
  | _ => none

/-- PLAN_SEAT_WRITE: R222, R230, R233. -/
def execPlanSeatWrite (r : Req) (off : CtlOff) (v : Word) (s : State) : Out :=
  runMain (fun d => match routerMask off.toNat with
    | some m => access r off.toNat 4 true v.toNat (routerWrite r off.toNat v.toNat m) d
    | none => d) s

end Sys2Proof.Machine
end

