-- ==== Sys2Proof/Machine/SelfTest.lean ====
section
/-! DEFINITION. Self-test and repair (spec/18_self_test.md, R375 to R387). -/

namespace Sys2Proof.Machine

/-- The kinds of Table BT-1 and the number of units of each. -/
def btUnits (kind : Nat) : Nat :=
  match kind with
  | 1 => 1 | 2 => 8 | 3 => 24 | 4 => 6 | 5 => 1 | 6 => 16 | 7 => 1 | 8 => 160 | _ => 0

/-- The logical tile of a physical one, if it is mapped. -/
def logTile (d : Dev) (p : Nat) : Option Nat := (List.range 144).find? (fun t => physTile d t == p)

/-- The half that an activity's memory or tiles lie in. -/
def btHalf (kind unit : Nat) : Nat := if kind = 2 then unit / 4 else if kind = 3 then unit / 12 else if kind = 8 then unit / 80 else 2

/-- The token that an activity holds: its own resource, or for TILE the half's (R379). -/
def btToken (kind unit : Nat) : Nat × Nat := if kind = 8 then (8, unit / 80) else (kind, unit)

/-- The partition that owns the resource of an activity, if one does (R376, Table PI-2). -/
def btOwner (d : Dev) (kind unit : Nat) : Option Nat :=
  match kind with
  | 2 => ownerOf d unit
  | 3 => ownerOf d (unit / 3)
  | 6 => ownerOf d (unit / 2)
  | 8 => (logTile d unit).bind (tilePart d)
  | _ => none

/-- Two activities form a pair of Table BT-3. -/
def btConflict (a b : Nat × Nat) : Bool :=
  let one (x y : Nat × Nat) : Bool :=
    x.1 == 1 || x.1 == 7
      || (x.1 == 2 && y.1 == 2 && x.2 / 4 == y.2 / 4)
      || (x.1 == 3 && y.1 == 3 && x.2 / 3 == y.2 / 3)
      || ((x.1 == 2 || x.1 == 3) && y.1 == 8 && btHalf x.1 x.2 == btHalf y.1 y.2)
      || (x.1 == 6 && y.1 == 6 && x.2 / 2 == y.2 / 2)
      || (x.1 == 5 && y.1 == 6 && decide (y.2 < 8))
  one a b || one b a

/-- A port is off (R234). -/
def portIsOff (d : Dev) (p : Nat) : Bool := (getPort d p).state == 4

/-- DENIED (R376, R377, R381). -/
def btDenied (d : Dev) (kind : Nat) : Bool :=
  let lc := d.sec.lc
  let auth := bitAt (ctlNat d (regOff 10 0 0x48)) kind
  d.body.bt.needRst || ((lc == .provisioned || lc == .production) && !auth)
    || !(d.power.phase == 5 || (d.power.phase == 6 && (kind == 1 || kind == 7)))

/-- The code of a START (Table BT-2), its causes taken with BAD first and then in the table's order (log 41). -/
def btStartCode (d : Dev) (kind unit mode : Nat) : Nat :=
  if btUnits kind ≤ unit ∨ (kind = 4 ∧ mode = 3) ∨ (kind ≠ 4 ∧ mode ≠ 0) then 5
  else if btDenied d kind then 1
  else if (d.sec.lc = .production ∧ !noParts d) ∨ (btOwner d kind unit).isSome then 2
  else if 8 ≤ d.body.bt.acts.length ∨ d.body.bt.acts.any (fun a => btToken a.kind a.unit == btToken kind unit)
      ∨ (kind = 7 ∧ d.body.board.tap ≠ .idcode ∧ d.body.board.tap ≠ .bypass) then 3
  else if d.body.bt.acts.any (fun a => btConflict (a.kind, a.unit) (kind, unit)) then 4
  else if (kind = 4 ∧ !portIsOff d unit) ∨ (kind = 7 ∧ (List.range 6).any (fun p => !portIsOff d p)) then 6
  else 0

def modBt (f : BtSt → BtSt) (d : Dev) : Dev := modBody (fun b => { b with bt := f b.bt }) d

/-- The host-link block returns to its reset values; the function stays enabled as start-up left it (R367, R369). -/
def hlReset (d : Dev) : Dev :=
  let keep := d.body.hl.ready
  let d := modHl (fun y => { HlSt.z with ready := keep, winNext := y.winNext }) (biasClear d)
  modBody (fun b =>
    { b with
      ctl := b.ctl.filter (fun p => decide (p.1 < 0x2000) || decide (0x2400 ≤ p.1))
      pages := tset Page.z b.pages 8 Page.z }) d

/-- A new self-test nonce, and no service token left (R377). -/
def newNonce (d : Dev) : Dev :=
  let v := draw d
  ctlSetN (regOff 10 0 0x48) 0 (modBt (fun b => { b with nonce := BitVec.ofNat 32 v.1.toNat }) v.2)

/-- What a HOST reset does: the host-link block is reset, host-bound transfers are abandoned, jobs go on (R369); the
limiter's duty is 16 and the self-test nonce is new as after every reset (R353, R377), and no secured session survives. -/
def hostResets (d : Dev) : Dev :=
  let d := newNonce (modPower (fun p => { p with pduty := 16 }) (hlReset (abandonAll d)))
  { d with sec := { d.sec with session := false, ide := false } }

/-- A START of an activity. -/
def btStart (kind unit mode : Nat) (d : Dev) : Dev :=
  let c := btStartCode d kind unit mode
  let d := modBt (fun b => { b with code := c, acts := if c = 0 then b.acts ++ [⟨kind, unit, mode, false⟩] else b.acts }) d
  if c = 0 ∧ kind = 5 then (let p := d.body.hl.perst; modHl (fun y => { y with perst := p }) (hostResets d)) else d

/-- An ABORT of an activity: it ends at the next pattern boundary (R385). -/
def btAbort (kind unit : Nat) (d : Dev) : Dev :=
  if btUnits kind ≤ unit then modBt (fun b => { b with code := 5 }) d
  else if d.body.bt.acts.any (fun a => a.kind == kind && a.unit == unit) then
    modBt (fun b => { b with code := 0, acts := b.acts.map (fun a =>
      if a.kind = kind ∧ a.unit = unit then { a with aborting := true } else a) }) d
  else modBt (fun b => { b with code := 7 }) d

/-- A write of `BT_CMD` (R378, R387). -/
def btCmd (r : Req) (v : Nat) (d : Dev) : Dev :=
  mgmtOnly r (pageBase 10 0) (regOff 10 0 0x40) (fun d =>
    if bits v 15 14 = 1 then btStart (v % 16) (bits v 11 4) (bits v 13 12) d
    else if bits v 15 14 = 2 then btAbort (v % 16) (bits v 11 4) d
    else modBt (fun b => { b with code := 5 }) d) d

/-- BT_START: R376 to R381. -/
def execBtStart (r : Req) (kind : Fin 16) (unit : Byte) (mode : Fin 4) (s : State) : Out :=
  let v := kind.val + 16 * unit.toNat + 4096 * mode.val + 16384
  runAll (access r (regOff 10 0 0x40) 4 true v (btCmd r v)) s

/-- BT_ABORT: R378, R385. -/
def execBtAbort (r : Req) (kind : Fin 16) (unit : Byte) (s : State) : Out :=
  let v := kind.val + 16 * unit.toNat + 32768
  run (access r (regOff 10 0 0x40) 4 true v (btCmd r v)) s

/-- One record of the log (Table BT-4), counted; a proposed repair raises BT_REPAIR, a failed restore BT_RESTORE. -/
def btRecord (kind unit : Nat) (x : TestRec) (d : Dev) : Dev :=
  let n := d.body.bt.resCnt % 64
  let w0 := kind + 16 * unit + 2 ^ 12 * x.outcome.val + 2 ^ 15 * x.repair.val + 2 ^ 18 * x.channel.val + 2 ^ 23 * x.lane.toNat
  let w1 := x.errors.toNat + 2 ^ 16 * x.bit.val
  let put (i v : Nat) (b : BtSt) : BtSt := { b with res := tset 0 b.res (4 * n + i) (BitVec.ofNat 32 v) }
  let d := modBt (fun b =>
    { put 3 (x.address.toNat / 2 ^ 32) (put 2 (x.address.toNat % 2 ^ 32) (put 1 w1 (put 0 w0 b))) with
      resCnt := (b.resCnt + 1) % 2 ^ 32 }) d
  let d := if x.repair.val ≠ 0 then event 10 0 1 d else d
  if x.outcome.val = 4 then event 10 0 2 d else d

/-- The local offset of a channel address (R192): of HBM stack s channel c, or GDDR7 device g channel c. -/
def chanOffset (d : Dev) (kind unit c x : Nat) : Nat :=
  let mask := if kind = 2 then hbmMask d unit else 15
  let nc := popcountN 32 mask
  let base := if kind = 2 then (hbmRange d unit).1 else (gddrRange d unit).1
  let i := popcountN c mask
  let q := x / 256
  base + 256 * (q * nc + (i + nc * 32 - hash5 q (seedOf d (if kind = 2 then unit else unit / 3))) % nc) + x % 256

/-- A sector that a memory test could not write back is poisoned (R382). -/
def btLost (kind unit : Nat) (x : TestRec) (d : Dev) : Dev :=
  if (kind = 2 ∨ kind = 3) ∧ x.outcome.val = 4 then poisonWord (chanOffset d kind unit x.channel.val x.address.toNat / 8) d else d

/-- The window of the tile SRAM region that reaches a physical tile: its logical tile's, or for a spare one its place among
the sixteen, in order of physical tiles (R17; log 115). -/
def windowOf (d : Dev) (p : Nat) : Nat :=
  match logTile d p with
  | some t => t
  | none => 144 + ((List.range p).filter (fun x => (logTile d x).isNone)).length

/-- What a test leaves behind (R381). -/
def btLeaves (kind unit : Nat) (d : Dev) : Dev :=
  if kind = 7 then modBt (fun b => { b with needRst := true }) d
  else if kind = 8 then (match logTile d unit with
    | some t => zeroTile t d
    | none => memDo (.clear (sramAddr (windowOf d unit) 0) Config.window) d)
  else d

/-- An activity ends with its records: tokens are released, BT_DONE, and a SETUP that waited goes on. -/
def btEnd (kind unit : Nat) (recs : List TestRec) (d : Dev) : Dev :=
  let d := recs.foldl (fun a x => btLost kind unit x (btRecord kind unit x a)) d
  let d := btLeaves kind unit d
  let d := modBt (fun b => { b with acts := b.acts.filter (fun a => a.kind != kind || a.unit != unit) }) d
  setupGoes (event 10 0 0 d)

/-- The running activity of a kind and unit, and whether it aborts. -/
def btRunning (d : Dev) (kind unit : Nat) (aborting : Bool) : Bool :=
  d.body.bt.acts.any (fun a => a.kind == kind && a.unit == unit && a.aborting == aborting)

/-- TEST_COMPLETE: R381 to R384, R386. -/
def execTestComplete (kind : Fin 16) (unit : Byte) (recs : List TestRec) (s : State) : Out :=
  run (fun d => if btRunning d kind.val unit.toNat false ∧ recs ≠ [] then btEnd kind.val unit.toNat recs d else d) s

/-- The record of an abort. -/
def abortRec : TestRec := ⟨2, 0, 0, 0xFF, 0, 0, 0⟩

/-- ABORT_EFFECT: R385. -/
def execAbortEffect (kind : Fin 16) (unit : Byte) (s : State) : Out :=
  run (fun d => if btRunning d kind.val unit.toNat true then btEnd kind.val unit.toNat [abortRec] d else d) s

/-- A service token, sent in a secured session: its bitmap goes into `BT_AUTH` and the nonce changes, or its failure is
counted (R377). -/
def serviceToken (s : Signer) (serialOk : Bool) (nonce : Word) (kinds : Nat) (d : Dev) : Dev :=
  let ok := d.sec.session ∧ serialOk ∧ nonce = d.body.bt.nonce
    ∧ ((d.sec.lc = .provisioned ∧ s = .vendor) ∨ (d.sec.lc = .production ∧ s = .owner))
  if ok then
    let v := draw d
    modBt (fun b => { b with nonce := BitVec.ofNat 32 v.1.toNat }) (ctlSetN (regOff 10 0 0x48) (kinds &&& 0x1FE) v.2)
  else countUnlock d

/-- SERVICE_TOKEN: R377. -/
def execServiceToken (by_ : Signer) (serialOk : Bool) (nonce : Word) (kinds : BitVec 9) (s : State) : Out :=
  run (serviceToken by_ serialOk nonce kinds.toNat) s

end Sys2Proof.Machine
end

