-- ==== Sys2Proof/Machine/Collect.lean ====
section
/-! DEFINITION. Collective operations (spec/11_collectives.md, R240 to R265): start points, the start of an operation,
the exchange-first phase, sums and levels, the row operations, and completion. -/

namespace Sys2Proof.Machine

/-! ## Members and destinations (R241, R242, R251) -/

/-- The rank of a partition of this device in a suit. -/
def myRank (d : Dev) (q : Nat) (x : Suit) : Nat :=
  ((List.range x.members.length).find? (fun r =>
    memDev (getAt 0 x.members r) == myDev d && memEighth (getAt 0 x.members r) == q)).getD 0

/-- The ranks of a suit. -/
def ranksOf (x : Suit) : List Nat := List.range x.members.length

/-- The level-1 group of a rank (R242): members whose device numbers agree in bits [9:0], in list order. -/
def groupOf (x : Suit) (r : Nat) : List Nat :=
  (ranksOf x).filter (fun k => memDev (getAt 0 x.members k) % 1024 == memDev (getAt 0 x.members r) % 1024)

/-- The first rank of each level-1 group, which sends its group's level-2 data (R255 leaves the sender open; log 35). -/
def leadersOf (x : Suit) : List Nat := (ranksOf x).filter (fun r => (groupOf x r).head? == some r)

/-- The members of the largest level-1 group (R254). -/
def largestGroup (x : Suit) : Nat := (ranksOf x).foldl (fun a r => max a (groupOf x r).length) 0

/-- OP is a combining operation (R249), and its combine is SUM. -/
def isCombining (op : Nat) : Bool := op == 1 || op == 2 || op == 3
def coSum (c : CoDesc) : Bool := isCombining c.op && bits c.fmt 3 2 == 0

/-- G1 (R254). -/
def coG1 (x : Suit) (c : CoDesc) : Nat := guardOf (c.ncont * largestGroup x)

/-- The members to which a member sends its preamble and data, and those whose it needs (R251: results depend on them). -/
def coDests (x : Suit) (c : CoDesc) (me : Nat) : List Nat :=
  if c.op = 4 then (if me = c.root then ranksOf x else [])
  else if c.op = 6 then [c.root]
  else if c.op = 10 then [(me + 1) % x.members.length]
  else ranksOf x
def coSources (x : Suit) (c : CoDesc) (me : Nat) : List Nat :=
  if c.op = 4 then [c.root]
  else if c.op = 6 then (if me = c.root then ranksOf x else [])
  else if c.op = 10 then [(me + x.members.length - 1) % x.members.length]
  else ranksOf x

/-! ## Descriptors (R246, R248, R250) -/

/-- A descriptor's parameters (Table CO-4). -/
def coDescOf (l : List Byte) : CoDesc :=
  { op := leAt l 0 1, fmt := leAt l 3 1, len := leAt l 4 4, ncont := leAt l 8 2, root := leAt l 10 2
    rowbytes := leAt l 12 4, src := leAt l 16 8, dst := leAt l 24 8, auxa := leAt l 32 8, auxb := leAt l 40 8
    faddr := leAt l 48 8, ftag := leAt l 56 2 }

/-- The parameters of an empty operation before a peer's preamble gives them. -/
def coDescZ : CoDesc := ⟨0, 0, 0, 0, 0, 0, 0, 0, 0, 0, 0, 0⟩

/-- An access of a collective at a global address: status of Table CO-6, 0 where grants and, for host memory, the OUTBOUND
entries admit it (R129, R312; log 36). -/
def coMay (d : Dev) (q a n perm : Nat) : Nat :=
  if n = 0 then 0
  else
    let v := checkGlobal d q a n perm
    if v.2 = .domainOff then 5
    else if v.2 ≠ .ok then 4
    else match v.1, homeOf d (gOff a) with
      | true, .host h => if (hostRange d .other (some q) h n (if perm = permR then none else some 0)).1 = 0 then 0 else 4
      | _, _ => 0

/-- The first of several statuses that is not 0. -/
def firstBad (l : List Nat) : Nat := (l.find? (fun s => s != 0)).getD 0

/-! ## What an operation reads and writes (R196, R198, R201, R248; log 36) -/

/-- A global address of another device or of host memory. -/
def isFar (d : Dev) (a : Nat) : Bool := gDev a != myDev d || (match homeOf d (gOff a) with | .host _ => true | _ => false)

/-- A byte that another device or the host returned. -/
def farByte (f : FarIn) (a : Nat) : Option Byte := (f.bytes.find? (fun p => p.1 == a)).map (·.2)

/-- The bytes of a range, their number, and which of them, by index, are poisoned. -/
def coBytesAt (d : Dev) (f : FarIn) (a n : Nat) : List Byte :=
  if isFar d a then (List.range n).map (fun i => (farByte f (a + i)).getD 0) else readBytes d (gOff a) n
def coNat (d : Dev) (f : FarIn) (a n : Nat) : Nat := leNat (coBytesAt d f a n)
def coBadAt (d : Dev) (f : FarIn) (a n : Nat) : List Nat :=
  if isFar d a then (List.range n).filter (fun i => f.bad.contains (a + i)) else badBytes d (gOff a) n

/-- What an operation reads, as ranges, can be read: what lies far has come, and no older request to the rest is queued. -/
def coReady (d : Dev) (f : FarIn) (l : List (Nat × Nat)) : Bool :=
  l.all (fun p => if isFar d p.1 then (List.range p.2).all (fun i => f.status != 0 || (farByte f (p.1 + i)).isSome)
    else !unitWaits d (gOff p.1) p.2)

/-- The status that far reads of some ranges ended with. -/
def coFarStatus (d : Dev) (f : FarIn) (l : List (Nat × Nat)) : Nat :=
  if f.status.val = 0 ∨ !l.any (fun p => p.2 != 0 && isFar d p.1) then 0 else if f.status.val = 3 then 5 else 4

/-- The reads of some ranges of this device, as their channels count them. -/
def coNote (l : List (Nat × Nat)) (d : Dev) : Dev :=
  l.foldl (fun e p => if isFar e p.1 ∨ p.2 = 0 then e else (unitRead (gOff p.1) p.2 e).2.2) d

/-- Write bytes, some of which are poisoned, at a global address: here at once, far as requests whose completions the
operation on the position awaits. -/
def coPut (a : Nat) (addr : Nat) (bs : List Byte) (bad : List Nat) (d : Dev) : Dev :=
  if !isFar d addr then unitWrite (gOff addr) bs bad d
  else (splitReq 256 addr (.write bs bad)).foldl (fun e p =>
    match tget none e.body.positions a, p.2.2 with
    | some r, .write ps pb =>
      let e := modBody (fun b => { b with positions := tset none b.positions a (some { r with out := r.out + 1 }) }) e
      match gDev p.1 == myDev e, homeOf e (gOff p.1) with
      | true, .host h => hostPost (.coll a r.seq) (hostAdmits e .other (some r.q) (myDev e) h ps.length (some 0)).2 ps e
      | _, _ => sendMem .opened p.1 (.write ps pb) (.coll a r.seq) e
    | _, _ => e) d

/-- The u32 counts at AUXA that an operation reads (R253, R261): how many, and the counts. -/
def coCountsN (x : Suit) (c : CoDesc) : Nat :=
  if c.op = 6 then 1 else if c.op = 7 then x.members.length
  else if c.op = 8 ∨ c.op = 9 then x.members.length * x.epm else 0
def coCounts (d : Dev) (f : FarIn) (x : Suit) (c : CoDesc) : List Nat :=
  (List.range (coCountsN x c)).map (fun i => coNat d f (c.auxa + 4 * i) 4)

/-- The sum of the first n of some counts. -/
def sumTo (l : List Nat) (n : Nat) : Nat := (l.take n).foldl (· + ·) 0

/-- A suit owns a slot on a port (R259). -/
def ownsPort (d : Dev) (q s p : Nat) : Bool :=
  (getJob d q).deal.links.any (fun e => e.kind == 1 && e.owner == s && e.port == p)

/-- Every port that a suit's packets to some ranks leave by has a slot of the suit (Table CO-6). -/
def portsOwned (d : Dev) (q : Nat) (x : Suit) (ranks : List Nat) : Bool :=
  ranks.all (fun r =>
    let n := memDev (getAt 0 x.members r)
    n == myDev d || ownsPort d q x.num (nextPort d n))

/-- BAD_DESC from the descriptor alone (R248, R249, R254, R257, R261; log 34). -/
def coBadDesc (d : Dev) (q : Nat) (x : Suit) (l : List Byte) (c : CoDesc) : Bool :=
  let n := x.members.length
  let comb := isCombining c.op
  decide (10 < c.op) || bits c.fmt 1 0 == 3 || bits c.fmt 3 2 == 3 || bits c.fmt 7 4 != 0 || leAt l 58 6 != 0
    || (if comb then c.len % 32 != 0 || decide (2 ^ 29 < c.len) || c.ncont == 0 || decide (4096 < c.ncont) || c.rowbytes != 0
        else c.len == 0 || decide (2 ^ 24 < c.len) || c.ncont != 1 || c.rowbytes % 4 != 0 || decide (2 ^ 20 < c.rowbytes))
    || (c.op == 2 && c.len % (32 * n) != 0)
    || (if c.op = 3 ∨ c.op = 4 ∨ c.op = 6 then decide (n ≤ c.root) else c.root != 0)
    || c.src % 4 != 0 || c.dst % 4 != 0 || c.auxa % 4 != 0 || c.auxb % 4 != 0 || c.faddr % 8 != 0 || (comb && c.src % 8 != 0)
    || (coSum c && (x.kblk == 0 || decide (16 < coG1 x c)))
    || (comb && bits c.fmt 3 2 != 0 && bits c.fmt 1 0 == 2)
    || ((c.op == 8 || c.op == 9) && (x.cap == 0 || x.epm == 0))
    || !portsOwned d q x (coDests x c (myRank d q x))

/-- The address of a contribution of this member (R248). -/
def coContAddr (d : Dev) (f : FarIn) (c : CoDesc) (i : Nat) : Nat := coNat d f (c.src + 8 * i) 8

/-- The status of reading every contribution (Table CO-6): the list, then the addresses in it, which are multiples of 4. -/
def coReadStatus (d : Dev) (f : FarIn) (q : Nat) (c : CoDesc) : Nat :=
  let st := coMay d q c.src (8 * c.ncont) permR
  if st ≠ 0 then st
  else if (List.range c.ncont).any (fun i => coContAddr d f c i % 4 != 0) then 2
  else firstBad ((List.range c.ncont).map (fun i => coMay d q (coContAddr d f c i) (4 * c.len) permR))

/-- The lists that an operation reads at its start: contribution addresses, counts and the route table, the row map. -/
def coLists (x : Suit) (c : CoDesc) : List (Nat × Nat) :=
  if isCombining c.op then [(c.src, 8 * c.ncont)]
  else [(c.auxa, 4 * (coCountsN x c + (if c.op = 8 then c.len else 0)))]
    ++ (if c.op = 9 then [(c.auxb, 8 * x.epm * x.cap)] else [])

/-- A range of blocks of every contribution. -/
def coChunkReads (d : Dev) (f : FarIn) (c : CoDesc) (lo hi : Nat) : List (Nat × Nat) :=
  (List.range c.ncont).map (fun i => (coContAddr d f c i + 128 * lo, 128 * (hi - lo)))

/-- The status with which a descriptor ends its operation at its start, 0 for none. -/
def coStartStatus (d : Dev) (f : FarIn) (q : Nat) (x : Suit) (l : List Byte) (c : CoDesc) : Nat :=
  if coBadDesc d q x l c then 2
  else
    let flag := if c.faddr = 0 then 0 else flagStatus d 0 q c.faddr
    let st := firstBad ((coLists x c).map (fun p => coMay d q p.1 p.2 permR)
      ++ [if flag = 0 then 0 else if flag = 3 then 5 else 4, coFarStatus d f (coLists x c)])
    if st ≠ 0 then st
    else if isCombining c.op then coReadStatus d f q c
    else if (c.op = 8 ∨ c.op = 9) ∧ sumTo (coCounts d f x c) (coCountsN x c) ≠ c.len then 2
    else 0

/-! ## Packets (R251, R252) -/

/-- The preamble of an operation (R251). -/
def coPreamble (x : Suit) (started : Nat) (c : CoDesc) (empty : Bool) : List Byte :=
  leBytes 4 x.listsum ++ leBytes 4 started ++ leBytes 1 c.op ++ leBytes 1 c.fmt ++ leBytes 1 (b2n empty) ++ leBytes 1 0
    ++ leBytes 4 c.len ++ leBytes 2 c.ncont ++ leBytes 2 c.root ++ leBytes 4 c.rowbytes ++ leBytes 8 0

/-- EMPTY of a preamble, its fields other than EMPTY, and its STARTED. -/
def preEmpty (l : List Byte) : Bool := leAt l 10 1 != 0
def preRest (l : List Byte) : List Byte := l.take 10 ++ (l.take 32).drop 11
def preStarted (l : List Byte) : Nat := leAt l 4 4

/-- A preamble gives its operation's parameters: that of a member that is not empty, or that has learned them. -/
def preKnows (l : List Byte) : Bool := !preEmpty l || leAt l 8 1 != 0 || leAt l 12 4 != 0

/-- The parameters that a preamble gives an empty member. -/
def preDesc (l : List Byte) (c : CoDesc) : CoDesc :=
  { c with op := leAt l 8 1, fmt := leAt l 9 1, len := leAt l 12 4, ncont := leAt l 16 2, root := leAt l 18 2
           rowbytes := leAt l 20 4 }

/-- ARG of a COLLECTIVE packet (Table CO-7). -/
def coArg (s : Nat) (k : CoRx) : Nat := s + 4096 * k.phase + 2 ^ 16 * (k.block % 2 ^ 24) + 2 ^ 40 * k.bflags + 2 ^ 48 * k.rank

/-- What an operation has received from a rank in a phase, in order, and its bytes. -/
def coFrom (r : CoRun) (rank phase : Nat) : List CoRx := r.rx.filter (fun k => k.rank == rank && k.phase == phase)
def coBytes (r : CoRun) (rank phase : Nat) : List Byte := ((coFrom r rank phase).map (·.payload)).flatten

/-- A preamble of a rank is here; the rank is empty. -/
def coHeard (r : CoRun) (rank : Nat) : Bool := !(coFrom r rank 0).isEmpty
def coIsEmpty (r : CoRun) (rank : Nat) : Bool := preEmpty (coBytes r rank 0)

/-- An empty operation that no preamble has given its parameters yet. -/
def coUnlearned (r : CoRun) : Bool := r.empty && r.desc == coDescZ

/-- What an operation keeps of a packet: counts or exponents that follow a preamble in its packet are kept apart (R251). -/
def coSplit (k : CoRx) : List CoRx :=
  if k.phase ≠ 0 ∨ k.payload.length ≤ 32 then [k]
  else [{ k with payload := k.payload.take 32 },
    { k with phase := if isCombining (leAt k.payload 8 1) then 2 else 1, payload := k.payload.drop 32, poison := k.poison / 16 }]

/-- End an operation with a status. -/
def coEnd (st : Nat) (r : CoRun) : CoRun := { r with status := st, phase := 4, done := true }

/-- Keep a packet for an operation. A preamble of a peer that is not empty and differs from the member's own ends the
operation with MISMATCH; an empty member takes its parameters from the first that gives them, and compares its own LISTSUM
and STARTED (R247, R251). -/
def coTake (x : Suit) (started : Nat) (k : CoRx) (r : CoRun) : CoRun :=
  let e := { r with rx := r.rx ++ coSplit k }
  if k.phase ≠ 0 ∨ !preKnows k.payload then e
  else
    let e := if coUnlearned r then { e with desc := preDesc k.payload r.desc } else e
    if !preEmpty k.payload ∧ preRest k.payload ≠ preRest (coPreamble x started e.desc false) then coEnd 3 e else e

/-- A packet waits for the suit's next operation (log 33): of a rank that has sent its preamble for this one a second; of a
rank that sends none here, one that another start numbers; what follows it of the same rank. -/
def coEarly (x : Suit) (me : Nat) (u : SuitRun) (r : Option CoRun) (k : CoRx) : Bool :=
  match r with
  | none => true
  | some y => u.early.any (fun e => e.rank == k.rank) || (k.phase == 0 && (coHeard y k.rank ||
      (preStarted k.payload != u.started && (if coUnlearned y then
          decide ((preStarted k.payload + 2 ^ 32 - u.started) % 2 ^ 32 < 2 ^ 31)
        else !(coSources x y.desc me).contains k.rank))))

/-- A packet reaches the engine of one member (R251, R252). -/
def coArrive (q : Nat) (x : Suit) (k : CoRx) (d : Dev) : Dev :=
  let u := getSuit d q x.num
  let a := 8 * q + x.act
  let r := match getPos d a with | some y => if y.suit = x.num ∧ y.q = q then some y else none | none => none
  if u.failed then d
  else if coEarly x (myRank d q x) u r k then modSuit q x.num (fun y => { y with early := y.early ++ [k] }) d
  else setPos a (r.map (coTake x u.started k)) d

/-- The packets that came early reach the suit's operation. -/
def coReplay (q : Nat) (x : Suit) (d : Dev) : Dev :=
  (getSuit d q x.num).early.foldl (fun e k => coArrive q x k e) (modSuit q x.num (fun y => { y with early := [] }) d)

/-- A packet reaches an engine; an empty operation that learns its parameters then knows which early ones are its own. -/
def coHear (q : Nat) (x : Suit) (k : CoRx) (d : Dev) : Dev :=
  let learned (e : Dev) : Bool := match getPos e (8 * q + x.act) with | some r => !coUnlearned r | none => true
  let e := coArrive q x k d
  if !learned d && learned e then coReplay q x e else e

/-- Send packets to some ranks: one of each to each of their devices, in the suit's slots; the members on this device
take them at once (R242, R252, R259; log 33). -/
def coSend (q : Nat) (x : Suit) (ranks : List Nat) (ks : List CoRx) (d : Dev) : Dev :=
  let devs := (ranks.map (fun r => memDev (getAt 0 x.members r))).eraseDups
  ks.foldl (fun e k => devs.foldl (fun e n =>
    if n = myDev e then
      (suitParts e x.num k.rank n).foldl (fun e p => match suitOf e p x.num with | some y => coHear p y k e | none => e) e
    else sendPkt (.suit q x.num) n .collective
      { kind := 0, status := 0, src := BitVec.ofNat 16 (myDev e), tag := 0, dst := BitVec.ofNat 64 (n * 2 ^ 49)
        arg := BitVec.ofNat 64 (coArg x.num k), poison := BitVec.ofNat 32 k.poison, rsv := 0, payload := k.payload } e) e) d

/-- Bytes as the payloads of packets of at most 256 bytes, numbered by their first unit. -/
def coCut (rank phase unit : Nat) : Nat → Nat → List Byte → List CoRx
  | 0, _, _ => []
  | f + 1, first, l =>
    if l.isEmpty then [] else
      ⟨rank, phase, first, 0, l.take 256, 0⟩ :: coCut rank phase unit f (first + 256 / unit) (l.drop 256)

/-! ## Contributions and sums (R254 to R258) -/

/-- Blocks of a combining operation, and the blocks of its chunk from block lo (R258). -/
def coBlocks (c : CoDesc) : Nat := c.len / 32
def coChunkEnd (x : Suit) (c : CoDesc) (lo : Nat) : Nat :=
  if x.kblk / 2 = 0 then coBlocks c else min (coBlocks c) (lo + x.kblk / 2)

/-- The 32 words of block b of each contribution of this member; a poisoned word counts as NaN (R256). -/
def coContribs (d : Dev) (f : FarIn) (c : CoDesc) (b : Nat) : List (List Nat) :=
  (List.range c.ncont).map (fun i =>
    let a := coContAddr d f c i + 128 * b
    (List.range 32).map (fun j => if (coBadAt d f (a + 4 * j) 4).isEmpty then coNat d f (a + 4 * j) 4 else f32nan))

/-- The blocks of a chunk by number. -/
def chunkBlocks (lo hi : Nat) : List Nat := (List.range (hi - lo)).map (fun i => lo + i)

/-- The member's local exponents of a chunk (R89). -/
def coExps (d : Dev) (f : FarIn) (c : CoDesc) (lo hi : Nat) : List Byte :=
  (chunkBlocks lo hi).map (fun b => BitVec.ofNat 8 (localExp (coContribs d f c b).flatten))

/-- The SAT and NAN flags that came with a block, and the poison of its bytes, which counts as NAN (R252, R256). -/
def coBlockFlags (r : CoRun) (rank phase unit b : Nat) : Bool × Bool :=
  match (coFrom r rank phase).find? (fun k => decide (k.block ≤ b) && decide (b < k.block + k.payload.length / unit)) with
  | some k =>
    let i := b - k.block
    (bitAt k.bflags (2 * i), bitAt k.bflags (2 * i + 1) || (fieldBad (BitVec.ofNat 32 k.poison) k.payload.length).any
      (fun j => decide (unit * i ≤ j) && decide (j < unit * (i + 1))))
  | none => (false, false)

/-- A block of mantissas that a rank sent. -/
def coBlockIn (r : CoRun) (rank phase b e g : Nat) : XBlock :=
  let wide := phase == 3
  let w := if wide then 4 else 2
  let f := coBlockFlags r rank phase (32 * w) b
  { wide := wide, m := (List.range 32).map (fun i => sext (8 * w) (leAt (coBytes r rank phase) (32 * w * b + w * i) w))
    e := e, g := g, sat := f.1, nan := f.2 : XBlock }.checked

/-- The mantissa bytes of a block (R252: its header is not sent). -/
def mantBytes (b : XBlock) : List Byte := b.bytes.take (if b.wide then 128 else 64)

/-- Blocks as packets of n blocks each. -/
def coPack (rank phase n : Nat) : Nat → Nat → List XBlock → List CoRx
  | 0, _, _ => []
  | f + 1, first, l =>
    if l.isEmpty then [] else
      let h := l.take n
      let fl := (List.range n).foldl (fun a i => match h[i]? with
        | some b => a + 2 ^ (2 * i) * (b2n b.sat + 2 * b2n b.nan)
        | none => a) 0
      ⟨rank, phase, first, fl, (h.map mantBytes).flatten, 0⟩ :: coPack rank phase n f (first + n) (l.drop n)

/-- E1 of a block: the maximum of the group's exponents; an empty member's is 1 (R247, R254). -/
def coE1 (r : CoRun) (group : List Nat) (b : Nat) : Nat :=
  group.foldl (fun a k => if coIsEmpty r k then a else max a ((getAt 0 (coBytes r k 2) b).toNat)) 1

/-- The member's level-0 result of a block; an empty member's is 0. -/
def coLevel0 (d : Dev) (f : FarIn) (r : CoRun) (x : Suit) (group : List Nat) (b : Nat) : XBlock :=
  let e := coE1 r group b
  let g := coG1 x r.desc
  (sumBlocks e g (if r.empty then [] else (coContribs d f r.desc b).map (alignBlock e g))).checked

/-- The level-1 result of a block (R254). -/
def coLevel1 (r : CoRun) (x : Suit) (group : List Nat) (b : Nat) : XBlock :=
  let e := coE1 r group b
  let g := coG1 x r.desc
  (sumBlocks e g ((group.filter (fun k => !coIsEmpty r k)).map (fun k => coBlockIn r k 3 b e g))).checked

/-- E2 of a block (R93): over the level-1 groups. -/
def coE2 (r : CoRun) (x : Suit) (me b : Nat) : Nat :=
  (leadersOf x).foldl (fun a k =>
    max a (if (groupOf x me).contains k then (narrowExp (coLevel1 r x (groupOf x me) b)).1
      else (getAt 0 (coBytes r k 4) b).toNat)) 1

/-- The level-2 result of a block (R94, R255). -/
def coLevel2 (r : CoRun) (x : Suit) (me b : Nat) : XBlock :=
  let e := coE2 r x me b
  (sumBlocks e 16 ((leadersOf x).map (fun k => widenBlock
    (if (groupOf x me).contains k then narrowBlock e (coLevel1 r x (groupOf x me) b) else coBlockIn r k 5 b e 16)))).checked

/-- The FP32 words of a block that the members send for MAX and MIN, combined element by element (R257). -/
def coExtreme (r : CoRun) (x : Suit) (b : Nat) : List Nat :=
  (List.range 32).map (fun i =>
    let vs := ((ranksOf x).filter (fun k => !coIsEmpty r k)).map (fun k =>
      if (coBlockFlags r k 3 128 b).2 then FV.nan false else f32 (leAt (coBytes r k 3) (128 * b + 4 * i) 4))
    if vs.any FV.isNan then f32nan
    else match vs with
      | [] => 0
      | v :: t => toF32 (t.foldl (if bits r.desc.fmt 3 2 = 1 then FV.maxOf else FV.minOf) v))

/-- This member's own words of a block for MAX and MIN. -/
def coOwnExtreme (d : Dev) (f : FarIn) (c : CoDesc) (b : Nat) : List Byte :=
  let cs := coContribs d f c b
  ((List.range 32).map (fun i =>
    let vs := cs.map (fun l => f32 (getAt 0 l i))
    leBytes 4 (if vs.any FV.isNan then f32nan
      else match vs with
        | [] => 0
        | v :: t => toF32 (t.foldl (if bits c.fmt 3 2 = 1 then FV.maxOf else FV.minOf) v)))).flatten

/-- A result block as it is written (R255, R257): its bytes, SAT and NAN. -/
def coResult (r : CoRun) (x : Suit) (me b : Nat) : List Byte × Bool × Bool :=
  let res := bits r.desc.fmt 1 0
  let conv (f : Fmt) (v : Nat) : List Byte := leBytes (f.width / 8) v
  if coSum r.desc then
    let k := if (leadersOf x).length ≤ 1 then coLevel1 r x (groupOf x me) b else coLevel2 r x me b
    (if res = 2 then k.bytes
     else if res = 1 then ((blockOut bf16 k).map (conv bf16)).flatten
     else ((blockOut fp32 k).map (conv fp32)).flatten, k.sat, k.nan)
  else
    let ws := coExtreme r x b
    (if res = 1 then (ws.map (fun w => conv bf16 (bf16.encode .nearest (f32 w)))).flatten else (ws.map (leBytes 4)).flatten,
      false, ws.any (fun w => (f32 w).isNan))

/-- The bytes of a result block. -/
def coResultSize (c : CoDesc) : Nat := if bits c.fmt 1 0 = 2 then 132 else if bits c.fmt 1 0 = 1 then 64 else 128

/-- The blocks that a member writes (R249), first and past the last. -/
def coPart (x : Suit) (c : CoDesc) (me : Nat) : Nat × Nat :=
  if c.op = 2 then let n := coBlocks c / x.members.length; (me * n, (me + 1) * n)
  else if c.op = 3 ∧ me ≠ c.root then (0, 0)
  else (0, coBlocks c)

/-- The blocks of a chunk that the member writes, and the place of one. -/
def coOwnBlocks (x : Suit) (c : CoDesc) (me lo hi : Nat) : List Nat :=
  chunkBlocks (max lo (coPart x c me).1) (min hi (coPart x c me).2)
def coBlockAddr (x : Suit) (c : CoDesc) (me b : Nat) : Nat := c.dst + coResultSize c * (b - (coPart x c me).1)

/-- The status of writing a member's part of a result. -/
def coDstStatus (d : Dev) (q : Nat) (x : Suit) (c : CoDesc) (me : Nat) : Nat :=
  coMay d q c.dst (coResultSize c * ((coPart x c me).2 - (coPart x c me).1)) permW

/-- Write the member's result blocks of a chunk, with the flags and counters of R255. -/
def coWriteBlocks (a : Nat) (x : Suit) (me lo hi : Nat) (r : CoRun) (d : Dev) : Dev :=
  if r.empty then d
  else (coOwnBlocks x r.desc me lo hi).foldl (fun e b =>
    let o := coResult r x me b
    let e := coPut a (coBlockAddr x r.desc me b) o.1 [] e
    let e := (if o.2.1 then ctlAdd (regOff 6 0 0x4C) 1 else id) e
    let e := (if o.2.2 then ctlAdd (regOff 6 0 0x50) 1 else id) e
    setPos a ((getPos e a).map (fun y => { y with flags := y.flags ||| (b2n o.2.1 + 2 * b2n o.2.2) })) e) d

/-- Change the operation on a position. -/
def modPos (a : Nat) (g : CoRun → CoRun) (d : Dev) : Dev := setPos a ((getPos d a).map g) d

/-- Every rank of a list has sent the bytes of a phase up to a length; an empty one sends none (R247). -/
def coAll (r : CoRun) (ranks : List Nat) (phase n : Nat) : Bool :=
  ranks.all (fun k => coIsEmpty r k || decide (n ≤ (coBytes r k phase).length))

/-- The packets of the exponents of a chunk. -/
def coExpPackets (d : Dev) (f : FarIn) (x : Suit) (r : CoRun) (me lo : Nat) : List CoRx :=
  let hi := coChunkEnd x r.desc lo
  coCut me 2 1 (hi - lo + 1) lo (coExps d f r.desc lo hi)

/-- A chunk of a combining operation ends: its result blocks are written, and the operation ends or the exponents of its next
chunk leave (R251, R255, R258). Where a write or a read of the next chunk has to wait, so does this. -/
def coChunkDone (f : FarIn) (q a : Nat) (x : Suit) (r : CoRun) (d : Dev) : Dev :=
  let me := myRank d q x
  let c := r.desc
  let hi := coChunkEnd x c r.chunk
  let out := if r.empty then [] else (coOwnBlocks x c me r.chunk hi).map (fun b => (coBlockAddr x c me b, coResultSize c))
  let next := if r.empty ∨ coBlocks c ≤ hi ∨ !coSum c then [] else coChunkReads d f c hi (coChunkEnd x c hi)
  let st := if r.empty then 0 else firstBad [coDstStatus d q x c me, coFarStatus d f next]
  if st ≠ 0 then setPos a (some (coEnd st r)) d
  else if out.any (fun p => !isFar d p.1 && unitWaits d (gOff p.1) p.2) ∨ !coReady d f next then d
  else
    let d := coWriteBlocks a x me r.chunk hi r d
    if coBlocks c ≤ hi then modPos a (coEnd 1) d
    else
      let d := modPos a (fun y => { y with phase := 1, sub := 0, chunk := hi }) d
      if coSum c ∧ !r.empty then coSend q x (groupOf x me) (coExpPackets d f x r me hi) (coNote next d) else d

/-- One stage of a combining operation, if what it needs is here (R251, R254, R255, R258). -/
def coCombineStage (f : FarIn) (q a : Nat) (x : Suit) (r : CoRun) (d : Dev) : Dev :=
  let me := myRank d q x
  let lo := r.chunk
  let hi := coChunkEnd x r.desc lo
  let group := groupOf x me
  let sum := coSum r.desc
  let blocks := chunkBlocks lo hi
  let others := (ranksOf x).filter (fun k => !group.contains k)
  let far := (leadersOf x).filter (fun k => !group.contains k)
  let lead := (leadersOf x).contains me
  if r.phase = 1 then
    let reads := if r.empty then [] else coLists x r.desc ++ coChunkReads d f r.desc lo hi
    let st := if r.empty then 0 else firstBad [coReadStatus d f q r.desc, coFarStatus d f reads]
    if !((ranksOf x).all (coHeard r)) ∨ (sum ∧ !coAll r group 2 hi) then d
    else if st ≠ 0 then setPos a (some (coEnd st r)) d
    else if !coReady d f reads then d
    else
      let d1 := coNote reads (setPos a (some { r with phase := 2 }) d)
      if r.empty then d1
      else if sum then coSend q x group (coPack me 3 2 (hi - lo + 1) lo (blocks.map (coLevel0 d f r x group))) d1
      else coSend q x (ranksOf x) (coCut me 3 128 (hi - lo + 1) lo (blocks.map (coOwnExtreme d f r.desc)).flatten) d1
  else if r.phase = 2 then
    if !coAll r (if sum then group else ranksOf x) 3 (128 * hi) then d
    else if !sum ∨ far.isEmpty then coChunkDone f q a x r d
    else
      let d1 := setPos a (some { r with phase := 3, sub := 0 }) d
      if lead then coSend q x others
        (coCut me 4 1 (hi - lo + 1) lo (blocks.map (fun b => BitVec.ofNat 8 (narrowExp (coLevel1 r x group b)).1))) d1 else d1
  else if r.sub = 0 then
    if far.all (fun k => decide (hi ≤ (coBytes r k 4).length)) then
      let d1 := setPos a (some { r with sub := 1 }) d
      if lead then coSend q x others (coPack me 5 4 (hi - lo + 1) lo
        (blocks.map (fun b => narrowBlock (coE2 r x me b) (coLevel1 r x group b)))) d1 else d1
    else d
  else if far.all (fun k => decide (64 * hi ≤ (coBytes r k 5).length)) then coChunkDone f q a x r d
  else d

/-- The operation on a position, with its suit. -/
def coAt (d : Dev) (a : Nat) : Option (CoRun × Suit) :=
  match getPos d a with
  | some r => (suitOf d r.q r.suit).map (fun x => (r, x))
  | none => none

/-- A member that knows its operation's parameters tells them to an empty source that does not (R247, R251; log 33). -/
def coTell (q a : Nat) (x : Suit) (r : CoRun) (d : Dev) : Dev :=
  let me := myRank d q x
  let ks := (coSources x r.desc me).filter (fun k =>
    coHeard r k && !preKnows (coBytes r k 0) && !(coDests x r.desc me).contains k && !r.told.contains k)
  if ks.isEmpty then d
  else coSend q x ks [⟨me, 0, 0, 0, coPreamble x r.seq r.desc r.empty, 0⟩] (modPos a (fun y => { y with told := y.told ++ ks }) d)

/-- Run an operation of a position as far as its packets allow: at most `fuel` stages. -/
def coStages (op a : Nat) (stage : Nat → Nat → Suit → CoRun → Dev → Dev) : Nat → Dev → Dev
  | 0, d => d
  | f + 1, d =>
    match coAt d a with
    | none => d
    | some (r, x) =>
      if r.done ∨ r.desc.op ≠ op ∨ coUnlearned r ∨ !jobRuns d r.q then d
      else
        let e := coTell r.q a x r d
        match coAt e a with
        | some (y, _) => coStages op a stage f (stage r.q a x y e)
        | none => e

/-- Stages that an operation can pass: four for each chunk. -/
def coFuel (d : Dev) (a : Nat) : Nat :=
  match coAt d a with
  | some (r, x) => 4 * (ceilDiv (coBlocks r.desc) (max 1 (x.kblk / 2)) + 1)
  | none => 0

def coCombine (op a : Nat) (f : FarIn) (d : Dev) : Dev := coStages op a (coCombineStage f) (coFuel d a) d

/-! ## Row operations (R249, R253, R261, R262) -/

/-- The packets of one row: its bytes with their poison (R252, R225). -/
def coRowPackets (d : Dev) (f : FarIn) (me : Nat) (row addr n : Nat) : List CoRx :=
  (coCut me 7 256 (n / 256 + 1) 0 (coBytesAt d f addr n)).map (fun k =>
    { k with block := row, poison := (poisonField (coBadAt d f (addr + 256 * k.block) k.payload.length)).toNat })

/-- A row of a rank: its bytes, and those that are poisoned by index; an empty rank's rows are +0 (R247). -/
def coRow (r : CoRun) (rank row : Nat) : List Byte × List Nat :=
  if coIsEmpty r rank then (List.replicate r.desc.rowbytes 0, [])
  else
    let ks := (coFrom r rank 7).filter (fun k => k.block == row % 2 ^ 24)
    ks.foldl (fun a k => (a.1 ++ k.payload, a.2 ++ (fieldBad (BitVec.ofNat 32 k.poison) k.payload.length).map (fun i => a.1.length + i)))
      ([], [])
def coRowHere (r : CoRun) (rank row : Nat) : Bool := decide (r.desc.rowbytes ≤ (coRow r rank row).1.length)

/-- The counts that a rank sent; an empty rank's are 0. -/
def coRankCounts (r : CoRun) (rank n : Nat) : List Nat :=
  if coIsEmpty r rank then List.replicate n 0 else (List.range n).map (fun i => leAt (coBytes r rank 1) (4 * i) 4)

/-- The rows that a member sends, in order: destination rank, number of the row, source row (R249, R253, R261, R262). -/
structure RowOutS where
  dest : Nat
  row : Nat
  src : Nat
  deriving DecidableEq, Repr

/-- The accepted rows of a SHUFFLE at expert e of rank `at_`, by sender rank: `cnt` gives each rank's c_e after CAP
(R261): the number accepted of each sender, in increasing rank. -/
def accepted (cap : Nat) (cs : List Nat) : List Nat :=
  (cs.foldl (fun (a : List Nat × Nat) c => let n := min (min c cap) (cap - a.2); (a.1 ++ [n], a.2 + n)) ([], 0)).1

/-- The rows that a member receives: sender, number of the row, destination row (place). -/
structure RowInS where
  rank : Nat
  row : Nat
  dst : Nat
  deriving DecidableEq, Repr

/-- The places of a SHUFFLE's local expert j at rank me: (sender, index n in its route table, place). -/
def shufflePlaces (x : Suit) (me : Nat) (counts : Nat → List Nat) (j : Nat) : List RowInS :=
  let e := me * x.epm + j
  let acc := accepted x.cap ((ranksOf x).map (fun s => getAt 0 (counts s) e))
  ((ranksOf x).foldl (fun (a : List RowInS × Nat) s =>
    let n := getAt 0 acc s
    (a.1 ++ (List.range n).map (fun i => ⟨s, sumTo (counts s) e + i, j * x.cap + a.2 + i⟩), a.2 + n)) ([], 0)).1

/-- A COMBINE's accepted counts that a member sends: for every sender and each of its own experts, from its row map. -/
def coAccepted (d : Dev) (f : FarIn) (x : Suit) (c : CoDesc) : List Nat :=
  ((ranksOf x).map (fun s => (List.range x.epm).map (fun j =>
    ((List.range x.cap).filter (fun i =>
      let w := coNat d f (c.auxb + 8 * (j * x.cap + i)) 8
      bitAt w 14 && bits w 13 0 == s)).length))).flatten

/-- The u32 words that a member sends in the exchange (R251, R262). -/
def coExchangeCounts (d : Dev) (f : FarIn) (x : Suit) (c : CoDesc) : List Nat :=
  if c.op = 9 then coAccepted d f x c else coCounts d f x c
def coExchangeN (x : Suit) (c : CoDesc) : Nat :=
  if c.op = 9 then x.members.length * x.epm else coCountsN x c

/-- The rows that a member sends. -/
def coRowsOut (d : Dev) (f : FarIn) (x : Suit) (c : CoDesc) (me : Nat) : List RowOutS :=
  let n := x.members.length
  let cs := coCounts d f x c
  if c.op = 4 then (if me = c.root then (List.range c.len).map (fun i => ⟨n, i, i⟩) else [])
  else if c.op = 5 then (List.range c.len).map (fun i => ⟨n, i, i⟩)
  else if c.op = 6 then (List.range (getAt 0 cs 0)).map (fun i => ⟨c.root, i, i⟩)
  else if c.op = 7 then
    ((List.range n).map (fun s => (List.range (getAt 0 cs s)).map (fun i => ⟨s, sumTo cs s + i, sumTo cs s + i⟩))).flatten
  else if c.op = 8 then
    ((List.range (n * x.epm)).map (fun e => (List.range (min (getAt 0 cs e) x.cap)).map (fun i =>
      let m := sumTo cs e + i
      ⟨e / x.epm, m, coNat d f (c.auxa + 4 * (n * x.epm) + 4 * m) 4 % 2 ^ 24⟩))).flatten
  else if c.op = 9 then
    (List.range (x.epm * x.cap)).filterMap (fun p =>
      let w := coNat d f (c.auxb + 8 * p) 8
      if bitAt w 14 then some ⟨bits w 13 0, p, p⟩ else none)
  else if c.op = 10 then (List.range c.len).map (fun i => ⟨(me + 1) % n, i, i⟩)
  else []

/-- The rows that a member takes, by place at DST. -/
def coRowsIn (d : Dev) (f : FarIn) (r : CoRun) (x : Suit) (me : Nat) : List RowInS :=
  let c := r.desc
  let n := x.members.length
  if c.op = 4 then (List.range c.len).map (fun i => ⟨c.root, i, i⟩)
  else if c.op = 5 then ((List.range n).map (fun k => (List.range c.len).map (fun i => ⟨k, i, k * c.len + i⟩))).flatten
  else if c.op = 6 then
    (if me = c.root then
      let cs := (List.range n).map (fun k => getAt 0 (coRankCounts r k 1) 0)
      ((List.range n).map (fun k => (List.range (getAt 0 cs k)).map (fun i => ⟨k, i, sumTo cs k + i⟩))).flatten
    else [])
  else if c.op = 7 then
    let cs := (List.range n).map (fun k => getAt 0 (coRankCounts r k n) me)
    ((List.range n).map (fun k => (List.range (getAt 0 cs k)).map (fun i =>
      ⟨k, sumTo (coRankCounts r k n) me + i, sumTo cs k + i⟩))).flatten
  else if c.op = 8 then
    ((List.range x.epm).map (shufflePlaces x me (fun k => coRankCounts r k (n * x.epm)))).flatten
  else if c.op = 9 then
    let cs := coCounts d f x c
    ((List.range (n * x.epm)).map (fun e =>
      let k := e / x.epm
      let j := e % x.epm
      let t := coRankCounts r k (n * x.epm)
      let before := (List.range me).foldl (fun a s => a + getAt 0 t (s * x.epm + j)) 0
      (List.range (getAt 0 t (me * x.epm + j))).map (fun i => ⟨k, j * x.cap + before + i, sumTo cs e + i⟩))).flatten
  else if c.op = 10 then (List.range c.len).map (fun i => ⟨(me + n - 1) % n, i, i⟩)
  else []

/-- The rows that an operation writes: for GATHERV and ALLTOALLV at most LEN (R253). -/
def coRowsKept (c : CoDesc) (l : List RowInS) : List RowInS :=
  if c.op = 6 ∨ c.op = 7 then l.filter (fun y => decide (y.dst < c.len)) else l

/-- The entries of the route table that a COMBINE's sender finds dropped, and that a member drops (R261, R262). -/
def coDropped (d : Dev) (f : FarIn) (r : CoRun) (x : Suit) (me : Nat) (rows : List RowInS) : Nat :=
  let c := r.desc
  let n := x.members.length
  if c.op = 6 ∨ c.op = 7 then rows.length - (coRowsKept c rows).length
  else if c.op = 8 then
    let cs := if r.empty then [] else coCounts d f x c
    let source := cs.foldl (fun a v => a + (v - x.cap)) 0
    let expert := (List.range x.epm).foldl (fun a j =>
      let l := (ranksOf x).map (fun k => getAt 0 (coRankCounts r k (n * x.epm)) (me * x.epm + j))
      a + ((l.map (min · x.cap)).foldl (· + ·) 0 - (accepted x.cap l).foldl (· + ·) 0)) 0
    source + expert
  else 0

/-- The extent at DST that the rows of an operation take, in rows. -/
def coExtent (rows : List RowInS) : Nat := rows.foldl (fun a y => max a (y.dst + 1)) 0

/-- What an operation writes beside its rows: received counts, the row map, and the +0 rows of dropped entries. -/
def coSideWrites (r : CoRun) (x : Suit) (me : Nat) (rows : List RowInS) : List (Nat × List Byte) :=
  let c := r.desc
  let n := x.members.length
  if c.op = 6 ∧ me = c.root then
    (List.range n).map (fun k => (c.auxb + 4 * k, leBytes 4 (getAt 0 (coRankCounts r k 1) 0)))
  else if c.op = 7 then (List.range n).map (fun k => (c.auxb + 4 * k, leBytes 4 (getAt 0 (coRankCounts r k n) me)))
  else if c.op = 8 then
    (List.range (x.epm * x.cap)).map (fun p =>
      (c.auxb + 8 * p, leBytes 8 (match rows.find? (fun y => y.dst == p) with
        | some y => y.rank + 2 ^ 14 + 2 ^ 16 * (y.row % 2 ^ 32)
        | none => 0)))
  else if c.op = 9 then
    ((List.range c.len).filter (fun i => !rows.any (fun y => y.dst == i))).map (fun i =>
      (c.dst + i * c.rowbytes, List.replicate c.rowbytes 0))
  else []

/-- The status of the writes of an operation. -/
def coWriteStatus (d : Dev) (q : Nat) (c : CoDesc) (rows : List RowInS) (side : List (Nat × List Byte)) : Nat :=
  firstBad (coMay d q c.dst (coExtent rows * c.rowbytes) permW :: side.map (fun p => coMay d q p.1 p.2.length permW))

/-- Send the rows of an operation, each to its destination. -/
def coSendRows (f : FarIn) (q : Nat) (x : Suit) (me : Nat) (c : CoDesc) (rows : List RowOutS) (d : Dev) : Dev :=
  rows.foldl (fun e y => coSend q x (if y.dest = x.members.length then ranksOf x else [y.dest])
    (coRowPackets d f me y.row (c.src + y.src * c.rowbytes) c.rowbytes) e) d

/-- What an operation reads to send its rows: its lists and the rows. -/
def coRowReads (x : Suit) (c : CoDesc) (rows : List RowOutS) : List (Nat × Nat) :=
  coLists x c ++ rows.map (fun y => (c.src + y.src * c.rowbytes, c.rowbytes))

/-- The status of reading what an operation sends. -/
def coRowReadStatus (d : Dev) (f : FarIn) (q : Nat) (x : Suit) (c : CoDesc) (rows : List RowOutS) : Nat :=
  firstBad ((coLists x c).map (fun p => coMay d q p.1 p.2 permR)
    ++ [coMay d q c.src ((rows.foldl (fun a y => max a (y.src + 1)) 0) * c.rowbytes) permR, coFarStatus d f (coRowReads x c rows)])

/-- The writes of an operation: what it writes beside its rows, then the rows. -/
def coRowWrites (r : CoRun) (side : List (Nat × List Byte)) (kept : List RowInS) : List (Nat × List Byte × List Nat) :=
  side.map (fun p => (p.1, p.2, [])) ++ kept.map (fun y =>
    let b := coRow r y.rank y.row
    (r.desc.dst + y.dst * r.desc.rowbytes, b.1.take r.desc.rowbytes, b.2))

/-- The exchange of a row operation has completed: its rows leave. -/
def coRowsLeave (f : FarIn) (q a : Nat) (x : Suit) (r : CoRun) (d : Dev) : Dev :=
  let me := myRank d q x
  let out := if r.empty then [] else coRowsOut d f x r.desc me
  let reads := if r.empty then [] else coRowReads x r.desc out
  let st := if r.empty then 0 else coRowReadStatus d f q x r.desc out
  if st ≠ 0 then setPos a (some (coEnd st r)) d
  else if !coReady d f reads then d
  else coSendRows f q x me r.desc out (coNote reads (setPos a (some { r with phase := 2 }) d))

/-- The rows of an operation have come: they are written, with what goes beside them, and the operation ends. -/
def coRowsLand (f : FarIn) (q a : Nat) (x : Suit) (r : CoRun) (d : Dev) : Dev :=
  let me := myRank d q x
  let rows := coRowsIn d f r x me
  let kept := coRowsKept r.desc rows
  let drop := coDropped d f r x me rows
  let side := coSideWrites r x me rows
  let fin (e : Dev) : Dev := modPos a (fun y => coEnd 1 { y with flags := if 0 < drop then 4 else 0 }) (ctlAdd (regOff 6 0 0x54) drop e)
  let st := coWriteStatus d q r.desc kept side
  let ws := coRowWrites r side kept
  if r.empty then fin d
  else if st ≠ 0 then setPos a (some (coEnd st r)) d
  else if ws.any (fun p => !isFar d p.1 && unitWaits d (gOff p.1) p.2.1.length) then d
  else fin (ws.foldl (fun e p => coPut a p.1 p.2.1 p.2.2 e) d)

/-- One stage of a row operation: the exchange completes and the rows leave, then the rows that have come are written. -/
def coRowStage (f : FarIn) (q a : Nat) (x : Suit) (r : CoRun) (d : Dev) : Dev :=
  let me := myRank d q x
  let src := coSources x r.desc me
  if r.phase = 1 then
    if !(src.all (coHeard r)) ∨ !coAll r src 1 (4 * coExchangeN x r.desc) then d else coRowsLeave f q a x r d
  else if !((coRowsIn d f r x me).all (fun y => coRowHere r y.rank y.row)) then d
  else coRowsLand f q a x r d

def coRows (op a : Nat) (f : FarIn) (d : Dev) : Dev := coStages op a (coRowStage f) 2 d

/-- A NOP exchanges preambles only: a barrier. An empty operation all of whose peers are empty ends as one. -/
def coNop (a : Nat) (d : Dev) : Dev :=
  match coAt d a with
  | none => d
  | some (r, x) =>
    if r.done ∨ r.desc.op ≠ 0 ∨ !jobRuns d r.q ∨ !((ranksOf x).all (coHeard r)) then d
    else setPos a (some (coEnd 1 r)) d

/-- COLLECTIVE_NOP: R249, R251. -/
def execCollectiveNop (a : Position) (s : State) : Out := runMain (coNop a.val) s
/-- ALLREDUCE: R249, R254 to R258. -/
def execAllreduce (x : CoTurn) (s : State) : Out := runMain (coCombine 1 x.pos.val x.far) s
/-- REDUCE_SCATTER: R249, R254 to R258. -/
def execReduceScatter (x : CoTurn) (s : State) : Out := runMain (coCombine 2 x.pos.val x.far) s
/-- REDUCE: R249, R254 to R258. -/
def execReduce (x : CoTurn) (s : State) : Out := runMain (coCombine 3 x.pos.val x.far) s
/-- BROADCAST: R249. -/
def execBroadcast (x : CoTurn) (s : State) : Out := runMain (coRows 4 x.pos.val x.far) s
/-- ALLGATHER: R249. -/
def execAllgather (x : CoTurn) (s : State) : Out := runMain (coRows 5 x.pos.val x.far) s
/-- GATHERV: R249, R253. -/
def execGatherv (x : CoTurn) (s : State) : Out := runMain (coRows 6 x.pos.val x.far) s
/-- ALLTOALLV: R249, R253. -/
def execAlltoallv (x : CoTurn) (s : State) : Out := runMain (coRows 7 x.pos.val x.far) s
/-- SHUFFLE: R249, R261. -/
def execShuffle (x : CoTurn) (s : State) : Out := runMain (coRows 8 x.pos.val x.far) s
/-- COMBINE: R249, R262. -/
def execCombine (x : CoTurn) (s : State) : Out := runMain (coRows 9 x.pos.val x.far) s
/-- RINGPASS: R249. -/
def execRingpass (x : CoTurn) (s : State) : Out := runMain (coRows 10 x.pos.val x.far) s

/-! ## Starts (R246 to R248) -/

/-- The key of a start point among the points of a job that have come. -/
def startKey (s n : Nat) : Nat := 2 ^ 20 * (s + 1) + n

/-- A start point comes: its start waits for the suit's position (R247). -/
def startPoint (q s n : Nat) (d : Dev) : Dev :=
  let j := getJob d q
  match suitOf d q s with
  | none => d
  | some x =>
    match x.starts[n]? with
    | none => d
    | some p =>
      if jobRuns d q ∧ recursAt j.deal p.deal j.cursor ∧ 48 * p.play ≤ d.time.phase ∧ !(getSuit d q s).failed
          ∧ tget 0 j.fired (startKey s n) ≠ j.cursor + 1 then
        modSuit q s (fun u => { u with waiting := u.waiting ++ [256 * j.cursor + p.lead] })
          (modJob q (fun y => { y with fired := tset 0 y.fired (startKey s n) (j.cursor + 1) }) d)
      else d

/-- START_POINT: R247. -/
def execStartPoint (q : Eighth) (suit : Fin 4096) (n : Nat) (s : State) : Out := runMain (startPoint q.val suit.val n) s

/-- The suits of a partition that wait for a position, and the one whose start came first. -/
def waitingSuit (d : Dev) (q act : Nat) : Option Suit :=
  ((getJob d q).deal.suits.filter (fun x => x.act == act && !(getSuit d q x.num).waiting.isEmpty)).foldl (fun a x =>
    match a with
    | none => some x
    | some y => if getAt 0 (getSuit d q x.num).waiting 0 / 256 < getAt 0 (getSuit d q y.num).waiting 0 / 256 then some x else a) none

/-- Write the doorbell count and STARTED of a suit into its runtime entry (R245). -/
def coEntry (q s : Nat) (d : Dev) : Dev :=
  let a := (getJob d q).deal.runaddr % 2 ^ 49 + 16 * s
  let u := getSuit d q s
  unitWrite (a + 12) (leBytes 4 u.db) [] (unitWrite (a + 4) (leBytes 4 u.started) [] d)

/-- A preamble with what follows it in its packet, the first 224 bytes of counts or exponents, and the packets of the rest
(R251, R252). -/
def coOpening (me phase unit : Nat) (pre l : List Byte) : List CoRx :=
  ⟨me, 0, 0, 0, pre ++ l.take 224, 0⟩ :: coCut me phase unit (l.length / 256 + 1) (224 / unit) (l.drop 224)

/-- The exchange of an operation begins: preamble, counts, exponents, and what peers have sent before (R251). -/
def coBegin (f : FarIn) (q a : Nat) (x : Suit) (d : Dev) : Dev :=
  let d := coReplay q x d
  match getPos d a with
  | none => d
  | some r =>
    let me := myRank d q x
    let group := groupOf x me
    let pre := coPreamble x r.seq r.desc r.empty
    if r.done then d
    else if r.empty then coSend q x (ranksOf x) (coOpening me 1 4 pre []) d
    else if coSum r.desc then
      coSend q x group (coOpening me 2 1 pre (coExps d f r.desc 0 (coChunkEnd x r.desc 0)))
        (coSend q x ((ranksOf x).filter (fun k => !group.contains k)) (coOpening me 2 1 pre []) d)
    else coSend q x (coDests x r.desc me) (coOpening me 1 4 pre ((coExchangeCounts d f x r.desc).map (leBytes 4)).flatten) d

/-- What a start reads: the descriptor, and for one that is well-formed its lists and, for a SUM, its first chunk. -/
def coStartReads (d : Dev) (f : FarIn) (q : Nat) (x : Suit) (addr : Nat) (l : List Byte) (c : CoDesc) : List (Nat × Nat) :=
  (addr, 64) :: (if coBadDesc d q x l c then []
    else coLists x c ++ (if coSum c then coChunkReads d f c 0 (coChunkEnd x c 0) else []))

/-- The oldest waiting start of a position starts its operation, if the position is free (R247, R248): it takes one
count and reads descriptor STARTED mod 1,024; with no count it waits, or runs empty. Where its reads have to wait, so does
the start. -/
def coStart (a : Nat) (f : FarIn) (d : Dev) : Dev :=
  match ownerOf d (a / 8) with
  | none => d
  | some q =>
    if !jobRuns d q ∨ (getPos d a).isSome then d
    else match waitingSuit d q (a - 8 * q) with
      | none => d
      | some x =>
        let u := getSuit d q x.num
        let w := getAt 0 u.waiting 0
        let empty := u.db == 0
        let addr := x.qaddr + 64 * (u.started % 1024)
        let l := readBytes d (gOff addr) 64
        let c := if empty then coDescZ else coDescOf l
        let reads := if empty ∨ 1024 < u.db then [] else coStartReads d f q x addr l c
        let st := if 1024 < u.db then 6 else if empty then 0 else firstBad [coStartStatus d f q x l c, coFarStatus d f reads]
        if u.failed ∨ (empty ∧ x.policy % 2 = 0) ∨ (st = 0 ∧ !coReady d f reads) then d
        else
          let d := modSuit q x.num (fun y =>
            { y with waiting := y.waiting.drop 1, db := y.db - 1, started := (y.started + 1) % 2 ^ 32 }) (coNote reads d)
          let d := coEntry q x.num d
          coBegin f q a x (setPos a (some
            { q := q, suit := x.num, addr := addr, desc := c, empty := empty, index := (w / 256 + w % 256) % 2 ^ 48
              phase := 1, sub := 0, chunk := 0, rx := [], status := st, flags := 0, done := st != 0
              seq := (u.started + 1) % 2 ^ 32, told := [], out := 0 }) d)

/-- COLLECTIVE_START: R247, R248, R251. -/
def execCollectiveStart (x : CoTurn) (s : State) : Out := runMain (coStart x.pos.val x.far) s

/-! ## Packets that arrive (R251, R252) -/

/-- A COLLECTIVE packet for this device: reserved bits or a reserved phase are UNROUTED; else the engine of each member
here takes it. -/
def takeCollective (k : Packet) (d : Dev) : Dev :=
  let g := k.arg.toNat
  if bits g 63 62 ≠ 0 ∨ 8 ≤ bits g 15 12 then answerError k 4 (ctlAdd (regOff 7 0 0x50) 1 d)
  else
    let x : CoRx := ⟨bits g 61 48, bits g 15 12, bits g 39 16, bits g 47 40, k.payload, k.poison.toNat⟩
    (suitParts d (bits g 11 0) x.rank (k.src.toNat % 2 ^ 15)).foldl (fun e q =>
      match suitOf e q (bits g 11 0) with
      | some y => coHear q y x e
      | none => e) d

/-! ## Completion (R250, R255, R264) -/

/-- An operation that did not end OK: counted, recorded, raised; the suit stops and the job halts (R250). -/
def coFailure (a : Nat) (r : CoRun) (d : Dev) : Dev :=
  let d := ctlSetN (regOff 6 0 0x44) (r.suit + 2 ^ 16 * r.status + 2 ^ 24 * a) (ctlAdd (regOff 6 0 0x48) 1 d)
  haltFor r.q 5 (modSuit r.q r.suit (fun u => { u with failed := true, waiting := [] }) (event 6 0 r.q d))

/-- An operation ends: STATUS and FLAGS in its descriptor, LAST, LFLAGS and HEAD in the runtime entry, then its flag. -/
def coFinish (a : Nat) (r : CoRun) (d : Dev) : Dev :=
  let d := if r.empty then d else unitWrite (gOff r.addr + 1) (leBytes 1 r.status ++ leBytes 1 r.flags) [] d
  let d := modSuit r.q r.suit (fun u => { u with head := (u.head + 1) % 2 ^ 32 }) d
  let e := (getJob d r.q).deal.runaddr % 2 ^ 49 + 16 * r.suit
  let d := unitWrite e (leBytes 4 (getSuit d r.q r.suit).head) [] (unitWrite (e + 8) (leBytes 1 r.status ++ leBytes 1 r.flags) [] d)
  let d := setPos a none d
  if r.status ≠ 1 then coFailure a r d
  else if r.empty ∨ r.desc.faddr = 0 then d
  else (putFlag .opened 0 r.q r.desc.faddr (r.desc.ftag % 2 ^ 16 + 2 ^ 16 * r.index) d).2

/-- The operation of a position whose writes have all been performed completes (R250). -/
def coComplete (a : Nat) (d : Dev) : Dev :=
  match getPos d a with
  | some r => if r.done ∧ (r.out = 0 ∨ r.status ≠ 1) then coFinish a r d else d
  | none => d

/-- COLLECTIVE_COMPLETE: R250. -/
def execCollectiveComplete (a : Position) (s : State) : Out := runMain (coComplete a.val) s

/-- A halted partition abandons its operations (R264). -/
def coAbandon (q : Nat) (d : Dev) : Dev :=
  forN 64 (fun a e => match getPos e a with
    | some r => if r.q = q then coFinish a (if r.done then r else coEnd 7 r) e else e
    | none => e) d

/-- Unloading clears a partition's positions, doorbell counts and `CO_RUN` (R265). -/
def coUnload (q : Nat) (d : Dev) : Dev :=
  modBody (fun b => { b with positions := b.positions.filter (fun p => match p.2 with | some r => r.q != q | none => false)
                             suits := dropRange b.suits (4096 * q) 4096 })
    (ctlSetPair (regOff 6 0 (0x80 + 8 * q)) 0 d)

/-- HOLD starts of a position that wait for a doorbell (R247). -/
def coDoorWaits (d : Dev) (a : Nat) : Bool :=
  match ownerOf d (a / 8) with
  | none => false
  | some q =>
    jobRuns d q && (getPos d a).isNone && match waitingSuit d q (a - 8 * q) with
      | some x => (getSuit d q x.num).db == 0 && x.policy % 2 == 0 && !(getSuit d q x.num).failed
      | none => false

/-- The device numbers of the members whose packets an operation waits for, lowest rank first (R263). -/
def coMissing (d : Dev) (r : CoRun) (x : Suit) : List Nat :=
  let f : FarIn := ⟨0, [], []⟩
  let me := myRank d r.q x
  if r.done then []
  else
    let need := if r.phase = 1 then (if isCombining r.desc.op ∨ r.desc.op = 0 then ranksOf x else coSources x r.desc me)
      else if r.phase = 3 then leadersOf x
      else if isCombining r.desc.op then (if coSum r.desc then groupOf x me else ranksOf x) else coSources x r.desc me
    let hi := coChunkEnd x r.desc r.chunk
    (need.filter (fun k =>
      if r.phase = 1 then !coHeard r k || (coSum r.desc && (groupOf x me).contains k && !coAll r [k] 2 hi)
        || !coAll r [k] 1 (if isCombining r.desc.op then 0 else 4 * coExchangeN x r.desc)
      else if r.phase = 3 then !(groupOf x me).contains k &&
        (if r.sub = 0 then decide ((coBytes r k 4).length < hi) else decide ((coBytes r k 5).length < 64 * hi))
      else if isCombining r.desc.op then !coAll r [k] 3 (128 * hi)
      else (coRowsIn d f r x me).any (fun y => y.rank == k && !coRowHere r k y.row))).map (fun k => memDev (getAt 0 x.members k))

end Sys2Proof.Machine
end

