-- ==== Sys2Proof/Machine/Prog.lean ====
section
/-! DEFINITION. Program banks as they are written (R67, R71, R96, R140, R394): which bank accepts a write, and when it
becomes visible. -/

namespace Sys2Proof.Machine

/-- Replace byte `o` of a program word. -/
def wordByte {n : Nat} (w : BitVec n) (o : Nat) (b : Byte) : BitVec n :=
  BitVec.ofNat n (w.toNat - (w.toNat / 2 ^ (8 * o) % 256) * 2 ^ (8 * o) + b.toNat * 2 ^ (8 * o))

/-- Write bytes into a table of program words of n bits, from byte `off` of a table whose first word is number `base`. -/
def wordsPut {n : Nat} (base off : Nat) (bs : List Byte) (t : Tbl (BitVec n)) : Tbl (BitVec n) :=
  bs.zipIdx.foldl (fun a p =>
    let i := base + (off + p.2) / (n / 8)
    tset 0 a i (wordByte (tget 0 a i) ((off + p.2) % (n / 8)) p.1)) t

/-- Write bytes of a bank of `words` words: at once while RUN is 0; while RUN is 1 the active bank refuses, and the
inactive one takes the write, to become visible later (R71, R140). `shifting` that a SHIFT runs at the write. -/
def progPut {n : Nat} (words bank off : Nat) (bs : List Byte) (run shifting : Bool) (active trick : Nat) (p : Prog n) :
    Option (Prog n) :=
  let ws := wordsPut (words * bank) off bs p.words
  if !run then some { p with words := ws, seen := wordsPut (words * bank) off bs p.seen }
  else if bank = active then none
  else some { p with words := ws, waits := p.waits ++ [⟨n / 8 * (words * bank) + off, bs, shifting, trick⟩] }

/-- Bytes of a bank of a program. -/
def bankBytes : ProgKind → Nat
  | .me => 0x8000
  | .sf => 0x4000
  | .stock => 0x8000

/-- The active bank of a program. -/
def activeBank (x : Tile) : ProgKind → Nat
  | .me => x.me.aprog
  | .sf => x.sf.aprog
  | .stock => x.st.aprog

/-- A tile after a write to one of its program banks, if the write is accepted. -/
def bankPut (k : ProgKind) (bank off : Nat) (bs : List Byte) (trick : Nat) (x : Tile) : Option Tile :=
  let sh := x.me.shift.isSome
  match k with
  | .me => (progPut 1024 bank off bs x.me.run sh x.me.aprog trick x.me.prog).map (fun p => { x with me := { x.me with prog := p } })
  | .sf => (progPut 512 bank off bs x.me.run sh x.sf.aprog trick x.sf.prog).map (fun p => { x with sf := { x.sf with prog := p } })
  | .stock => (progPut 512 bank off bs x.me.run false x.st.aprog trick x.st.prog).map (fun p => { x with st := { x.st with prog := p } })

/-- A bank write of a requester that may make it: performed, or refused with PROG_ACTIVE (R71). -/
def bankWrite (r : Req) (k : ProgKind) (t bank off ctl : Nat) (bs : List Byte) (d : Dev) : Dev :=
  match bankPut k bank off bs d.time.trick (getTile d t) with
  | some x => setTile t x d
  | none => refuse r (pageBase (match k with | .me => 16 | .sf => 17 | .stock => 20) t) ctl cProgActive true d

/-- A write to a program bank through control space. -/
def bankAccess (r : Req) (off size : Nat) (v : Nat) (d : Dev) : Dev :=
  match ctlAt off with
  | .array (.meBank t b o) => bankWrite r .me t b o off (leBytes size v) d
  | .array (.sfBank t b o) => bankWrite r .sf t b o off (leBytes size v) d
  | .array (.stBank t b o) => bankWrite r .stock t b o off (leBytes size v) d
  | _ => d

/-- PROGRAM_BANK_WRITE: R67, R71, R96, R140, R394. -/
def execProgramBankWrite (r : Req) (off : CtlOff) (size : Nat) (v : Dword) (s : State) : Out :=
  runMain (access r off.toNat size true v.toNat (bankAccess r off.toNat size v.toNat)) s

/-- A write that waits may become visible in a trick: its shift boundary has been reached in an earlier one (R71). -/
def ProgWrite.ripe (trick : Nat) (w : ProgWrite) : Bool := !w.shift && decide (w.trick < trick)

/-- The writes whose shift boundary and trick boundary have passed become visible, in order (R71, R140). -/
def progSee {n : Nat} (trick : Nat) (p : Prog n) : Prog n :=
  { p with
    seen := (p.waits.filter (ProgWrite.ripe trick)).foldl (fun a w => wordsPut 0 w.off w.bytes a) p.seen
    waits := p.waits.filter (fun w => !w.ripe trick) }

/-- The program of a kind shows its accepted writes. -/
def seeProg (k : ProgKind) (trick : Nat) (x : Tile) : Tile :=
  match k with
  | .me => { x with me := { x.me with prog := progSee trick x.me.prog } }
  | .sf => { x with sf := { x.sf with prog := progSee trick x.sf.prog } }
  | .stock => { x with st := { x.st with prog := progSee trick x.st.prog } }

/-- PROGRAM_WRITE_VISIBLE: R71, R140. -/
def execProgramWriteVisible (t : Sys2Proof.Tile) (k : ProgKind) (s : State) : Out :=
  runMain (fun d => modTile t.val (seeProg k d.time.trick) d) s

end Sys2Proof.Machine
end

