-- ==== Sys2Proof/Machine/Special.lean ====
section
/-! DEFINITION. The special function unit of a tile: its path, tables, micro-programs and the three-pass soft maximum
(spec/05_special_functions.md, R96 to R111). -/

namespace Sys2Proof.Machine

/-! ## The path (R96 to R98) -/

def sfWord (m : SfSt) (bank idx : Nat) : Nat := (tget 0 m.prog.seen (512 * bank + idx)).toNat

/-- A NOP that takes effect (R97). -/
def sfNopGood (w : Nat) : Bool := sfGood w && sfPslot w == 0

/-- The next step of the special function path whose deal trick the cursor has reached; with `skip`, due NOPs are passed
over. -/
def scanSf (m : SfSt) (skip : Bool) (lim cursor : Nat) : Nat → Nat → Nat → Nat → Nat → Nat → Option Found
  | 0, _, _, _, _, _ => none
  | f + 1, bank, idx, base, nops, swaps =>
    if 512 ≤ idx then (if m.prog.pend then none else scanSf m skip lim cursor f (1 - bank) 0 base nops (swaps + 1))
    else
      let w := sfWord m bank idx
      let deal := base + swDelta w
      if cursor < deal then none
      else if swOp w = 0 ∧ skip ∧ sfNopGood w ∧ isDue lim deal cursor (swDue w) then
        scanSf m skip lim cursor f bank (idx + 1) deal (nops + 1) swaps
      else some ⟨⟨bank, idx, deal⟩, w, nops, swaps⟩

/-- The due step of the path: partition, cursor and step. -/
def sfNext (d : Dev) (t : Nat) (skip : Bool) : Option (Nat × Nat × Found) :=
  match tileGo d t with
  | none => none
  | some (q, c) =>
    let m := getSf d t
    if !(getMe d t).run || m.faulted then none
    else match scanSf m skip (dueLim d q) c 1025 m.aprog m.pc m.base 0 0 with
      | none => none
      | some f => if isDue (dueLim d q) f.ref.deal c (swDue f.word) then some (q, c, f) else none

/-- The path has reached the end of a bank and waits there, as a PSWAP to the other bank waits, for accepted writes to
become visible (R70, R96). -/
def sfAtEnd (d : Dev) (t : Nat) : Bool :=
  match tileGo d t with
  | none => false
  | some (q, c) =>
    let m := getSf d t
    (getMe d t).run && !m.faulted && m.prog.pend && m.running.isNone
      && decide (512 ≤ m.pc ∨ scanSf m true (dueLim d q) c 1025 m.aprog m.pc m.base 0 0 = none
          ∧ (scanSf { m with prog := { m.prog with waits := [] } } true (dueLim d q) c 1025 m.aprog m.pc m.base 0 0).any (fun f => f.swaps != 0))

def sfAdvance (t : Nat) (f : Found) (d : Dev) : Dev :=
  modSf t (fun m => { m with aprog := f.ref.bank, pc := f.ref.idx + 1, base := f.ref.deal }) d

/-- The path takes n cycles for the step that starts in this one (Table SF-2). -/
def sfBusy (t n : Nat) (d : Dev) : Dev :=
  let at_ := now d
  modSf t (fun m => { m with freeAt := at_ + n }) d

/-- The step cannot be read (R97, R98). -/
def sfBad (w : Nat) : Bool :=
  !sfGood w || decide (8 < swOp w) || decide (64 < sfNseed w)
    || ((swOp w == 0 || swOp w == 7 || swOp w == 8) && sfPslot w != 0)

/-- What keeps a due special function step from starting. -/
def sfWait (d : Dev) (t cursor w : Nat) : Option PathWait :=
  match swOp w with
  | 0 => none
  | 7 =>
    let o := swAux1 w
    if o % 8 ≠ 0 ∨ 0x300000 < o + 8 ∨ poisoned d (sramAddr t o) 8 then none
    else if tileFlagPasses d t o (sfValue w) cursor then none else some (.flag (sramGlobal d t o))
  | 8 => if (getSf d t).prog.pend ∧ sfValue w = 0 then some .visible else none
  | _ => if slotWaits d t (sfPslot w) then some .slot else none

/-- The path is free in this cycle: the previous step has finished and its cycles are over (R96, Table SF-2). -/
def sfFree (d : Dev) (t : Nat) : Bool :=
  let m := getSf d t
  m.running.isNone && decide (m.freeAt ≤ now d)

/-- Take the path's due step if it is one of an operation and the previous step has finished (R96). -/
def sfTake (op t : Nat) (k : Found → Dev → Dev) (d : Dev) : Dev :=
  if !sfFree d t || gatedCycle d then d
  else match sfNext d t false with
  | none => d
  | some (_, c, f) =>
    if sfBad f.word then sfFault t f.ref 1 d
    else if swOp f.word ≠ op then d
    else if (sfWait d t c f.word).isSome then d
    else k f d

/-! ## Rows of a step (R98, R107 to R110) -/

/-- What a step's rows use. -/
structure SfEnv where
  w : Nat
  ix : Nat
  ox : Nat
  data : Tbl Word
  steps : List Nat
  consts : List Nat

def elBytes (fmt : Nat) : Nat := if fmt = 0 then 4 else 2

/-- Elements of an input row as FP32 values. -/
def sfRow (fmt n : Nat) (bs : List Byte) : List Nat :=
  (List.range n).map (fun j => if fmt = 0 then leAt bs (4 * j) 4 else 65536 * leAt bs (2 * j) 2)

/-- Elements l, l + 64, l + 128 and so on of a row (R107). -/
def laneOf (xs : List Nat) (l : Nat) : List Nat := (xs.zipIdx.filter (fun p => p.2 % 64 == l)).map (fun p => p.1)

/-- Fold each lane that takes an element, and combine the lanes in the pairwise tree (R107). -/
def laneTree (f : Nat → Nat → Nat) (z : Nat) (lane : List Nat → Nat) (xs : List Nat) : Nat :=
  pairTree f z ((List.range (min 64 xs.length)).map (fun l => lane (laneOf xs l)))

/-- Fold without a starting value. -/
def fold1 (f : Nat → Nat → Nat) (z : Nat) : List Nat → Nat
  | [] => z
  | a :: r => r.foldl f a

def rowMax (xs : List Nat) : Nat := laneTree f32max f32ninf (fold1 f32max f32ninf) xs
def rowSum (xs : List Nat) : Nat := laneTree f32add 0 (fold1 f32add 0) xs

/-- An FP32 value as a result: a NaN becomes the canonical NaN with its sign (R79, R81). -/
def canon (x : Nat) : Nat := toF32 (f32 x)

/-- Bytes of FP32 results in the output format (R79 to R81). -/
def sfPack (fmt : Nat) (ys : List Nat) : List Byte :=
  if fmt = 0 then packElems 32 (ys.map canon) else packElems 16 (ys.map (fun y => bf16.encode .nearest (f32 y)))

/-- One row: output elements (none: no row is written), the record, whether s was 0 in SMAX3, or a fault code. What SMAX2
records of a row with a NaN or +infinity, and of one whose m is -infinity, is DESIGN CHOICE (log 105). -/
def sfCalc (v : SfEnv) (xs : List Nat) (seeds : List (Nat × Nat)) :
    Except Nat (Option (List Byte) × Option (Nat × Nat) × Bool) :=
  let w := v.w
  let fmt := sfOfmt w
  let nan := xs.map (fun _ => f32nan)
  match swOp w with
  | 1 => match allSome (xs.map (tabEval v.data (sfTab w))) with
    | none => .error 0x10
    | some ys => .ok (some (sfPack fmt ys), none, false)
  | 2 => match allSome (xs.map (fun x => mpRun v.data (fun i => getAt 0 v.consts i) v.steps [x, 0, 0, 0, 0, 0, 0, 0])) with
    | none => .error 0x10
    | some ys => .ok (some (sfPack fmt ys), none, false)
  | 3 =>
    let m := canon ((seeds.map (fun s => s.1)).foldl f32max (rowMax xs))
    .ok (none, some (m, 0), false)
  | 4 =>
    let m := canon (fold1 f32max f32ninf (seeds.map (fun s => s.1)))
    if hasNan xs || hasNan [m] then .ok (some (sfPack fmt nan), some (m, f32nan), false)
    else match allSome (xs.map (fun x => tabEval v.data (sfTab w) (f32sub x (muOf m)))) with
      | none => .error 0x10
      | some ys => .ok (some (sfPack fmt ys), some (m, if m = f32ninf then 0 else rowSum ys), false)
  | 5 =>
    let s := fold1 f32add 0 (seeds.map (fun x => x.2))
    if hasNan xs then .ok (some (sfPack fmt nan), none, false)
    else if (f32 s).isZero then .ok (some (sfPack fmt (xs.map (fun _ => 0))), none, true)
    else
      let r := f32 (toF32 (FV.div (f32 0x3F800000) (f32 s)))
      let f := if fmt = 0 then fp32 else bf16
      .ok (some (packElems f.width (xs.map (fun x => f.encode .nearest (FV.mul (f32 x) r)))), none, false)
  | _ =>
    let sum := laneTree f32add 0 (fun l => l.foldl f32add 0) xs
    let sq := laneTree f32add 0 (fun l => l.foldl (fun s x => f32fma x x s) 0) xs
    .ok (none, some (sum, sq), false)

/-- A step writes output rows; it writes records; it reads seeds (Table SF-2, R107, R108, R110). -/
def sfHasOut (op : Nat) : Bool := op == 1 || op == 2 || op == 4 || op == 5
def sfHasRec (op : Nat) : Bool := op == 3 || op == 4 || op == 6
def sfHasSeed (op : Nat) : Bool := op == 3 || op == 4 || op == 5

/-- SRAM byte at an offset under writes that a step has still to make: the last of them that covers it stands. -/
def viewByte (d : Dev) (t : Nat) (ws : List (Nat × List Byte)) (o : Nat) : Byte :=
  match ws.reverse.find? (fun w => decide (w.1 ≤ o) && decide (o < w.1 + w.2.length)) with
  | some w => getAt 0 w.2 (o - w.1)
  | none => readByte d (sramAddr t o)

/-- n bytes as a row of the step reads them after its earlier rows; none where a word read is poisoned (R47). -/
def viewRead (d : Dev) (t : Nat) (ws : List (Nat × List Byte)) (o n : Nat) : Option (List Byte) :=
  let near := ws.filter (fun w => overlaps w.1 w.2.length o n)
  let bad := (wordsOf (sramAddr t o) n).any (fun w => wordPoison d w
    && !near.any (fun x => decide (sramAddr t x.1 ≤ 8 * w) && decide (8 * w + 8 ≤ sramAddr t x.1 + x.2.length)))
  if bad then none else some ((List.range n).map (fun i => viewByte d t near (o + i)))

/-- Rows of a step, one after another, read as the step starts. -/
def sfRows (d : Dev) (t : Nat) (v : SfEnv) : Nat → Nat → List (Nat × List Byte) → Bool →
    List (Nat × List Byte) × Bool × Option Nat
  | 0, _, ws, z => (ws, z, none)
  | k + 1, i, ws, z =>
    let w := v.w
    let n := sfNelem w
    let ns := if sfHasSeed (swOp w) then sfNseed w else 0
    let rd (o m : Nat) : Option (List Byte) := viewRead d t ws o m
    match rd (swSrc w + 16 * sfSstride w * i) (n * v.ix), rd (swAux1 w + 8 * (i * ns)) (8 * ns) with
    | some row, some sb =>
      match sfCalc v (sfRow (sfIfmt w) n row) ((List.range ns).map (fun j => (leAt sb (8 * j) 4, leAt sb (8 * j + 4) 4))) with
      | .error c => (ws, z, some c)
      | .ok (out, rc, zr) =>
        let o1 := match out with | some b => [(swDst w + 16 * sfDstride w * i, b)] | none => []
        let o2 := match rc with | some (a, b) => [(swAux2 w + 8 * i, leBytes 4 a ++ leBytes 4 b)] | none => []
        sfRows d t v k (i + 1) (ws ++ o1 ++ o2) (z || zr)
    | _, _ => (ws, z, some 4)

/-- Extents that a step reads and that it writes (R66, R97). -/
def sfReads (w rows : Nat) : List (Nat × Nat) :=
  (swSrc w, (rows - 1) * 16 * sfSstride w + sfNelem w * elBytes (sfIfmt w))
    :: (if sfHasSeed (swOp w) ∧ sfNseed w ≠ 0 then [(swAux1 w, 8 * rows * sfNseed w)] else [])
/-- The rows and seed records that a step reads, without the gaps between rows (R47). -/
def sfRowReads (w rows : Nat) : List (Nat × Nat) :=
  (List.range rows).map (fun i => (swSrc w + 16 * sfSstride w * i, sfNelem w * elBytes (sfIfmt w)))
    ++ (if sfHasSeed (swOp w) ∧ sfNseed w ≠ 0 then [(swAux1 w, 8 * rows * sfNseed w)] else [])
def sfOuts (w rows : Nat) : List (Nat × Nat) :=
  (if sfHasOut (swOp w) then [(swDst w, (rows - 1) * 16 * sfDstride w + sfNelem w * elBytes (sfOfmt w))] else [])
    ++ (if sfHasRec (swOp w) then [(swAux2 w, 8 * rows)] else [])

/-- SRC and DST rows overlap other than exactly, a row on itself (R98; DEDUCED, log 106). -/
def sfClash (w rows : Nat) : Bool :=
  let a (i : Nat) := swSrc w + 16 * sfSstride w * i
  let b (i : Nat) := swDst w + 16 * sfDstride w * i
  let na := sfNelem w * elBytes (sfIfmt w)
  let nb := sfNelem w * elBytes (sfOfmt w)
  (List.range rows).any (fun i => (List.range rows).any (fun j =>
    overlaps (a i) na (b j) nb && !(i == j && a i == b j && na == nb)))

/-- Cycles of a step (Table SF-2). -/
def sfCycles (w rows steps : Nat) : Nat :=
  let g := ceilDiv (sfNelem w) 64
  match swOp w with
  | 2 => rows * g * 8 * steps + 8
  | 3 => rows * (g + sfNseed w) + 8
  | 4 => rows * (g + sfNseed w) + 8
  | 5 => rows * (max g 4 + sfNseed w) + 32
  | _ => rows * g + 8

/-- Start TAB, MPRG, SMAX1, SMAX2, SMAX3 or NSTAT. The order of the checks, and that a slot's 0 comes before those of the
step's other fields and a slot stands in for the ROWS field in the check of its range, is DESIGN CHOICE (log 103). -/
def startSf (t : Nat) (f : Found) (d : Dev) : Dev :=
  let w := f.word
  let op := swOp w
  if slotUnnamed d t (sfPslot w) then sfFault t f.ref 1 d
  else
    let rows := stepRows d t (sfPslot w) (swRows w)
    let k7 := stepRowbase d t (sfPslot w)
    if sfPslot w ≠ 0 ∧ rows = 0 then sfAdvance t f (takeSlot t (sfPslot w) d)
    else if rows = 0 || decide (1024 < rows) || sfNelem w == 0 || decide (1048576 < sfNelem w)
        || ((op == 4 || op == 5) && sfNseed w == 0) || (sfHasSeed op && sfClash w rows) then sfFault t f.ref 1 d
    else if !inSram (sfReads w rows ++ sfOuts w rows) then sfFault t f.ref 3 d
    else
      let data := (getSf d t).data
      let p := sfMprog w
      let prog := if op = 2 then mpList data p 32 0 else some []
      if (op == 1 || op == 4) && !tabValid data (sfTab w) then sfFault t f.ref 0x10 d
      else match prog with
      | none => sfFault t f.ref 0x11 d
      | some steps =>
        let consts := (List.range 8).map (fun i => if i = 7 ∧ sfPslot w ≠ 0 then k7 else mpConst data p i)
        let v : SfEnv := { w := w, ix := elBytes (sfIfmt w), ox := elBytes (sfOfmt w), data := data, steps := steps
                           consts := consts }
        let d := noteReads t (sfRowReads w rows) (takeSlot t (sfPslot w) d)
        let r := sfRows d t v rows 0 [] false
        let n := sfCycles w rows steps.length
        sfBusy t n (sfAdvance t f (modSf t (fun m =>
          { m with running := some ⟨f.ref, r.1, sfOuts w rows, now d + n - 1, r.2.1, r.2.2⟩ }) d))

/-- TAB, MPRG, SMAX1, SMAX2, SMAX3, NSTAT (R98, R100, R104, R108, R110). -/
def execTab (t : Sys2Proof.Tile) (s : State) : Out := runMain (sfTake 1 t.val (startSf t.val)) s
def execMprg (t : Sys2Proof.Tile) (s : State) : Out := runMain (sfTake 2 t.val (startSf t.val)) s
def execSmax1 (t : Sys2Proof.Tile) (s : State) : Out := runMain (sfTake 3 t.val (startSf t.val)) s
def execSmax2 (t : Sys2Proof.Tile) (s : State) : Out := runMain (sfTake 4 t.val (startSf t.val)) s
def execSmax3 (t : Sys2Proof.Tile) (s : State) : Out := runMain (sfTake 5 t.val (startSf t.val)) s
def execNstat (t : Sys2Proof.Tile) (s : State) : Out := runMain (sfTake 6 t.val (startSf t.val)) s

/-- SF_STEP_DONE: the step has written its last byte, or meets its fault (R98, R109, R111); a fault met in one of its rows
comes in its last cycle, after the writes of the rows before it (DESIGN CHOICE, log 104). -/
def endSf (t : Nat) (d : Dev) : Dev :=
  match (getSf d t).running with
  | none => d
  | some r =>
    if gatedCycle d || decide (now d < r.endAt) then d
    else
      let d := modSf t (fun m => { m with running := none, zrow := m.zrow || r.zrow }) d
      let d := sramWrites t r.writes d
      match r.fault with
      | some c => sfFault t r.at_ c d
      | none => d

def execSfStepDone (t : Sys2Proof.Tile) (s : State) : Out := runMain (endSf t.val) s

/-- SF_NOP: nothing for one cycle (Table SF-2). -/
def execSfNop (t : Sys2Proof.Tile) (s : State) : Out :=
  runMain (sfTake 0 t.val (fun f d => sfBusy t.val 1 (sfAdvance t.val f d))) s

/-- A WAITFLAG whose flag passes (R98). -/
def sfPassFlag (t : Nat) (f : Found) (d : Dev) : Dev :=
  let o := swAux1 f.word
  if o % 8 ≠ 0 then sfFault t f.ref 1 d
  else if 0x300000 < o + 8 then sfFault t f.ref 3 d
  else if poisoned d (sramAddr t o) 8 then sfFault t f.ref 4 d
  else sfAdvance t f (noteReads t [(o, 8)] d)

def execSfWaitflag (t : Sys2Proof.Tile) (s : State) : Out := runMain (sfTake 7 t.val (sfPassFlag t.val)) s

/-- SF_PSWAP: R70, R96. -/
def execSfPswap (t : Sys2Proof.Tile) (s : State) : Out :=
  runMain (sfTake 8 t.val (fun f d =>
    if 1 < sfValue f.word then sfFault t.val f.ref 1 d
    else sfBusy t.val 1 <| modSf t.val (fun m => { m with aprog := if sfValue f.word = 1 then f.ref.bank else 1 - f.ref.bank, pc := 0 })
      (sfAdvance t.val f d))) s

/-! ## Boundaries and cycles -/

/-- The causes for which a tile's special function path makes a trick late (R98, R132). -/
def sfLate (d : Dev) (t : Nat) : List Nat :=
  let x := getSf d t
  (match x.running with
    | some _ => [computeCause d]
    | none => [])
  ++ (match sfNext d t true with
    | none => if sfAtEnd d t then [computeCause d] else []
    | some (_, c, f) =>
      if x.running.isSome || sfBad f.word then [computeCause d]
      else match sfWait d t c f.word with
        | some (.flag a) => [waitCause (flagProducer d t a)]
        | some .slot => [5]
        | _ => [computeCause d])

/-- A special function step waits on a HOLD slot (Table HD-7). -/
def sfSlotHeld (d : Dev) (t : Nat) : Bool :=
  sfFree d t && (match sfNext d t true with
    | some (_, c, f) => !sfBad f.word && sfWait d t c f.word == some .slot
    | none => false)

/-- Behind the last step of a bank, once it has finished, the path goes on in the other (R70, R96). -/
def standSf (t : Nat) (d : Dev) : Dev :=
  let m := getSf d t
  if (tileGo d t).isSome ∧ (getMe d t).run ∧ !m.faulted ∧ m.running.isNone ∧ 512 ≤ m.pc ∧ !m.prog.pend then
    modSf t (fun x => { x with aprog := 1 - x.aprog, pc := 0 }) d
  else d

/-- Charge one cycle of a due step behind a running one to `SF_WAIT`. -/
def sfCycle (t : Nat) (d : Dev) : Dev :=
  if (sfNext d t false).isSome && !sfFree d t then ctlAdd (regOff 17 t 0x48) 1 d else d

/-- The stall counter that a wait of the special function path is charged to (R163). -/
def sfStall (d : Dev) (t : Nat) : Option Nat :=
  match sfNext d t false with
  | none => none
  | some (_, c, f) =>
    if !sfFree d t || sfBad f.word then none
    else match sfWait d t c f.word with
      | some (.flag a) => some (stallCounter d t (flagProducer d t a))
      | _ => none

/-- Charge one cycle in which deck steps of the tile wait to one stall counter (R163): the matrix engine path's wait where
both paths wait (DESIGN CHOICE, log 107). -/
def stallCycle (t : Nat) (d : Dev) : Dev :=
  match (meStall d t).or (sfStall d t) with
  | some o => ctlAdd (regOff 20 t o) 1 d
  | none => d

end Sys2Proof.Machine
end

