-- ==== Sys2Proof/Machine/Stock.lean ====
section
/-! DEFINITION. The stock of a tile (spec/07_stock.md, R140 to R165): its descriptor path, the kinds of descriptor, the
regulator and the request entries, completion, flags and faults. -/

namespace Sys2Proof.Machine

/-! ## The path (R141, R144) -/

/-- Reserved fields of a descriptor are 0 and CYC lies below 48 (R143, R144). -/
def stGood (w : Nat) : Bool :=
  bits w 31 28 == 0 && decide (dsCyc w < 48) &&
    match dsKind w with
    | 2 => bits w 511 464 == 0
    | 3 => bits w 479 456 == 0
    | 5 => bits w 511 392 == 0
    | 6 => bits w 511 392 == 0 && decide (dsTarget w ≤ 1)
    | k => decide (k < 8) && dsTail w == 0

/-- A NOP without anything to read, check or write. -/
def stPlainNop (w : Nat) : Bool := dsKind w == 0 && dsFaddr w == 0 && stGood w && dsSlota w == 0 && dsSlotb w == 0 && !dsDbgate w &&
  dsSrc w % 4 == 0 && dsDst w % 4 == 0 && dsSstride w % 4 == 0 && dsDstride w % 4 == 0

/-- The next descriptor whose deal trick the cursor has reached; with `skip`, due plain NOPs are passed over. -/
def scanSt (x : StSt) (skip : Bool) (lim cursor : Nat) : Nat → Nat → Nat → Nat → Nat → Option Found
  | 0, _, _, _, _ => none
  | f + 1, bank, idx, base, nops =>
    if 512 ≤ idx then (if x.prog.pend then none else scanSt x skip lim cursor f (1 - bank) 0 base nops)
    else
      let w := stWord x bank idx
      let deal := base + dsDelta w
      if cursor < deal then none
      else if skip ∧ stPlainNop w ∧ isDue lim deal cursor (dsDue w) then scanSt x skip lim cursor f bank (idx + 1) deal (nops + 1)
      else some ⟨⟨bank, idx, deal⟩, w, nops, 0⟩

/-- No transfer entry is free (R154). -/
def entriesFull (d : Dev) (t : Nat) : Bool := decide (32 ≤ (getSt d t).xfers.length)

/-- The due descriptor of a tile's stock: partition, cursor and descriptor. -/
def stNext (d : Dev) (t : Nat) (skip : Bool) : Option (Nat × Nat × Found) :=
  match tileGo d t with
  | none => none
  | some (q, c) =>
    let x := getSt d t
    if x.faulted then none
    else match scanSt x (skip && !entriesFull d t) (dueLim d q) c 1025 x.aprog x.pc x.base 0 with
      | none => none
      | some f => if isDue (dueLim d q) f.ref.deal c (dsDue f.word) then some (q, c, f) else none

/-- The path has reached the end of a bank and waits there for accepted writes to become visible (R140, R141). -/
def stAtEnd (d : Dev) (t : Nat) : Bool :=
  match tileGo d t with
  | none => false
  | some (q, c) =>
    let x := getSt d t
    let skip := !entriesFull d t
    !x.faulted && x.prog.pend
      && decide (512 ≤ x.pc ∨ scanSt x skip (dueLim d q) c 1025 x.aprog x.pc x.base 0 = none
          ∧ (scanSt { x with prog := { x.prog with waits := [] } } skip (dueLim d q) c 1025 x.aprog x.pc x.base 0).any
              (fun f => f.ref.bank != x.aprog))

/-- Move the path past a descriptor. -/
def stAdvance (t : Nat) (f : Found) (d : Dev) : Dev :=
  modSt t (fun x => { x with aprog := f.ref.bank, pc := f.ref.idx + 1, base := f.ref.deal }) d

/-! ## A descriptor with its slots (R147, R148) -/

/-- What a descriptor works on once its slots and doorbell are taken. -/
structure DescArgs where
  src : Nat
  dst : Nat
  rows : Nat
  empty : Bool
  deriving DecidableEq, Repr

/-- A slot of the descriptor is empty under HOLD (R147). -/
def descSlotWaits (d : Dev) (t w : Nat) : Bool := slotWaits d t (dsSlota w) || slotWaits d t (dsSlotb w)
def descUnnamed (d : Dev) (t w : Nat) : Bool := slotUnnamed d t (dsSlota w) || slotUnnamed d t (dsSlotb w)

/-- A slot that a ZERO policy reads as empty. -/
def readsEmpty (d : Dev) (t n : Nat) : Bool := n != 0 && readSlot d t n == .value 0 true

/-- The doorbell count of the descriptor's class. -/
def classDb (d : Dev) (t c : Nat) : Nat := (tget StClass.z (getSt d t).classes c).db

/-- The descriptor's operands after its slots and its doorbell. -/
def descArgs (d : Dev) (t w : Nat) : DescArgs :=
  let a := dsSlota w
  let b := dsSlotb w
  let va := slotValue d t a
  let rows := if b = 0 then dsRows w else slotValue d t b % 65536
  { src := if a ≠ 0 ∧ !dsSlotaDst w then va else dsSrc w
    dst := if a ≠ 0 ∧ dsSlotaDst w then va else dsDst w
    rows := rows
    empty := readsEmpty d t a || readsEmpty d t b || (b != 0 && rows == 0) || (dsDbgate w && classDb d t (dsClass w) == 0) }

/-- Take the slots and one doorbell count. A slot named twice is read once (log 24). -/
def takeArgs (t w : Nat) (d : Dev) : Dev :=
  let d := takeSlot t (dsSlota w) d
  let d := if dsSlotb w = dsSlota w then d else takeSlot t (dsSlotb w) d
  if dsDbgate w then
    modSt t (fun x =>
      let y := tget StClass.z x.classes (dsClass w)
      { x with classes := tset StClass.z x.classes (dsClass w) { y with db := y.db - 1 } }) d
  else d

/-! ## Checks at the start (R143 to R145, R152, R157, R158, R164) -/

/-- The tier of a global address by the region of its local offset (Table ST-5), 8 for none. -/
def tierOf (addr : Nat) : Nat :=
  let o := gOff addr
  if o < 0x006000000000 then 0
  else if Config.gddrBase ≤ o ∧ o < 0x011200000000 then 1
  else if Config.flashBase ≤ o ∧ o < 0x060000000000 then 2
  else if Config.hostBase ≤ o ∧ o < 0x200000000000 then 3
  else if Config.sramBase ≤ o ∧ o < 0x018028000000 then 4
  else 8

/-- The ends of a transfer whose tiers count (R152; a GATHER's source is PBASE + POFF, a REFILL has only its source). -/
def tierEnds (w : Nat) (a : DescArgs) : List Nat :=
  if dsKind w = 3 then [dsPbase w + dsPoff w, a.dst] else if dsKind w = 5 then [a.src] else [a.src, a.dst]

/-- The transfer's tier differs from its class's. -/
def tierBad (d : Dev) (t w : Nat) (a : DescArgs) : Bool :=
  let m := ((tierEnds w a).map tierOf).foldl min 8
  decide (m < 8) && m != (tget StClass.z (getSt d t).classes (dsClass w)).tier

/-- The weight bank that the whole destination extent lies in (R145). -/
def fillDest (d : Dev) (t dst dstride rowbytes rows : Nat) : Option Nat :=
  let last := dst + (max rows 1 - 1) * dstride + rowbytes - 1
  match fillBank d t dst, fillBank d t last with
  | some x, some y => if x = y then some x else none
  | _, _ => none

/-- Bytes of a step of a program bank, by REFILL's target. -/
def stepBytes (target : Nat) : Nat := if target = 2 then 64 else 32
def targetKind (target : Nat) : ProgKind := if target = 0 then .me else if target = 1 then .sf else .stock

/-- The kind-specific checks that concern bytes a cancelled transfer never moves. -/
def kindBad (d : Dev) (t w : Nat) (a : DescArgs) : Bool :=
  let rb := dsRowbytes w
  (match dsKind w with
    | 2 =>
      let sc := dsScoff w
      decide (a.rows < dsVrows w) || decide (rb < dsVbytes w) ||
        (if sc = 0xFFFF then dsNvblk w != 0 else decide (sc < dsVbytes w) || decide (rb < sc + dsNvblk w))
    | 3 => decide (dsPshift w < 12) || decide (30 < dsPshift w)
    | 5 => decide (bankBytes (targetKind (dsTarget w)) < a.dst % 1024 * stepBytes (dsTarget w) + rb)
    | _ => false)
  || tierBad d t w a
  || (dsWfill w && (dsKind w == 5 || (fillDest d t a.dst (dsDstride w) rb a.rows).isNone))

/-- The descriptor uses its class: it moves or reads data in the class's name, or takes the class's doorbell. A NOP and a
PSWAP without a doorbell do not (DEDUCED, log 24). -/
def usesClass (w : Nat) : Bool := dsDbgate w || (dsKind w != 0 && dsKind w != 6)

/-- The descriptor faults with BAD_DESC (R164). -/
def descBad (d : Dev) (t w : Nat) (a : DescArgs) : Bool :=
  let k := dsKind w
  let rb := dsRowbytes w
  !stGood w || (usesClass w && (tget StClass.z (getSt d t).classes (dsClass w)).rate == 0) ||
    ((k == 1 || k == 2 || k == 3 || k == 5) &&
      (rb == 0 || decide (4194304 < rb)
        || (dsSlotb w == 0 && dsRows w == 0)
        || (k == 5 && (rb % 32 != 0 || decide (2 < dsTarget w)))
        || (!a.empty && kindBad d t w a)))

/-- The descriptor faults with MISALIGNED (R145); REFILL's DST is an index. -/
def descMisaligned (w : Nat) (a : DescArgs) : Bool :=
  a.src % 4 != 0 || (dsKind w != 5 && a.dst % 4 != 0) || dsSstride w % 4 != 0 || dsDstride w % 4 != 0 || dsFaddr w % 8 != 0

/-! ## Blocks being written (R159) -/

/-- The write requests of a stock before number `id` that have not completed touch a block of a range. -/
def blocksClash (d : Dev) (t id dst n : Nat) : Bool :=
  (getSt d t).reqs.any (fun r =>
    decide (r.id < id) && r.list.isNone && r.stage != .done
      && overlaps (dst / 64 * 64) ((dst + n + 63) / 64 * 64 - dst / 64 * 64) r.dst r.len)

/-- The request entries in use (R155): a flag write that is held has not been issued. -/
def reqsUsed (x : StSt) : Nat := (x.reqs.filter (fun r => r.stage != .held)).length

/-- A held write holds a class (R159). -/
def classHeld (x : StSt) (c : Nat) : Bool := x.wheld.contains c || x.reqs.any (fun r => r.stage == .held && r.cls == c)

/-! ## Starting a descriptor (R141, R147, R148, R164) -/

/-- Start the path's due descriptor if it is one of a kind: its slots and doorbell are taken, it is checked, and then
`k` acts. A descriptor that waits, or that is of another kind, changes nothing; a reserved kind faults. -/
def stTake (kind t : Nat) (k : Nat → Nat → Found → DescArgs → Dev → Dev) (d : Dev) : Dev :=
  match stNext d t (kind != 0) with
  | none => d
  | some (q, c, f) =>
    let w := f.word
    if dsKind w ≠ kind ∧ dsKind w < 8 then d
    else if entriesFull d t then d
    else if descUnnamed d t w then stFault t f.ref 1 0 d
    else if descSlotWaits d t w then d
    else
      let a := descArgs d t w
      if descBad d t w a then stFault t f.ref 1 0 (takeArgs t w d)
      else if descMisaligned w a then stFault t f.ref 2 0 (takeArgs t w d)
      else k q c f a d

/-- Give a started descriptor its transfer entry. -/
def openXfer (t : Nat) (f : Found) (a : DescArgs) (d : Dev) : Dev :=
  let w := f.word
  let k := dsKind w
  let rows := if a.empty || k == 0 then 0 else if k = 5 then 1 else a.rows
  let inactive := match targetKind (dsTarget w) with
    | .me => 1 - (getMe d t).aprog
    | .sf => 1 - (getSf d t).aprog
    | .stock => 1 - f.ref.bank
  stAdvance t f (modSt t (fun x =>
    { x with
      nextId := x.nextId + 1
      xfers := x.xfers ++
        [{ id := x.nextId, at_ := f.ref, kind := k, cls := dsClass w, wfill := dsWfill w && k != 0, src := a.src, dst := a.dst
           rowbytes := dsRowbytes w, rows := rows, sstride := dsSstride w, dstride := dsDstride w, faddr := dsFaddr w
           ftag := dsFtag w, lead := dsLead w, extra := if k = 5 then dsTarget w + 4 * inactive else dsTail w
           row := 0, pos := 0, entries := [], listPos := 0, held := false, flagged := false }] }) (takeArgs t w d))

/-- NOP: R141, R144: an entry without a row. -/
def execStockNop (t : Sys2Proof.Tile) (s : State) : Out :=
  runMain (stTake 0 t.val (fun _ _ f a d => openXfer t.val f a d)) s

/-- COPY: R146. -/
def execCopy (t : Sys2Proof.Tile) (s : State) : Out :=
  runMain (stTake 1 t.val (fun _ _ f a d => openXfer t.val f a d)) s

/-- EDGE: R157. -/
def execEdge (t : Sys2Proof.Tile) (s : State) : Out :=
  runMain (stTake 2 t.val (fun _ _ f a d => openXfer t.val f a d)) s

/-- GATHER: R158. -/
def execGather (t : Sys2Proof.Tile) (s : State) : Out :=
  runMain (stTake 3 t.val (fun _ _ f a d => openXfer t.val f a d)) s

/-- The word of a flag of a descriptor of a deal trick (R161). -/
def descFlag (ftag deal lead : Nat) : Nat := flagWord ftag (deal + lead)

/-! ## The write of a request, and flags (R146, R155, R159, R161, R164) -/

/-- The transfer number of a FLAG descriptor's write, which has no transfer. -/
def flagXfer : Nat := 2 ^ 65

/-- The bytes that a request has collected. -/
def gathered (r : StReq) : List Byte :=
  r.data.foldl (fun l p => l.take p.1 ++ p.2 ++ l.drop (p.1 + p.2.length)) (List.replicate r.len 0)

/-- Drop a request. -/
def dropReq (t id : Nat) (d : Dev) : Dev := modSt t (fun x => { x with reqs := x.reqs.filter (fun r => r.id != id) }) d

/-- The transfer of a request, if it has not faulted. -/
def reqXfer (d : Dev) (t : Nat) (r : StReq) : Option Transfer := (getSt d t).xfers.find? (fun y => y.id == r.xfer)

/-- A transfer faults: its entry is freed and it writes no flag; a FLAG descriptor has
no entry (R164). -/
def xferFault (t code addr : Nat) (r : StReq) (d : Dev) : Dev :=
  if r.xfer = flagXfer then stFault t r.at_ code addr d
  else match reqXfer d t r with
  | none => d
  | some y => stFault t y.at_ code addr
      (modSt t (fun x => { x with xfers := x.xfers.filter (fun z => z.id != y.id) }) d)

/-- A request whose data goes to its destination: refused by the checks, or with its writes under way. -/
def sentReq (d : Dev) (q : Nat) (r : StReq) : StReq :=
  let v := checkGlobal d q r.dst r.len permW
  if v.2 ≠ .ok then { r with stage := .failed (stockCode v.2.code), addr := r.dst }
  else { r with stage := .writing, addr := r.dst, out := if v.1 then partsOf d (gOff r.dst) (.write (gathered r) r.poison) else 1 }

/-- The writes of a request whose data goes to its destination. -/
def launch (t q : Nat) (r : StReq) (d : Dev) : Dev :=
  let v := checkGlobal d q r.dst r.len permW
  let op : MemReq := .write (gathered r) r.poison
  if v.2 ≠ .ok then d
  else if v.1 then issueLocal false (gOff r.dst) op (.stockWrite t r.id) 0 d
  else sendMem (.cls t r.cls) r.dst op (.stockWrite t r.id) d

/-- Send a request's data to its destination (R146, R155, R165). -/
def sendData (t q : Nat) (r : StReq) (d : Dev) : Dev :=
  let y := sentReq d q r
  launch t q r (modSt t (fun x => { x with reqs := x.reqs.map (fun z => if z.id = r.id then y else z) }) d)

/-- Add a request under the next number. -/
def addReq (t : Nat) (r : StReq) (d : Dev) : Dev :=
  modSt t (fun y => { y with nextId := y.nextId + 1, reqs := y.reqs ++ [r] }) d

/-- Free the entries of requests that are done, and fault the transfers of those that failed. -/
def settle (t id : Nat) (d : Dev) : Dev :=
  match (getSt d t).reqs.find? (fun r => r.id == id) with
  | none => d
  | some r => match r.stage with
    | .done => dropReq t id d
    | .failed c => xferFault t c r.addr r (dropReq t id d)
    | _ => d

/-- The write of a flag as a request: its 8 bytes are at hand. -/
def flagReq (id xfer cls : Nat) (ref : StepRef) (addr word : Nat) : StReq :=
  { id := id, xfer := xfer, at_ := ref, cls := cls, flag := true, piece := .fill 0 8, dst := addr, len := 8, addr := addr
    data := [(0, leBytes 8 word)], poison := [], stage := .held, out := 0, list := none }

/-- A flag write waits: an earlier write of the stock to its block has still to complete, or no request entry is free
(R155, R159). -/
def flagBlocked (d : Dev) (t id addr : Nat) : Bool := blocksClash d t id addr 8 || decide (224 ≤ reqsUsed (getSt d t))

/-- A flag write that waited is issued once nothing holds it. -/
def sendFlag (t id : Nat) (d : Dev) : Dev :=
  match (getSt d t).reqs.find? (fun r => r.id == id && r.stage == .held) with
  | none => d
  | some r => if flagBlocked d t id r.dst then d else settle t id (sendData t ((tilePart d t).getD 0) r d)

/-- A flag is written once, as one request (R161): held, refused by the checks, or under way. -/
def writeFlag (t xfer cls : Nat) (ref : StepRef) (addr word : Nat) (d : Dev) : Dev :=
  let q := (tilePart d t).getD 0
  let r := flagReq (getSt d t).nextId xfer cls ref addr word
  if flagBlocked d t r.id addr then addReq t r d
  else match (sentReq d q r).stage with
    | .failed c => xferFault t c addr r d
    | _ => launch t q r (addReq t (sentReq d q r) d)

/-- A FLAG descriptor writes its flag at its start (R161). -/
def startFlag (t : Nat) (f : Found) (d : Dev) : Dev :=
  let w := f.word
  let d := stAdvance t f (takeArgs t w d)
  if dsFaddr w = 0 then d
  else writeFlag t flagXfer (dsClass w) f.ref (dsFaddr w) (descFlag (dsFtag w) f.ref.deal (dsLead w)) d

/-- FLAG: R144, R161. -/
def execFlag (t : Sys2Proof.Tile) (s : State) : Out :=
  runMain (stTake 4 t.val (fun _ _ f _ d => startFlag t.val f d)) s

/-- REFILL: R144. -/
def execRefill (t : Sys2Proof.Tile) (s : State) : Out :=
  runMain (stTake 5 t.val (fun _ _ f a d => openXfer t.val f a d)) s

/-- A PSWAP waits until every write to the bank it goes to is visible (R140); one that its slot or doorbell leaves empty
only completes (R147, R148). -/
def stockJump (t : Nat) (f : Found) (a : DescArgs) (d : Dev) : Dev :=
  let same := decide (dsTarget f.word = 1)
  if a.empty then stAdvance t f (takeArgs t f.word d)
  else if !same && (getSt d t).prog.pend then d
  else modSt t (fun x => { x with aprog := if same then f.ref.bank else 1 - f.ref.bank, pc := 0 })
    (stAdvance t f (takeArgs t f.word d))

/-- PSWAP: R140, R144. -/
def execStockPswap (t : Sys2Proof.Tile) (s : State) : Out :=
  runMain (stTake 6 t.val (fun _ _ f a d => stockJump t.val f a d)) s

/-! ## WAITF (R144, R160) -/

/-- The request number of a WAITF's read of a flag that lies outside this device's own memory. -/
def waitfXfer : Nat := 2 ^ 64

/-- Add a request that reads for a stock, and send its read. -/
def openRead (t q cls addr n : Nat) (trump : Bool) (r : StReq) (d : Dev) : Dev :=
  let v := checkGlobal d q addr n permR
  let add (x : StReq) (d : Dev) : Dev := addReq t x d
  if v.2 ≠ .ok then add { r with stage := .failed (stockCode v.2.code), addr := addr } d
  else if !v.1 then
    sendMem (.cls t cls) addr (.read n) (.stockRead t r.id 0) (add { r with stage := .reading, out := 1, addr := addr } d)
  else
    issueLocal trump (gOff addr) (.read n) (.stockRead t r.id 0) 0
      (add { r with stage := .reading, out := partsOf d (gOff addr) (.read n), addr := addr } d)

/-- A read of a flag by a WAITF outside this device's own memory. -/
def pollReq (id cls : Nat) (ref : StepRef) (addr : Nat) : StReq :=
  { id := id, xfer := waitfXfer, at_ := ref, cls := cls, flag := false, piece := .copy addr 8, dst := 0, len := 8, addr := addr, data := [], poison := []
    stage := .reading, out := 1, list := some 0 }

/-- A WAITF passes, or tests its flag again (R160); one that its slot or doorbell leaves empty completes at once (R147,
R148). Its read of a flag elsewhere needs a request entry (R155). -/
def startWaitf (t q c : Nat) (f : Found) (args : DescArgs) (d : Dev) : Dev :=
  let w := f.word
  let a := dsFaddr w
  let go (d : Dev) : Dev := stAdvance t f (takeArgs t w d)
  let far := decide (gDev a ≠ myDev d) || tierOf a == 3
  if args.empty then go d
  else if far then
    match (getSt d t).reqs.find? (fun r => r.xfer == waitfXfer) with
    | none =>
      if 224 ≤ reqsUsed (getSt d t) then d
      else openRead t q (dsClass w) a 8 false (pollReq (getSt d t).nextId (dsClass w) f.ref a) d
    | some r => match r.stage with
      | .gotData => if flagPasses (leNat (gathered r)) (dsFtag w) c then go (dropReq t r.id d) else dropReq t r.id d
      | .failed k => stFault t f.ref k a (dropReq t r.id d)
      | _ => d
  else
    let v := checkGlobal d q a 8 permR
    if v.2 ≠ .ok then stFault t f.ref (stockCode v.2.code) a d
    else if flagPasses (readNat d (gOff a) 8) (dsFtag w) c then go (noteRead (gOff a) 8 d)
    else d

/-- WAITF: R144, R160. -/
def execWaitf (t : Sys2Proof.Tile) (s : State) : Out :=
  runMain (stTake 7 t.val (fun q c f a d => startWaitf t.val q c f a d)) s

/-- A flag is tested again after a write to its line: the path that waits on it goes on if it passes (R160). -/
def flagTest (k : ProgKind) (t : Nat) (d : Dev) : Dev :=
  match k with
  | .me => meTake 5 t true (fun _ _ f e => passFlag t f e) d
  | .sf => sfTake 7 t (fun f e => sfPassFlag t f e) d
  | .stock => stTake 7 t (fun q c f a d => startWaitf t q c f a d) d

/-- FLAG_PASS: R160. -/
def execFlagPass (t : Sys2Proof.Tile) (k : ProgKind) (s : State) : Out := runMain (flagTest k t.val) s

/-! ## Requests of a transfer (R146, R157, R158) -/

/-- A request that a transfer issues next, and the transfer after it. -/
structure NextReq where
  piece : Piece
  dst : Nat
  len : Nat
  list : Option Nat
  rest : Transfer
  deriving DecidableEq, Repr

/-- The transfer after n bytes of its current row. -/
def rowOn (y : Transfer) (n : Nat) : Transfer :=
  if y.rowbytes ≤ y.pos + n then { y with row := y.row + 1, pos := 0 } else { y with pos := y.pos + n }

/-- The source and destination address of the transfer's place. -/
def srcRow (y : Transfer) : Nat := y.src + y.row * y.sstride
def dstRow (y : Transfer) : Nat := y.dst + y.row * y.dstride

/-- A copy of the bytes from `a`, up to `left` of them and to the source's next 256-byte boundary. -/
def copyPart (y : Transfer) (a left : Nat) : NextReq :=
  let n := min left (256 - a % 256)
  ⟨.copy a n, dstRow y + y.pos, n, none, rowOn y n⟩

/-- Bytes of one value, up to `left` of them and to the destination's next 256-byte boundary. -/
def fillPart (y : Transfer) (byte left : Nat) : NextReq :=
  let a := dstRow y + y.pos
  let n := min left (256 - a % 256)
  ⟨.fill byte n, a, n, none, rowOn y n⟩

/-- The next request of an EDGE's row (R157). -/
def edgePart (y : Transfer) : NextReq :=
  let vrows := bits y.extra 15 0
  let vb := bits y.extra 47 16
  let sc := bits y.extra 63 48
  let nv := bits y.extra 79 64
  let plain := decide (sc = 0xFFFF)
  let zend := if plain then y.rowbytes else sc
  let p := y.pos
  if y.row < vrows then
    if p < vb then copyPart y (srcRow y + p) (vb - p)
    else if p < zend then fillPart y 0 (zend - p)
    else if p < sc + nv then copyPart y (srcRow y + vb + (p - sc)) (sc + nv - p)
    else fillPart y 0x7F (y.rowbytes - p)
  else if p < zend then fillPart y 0 (zend - p)
  else fillPart y 0x7F (y.rowbytes - p)

/-- n bytes at a global address as an extent of a tile's own SRAM window, if they start there. -/
def ownExtent (d : Dev) (t a n : Nat) : List (Nat × Nat) :=
  if gDev a = myDev d ∧ sramAddr t 0 ≤ gOff a ∧ gOff a < sramAddr t 0x400000 ∧ 0 < n then [(gOff a - sramAddr t 0, n)] else []

/-- The address of a page that a GATHER copies from (R158). -/
def pageAddr (y : Transfer) (entry : Nat) : Nat :=
  bits y.extra 63 0 + entry % 2 ^ 28 * 2 ^ bits y.extra 71 64 + bits y.extra 127 96

/-- The next request of a transfer, if it has one to issue. -/
def nextReq (y : Transfer) : Option NextReq :=
  if y.rows ≤ y.row then none
  else match y.kind with
    | 1 => some (copyPart y (srcRow y + y.pos) (y.rowbytes - y.pos))
    | 2 => some (edgePart y)
    | 3 =>
      if y.listPos < 4 * y.rows then
        let a := y.src + y.listPos
        let n := min (4 * y.rows - y.listPos) (256 - a % 256)
        some ⟨.copy a n, 0, n, some y.listPos, { y with listPos := y.listPos + n }⟩
      else match tget 0 y.entries y.row with
        | 0 => none
        | e + 1 =>
          if e % 2 ^ 28 = 0xFFFFFFF then some (fillPart y 0 (y.rowbytes - y.pos))
          else some (copyPart y (pageAddr y e + y.pos) (y.rowbytes - y.pos))
    | _ =>
      let a := y.src + y.pos
      let n := min (y.rowbytes - y.pos) (256 - a % 256)
      some ⟨.copy a n, 0, n, some y.pos, rowOn y n⟩

/-- The source extents of a transfer in its tile's SRAM (R162): for a GATHER its page list and the pages it names. -/
def srcExtents (d : Dev) (t : Nat) (y : Transfer) : List (Nat × Nat) :=
  let n := if y.kind = 3 then 4 * y.rows
    else if y.kind = 5 then y.rowbytes
    else if y.kind = 2 then
      (let v := bits y.extra 15 0
       if v = 0 then 0 else (v - 1) * y.sstride + bits y.extra 47 16 + bits y.extra 79 64)
    else (y.rows - 1) * y.sstride + y.rowbytes
  if y.rows = 0 then []
  else ownExtent d t y.src n ++
    (if y.kind = 3 then
      (y.entries.map (fun e => if (e.2 - 1) % 2 ^ 28 = 0xFFFFFFF then [] else ownExtent d t (pageAddr y (e.2 - 1)) y.rowbytes)).flatten
    else [])

/-- The running special function step writes into the transfer's source (R162). -/
def sfOverlap (d : Dev) (t : Nat) (y : Transfer) : Bool :=
  match (getSf d t).running with
  | some r => (srcExtents d t y).any (fun e => r.extents.any (fun x => overlaps x.1 x.2 e.1 e.2))
  | none => false

/-- The transfer whose request a class issues next (R150). -/
def classHead (x : StSt) (c : Nat) : Option Transfer := x.xfers.find? (fun y => y.cls == c && !allIssued y)

/-- Replace a transfer. -/
def putXfer (t : Nat) (y : Transfer) (d : Dev) : Dev :=
  modSt t (fun x => { x with xfers := x.xfers.map (fun z => if z.id = y.id then y else z) }) d

/-- Take the tokens of a request and note the cycle (R151, R153). -/
def spend (t c n : Nat) (d : Dev) : Dev :=
  let at_ := now d
  modSt t (fun x =>
    let y := tget StClass.z x.classes c
    { x with classes := tset StClass.z x.classes c { y with tokens := y.tokens - ceilDiv n 64 }, lastReq := some at_ }) d

/-- Issue a request: a read goes to its source, fill bytes are at hand (R146, R157). -/
def issueReq (t q c : Nat) (trump : Bool) (y : Transfer) (n : NextReq) (d : Dev) : Dev :=
  let id := (getSt d t).nextId
  let r : StReq := { id := id, xfer := y.id, at_ := y.at_, cls := c, flag := false, piece := n.piece, dst := n.dst % 2 ^ 64, len := n.len, addr := 0, data := []
                     poison := [], stage := .gotData, out := 0, list := n.list }
  let d := putXfer t n.rest (spend t c n.len d)
  match n.piece with
  | .copy a k => openRead t q c (a % 2 ^ 64) k trump r d
  | .fill b k => modSt t (fun x =>
      { x with nextId := x.nextId + 1
               reqs := x.reqs ++ [{ r with data := [(0, List.replicate k (BitVec.ofNat 8 b))], addr := r.dst }] }) d

/-- The next request of a class, where no hold of R159 or R162 keeps it. -/
def classNext (d : Dev) (t c : Nat) : Option (Transfer × NextReq) :=
  let x := getSt d t
  if 8 ≤ c || classHeld x c then none
  else match classHead x c with
    | none => none
    | some y => if y.held || sfOverlap d t y then none else (nextReq y).map (fun n => (y, n))

/-- A request writes into a block that an earlier write of the stock is still writing (R159). -/
def nextClashes (d : Dev) (t : Nat) (n : NextReq) : Bool :=
  n.list.isNone && blocksClash d t (getSt d t).nextId (n.dst % 2 ^ 64) n.len

/-- The class's bucket holds the tokens of a request (R151). -/
def hasTokens (d : Dev) (t c : Nat) (n : NextReq) : Bool :=
  decide (ceilDiv n.len 64 ≤ (tget StClass.z (getSt d t).classes c).tokens)

/-- The class's transfer is held from now on while a running special function step writes into its source (R162). -/
def rotationHold (d : Dev) (t c : Nat) : Option Transfer :=
  match classHead (getSt d t) c with
  | some y => if !y.held && sfOverlap d t y then some { y with held := true } else none
  | none => none

/-- The class that may issue in a play issues its next request, if nothing holds it (R150, R151, R153, R155, R159,
R162). -/
def issueNext (t play : Nat) (d : Dev) : Dev :=
  let x := getSt d t
  let c := tget ownerZ x.owners play
  if d.time.phase / 48 ≠ play then d
  else if (match x.lastReq with | some l => decide (now d < l + 2) | none => false) then d
  else match rotationHold d t c, classNext d t c with
    | some y, _ => putXfer t y d
    | none, none => d
    | none, some (y, n) =>
      if nextClashes d t n then modSt t (fun z => { z with wheld := setAdd z.wheld c }) d
      else if !hasTokens d t c n then d
      else if 224 ≤ reqsUsed x then d
      else issueReq t ((tilePart d t).getD 0) c ((tget StClass.z x.classes c).trump || (y.kind == 3 && n.list.isSome)) y n d

/-- STOCK_REQUEST_ISSUE: R150, R151, R153, R155, R159. -/
def execStockRequestIssue (t : Sys2Proof.Tile) (play : Play) (s : State) : Out := runMain (issueNext t.val play.val) s

/-- At a play boundary every bucket gains its RATE, up to its DEPTH (R151). -/
def refillTokens (t : Nat) (d : Dev) : Dev :=
  let at_ := now d
  if d.time.phase % 48 = 0 ∧ (getSt d t).refilled ≠ some at_ then
    modSt t (fun x =>
      { x with refilled := some at_
               classes := (List.range 8).foldl (fun m c =>
                 let y := tget StClass.z x.classes c
                 tset StClass.z m c { y with tokens := min y.depth (y.tokens + y.rate) }) x.classes }) d
  else d

/-- TOKEN_REFILL: R151. -/
def execTokenRefill (t : Sys2Proof.Tile) (s : State) : Out := runMain (refillTokens t.val) s

/-! ## Completion of requests and transfers (R154, R155, R161, R164, R165) -/

/-- A poisoned read: counted, its address kept, and the event raised (R165). -/
def notePoison (t : Nat) (r : StReq) (d : Dev) : Dev :=
  if r.poison.isEmpty then d
  else
    let a := match r.piece with
      | .copy a _ => a % 2 ^ 64
      | .fill _ _ => 0
    event 20 t 1 (ctlSetPair (regOff 20 t 0x58) a (ctlAdd (regOff 20 t 0x6C) 1 d))

/-- Put page-list entries, or program bytes, where they belong (R158, R144). -/
def takeList (t : Nat) (r : StReq) (place : Nat) (d : Dev) : Dev :=
  match reqXfer d t r with
  | none => d
  | some y =>
    let bs := gathered r
    if y.kind = 3 then
      putXfer t { y with entries := (List.range (r.len / 4)).foldl (fun m i => tput m (place / 4 + i) (leAt bs (4 * i) 4 + 1)) y.entries } d
    else
      let target := y.extra % 4
      let off := y.dst % 1024 * stepBytes target + place
      match bankPut (targetKind target) (y.extra / 4) off bs d.time.trick (getTile d t) with
      | some x => setTile t x d
      | none =>
        let k := match targetKind target with | .me => 16 | .sf => 17 | .stock => 20
        xferFault t 4 r.addr r (logError (pageBase k t) cProgActive 8 0 true d)

/-- A request goes on: its data is written or taken, or its completion frees its entry. -/
def completeReq (t id : Nat) (d : Dev) : Dev :=
  match (getSt d t).reqs.find? (fun r => r.id == id && r.xfer != waitfXfer) with
  | none => d
  | some r => match r.stage with
    | .held => d
    | .gotData => match r.list with
      | some p => takeList t r p (dropReq t id (notePoison t r d))
      | none => settle t id (sendData t ((tilePart d t).getD 0) r (notePoison t r d))
    | _ => settle t id d

/-- STOCK_REQUEST_COMPLETE: R154, R155, R165. -/
def execStockRequestComplete (t : Sys2Proof.Tile) (req : Nat) (s : State) : Out := runMain (completeReq t.val req) s

/-- Add one to the fill count of a bank, which saturates (R57, R145, Table ME-12). -/
def countFill (t : Nat) (bank : Option Nat) (d : Dev) : Dev :=
  match bank with
  | none => d
  | some b => modMe t (fun m => if b = 0 then { m with fillA := min 0xFFFF (m.fillA + 1) } else { m with fillB := min 0xFFFF (m.fillB + 1) }) d

/-- A transfer all of whose requests have completed writes its flag; with its flag written it counts its fill and frees its
entry (R154, R161). -/
def completeXfer (t id : Nat) (d : Dev) : Dev :=
  match (getSt d t).xfers.find? (fun y => y.id == id) with
  | none => d
  | some y =>
    if !allIssued y || (getSt d t).reqs.any (fun r => r.xfer == id) then d
    else if y.faddr ≠ 0 ∧ !y.flagged then
      writeFlag t id y.cls y.at_ y.faddr (descFlag y.ftag y.at_.deal y.lead) (putXfer t { y with flagged := true } d)
    else
      countFill t (if y.wfill then fillBank d t y.dst else none)
        (modSt t (fun x => { x with xfers := x.xfers.filter (fun z => z.id != id) }) d)

/-- TRANSFER_COMPLETE: R154, R161. -/
def execTransferComplete (t : Sys2Proof.Tile) (xfer : Nat) (s : State) : Out := runMain (completeXfer t.val xfer) s

/-- The held writes whose earlier writes have completed go on: flag writes are issued, and classes are no longer held
(R159). -/
def releaseWrite (t : Nat) (d : Dev) : Dev :=
  let d := ((getSt d t).reqs.filter (fun r => r.stage == .held)).foldl (fun e r => sendFlag t r.id e) d
  let clash (c : Nat) : Bool := ((classHead (getSt d t) c).bind nextReq).any (nextClashes d t)
  modSt t (fun y => { y with wheld := y.wheld.filter clash }) d

/-- WRITE_HOLD_RELEASE: R159. -/
def execWriteHoldRelease (t : Sys2Proof.Tile) (s : State) : Out := runMain (releaseWrite t.val) s

/-- The special function step has completed: the transfers it held start to issue (R162). -/
def releaseRotation (t : Nat) (d : Dev) : Dev :=
  modSt t (fun x => { x with xfers := x.xfers.map (fun y => { y with held := y.held && sfOverlap d t y }) }) d

/-- SF_ROTATION_RELEASE: R162. -/
def execSfRotationRelease (t : Sys2Proof.Tile) (s : State) : Out := runMain (releaseRotation t.val) s

/-! ## Boundaries and cycles (R154, R160, R132) -/

/-- The causes for which a tile's stock makes a trick late at its end. -/
def stLate (d : Dev) (t : Nat) : List Nat :=
  match stNext d t true with
  | none => if stAtEnd d t then [2] else []
  | some (_, _, f) =>
    if entriesFull d t then [2]
    else if descSlotWaits d t f.word && !descUnnamed d t f.word then [5] else if dsKind f.word = 7 then [5] else [2]

/-- The stock's next descriptor waits on a HOLD slot (Table HD-7). -/
def stSlotHeld (d : Dev) (t : Nat) : Bool :=
  match stNext d t true with
  | some (_, _, f) => !entriesFull d t && descSlotWaits d t f.word && !descUnnamed d t f.word
  | none => false

/-- Behind the last descriptor of a bank the path goes on in the other (R140). -/
def standSt (t : Nat) (d : Dev) : Dev :=
  let x := getSt d t
  if (tileGo d t).isSome ∧ !x.faulted ∧ 512 ≤ x.pc ∧ !x.prog.pend then
    modSt t (fun y => { y with aprog := 1 - y.aprog, pc := 0 }) d
  else d

/-- A request finds no entry free (R155): the next one of the play's owner, with its tokens at hand, a held flag write, or
a WAITF's read. -/
def reqWaits (d : Dev) (t : Nat) : Bool :=
  let x := getSt d t
  let c := tget ownerZ x.owners (d.time.phase / 48)
  decide (224 ≤ reqsUsed x) &&
    ((match classNext d t c with
      | some (_, n) => !nextClashes d t n && hasTokens d t c n
      | none => false)
    || x.reqs.any (fun r => r.stage == .held && !blocksClash d t r.id r.dst 8)
    || (match stNext d t true with
      | some (_, _, f) => dsKind f.word == 7 && (decide (gDev (dsFaddr f.word) ≠ myDev d) || tierOf (dsFaddr f.word) == 3)
          && !x.reqs.any (fun r => r.xfer == waitfXfer)
      | none => false))

/-- A write is held by R159. -/
def writeHeld (d : Dev) (t : Nat) : Bool :=
  let x := getSt d t
  !x.wheld.isEmpty || x.reqs.any (fun r => r.stage == .held && blocksClash d t r.id r.dst 8)

/-- One cycle of a stock: `ST_OUTFULL`, `ST_REQFULL` and `ST_WHOLD`. -/
def stCycle (t : Nat) (d : Dev) : Dev :=
  let full := (stNext d t true).isSome && entriesFull d t
  let waits := reqWaits d t
  let held := writeHeld d t
  let d := if full then ctlAdd (regOff 20 t 0x60) 1 d else d
  let d := if waits then ctlAdd (regOff 20 t 0x64) 1 d else d
  if held then ctlAdd (regOff 20 t 0x68) 1 d else d

end Sys2Proof.Machine
end

