-- ==== Sys2Proof/Machine/Deal.lean ====
section
/-! DEFINITION. Deals (spec/02_time_and_the_deal.md, R31 to R37, R43, R406, R407, and the deal sections of R75, R131,
R149, R195, R203, R205, R223, R240): the image, the fit check in the order of Table TB-3, loading, starting, halting and
unloading. -/

namespace Sys2Proof.Machine

/-- Offsets of registers of the deal loader page. -/
def dlOff (o : Nat) : Nat := regOff 2 0 o

/-! ## The image (R32) -/

/-- Offset and length of section i of the header: claim, link slots, stream classes, matrix engines, energy, reserved
slots, suits. -/
def secAt (l : List Byte) (i : Nat) : Nat × Nat := (leAt l (0x28 + 8 * i) 4, leAt l (0x2C + 8 * i) 4)

/-- The bytes of a section, none for an absent one. -/
def secBytes (l : List Byte) (i : Nat) : List Byte :=
  let s := secAt l i
  if s.2 = 0 then [] else (l.drop s.1).take s.2

/-- Bytes [lo, lo + n) are 0. -/
def zeroAt (l : List Byte) (lo n : Nat) : Bool := ((l.drop lo).take n).all (fun b => b == 0)

def hdPrologue (l : List Byte) : Nat := leAt l 0x18 4
def hdPeriod (l : List Byte) : Nat := leAt l 0x1C 4

/-- The header keeps to Table TB-2. -/
def headerOk (l : List Byte) : Bool :=
  leAt l 0 4 == 0x35444C4A && leAt l 4 2 == 5 && leAt l 6 2 == 0x80 && leAt l 8 4 == l.length
    && decide (hdPrologue l < 2 ^ 24) && decide (1 ≤ hdPeriod l) && decide (hdPeriod l ≤ 2 ^ 20)
    && decide (leAt l 0x23 1 < 4) && zeroAt l 0x60 0x20

/-- Every present section lies in the image behind the header, aligned, apart from the others; claim and energy are
present. -/
def sectionsOk (l : List Byte) : Bool :=
  let ss := (List.range 7).map (secAt l)
  let here := ss.filter (fun s => s.2 != 0)
  (secAt l 0).2 != 0 && (secAt l 4).2 != 0
    && here.all (fun s => s.1 % 64 == 0 && decide (0x80 ≤ s.1) && decide (s.1 + s.2 ≤ l.length))
    && (List.range 7).all (fun i => (List.range i).all (fun j =>
      !overlaps (secAt l i).1 (secAt l i).2 (secAt l j).1 (secAt l j).2))

/-- No number occurs twice. -/
def distinct (l : List Nat) : Bool :=
  match l with
  | [] => true
  | a :: r => !r.contains a && distinct r

/-! ## The resource claim (R195, R203, R205) -/

def clNwin (l : List Byte) : Nat := leAt l 28 2
def clNpoint (l : List Byte) : Nat := leAt l 30 2

/-- A window entry (Table MM-5) and a write-back point entry. -/
def winAt (l : List Byte) (i : Nat) : Window :=
  let o := 64 + 32 * i
  ⟨leAt l o 8, leAt l (o + 8) 8, leAt l (o + 16) 4, leAt l (o + 20) 1 == 1, leAt l (o + 24) 4⟩
def pointAt (l : List Byte) (i : Nat) : WbPoint :=
  let o := 64 + 32 * clNwin l + 16 * i
  ⟨leAt l o 4, leAt l (o + 4) 2, leAt l (o + 6) 2, leAt l (o + 8) 8⟩
def claimWindows (l : List Byte) : List Window := (List.range (clNwin l)).map (winAt l)
def claimPoints (l : List Byte) : List WbPoint := (List.range (clNpoint l)).map (pointAt l)

/-- The claim keeps to Table MM-3, Table MM-5 and R205. -/
def claimOk (l : List Byte) : Bool :=
  decide (64 ≤ l.length) && l.length == 64 + 32 * clNwin l + 16 * clNpoint l
    && decide (leAt l 24 1 < 16) && decide (leAt l 25 1 ≤ 8) && decide (leAt l 26 1 ≤ 8) && decide (leAt l 27 1 ≤ 96)
    && decide (clNwin l ≤ 256) && decide (clNpoint l ≤ 4096) && leAt l 32 8 % 8 == 0 && zeroAt l 40 24
    && (List.range (clNwin l)).all (fun i =>
      let w := winAt l i
      let o := 64 + 32 * i
      w.work % 65536 == 0 && w.home % 65536 == 0 && w.len != 0 && decide (leAt l (o + 20) 1 ≤ 1)
        && zeroAt l (o + 21) 3 && zeroAt l (o + 28) 4)
    && (claimPoints l).all (fun p => decide (p.window < clNwin l) && p.faddr % 8 == 0)

/-- The bytes of the dirty bitmap: up to the last bit of any WRITEBACK window. -/
def bitmapBytes (l : List Byte) : Nat :=
  (claimWindows l).foldl (fun a w => if w.writeback then max a (8 * ceilDiv (w.bitoff + 16 * w.len) 64) else a) 0

/-! ## Link slots (R223) -/

def lkNent (l : List Byte) : Nat := leAt l 8 4
def linkEntAt (l : List Byte) (i : Nat) : LinkEnt :=
  let o := 16 + 8 * i
  ⟨leAt l o 1, leAt l (o + 1) 1, leAt l (o + 2) 1, leAt l (o + 3) 1, leAt l (o + 4) 2, leAt l (o + 6) 1⟩
def dealLinks (l : List Byte) : List LinkEnt := (List.range (lkNent l)).map (linkEntAt l)
/-- What the deal assumes of a port: its byte of the section. -/
def dealPort (l : List Byte) (p : Nat) : Nat := leAt l p 1

/-- The section keeps to R223 and Table LK-4. -/
def linksOk (l : List Byte) : Bool :=
  l.isEmpty || (decide (16 + 8 * lkNent l ≤ l.length)
    && (List.range 6).all (fun p => !bitAt (dealPort l p) 3) && decide (leAt l 6 1 < 2) && leAt l 7 1 == 0 && zeroAt l 12 4
    && (List.range (lkNent l)).all (fun i =>
      let e := linkEntAt l i
      decide (e.port < 6) && decide (e.link < 4) && decide (e.play < 16) && decide (e.kind < 3)
        && (if e.kind = 0 then decide (e.cls < 8) else e.cls == 0) && (e.kind != 1 || decide (e.owner < 4096))
        && (e.kind != 2 || e.owner == 0) && leAt l (16 + 8 * i + 7) 1 == 0))

/-! ## Stream classes (R149) -/

/-- A record of a section: its logical tile, its offset, its number of descriptors. -/
structure DealRec where
  tile : Nat
  pos : Nat
  n : Nat
  deriving DecidableEq, Repr

/-- The records of the stream-class section from an offset, none where one runs past the section. -/
def classRecs (l : List Byte) : Nat → Nat → Option (List DealRec)
  | 0, pos => if l.length ≤ pos then some [] else none
  | f + 1, pos =>
    if l.length ≤ pos then some []
    else
      let n := leAt l (pos + 2) 2
      if l.length < pos + 96 + 64 * n then none
      else (classRecs l f (pos + 96 + 64 * n)).map (fun r => ⟨leAt l pos 2, pos, n⟩ :: r)
def dealClasses (l : List Byte) : Option (List DealRec) := classRecs l (l.length / 96 + 1) 0

def crRate (l : List Byte) (pos c : Nat) : Nat := leAt l (pos + 16 + 8 * c) 1
def crTier (l : List Byte) (pos c : Nat) : Nat := leAt l (pos + 17 + 8 * c) 1 % 8
def crTrump (l : List Byte) (pos c : Nat) : Bool := bitAt (leAt l (pos + 17 + 8 * c) 1) 3
def crDepth (l : List Byte) (pos c : Nat) : Nat := leAt l (pos + 18 + 8 * c) 2

/-- A record keeps to R149. -/
def classOk (l : List Byte) (r : DealRec) : Bool :=
  decide (r.n ≤ 1024)
    && (List.range 8).all (fun c =>
      decide (crRate l r.pos c ≤ 96) && decide (crTier l r.pos c < 5) && (!crTrump l r.pos c || decide (crTier l r.pos c < 2))
        && (crRate l r.pos c == 0 || crDepth l r.pos c != 0))
    && (List.range 16).all (fun p => let o := leAt l (r.pos + 80 + p) 1; decide (o < 8) || o == 0xFF)
def classesOk (l : List Byte) : Bool :=
  match dealClasses l with
  | none => false
  | some rs => rs.all (classOk l) && distinct (rs.map (·.tile))

/-! ## Matrix engines (R75) -/

/-- A length padded to 64 bytes. -/
def pad64 (n : Nat) : Nat := (n + 63) / 64 * 64

/-- The size of part k of a tile record: step words, special function step words, profiles, tables, micro-programs. -/
def mePartSize (l : List Byte) (pos k : Nat) : Nat :=
  match k with
  | 0 => 32 * leAt l (pos + 2) 2
  | 1 => 32 * leAt l (pos + 4) 2
  | 2 => 48 * popcountN 16 (leAt l (pos + 6) 2)
  | 3 => 4128 * popcountN 8 (leAt l (pos + 8) 1)
  | _ => 256 * popcountN 16 (leAt l (pos + 10) 2)

/-- Where part k of a tile record begins; part 5 is its end. -/
def mePart (l : List Byte) (pos k : Nat) : Nat :=
  (List.range k).foldl (fun a i => a + pad64 (mePartSize l pos i)) (pos + 64)

/-- Whether a tile record's header keeps to R75. -/
def meHeadOk (l : List Byte) (pos : Nat) : Bool :=
  decide (leAt l (pos + 2) 2 ≤ 2048) && decide (leAt l (pos + 4) 2 ≤ 1024) && leAt l (pos + 9) 1 == 0 && zeroAt l (pos + 12) 52

/-- The tile records, none where one is refused or runs past the section. -/
def meRecs (l : List Byte) : Nat → Nat → Option (List DealRec)
  | 0, _ => some []
  | n + 1, pos =>
    if l.length < pos + 64 ∨ !meHeadOk l pos ∨ l.length < mePart l pos 5 then none
    else (meRecs l n (mePart l pos 5)).map (fun r => ⟨leAt l pos 2, pos, 0⟩ :: r)
def dealTiles (l : List Byte) : Option (List DealRec) := if l.isEmpty then some [] else meRecs l (leAt l 0 2) 64

/-- The place of entry p among the present ones of a mask. -/
def maskRank (mask p : Nat) : Nat := popcountN p mask

/-- Where the profile part of profile p begins. -/
def profPos (l : List Byte) (pos p : Nat) : Nat := mePart l pos 2 + 48 * maskRank (leAt l (pos + 6) 2) p

/-- The present profiles of a record hold nothing in reserved bits. -/
def profilesOk (l : List Byte) (pos : Nat) : Bool :=
  (List.range 16).all (fun p => !bitAt (leAt l (pos + 6) 2) p ||
    (let o := profPos l pos p
     (List.range 8).all (fun s => bits (leAt l (o + 4 * s) 4) 7 5 == 0) && decide (leAt l (o + 36) 4 < 2 ^ 18) && zeroAt l (o + 40) 8))

def tilesOk (l : List Byte) : Bool :=
  l.isEmpty || (decide (64 ≤ l.length) && decide (leAt l 0 2 ≤ 144) && zeroAt l 2 62
    && match dealTiles l with
      | none => false
      | some rs => rs.all (fun r => profilesOk l r.pos) && distinct (rs.map (·.tile)))

/-! ## Reserved slots and doorbells (R131) -/

def slotEnts (l : List Byte) : List Nat := (List.range (l.length / 16)).map (fun i => 16 * i)

/-- One entry keeps to Table HD-5 (R285 for the input engine's doorbells). -/
def slotEntOk (l : List Byte) (o : Nat) : Bool :=
  if leAt l o 1 = 0 then
    decide (leAt l (o + 1) 1 % 4 < 3) && decide (leAt l (o + 1) 1 < 8) && leAt l (o + 4) 1 != 0 && zeroAt l (o + 5) 3
  else
    leAt l o 1 == 1 && leAt l (o + 1) 1 == 0 && decide (leAt l (o + 2) 2 < 1024) && decide (leAt l (o + 4) 1 < 3)
      && zeroAt l (o + 8) 8 && (leAt l (o + 4) 1 != 2 || decide (leAt l (o + 5) 3 < 8))

/-- What an entry names: a tile's slot, or a doorbell. -/
def slotEntKey (l : List Byte) (o : Nat) : Nat :=
  if leAt l o 1 = 0 then 2 * (256 * leAt l (o + 2) 2 + leAt l (o + 4) 1) else 2 * leAt l (o + 2) 2 + 1
def slotsOk (l : List Byte) : Bool :=
  l.length % 16 == 0 && (slotEnts l).all (slotEntOk l) && distinct ((slotEnts l).map (slotEntKey l))

/-! ## Suits (R240, R241) -/

/-- A suit's record at an offset, with its lists. -/
def suitAt (l : List Byte) (o : Nat) : Suit :=
  let nm := leAt l (o + 2) 2
  let lo := leAt l (o + 4) 4
  let so := leAt l (o + 32) 4
  { num := leAt l o 2, members := (List.range nm).map (fun i => leAt l (lo + 4 * i) 4), listsum := leAt l (o + 8) 4
    act := leAt l (o + 12) 1, policy := leAt l (o + 13) 1, weight := leAt l (o + 14) 1, kblk := leAt l (o + 16) 4
    wfirst := leAt l (o + 20) 4, wlast := leAt l (o + 24) 4
    starts := (List.range (leAt l (o + 28) 2)).map (fun i =>
      ⟨leAt l (so + 8 * i) 4, leAt l (so + 8 * i + 4) 1, leAt l (so + 8 * i + 5) 1⟩)
    cap := leAt l (o + 36) 2, epm := leAt l (o + 38) 2, qaddr := leAt l (o + 44) 8 }
def dealSuits (l : List Byte) : List Suit := if l.isEmpty then [] else (List.range (leAt l 0 2)).map (fun i => suitAt l (16 + 64 * i))

/-- A range of global addresses lies in one partition's memory of one kind on this device (1 HBM, 2 GDDR7, 5 flash). -/
def inPart (d : Dev) (q a n kind : Nat) : Bool :=
  gDev a == myDev d && (homeRange d (gOff a) n).kind == kind
    && (match (homeRange d (gOff a) n).eighth, (homeOf d (gOff a + n - 1)).eighth with
        | some e, some f => ownerOf d e == some q && ownerOf d f == some q
        | _, _ => false)

/-- Blocks of a partition's kitty share (Table CO-2), by its eighths. -/
def kittyShare (eighths : Nat) : Nat := 3145728 * eighths / 132

/-- Both deal tricks lie in the prologue in order, or in the period (R243). -/
def windowOk (p len a b : Nat) : Bool :=
  decide (a ≤ b) && (decide (b < p) || (decide (p ≤ a) && decide (b < p + len)))

/-- A record keeps to Table CO-1 and R241. `sum` is the CRC-32 of its member list as it stands. -/
def suitOk (d : Dev) (q prologue period : Nat) (l : List Byte) (o : Nat) : Bool :=
  let x := suitAt l o
  let nm := leAt l (o + 2) 2
  let lo := leAt l (o + 4) 4
  let ns := leAt l (o + 28) 2
  let so := leAt l (o + 32) 4
  decide (x.num < 4096) && decide (1 ≤ nm) && decide (nm ≤ 16384) && lo % 4 == 0 && decide (lo + 4 * nm ≤ l.length)
    && decide (x.policy < 4) && x.weight != 0 && leAt l (o + 15) 1 == 0 && x.kblk % 2 == 0
    && decide (x.kblk ≤ kittyShare (partEighths d q).length) && windowOk prologue period x.wfirst x.wlast
    && decide (1 ≤ ns) && decide (ns ≤ 4096) && so % 4 == 0 && decide (so + 8 * ns ≤ l.length) && leAt l (o + 30) 2 == 0
    && decide (x.epm ≤ 256) && zeroAt l (o + 40) 4 && zeroAt l (o + 52) 12 && x.qaddr % 65536 == 0
    && inPart d q x.qaddr 65536 1
    && (List.range ns).all (fun i => decide (leAt l (so + 8 * i + 4) 1 < 16) && zeroAt l (so + 8 * i + 6) 2)
    && crc32 ((l.drop lo).take (4 * nm)) == x.listsum
    && x.members.all (fun m => decide (m < 2 ^ 18) && decide (memDev m < 16384) && devExists d (memDev m))
    && distinct x.members && x.members.contains (myDev d + 2 ^ 15 * q)

def suitsOk (d : Dev) (q prologue period : Nat) (l : List Byte) : Bool :=
  l.isEmpty || (decide (leAt l 0 2 ≤ 4096) && decide (16 + 64 * leAt l 0 2 ≤ l.length) && zeroAt l 2 6
    && leAt l 8 8 % 65536 == 0 && inPart d q (leAt l 8 8) 65536 1
    && (List.range (leAt l 0 2)).all (fun i => suitOk d q prologue period l (16 + 64 * i))
    && distinct ((dealSuits l).map (·.num)))

/-! ## The fit check (R34, Table TB-3) -/

/-- The image at an address: none where it cannot lie in the partition's HBM, aligned to 64 bytes, or its length is
refused (R32, R406). -/
def imageOf (d : Dev) (q addr : Nat) : Option (List Byte) :=
  if addr % 64 ≠ 0 ∨ !inPart d q addr 128 1 then none
  else
    let n := readNat d (gOff addr + 8) 4
    if n % 64 ≠ 0 ∨ n < 128 ∨ !inPart d q addr n 1 then none else some (readBytes d (gOff addr) n)

/-- The image keeps to R32 and to the layouts of its sections. -/
def dealFormat (d : Dev) (q : Nat) (l : List Byte) : Bool :=
  headerOk l && sectionsOk l && claimOk (secBytes l 0)
    && (secAt l 4).2 == 2 * (hdPrologue l + hdPeriod l) && linksOk (secBytes l 1) && classesOk (secBytes l 2)
    && tilesOk (secBytes l 3) && slotsOk (secBytes l 5) && suitsOk d q (hdPrologue l) (hdPeriod l) (secBytes l 6)

/-- The CRC-32 of the image with its check field read as 0. -/
def imageCheck (l : List Byte) : Nat := crc32 (l.take 12 ++ [0, 0, 0, 0] ++ l.drop 16)

/-- The deal was built for the partition's shape and the system's extents. -/
def shapeOk (d : Dev) (q : Nat) (l : List Byte) : Bool :=
  let cfg := ctlNat d (regOff 7 0 0x40)
  leAt l 0x23 1 == (getEighth d q).shape && leAt l 0x20 1 == 2 ^ bits cfg 3 1 && leAt l 0x21 1 == 2 ^ bits cfg 6 4
    && leAt l 0x22 1 == 2 ^ bits cfg 9 7

/-- A logical tile of the partition. -/
def tileIn (d : Dev) (q t : Nat) : Bool := decide (t < 144) && tilePart d t == some q

/-- The queue that an input doorbell names is the partition's (R285). -/
def bellQueueOk (d : Dev) (q target : Nat) : Bool :=
  let h := target % 2
  let e := 4 * h + target / 2 % 4
  ownerOf d e == some q && queueEighth d q h == e

/-- Every table names the partition's tiles only (R34, R75, R131, R149, R223, R285). -/
def tilesIn (d : Dev) (q : Nat) (l : List Byte) : Bool :=
  let sl := secBytes l 5
  ((dealTiles (secBytes l 3)).getD []).all (fun r => tileIn d q r.tile)
    && ((dealClasses (secBytes l 2)).getD []).all (fun r => tileIn d q r.tile)
    && (if (secBytes l 1).isEmpty then true
        else (dealLinks (secBytes l 1)).all (fun e => e.kind != 0 || tileIn d q e.owner))
    && (slotEnts sl).all (fun o =>
      if leAt sl o 1 = 0 then tileIn d q (leAt sl (o + 2) 2)
      else if leAt sl (o + 4) 1 = 0 then tileIn d q (leAt sl (o + 5) 1)
      else if leAt sl (o + 4) 1 = 2 then bellQueueOk d q (leAt sl (o + 5) 3)
      else true)

/-- Host memory that a partition has registered: every 4 KiB of the range lies in an OUTBOUND entry of its own (R203,
R309). -/
def registered (d : Dev) (q h n : Nat) : Bool :=
  (pagePieces (n / 4096 + 2) h n).all (fun c =>
    match hostEntry d .other c.1 c.2 with
    | some (k, _) => ownerOf d (k / 512) == some q
    | none => false)

/-- A home of a window lies in the partition's GDDR7, flash or registered host memory (R203). -/
def homeIn (d : Dev) (q : Nat) (w : Window) : Bool :=
  let n := 65536 * w.len
  inPart d q w.home n 2 || (inPart d q w.home n 5 && !w.writeback)
    || (gDev w.home == myDev d && match homeRange d (gOff w.home) n with
        | .host h => registered d q h n
        | _ => false)

/-- The claim fits the partition's memory, seed and windows (R194, R195, R203). -/
def memoryOk (d : Dev) (q : Nat) (l : List Byte) : Bool :=
  let es := partEighths d q
  let ws := claimWindows l
  let work (w : Window) : Nat × Nat := (w.work, 65536 * w.len)
  decide (leAt l 0 8 ≤ es.foldl (fun a e => a + stackSize d e) 0)
    && decide (leAt l 8 8 ≤ es.foldl (fun a e => a + gddrSize d (3 * e) + gddrSize d (3 * e + 1) + gddrSize d (3 * e + 2)) 0)
    && decide (leAt l 16 8 ≤ es.foldl (fun a e => a + pairSize d e) 0)
    && es.all (fun e => seedOf d e == leAt l 24 1)
    && ws.all (fun w => (inPart d q w.work (65536 * w.len) 1 || inPart d q w.work (65536 * w.len) 2) && homeIn d q w)
    && (List.range ws.length).all (fun i => (List.range i).all (fun j =>
      match ws[i]?, ws[j]? with
      | some a, some b => !overlaps (work a).1 (work a).2 (work b).1 (work b).2
      | _, _ => true))
    && (bitmapBytes l == 0 ||
      (inPart d q (leAt l 32 8) (bitmapBytes l) 1
        && ws.all (fun w => !overlaps (work w).1 (work w).2 (leAt l 32 8) (bitmapBytes l))))

/-- The SUIT slots of a port for a suit, and its weight (R260). -/
def portSuits (es : List LinkEnt) (p s : Nat) : Nat := (es.filter (fun e => e.kind == 1 && e.port == p && e.owner == s)).length
def suitWeight (ss : List Suit) (s : Nat) : Nat :=
  match ss.find? (fun x => x.num == s) with
  | some x => if bitAt x.policy 1 then x.weight else 1
  | none => 1

/-- Each suit's slots on a port differ from its weighted part of them by less than one (R260). -/
def portShares (es : List LinkEnt) (ss : List Suit) (p : Nat) : Bool :=
  let own := (List.range 4096).filter (fun s => es.any (fun e => e.kind == 1 && e.port == p && e.owner == s))
  let t := (es.filter (fun e => e.kind == 1 && e.port == p)).length
  let w := own.foldl (fun a s => a + suitWeight ss s) 0
  own.all (fun s =>
    decide (portSuits es p s * w < t * suitWeight ss s + w) && decide (t * suitWeight ss s < portSuits es p s * w + w))

/-- A link of a used port is up, at the assumed generation and width or better (R223). -/
def linkMeets (d : Dev) (p k byte : Nat) : Bool :=
  let x := getLink d (lkKey p k)
  x.state == lkUp && decide (bits byte 2 2 ≤ x.gen) && decide (x.width ≤ byte % 4)

/-- The link slots fit the port plan, the links and the system (R223, R260); on a bypassed port only the skip link, which
carries the data of the others, needs to be UP (R232, R282; log 109). -/
def linkSlotsOk (d : Dev) (q : Nat) (l : List Byte) (ss : List Suit) : Bool :=
  l.isEmpty ||
    (let es := dealLinks l
     distinct (es.map (fun e => 64 * e.port + 16 * e.link + e.play))
      && es.all (fun e => let w := planWord d e.port e.link e.play
                          planKind w == 1 && planEighth w == q && !(jokers d && decide (4 ≤ e.port) && e.link == 3))
      && (List.range 6).all (fun p =>
        let b := dealPort l p
        bits b 7 4 == bits (ctlNat d (lkOff p 0x40)) 14 11
          && (b % 4 == 0 || (List.range 4).all (fun k => (bypassed d p && decide (k < 3)) || linkMeets d p k b)))
      && bitAt (leAt l 6 1) 0 == jokers d && (List.range 6).all (portShares es ss))

/-- The bit fields of the queues that the STREAMS check adds: RATE of the mover, flash, input and writer queues. -/
def queueRates (d : Dev) (q tier : Nat) : Nat :=
  (partQueues d q).foldl (fun a p =>
    let mv := bits (ctlNat d (mvRing p.1 p.2).cfg) 12 6
    let fl := bits (ctlNat d (flRing p.1 p.2).cfg) 7 1
    let ic := ctlNat d (inOff p.1 p.2 8)
    let inr := bits ic 7 1
    a + (if tier = 0 ∨ tier = 3 then mv else 0) + (if tier = 0 ∨ tier = 1 then fl else 0)
      + (if tier = 0 then inr else 0) + (if tier ≠ 0 ∧ bits ic 9 8 = tier then inr else 0))
    (if tier = 0 ∨ tier = 3 then bits (ctlNat d (wrRing q).cfg) 7 1 else 0)

/-- What the write-back engine adds to a tier: WBRATE for a working copy and for a home of a WRITEBACK window (R205). -/
def wbRates (l : List Byte) (tier : Nat) : Nat :=
  leAt l 27 1 * (claimWindows l).foldl (fun a w =>
    if w.writeback then max a (b2n (tierOf w.work == tier) + b2n (tierOf w.home == tier)) else a) 0

/-- The tokens per play of a tier that a partition of some eighths may claim (Table ST-5, R319). -/
def tierShare (d : Dev) (eighths tier : Nat) : Nat :=
  let whole := match tier with
    | 0 => 8192
    | 1 => 1728
    | 2 => 24
    | _ => ctlNat d (regOff 8 0 0x44) % 128
  whole * eighths / 8

/-- The rates of every tier keep to the partition's share (R152, R173, R205, R208, R287, R316). -/
def streamsOk (d : Dev) (q : Nat) (l : List Byte) : Bool :=
  let cl := secBytes l 2
  let rs := (dealClasses cl).getD []
  (List.range 4).all (fun tier =>
    let sum := rs.foldl (fun a r => (List.range 8).foldl (fun b c =>
      if crTier cl r.pos c = tier then b + crRate cl r.pos c else b) a) 0
    decide (sum + queueRates d q tier + wbRates (secBytes l 0) tier ≤ tierShare d (partEighths d q).length tier))

/-- The suits' positions, windows, start points and kitty claims fit the partition's share (R243). -/
def kittyOk (eighths : Nat) (ss : List Suit) : Bool :=
  ss.all (fun x => decide (x.act < 8 * eighths) && x.starts.all (fun p => decide (x.wfirst ≤ p.deal) && decide (p.deal ≤ x.wlast)))
    && (List.range ss.length).all (fun i => (List.range i).all (fun j =>
      match ss[i]?, ss[j]? with
      | some a, some b => a.act != b.act || decide (a.wlast < b.wfirst) || decide (b.wlast < a.wfirst)
      | _, _ => true))
    && decide ((List.range 64).foldl (fun n a => n + ss.foldl (fun m x => if x.act = a then max m x.kblk else m) 0) 0
        ≤ kittyShare eighths)

/-- Both owners consent to every member other than the loading partition (R244, R328). -/
def suitsConsent (d : Dev) (q : Nat) (ss : List Suit) : Bool :=
  ss.all (fun x => x.members.all (fun m =>
    m == myDev d + 2 ^ 15 * q
      || (consents d q (memDev m) && (memDev m != myDev d || (isPart d (memEighth m) && consents d (memEighth m) (myDev d))))))

/-- Entry of the energy plan for a cursor value (R33). -/
def energyOf (l : List Byte) (p len c : Nat) : Nat := leAt l (2 * (if c < p then c else p + (c - p) % len)) 2

/-- Every trick of the plan keeps to the cap of a partition of some eighths (R35). -/
def energyTrick (eighths : Nat) (l : List Byte) (p len : Nat) : Bool :=
  (List.range (p + len)).all (fun c => decide (energyOf l p len c ≤ 927 * eighths / 8))
/-- Every window of 1,953 tricks keeps to the budget (R35). -/
def energyWindow (eighths : Nat) (l : List Byte) (p len : Nat) : Bool :=
  (List.range (p + len)).all (fun c =>
    decide ((List.range 1953).foldl (fun a k => a + energyOf l p len (c + k)) 0 ≤ 1749888 * eighths / 8))

/-- The outcome code of a LOAD (Table TB-3), the first check that fails. -/
def loadCode (d : Dev) (q addr start : Nat) : Nat :=
  if (getJob d q).loaded then 1
  else match imageOf d q addr with
    | none => 2
    | some l =>
      let es := (partEighths d q).length
      let ss := dealSuits (secBytes l 6)
      if !dealFormat d q l then 2
      else if poisoned d (gOff addr) l.length ∨ imageCheck l ≠ leAt l 12 4 then 3
      else if !shapeOk d q l then 4
      else if !tilesIn d q l then 5
      else if !memoryOk d q (secBytes l 0) then 6
      else if !linkSlotsOk d q (secBytes l 1) ss then 7
      else if !streamsOk d q l then 8
      else if !kittyOk es ss then 9
      else if !suitsConsent d q ss then 10
      else if !energyTrick es (secBytes l 4) (hdPrologue l) (hdPeriod l) then 11
      else if !energyWindow es (secBytes l 4) (hdPrologue l) (hdPeriod l) then 12
      else if start < d.time.trick + 2048 then 13
      else 0

/-! ## Installing a deal (R34, R75, R131, R149, R151, R194, R245, R405) -/

/-- What the loader keeps of an image. -/
def dealOf (l : List Byte) : Deal :=
  let cl := secBytes l 0
  let lk := secBytes l 1
  let sl := secBytes l 5
  let su := secBytes l 6
  { seed := leAt l 0x10 8, check := leAt l 12 4, prologue := hdPrologue l, period := hdPeriod l
    stallLimit := if leAt l 0x24 4 = 0 then 2 ^ 20 else leAt l 0x24 4
    ports := if lk.isEmpty then [] else (List.range 6).map (dealPort lk)
    links := if lk.isEmpty then [] else dealLinks lk
    doorbells := (slotEnts sl).foldl (fun a o =>
      if leAt sl o 1 = 1 then tset Doorbell.z a (leAt sl (o + 2) 2) ⟨true, leAt sl (o + 4) 1, leAt sl (o + 5) 3⟩ else a) []
    suits := dealSuits su, runaddr := if su.isEmpty then 0 else leAt su 8 8
    windows := claimWindows cl, points := claimPoints cl, dbase := leAt cl 32 8, tfracH := leAt cl 25 1, tfracG := leAt cl 26 1
    wbrate := leAt cl 27 1 }

/-- A program of n-bit words from cnt words of bytes. -/
def progOf (n : Nat) (l : List Byte) (pos cnt : Nat) : Prog n :=
  let ws := (List.range cnt).foldl (fun a i => tset 0 a i (BitVec.ofNat n (leAt l (pos + n / 8 * i) (n / 8)))) []
  ⟨ws, ws, []⟩

/-- Data words from bytes, from a word index. -/
def putWords (word : Nat) (l : List Byte) (pos n : Nat) (t : Tbl Word) : Tbl Word :=
  (List.range n).foldl (fun a i => tset 0 a (word + i) (BitVec.ofNat 32 (leAt l (pos + 4 * i) 4))) t

/-- The data pages that a record gives: its tables and micro-programs (R99, R103). -/
def recData (l : List Byte) (pos : Nat) : Tbl Word :=
  let tm := leAt l (pos + 8) 1
  let mm := leAt l (pos + 10) 2
  let t := (List.range 8).foldl (fun a t =>
    if bitAt tm t then
      let o := mePart l pos 3 + 4128 * maskRank tm t
      putWords (0x800 * t + 0x400) l (o + 32) 1024 (putWords (0x800 * t) l o 8 a)
    else a) []
  (List.range 16).foldl (fun a p =>
    if bitAt mm p then putWords (0x4000 + 0x40 * p) l (mePart l pos 4 + 256 * maskRank mm p) 64 a else a) t

/-- Write a tile's programs, data pages and registers from its record, or as 0 without one; bank 0 of each path is
active (R75). -/
def installMe (l : List Byte) (rec? : Option DealRec) (t : Nat) (d : Dev) : Dev :=
  let pos := (rec?.map (·.pos)).getD 0
  let on := rec?.isSome
  let mask := if on then leAt l (pos + 6) 2 else 0
  let word (p o : Nat) : Nat := if bitAt mask p then leAt l (profPos l pos p + o) 4 else 0
  let d := modTile t (fun x =>
    { x with
      me := { x.me with
        prog := progOf 256 l (mePart l pos 0) (if on then leAt l (pos + 2) 2 else 0)
        run := false, faulted := false, aprog := 0, pc := 0, base := 0, vbank := 0, vpc := 0, vbase := 0, swaps := 0, vswaps := 0
        arrayFree := 0, shiftFree := 0, vecFree := 0 }
      sf := { x.sf with
        prog := progOf 256 l (mePart l pos 1) (if on then leAt l (pos + 4) 2 else 0)
        faulted := false, aprog := 0, pc := 0, base := 0, freeAt := 0, data := if on then recData l pos else [] } }) d
  let d := forN 16 (fun p e =>
    let e := forN 8 (fun s f => ctlSetN (regOff 16 t (0x100 + 32 * p + 4 * s)) (word p (4 * s)) f) e
    ctlSetN (regOff 19 t (0x80 + 4 * p)) (word p 36) (ctlSetN (regOff 16 t (0x80 + 4 * p)) (word p 32) e)) d
  ctlSetN (regOff 19 t 0x40) 0 d

/-- Write a tile's stock program, classes with full buckets, and play owners (R149, R151). -/
def installSt (l : List Byte) (rec? : Option DealRec) (t : Nat) (d : Dev) : Dev :=
  let pos := (rec?.map (·.pos)).getD 0
  let on := rec?.isSome
  modSt t (fun x =>
    { x with
      prog := progOf 512 l (pos + 96) ((rec?.map (·.n)).getD 0)
      faulted := false, aprog := 0, pc := 0, base := 0
      classes := if on then (List.range 8).foldl (fun a c =>
        tset StClass.z a c ⟨crRate l pos c, crTier l pos c, crTrump l pos c, crDepth l pos c, crDepth l pos c, 0⟩) [] else []
      owners := if on then (List.range 16).foldl (fun a p => tset ownerZ a p (leAt l (pos + 80 + p) 1)) [] else [] }) d

/-- Write a tile's reserved slots: named ones with their initial value and FULL bit (R131). -/
def installSlots (l : List Byte) (t : Nat) (d : Dev) : Dev :=
  modTile t (fun x =>
    { x with slots := (slotEnts l).foldl (fun a o =>
        if leAt l o 1 = 0 ∧ leAt l (o + 2) 2 = t then
          tset Slot.z a (leAt l (o + 4) 1)
            ⟨true, leAt l (o + 1) 1 % 4, bitAt (leAt l (o + 1) 1) 2, BitVec.ofNat 64 (leAt l (o + 8) 8), none⟩
        else a) [] }) d

/-- The partition that a channel belongs to. -/
def chanPart (d : Dev) (c : Nat) : Option Nat := ownerOf d (if c < 256 then c / 32 else (c - 256) / 12)

/-- The trump counters of a partition's channels are 0 (R199). -/
def trumpZero (q : Nat) (d : Dev) : Dev :=
  modBody (fun b => { b with chans := b.chans.foldl (fun a p =>
    if chanPart d p.1 = some q then tset Chan.z a p.1 { p.2 with trump := 0 } else a) b.chans }) d

/-- Counters of late tricks by cause, of a partition (Table MP-9). -/
def causeOff (q cause : Nat) : Nat := regOff 1 0 (0x210 + 0x180 * q + 4 * (cause - 1))

/-- The buckets of a partition's queues and of its write-back hold their DEPTH when a deal is accepted (R151, R173, R205,
R208, R287, R316). -/
def fillBuckets (q wbrate : Nat) (d : Dev) : Dev :=
  let d := (partQueues d q).foldl (fun e p =>
    let h := p.1
    let k := p.2
    fillBucket (mvBucket h k) (bits (ctlNat e (mvRing h k).cfg) 12 6)
      (fillBucket (flBucket h k) (bits (ctlNat e (flRing h k).cfg) 7 1)
        (fillBucket (inBucket h k) (bits (ctlNat e (inOff h k 8)) 7 1) e))) d
  fillBucket (wrBucket q) (bits (ctlNat d (wrRing q).cfg) 7 1) (fillBucket (wbBucket q) wbrate d)

/-- Install an accepted deal. -/
def install (q addr start : Nat) (d : Dev) : Dev :=
  let l := (imageOf d q addr).getD []
  let me := secBytes l 3
  let cl := secBytes l 2
  let su := secBytes l 6
  let mrs := (dealTiles me).getD []
  let crs := (dealClasses cl).getD []
  let d := (partTiles d q).foldl (fun e t =>
    installSlots (secBytes l 5) t (installSt cl (crs.find? (fun r => r.tile == t)) t
      (installMe me (mrs.find? (fun r => r.tile == t)) t e))) d
  let d := setJob q { Job.z with loaded := true, startTrick := start, deal := dealOf l } d
  let d := zeroRegs (causeOff q 1) 5 (trumpZero q d)
  let d := fillBuckets q (leAt (secBytes l 0) 27 1) d
  if su.isEmpty then d
  else ctlSetPair (regOff 6 0 (0x80 + 8 * q)) (leAt su 8 8) (unitWrite (gOff (leAt su 8 8)) (List.replicate 65536 0) [] d)

/-- A command of the loader ends with its code and DEAL_DONE (R34). -/
def dlDone (code : Nat) (d : Dev) : Dev := event 2 0 0 (modBody (fun b => { b with dlCode := code, dlBusy := false }) d)

/-- A partition's lowest eighth that is not being torn down (R324, R407). -/
def dlPart (d : Dev) (q : Nat) : Bool := isPart d q && !(getEighth d q).scrub

/-- A LOAD: the check, then an accepted deal is installed. -/
def loadDeal (q addr start : Nat) (d : Dev) : Dev :=
  let c := loadCode d q addr start
  dlDone c (if c = 0 then install q addr start d else d)

/-- An UNLOAD: it takes effect at the next trick boundary; with no deal loaded nothing changes. -/
def unloadDeal (q : Nat) (d : Dev) : Dev :=
  if (getJob d q).loaded then
    modJob q (fun j => { j with unloading := d.time.trick + 1 }) (modBody (fun b => { b with dlBusy := true }) d)
  else dlDone 0 d

/-- A write of `DL_CMD` (R406, R407). -/
def dlCmd (r : Req) (v : Nat) (d : Dev) : Dev :=
  mgmtOnly r (pageBase 2 0) (dlOff 0x50) (fun d =>
    let q := bits v 4 2
    if d.body.dlBusy then refuse r (pageBase 2 0) (dlOff 0x50) cBusy true d
    else if v % 4 = 0 then d
    else
      let d := modBody (fun b => { b with dlEighth := q }) d
      if v % 4 = 3 ∨ !dlPart d q then dlDone 4 d
      else if v % 4 = 1 then loadDeal q (ctlPair d (dlOff 0x40)) (ctlPair d (dlOff 0x48)) d
      else unloadDeal q d) d

/-- LOAD: R32 to R36, R406. -/
def execLoad (r : Req) (q : Eighth) (s : State) : Out :=
  let v := 1 + 4 * q.val
  runMain (access r (dlOff 0x50) 4 true v (dlCmd r v)) s

/-- UNLOAD: R406, R407. -/
def execUnload (r : Req) (q : Eighth) (s : State) : Out :=
  let v := 2 + 4 * q.val
  runMain (access r (dlOff 0x50) 4 true v (dlCmd r v)) s

/-! ## Start, halt and the effect of UNLOAD (R37, R43, R407) -/

/-- At its start trick a loaded deal begins its prologue, and its tiles run. -/
def dealStart (q : Nat) (d : Dev) : Dev :=
  let j := getJob d q
  if j.loaded ∧ !j.started ∧ j.startTrick ≤ d.time.trick ∧ d.time.phase = 0 ∧ j.unloading = 0 then
    (partTiles d q).foldl (fun e t => modMe t (fun x => { x with run := true }) e)
      (setJob q { j with started := true, cursor := 0 } d)
  else d

/-- DEAL_START: R31, R37. -/
def execDealStart (q : Eighth) (s : State) : Out := runMain (dealStart q.val) s

/-- What a halt does but for its event: nothing more starts, collectives are abandoned, HALTED and WHY stand. -/
def haltJob (q why : Nat) (d : Dev) : Dev :=
  modJob q (fun j => { j with halted := true, haltedWhy := why, why := 0 }) (coAbandon q d)

/-- At the first boundary after its cause a job halts and raises DEAL_STALL. -/
def jobHalt (q : Nat) (d : Dev) : Dev :=
  let j := getJob d q
  if jobRuns d q ∧ j.why ≠ 0 ∧ j.whyAt < d.time.trick ∧ d.time.phase = 0 ∧ j.unloading = 0 then
    event 2 0 (8 + q) (haltJob q j.why d)
  else d

/-- JOB_HALT: R42, R43, R264. -/
def execJobHalt (q : Eighth) (s : State) : Out := runMain (jobHalt q.val) s

/-- A tile's stock keeps only transfers whose every request has been issued. -/
def stUnload (t : Nat) (d : Dev) : Dev :=
  modTile t (fun x =>
    let x := allVisible x
    { x with
      slots := []
      me := { x.me with run := false }
      st := { x.st with owners := [], classes := [], wheld := [], xfers := x.st.xfers.filter allIssued } }) d

/-- The hands of a partition that wait in SLOTWAIT fault with BAD_SLOT (R134). -/
def slotwaitFault (q : Nat) (d : Dev) : Dev :=
  (d.body.hands.filter (fun p => tilePart d (p.1 / 64) == some q && p.2.state == .slotwait)).foldl (fun e p =>
    handFault (p.1 / 64) (p.1 % 64) 9 0 (p.2.pc - 4).toNat e) d

/-- The effect of an UNLOAD at the boundary after it (R407). Slip and late log stand until a LOAD clears them (R405). -/
def unloadEffect (q : Nat) (d : Dev) : Dev :=
  let j := getJob d q
  if j.loaded ∧ j.unloading ≠ 0 ∧ j.unloading ≤ d.time.trick ∧ d.time.phase = 0 then
    let d := if jobRuns d q then haltJob q 0 d else d
    let d := slotwaitFault q d
    let d := (partTiles d q).foldl (fun e t => stUnload t e) d
    let j := getJob d q
    dlDone 0 (setJob q { Job.z with slip := j.slip, lateCnt := j.lateCnt, lateLog := j.lateLog } (coUnload q d))
  else d

/-- UNLOAD_EFFECT: R43, R71, R134, R265, R407. -/
def execUnloadEffect (q : Eighth) (s : State) : Out := runMain (unloadEffect q.val) s

end Sys2Proof.Machine
end

