-- ==== Sys2Proof/Machine/Time.lean ====
section
/-! DEFINITION. Global time (spec/02_time_and_the_deal.md, R20 to R30, R39 to R42, R415, R416): the count, its
distribution by trick markers, one core cycle of the block, and the check of every running job at a trick boundary. -/

namespace Sys2Proof.Machine

def modTb (f : TbSt → TbSt) (d : Dev) : Dev := modBody (fun b => { b with tb := f b.tb }) d

/-! ## The parent port and the dealer (R23, R24, R27 to R29) -/

/-- A port has a trained link. -/
def portUp (d : Dev) (p : Nat) : Bool := (List.range 4).any (fun k => (getLink d (lkKey p k)).state == lkUp)

/-- The markers that a port carries: none once 16 consecutive tricks brought none, or with no trained link (R28). -/
def carried (d : Dev) (p : Nat) : Option Marker :=
  if portUp d p ∧ tget 0 d.body.tb.silent p < 16 then tget Marker.z d.body.tb.markers p else none

/-- The port that R24 prefers: lowest dealer, then lowest hop count, then the first in port order. -/
def bestPort (d : Dev) : Option (Nat × Marker) :=
  (List.range 6).foldl (fun a p =>
    match carried d p, a with
    | none, _ => a
    | some m, none => some (p, m)
    | some m, some (r, x) =>
      if m.dealer < x.dealer ∨ (m.dealer = x.dealer ∧ m.hops < x.hops) then some (p, m) else some (r, x)) none

/-- The dealer in the parent's markers: a change is recorded and raised (R29). -/
def setDealer (n : Nat) (d : Dev) : Dev :=
  if d.body.tb.dealer = n then d else event 1 0 0 (modTb (fun x => { x with dealer := n }) d)

/-- Choose the parent port (R24); a device that sources markers has none (R27). -/
def chooseParent (d : Dev) : Dev :=
  if d.body.tb.sourcing then d
  else match bestPort d with
    | some (p, m) => setDealer m.dealer (modTb (fun x => { x with parent := p, hops := m.hops }) d)
    | none => modTb (fun x => { x with parent := 7, hops := 0 }) d

/-- Some partition runs a deal. -/
def anyRuns (d : Dev) : Bool := (List.range 8).any (fun q => jobRuns d q)

/-- A port's one-way delay in ps: half of the round trip measured on its lowest trained link (R25). -/
def oneWay (d : Dev) (p : Nat) : Nat :=
  match (List.range 4).find? (fun k => (getLink d (lkKey p k)).state == lkUp) with
  | some k => (tget DelaySt.z d.body.tb.delays (lkKey p k)).roundTrip / 2
  | none => 0

/-- The phase error to the parent in ps: where R25 places the boundary, the marker's arrival less the one-way delay,
counted from this device's own boundary. -/
def phaseError (d : Dev) (p : Nat) (arrival : Int) : Int := arrival - oneWay d p

/-- The phase error to the parent in ps; a low part that names another trick is an error of at least one trick, more
than one play (R26). -/
def timeLost (d : Dev) (low : Nat) (err : Int) : Bool := decide (32000 < err.natAbs) || low != d.time.trick % 65536

/-- A marker of the parent port: hop count, dealer, phase error; TIME_LOST halts every running job, and with none
running the count follows a marker that carries the full trick number (R26, R29). -/
def followParent (m : Marker) (err : Int) (d : Dev) : Dev :=
  let d := setDealer m.dealer (modTb (fun x => { x with hops := m.hops, offset := err }) d)
  if anyRuns d then
    (if timeLost d m.low16 err then (List.range 8).foldl (fun e q => haltFor q 2 e) (event 1 0 1 d) else d)
  else match m.full with
    | some n => { d with time := { d.time with trick := n } }
    | none => d

/-- A trick marker arrives on a port (R23 to R27, R29), `arrival` ps after this device's own boundary. -/
def marker (p : Nat) (m : Marker) (arrival : Int) (d : Dev) : Dev :=
  if !portUp d p then d
  else
    let d := modTb (fun x => { x with
      markers := tset Marker.z x.markers p (some m), silent := tset 0 x.silent p 0, heard := setAdd x.heard p }) d
    let d := if d.body.tb.sourcing ∧ m.dealer < myDev d then modTb (fun x => { x with sourcing := false, parent := 7 }) d else d
    let d := if d.body.tb.parent = 7 then chooseParent d else d
    if d.body.tb.parent = p then followParent m (phaseError d p arrival) d else d

/-- TRICK_MARKER: R23 to R27, R29. -/
def execTrickMarker (p : Port) (low : BitVec 16) (full : Dword) (dealer : DevNum) (hops : Fin 64) (running : Bool)
    (arrival : Int) (s : State) : Out :=
  let m : Marker :=
    ⟨low.toNat, if low.toNat % 1024 = 0 then some full.toNat else none, dealer.val, hops.val, running⟩
  runTime (fun d => if d.power.mainOn then marker p.val m arrival d else d) s

/-- The parent port has been silent for 16 tricks: another port that carries markers takes its place. -/
def parentLost (d : Dev) : Dev :=
  if d.body.tb.parent < 6 ∧ 16 ≤ tget 0 d.body.tb.silent d.body.tb.parent then chooseParent d else d

/-- PARENT_LOST: R24, R28, R29. -/
def execParentLost (s : State) : Out := runMain parentLost s

/-- Become the dealer: the unbroken count goes on (R27, R28). -/
def source (d : Dev) : Dev :=
  modTb (fun x => { x with sourcing := true, parent := 7, hops := 0, dealer := myDev d }) d

/-- After 32 tricks without markers on any port, a device that holds TREF names itself dealer. -/
def startSourcing (d : Dev) : Dev :=
  let x := d.body.tb
  if x.tref ∧ x.locked ∧ !x.sourcing ∧ (List.range 6).all (fun p => decide (32 ≤ tget 0 x.silent p)) then source d else d

/-- START_SOURCING: R27, R28. -/
def execStartSourcing (s : State) : Out := runMain startSourcing s

/-- Write one link's delay state. -/
def modDelay (p l : Nat) (f : DelaySt → DelaySt) (d : Dev) : Dev :=
  modTb (fun x => { x with delays := tset DelaySt.z x.delays (lkKey p l) (f (tget DelaySt.z x.delays (lkKey p l))) }) d

/-- The round trip of an exchange: from the echo of this device's send time, moved on by the time that the peer held it,
to its arrival (R25; DEDUCED, log 97). -/
def DelaySt.measured (x : DelaySt) : Nat :=
  match x.arrived with
  | some a => a - x.echo
  | none => x.roundTrip

/-- A trained link takes its round trip from the timestamps exchanged since its last measurement, and sends the next. -/
def measure (p l at_ : Nat) (d : Dev) : Dev :=
  if (getLink d (lkKey p l)).state = lkUp then
    modDelay p l (fun x => { x with roundTrip := x.measured, sentAt := at_, arrived := none }) d
  else d

/-- ROUND_TRIP_MEASURE: R25. -/
def execRoundTripMeasure (p : Port) (l : Link) (at_ : Nat) (s : State) : Out := runMain (measure p.val l.val at_) s

/-- A timestamp that arrives on a trained link: send time, echo, arrival. -/
def stampIn (p l sent echo arrived : Nat) (d : Dev) : Dev :=
  if (getLink d (lkKey p l)).state = lkUp then
    modDelay p l (fun x => { x with stamp := sent, echo := echo, arrived := some arrived }) d
  else d

/-- TIMESTAMP: R25, R215. -/
def execTimestamp (p : Port) (l : Link) (stamp : Stamp) (arrived : Nat) (s : State) : Out :=
  runMain (stampIn p.val l.val stamp.sent stamp.echo arrived) s

/-! ## Time of day and the reference (R30, R414 to R416) -/

/-- 1 ms in core cycles. -/
def msCycles : Nat := 1500000

/-- An edge of TOD_PPS latches trick and phase unless it comes within 1 ms of the last accepted one. A count that has
restarted since makes the last one older. -/
def todEdge (d : Dev) : Dev :=
  let early := match d.body.board.todLast with
    | some c => decide (c ≤ now d) && decide (now d < c + msCycles)
    | none => false
  if early then d
  else modBody (fun b => { b with board := { b.board with todLast := some (now d) } })
    (modTb (fun x => { x with todTrick := d.time.trick, todPhase := d.time.phase }) d)

/-- TOD_PPS_EDGE: R30, R416. -/
def execTodPpsEdge (s : State) : Out := runMain todEdge s

/-- TREF_VALID: R414. A TREF that comes after step 6 is not used (R365, R415). -/
def execTrefValid (s : State) : Out := run (modTb (fun x => { x with tref := true })) s

/-- TREF_LOST: the device stops sourcing at once, and is no longer locked to TREF until the next reset (R415). -/
def execTrefLost (s : State) : Out :=
  run (fun d =>
    let was := d.body.tb.sourcing
    let d := modTb (fun x => { x with tref := false, locked := false, sourcing := false }) d
    if was ∧ d.power.mainOn then chooseParent d else d) s

/-! ## One core cycle -/

/-- The SHIFT of a debug-halted tile pauses between weight rows; its running steps end (R335). -/
def haltShift (x : Tile) : Tile := { x with me := { x.me with shift := x.me.shift.map pauseShift } }

/-- Apply a function to every tile that is not as after reset. -/
def allTiles (f : Nat → Tile → Tile) (d : Dev) : Dev :=
  modBody (fun b => { b with tiles := b.tiles.foldl (fun a p => tset Tile.z a p.1 (f p.1 p.2)) b.tiles }) d

/-- A cycle in which the paths are gated, or a tile is debug-halted (R335, R354). -/
def pauseCycle (d : Dev) : Dev :=
  if gatedCycle d then
    ctlAdd (regOff 9 0 0x5C) 1 (modTb (fun x => { x with gated := true }) (allTiles (fun _ x => pauseTile (now d) x) d))
  else d.body.tileHalt.foldl (fun e t => modTile t haltShift e) d

/-- One tile in this cycle: rows written (R53), the ends of banks (R70), the waits of its paths (R137, R154, R155,
R159, R163, Table HD-7), its SRAM's ports (R46), and the writes of slots (R133). -/
def tileCycle (t : Nat) (d : Dev) : Dev :=
  let d := standSt t (standSf t (standTile false t (landTile t d)))
  let held := meSlotHeld d t || sfSlotHeld d t || stSlotHeld d t
  let d := stCycle t (sfCycle t (meCycle t (stallCycle t d)))
  let d := if held then ctlAdd (regOff 18 t 0x64) 1 d else d
  readTile t (settleSlots t (sramCycle t d))

/-- The positions at which a HOLD start waits for its doorbell (R247). -/
def doorWaits (d : Dev) : Nat :=
  (d.body.suits.filter (fun p =>
    !p.2.waiting.isEmpty && (match suitOf d (p.1 / 4096) (p.1 % 4096) with
      | some x => waitingSuit d (p.1 / 4096) x.act == some x && coDoorWaits d (8 * (p.1 / 4096) + x.act)
      | none => false))).length

/-- The tiles that have hands at work, each once. -/
def handTiles (d : Dev) : List Nat := d.body.hands.foldl (fun a p => setAdd a (p.1 / 64)) []

/-- The hold timers of held locks run, but for those of debug-halted cores (R336, R400). -/
def lockTimers (d : Dev) : Dev :=
  modBody (fun b => { b with pages := b.pages.map (fun p =>
    (p.1, if p.2.held && !b.coreHalt.contains p.2.owner then { p.2 with timer := p.2.timer + 1 } else p.2)) }) d

/-- What happens in one core cycle whatever is commanded. -/
def tick (d : Dev) : Dev :=
  let d := lockTimers d
  if !d.power.mainOn then d
  else
    let d := pauseCycle d
    let d := (d.body.tiles.map (·.1)).foldl (fun e t => tileCycle t e) d
    let d := (handTiles d).foldl (fun e t => handsCycle t e) d
    let n := doorWaits d
    let d := if n = 0 then d else ctlAdd (regOff 6 0 0x58) n d
    let d := d.body.hbmStacks.foldl (fun e p => if p.2.throttle = 0 then e else ctlAdd (regOff 12 (p.1 / 4) (0xC0 + 4 * (p.1 % 4))) 1 e) d
    elapseAll d

/-- The count moves to the next cycle of the trick; a trick ends only by TRICK_BOUNDARY. -/
def nextCycle (d : Dev) : Dev := { d with time := { d.time with phase := d.time.phase + 1, cycle := d.time.cycle + 1 } }

/-- The effects of the cycle that the count stands at, and the move to the next; in the last cycle of a trick the block
waits for the boundary. -/
def idleCycle (d : Dev) : Dev :=
  if d.power.mainOn ∧ 767 ≤ d.time.phase then d
  else if d.power.mainOn then nextCycle (tick d) else tick d

/-- The block with no command waiting: one core cycle passes (log 2). -/
def idle (s : State) : Out := runTime idleCycle s

/-! ## The check at a trick boundary (R39 to R42) -/

/-- The flags, as global addresses, that a tile's paths wait on. -/
def flagWaits (d : Dev) (t : Nat) : List Nat :=
  (match meWaiting d t with
    | some (.flag a) => [a]
    | _ => [])
  ++ (match sfNext d t true with
    | some (_, c, f) => (match sfWait d t c f.word with
      | some (.flag a) => [a]
      | _ => [])
    | none => [])
  ++ (match stNext d t true with
    | some (_, _, f) => if dsKind f.word = 7 then [dsFaddr f.word] else []
    | none => [])

/-- The device that a wait on an operation's flag waits for, when the operation waits for a peer's packets (R263). -/
def coLink (d : Dev) (q addr : Nat) : Option Nat :=
  (List.range 64).findSome? (fun a =>
    match coAt d a with
    | some (r, x) => if r.q = q ∧ r.desc.faddr = addr ∧ addr ≠ 0 then (coMissing d r x).head? else none
    | none => none)

/-- Why a tile makes the trick late: causes with their sources. -/
def tileLate (d : Dev) (q t : Nat) : List (Nat × Nat) :=
  (if d.body.tileHalt.contains t then [(1, t)] else [])
  ++ (meLate d t ++ sfLate d t ++ stLate d t).map (fun c => (c, if c = 4 then 0 else t))
  ++ (flagWaits d t).filterMap (fun a => (coLink d q a).map (fun n => (3, n)))

/-- Why a partition's deal trick is unfinished. `links` names the devices whose link slots have not arrived. -/
def partLate (d : Dev) (q : Nat) (links : List Nat) : List (Nat × Nat) :=
  ((partTiles d q).map (tileLate d q)).flatten ++ links.map (fun n => (3, n))

/-- The record of a late trick: the lowest cause, and of that the lowest source. R41 gives both for logical tiles; that a
LINK_WAIT record names the lowest of several devices is DESIGN CHOICE (log 96). -/
def lowest (l : List (Nat × Nat)) : Option (Nat × Nat) :=
  l.foldl (fun a x => match a with
    | none => some x
    | some y => if x.1 < y.1 ∨ (x.1 = y.1 ∧ x.2 < y.2) then some x else some y) none

/-- A late trick: slip, stall count, record, cause counter, and a halt when the stall limit is exceeded (R39, R41,
R42). `ended` is the global trick that ended. -/
def lateTrick (q ended : Nat) (c : Nat × Nat) (d : Dev) : Dev :=
  let j := getJob d q
  let d := setJob q { j with
    slip := j.slip + 1, stall := j.stall + 1, lateCnt := (j.lateCnt + 1) % 2 ^ 32
    lateLog := tset LateRec.z j.lateLog (j.lateCnt % 16) ⟨ended, j.cursor, c.1, c.2⟩ } d
  let d := ctlAdd (causeOff q c.1) 1 d
  if j.deal.stallLimit < j.stall + 1 then haltFor q 1 d else d

/-- A finished deal trick: the cursor advances (R39). -/
def advance (q : Nat) (d : Dev) : Dev := modJob q (fun j => { j with cursor := j.cursor + 1, stall := 0 }) d

/-- A partition's check applies at a boundary: its job runs and no halt or UNLOAD takes effect there (R43, R407). -/
def checked (d : Dev) (q : Nat) : Bool := let j := getJob d q; jobRuns d q && j.why == 0 && j.unloading == 0

/-- The steps of a tile that have written their last byte by this cycle are finished. -/
def endSteps (t : Nat) (d : Dev) : Dev := endSf t (endVec t (endShift t (endCompute t d)))

/-- A core cycle of which no row ends a step: the steps whose last byte it sees end by themselves. -/
def fullCycle (d : Dev) : Dev := tick ((d.body.tiles.map (·.1)).foldl (fun e t => endSteps t e) d)

/-- The state in the last cycle of the trick: each cycle up to it passes (R20), and steps that end in one have finished
before the check of R39. -/
def trickEnd (d : Dev) : Dev := fullCycle (forN (767 - d.time.phase) (fun _ e => nextCycle (fullCycle e)) d)

/-- The marker that a device sends on a port in play 0 of a trick (R23): the dealer's own on every port, else its parent's
with one hop more on the others (R24, R28); none without either. -/
def markerOut (d : Dev) (p : Nat) : Option Marker :=
  let x := d.body.tb
  let t := d.time.trick
  let m (n h : Nat) : Marker := ⟨t % 65536, if t % 1024 = 0 then some t else none, n, h, x.running⟩
  if x.sourcing then some (m (myDev d) 0)
  else if x.parent < 6 ∧ p ≠ x.parent then some (m x.dealer ((x.hops + 1) % 64)) else none

/-- The markers leave in the first control word of play 0 of every trained link (R23). -/
def sendMarkers (d : Dev) : Dev :=
  modTb (fun x => { x with sent := (List.range 24).foldl (fun a k =>
    tset Marker.z a k (if (getLink d k).state = lkUp then markerOut d (k / 4) else none)) [] }) d

/-- A port that brought no marker in the trick that ends has been silent for one more; the phase error is corrected by at
most 250 ps (R26, R28). -/
def tbBoundary (d : Dev) : Dev :=
  modTb (fun x =>
    { x with
      silent := (List.range 6).foldl (fun a p =>
        if x.heard.contains p then a else tset 0 a p (tget 0 x.silent p + 1)) x.silent
      heard := []
      offset := if x.offset.natAbs ≤ 250 then 0 else if 0 < x.offset then x.offset - 250 else x.offset + 250
      gated := false }) d

/-- The boundary: the count enters the next trick, and every running job is checked; every 1,024 tricks the parent is
chosen again. -/
def boundary (late : List (Nat × Nat)) (d : Dev) : Dev :=
  let e := trickEnd d
  let ended := e.time.trick
  let n := tbBoundary { e with time := ⟨ended + 1, 0, e.time.cycle + 1⟩ }
  let n := (List.range 8).foldl (fun a q =>
    if checked e q then
      match lowest (partLate e q ((late.filter (fun x => x.1 == q)).map (·.2))) with
      | some c => lateTrick q ended c a
      | none => advance q a
    else a) n
  sendMarkers (if (ended + 1) % 1024 = 0 then chooseParent n else n)

/-- TRICK_BOUNDARY: R20, R21, R23, R24, R39 to R42, R354. -/
def execTrickBoundary (linkLate : List (Eighth × DevNum)) (s : State) : Out :=
  runTime (fun d =>
    if d.power.mainOn then boundary (linkLate.map (fun x => (x.1.val, x.2.val))) d else d) s

end Sys2Proof.Machine
end

