-- ==== Sys2Proof/Machine/Power.lean ====
section
/-! DEFINITION. Power, reset and start-up (spec/17_power_startup.md, R349 to R374), with the test access port and the
election over the management bus (R417 to R421). -/

namespace Sys2Proof.Machine

/-- Offsets of registers of the power page, and the page's events by bit (Table MP-6, Table PW-7). -/
def pwOff (o : Nat) : Nat := regOff 9 0 o
def evMainFail : Nat := 0
def evPsAlert : Nat := 1
def evLimitOn : Nat := 2
def evThermWarn : Nat := 3
def evThermGate : Nat := 4
def evFallback : Nat := 5
def evDomainDone : Nat := 6
def evSplit : Nat := 7
def pwEvent (bit : Nat) (d : Dev) : Dev := event 9 0 bit d

/-! ## Main power (R349, R350, R356) -/

/-- The contents of HBM, GDDR7 and tile SRAM are lost, with the keys (R350, R367): what comes after reads as zero. -/
def memLost (d : Dev) : Dev :=
  memDoAll ([MemOp.clear Config.hbmBase 0x006000000000, .clear Config.gddrBase (0x011200000000 - Config.gddrBase),
      .clear Config.sramBase (0x018028000000 - Config.sramBase)]
    ++ ((List.range 8).map (fun q => [MemOp.current q 0, .baseline q 0, .current (8 + q) 0])).flatten) d

/-- MOD_FAULT_N is driven low, or released (R419). -/
def modFault (low : Bool) (d : Dev) : Dev := modBody (fun b => { b with board := { b.board with modFault := low } }) d

/-- Main power is removed for a cause of `PW_STAT.OFFCAUSE`; a trip starts the lockout, a loss of the auxiliary supply
ends it. The power stage stops and its status holds the cause (R351), and MOD_FAULT_N goes low (R419). -/
def mainFail (cause : Nat) (d : Dev) : Dev :=
  if !d.power.mainOn ∨ cause = 0 then d
  else
    let d := modPower (fun p =>
      { p with mainOn := false, phase := 7, offCause := cause, operate := false, stageFault := cause
               lockout := if cause = 4 then true else if cause = 3 then false else p.lockout }) d
    pwEvent evMainFail (modFault true (memLost d))

/-- MAIN_FAIL: R350. -/
def execMainFail (cause : Fin 6) (s : State) : Out := runPower (mainFail cause.val) s

/-- PS_ALERT: R351. -/
def execPsAlert (s : State) : Out := run (pwEvent evPsAlert) s

/-! ## The limiter (R353, R354) -/

/-- `PW_LIMIT` in units of 0.1 W. -/
def limitOf (d : Dev) : Nat := 10 * ctlNat d (pwOff 0x48)

/-- The sum of the last 16 samples, and the average in units of 0.1 W. -/
def sampleSum (p : PowerSt) : Nat := p.samples.foldl (· + ·) 0
def inputPower (p : PowerSt) : Nat := if p.samples.isEmpty then 0 else sampleSum p / p.samples.length

/-- The average exceeds the limit; it is below 0.97 of it. -/
def overLimit (d : Dev) (p : PowerSt) : Bool := decide (p.samples.length * limitOf d < sampleSum p)
def belowLimit (d : Dev) (p : PowerSt) : Bool := decide (100 * sampleSum p < 97 * (p.samples.length * limitOf d))

/-- Set the limiter's duty: the first lowering after D was last 16 raises LIMIT_ON. -/
def setDuty (n : Nat) (d : Dev) : Dev :=
  let was := d.power.pduty
  let d := modPower (fun p => { p with pduty := clampDuty n }) d
  if was = 16 ∧ n < 16 then pwEvent evLimitOn d else d

/-- The average after a sample: above the limit the duty falls by one at once when it was not above before. -/
def averageStep (d : Dev) : Dev :=
  let p := d.power
  if overLimit d p then
    (if p.isOver then modPower (fun p => { p with ovr := p.ovr + 1, below := 0 }) d
     else setDuty (p.pduty - 1) (modPower (fun p => { p with isOver := true, ovr := 0, below := 0 }) d))
  else
    modPower (fun p => { p with isOver := false, ovr := 0, below := if belowLimit d p then p.below + 1 else 0 }) d

/-- One sample of the telemetry line, every µs: input power in 0.1 W, input voltage in 10 mV. A sample above 2,000 W sets the
duty to 8 at once. -/
def limiterSample (power vin : Nat) (d : Dev) : Dev :=
  let d := averageStep (modPower (fun p => { p with samples := (power :: p.samples).take 16, vin := vin }) d)
  if 20000 < power then setDuty 8 d else d

/-- LIMITER_SAMPLE: R351, R353. -/
def execLimiterSample (power vin : BitVec 16) (s : State) : Out :=
  runPower (fun d => if d.power.mainOn then limiterSample power.toNat vin.toNat d else d) s

/-- The limiter's duty falls every 2 µs above the limit, and rises after each 32 µs below 0.97 of it. -/
def limiterStep (d : Dev) : Dev :=
  let p := d.power
  if p.isOver ∧ 2 ≤ p.ovr then setDuty (p.pduty - 1) (modPower (fun p => { p with ovr := 0 }) d)
  else if 33 ≤ p.below ∧ p.pduty < 16 then setDuty (p.pduty + 1) (modPower (fun p => { p with below := 1 }) d)
  else d

/-- LIMITER_DUTY_STEP: R353. -/
def execLimiterDutyStep (s : State) : Out := runPower (fun d => if d.power.mainOn then limiterStep d else d) s

/-! ## Thermal limits (R355, R356) -/

def warnAt (d : Dev) : Nat := ctlNat d (pwOff 0x58) % 256
def gateAt (d : Dev) : Nat := ctlNat d (pwOff 0x58) / 256 % 256
def hottest (d : Dev) : Nat := max d.power.tempEast d.power.tempWest

/-- Lower the thermal duty by one: from 16 it raises THERM_GATE. -/
def lowerThermal (d : Dev) : Dev :=
  let was := d.power.tduty
  let d := modPower (fun p => { p with tduty := clampDuty (p.tduty - 1), hotFor := 0 }) d
  if was = 16 then pwEvent evThermGate d else d

/-- The actions of R356 at the temperatures as they stand: warning, and the first lowering at GATE. -/
def thermEval (d : Dev) : Dev :=
  let t := hottest d
  let d := if warnAt d ≤ t ∧ !d.power.warned then pwEvent evThermWarn (modPower (fun p => { p with warned := true }) d)
    else if t + 5 ≤ warnAt d then modPower (fun p => { p with warned := false }) d else d
  if gateAt d ≤ t then
    (if d.power.gating then d else lowerThermal (modPower (fun p => { p with gating := true, coolFor := 0 }) d))
  else modPower (fun p => { p with gating := false, hotFor := 0 }) d

/-- A sample of the die sensors, every 10 µs: the actions of every threshold that it reaches (R356). -/
def dieSample (east west : List Byte) (d : Dev) : Dev :=
  let top (l : List Byte) : Nat := l.foldl (fun a b => max a b.toNat) 0
  let d := modPower (fun p => { p with tempEast := top east, tempWest := top west }) d
  let was := d.power.gating
  let d := thermEval d
  if 105 ≤ hottest d then mainFail 4 d
  else
    modPower (fun p =>
      { p with hotFor := if was && p.gating then p.hotFor + 1 else 0
               coolFor := if hottest d + 5 ≤ gateAt d then p.coolFor + 1 else 0 }) d

/-- DIE_TEMP_SAMPLE: R355, R356. -/
def execDieTempSample (east west : List Byte) (s : State) : Out :=
  runPower (fun d => if d.power.mainOn then dieSample east west d else d) s

/-- Every 100 µs (10 samples) the thermal duty falls at GATE, or rises 5 °C below it. -/
def thermalStep (d : Dev) : Dev :=
  let p := d.power
  if p.gating ∧ 10 ≤ p.hotFor then lowerThermal d
  else if 11 ≤ p.coolFor ∧ p.tduty < 16 then modPower (fun p => { p with tduty := p.tduty + 1, coolFor := 1 }) d
  else d

/-- THERMAL_DUTY_STEP: R356. -/
def execThermalDutyStep (s : State) : Out := runPower (fun d => if d.power.mainOn then thermalStep d else d) s

/-! ## Tile power domains (R357) -/

/-- `PW_DOMAIN` as it reads: OFF as written, DOWN from the domains. -/
def domainWord (d : Dev) : Nat :=
  ctlNat d (pwOff 0x60) % 256 + 256 * (List.range 8).foldl (fun a q => if (getEighth d q).domain = .off then a + 2 ^ q else a) 0

/-- A write of `PW_DOMAIN`: bits newly set gate their domains, cleared ones power them on. -/
def domainWrite (r : Req) (v : Nat) (d : Dev) : Dev :=
  mgmtOnly r (pageBase 9 0) (pwOff 0x60) (fun d =>
    let new := (List.range 8).filter (fun q => bitAt v q && (getEighth d q).domain == .on)
    if new.any (fun q => let x := getEighth d q; x.used || x.scrub || x.scrubbing) then
      refuse r (pageBase 9 0) (pwOff 0x60) cState true d
    else
      let d := ctlSetN (pwOff 0x60) (v % 256) d
      (List.range 8).foldl (fun e q => modEighth q (fun x =>
        if bitAt v q then
          (if x.domain = .on then { x with domain := .gating, offAt := e.time.trick, onWaits := false } else { x with onWaits := false })
        else if x.domain = .on then x else { x with onWaits := true }) e) d) d

/-- PW_DOMAIN_OFF: R357. -/
def execPwDomainOff (r : Req) (q : Eighth) (s : State) : Out :=
  run (fun d =>
    let v := ctlNat d (pwOff 0x60) % 256 ||| 2 ^ q.val
    access r (pwOff 0x60) 4 true v (domainWrite r v) d) s

/-- PW_DOMAIN_ON: R357. -/
def execPwDomainOn (r : Req) (q : Eighth) (s : State) : Out :=
  run (fun d =>
    let c := ctlNat d (pwOff 0x60) % 256
    let v := if bitAt c q.val then c - 2 ^ q.val else c
    access r (pwOff 0x60) 4 true v (domainWrite r v) d) s

/-- A domain is off three tricks after the write, its memories lost; one that waits for power is on again. -/
def domainDone (q : Nat) (d : Dev) : Dev :=
  let x := getEighth d q
  if x.domain = .gating ∧ x.offAt + 3 ≤ d.time.trick then
    pwEvent evDomainDone ((eighthTiles q).foldl (fun e t => zeroTile t e) (modEighth q (fun y => { y with domain := .off }) d))
  else if x.domain = .off ∧ x.onWaits then
    pwEvent evDomainDone ((eighthTiles q).foldl (fun e t => zeroTile t e)
      (modEighth q (fun y => { y with domain := .on, onWaits := false }) d))
  else d

/-- DOMAIN_DONE: R357. -/
def execDomainDone (q : Eighth) (s : State) : Out := runMain (domainDone q.val) s

/-! ## The settings store (R358 to R362, R384) -/

/-- n bytes of the settings store. -/
def norBytes (d : Dev) (a n : Nat) : List Byte := (List.range n).map (fun i => tget 0 d.body.board.nor (a + i))
def norNat (d : Dev) (a n : Nat) : Nat := leNat (norBytes d a n)

/-- The start of a slot, and of an Emfen image: A, B (Table PW-2). -/
def slotBase (b : Bool) : Nat := if b then 0x1000000 else 0
def imageBase (b : Bool) : Nat := if b then 0x3000000 else 0x2000000

/-- What a range of the settings store holds, as a measurement takes it: the bytes that are not 0, each with its place. -/
def norContent (d : Dev) (a n : Nat) : List Nat :=
  ((d.body.board.nor.filter (fun p => decide (a ≤ p.1) && decide (p.1 < a + n))).map (fun p => [p.1 - a, p.2.toNat])).flatten

/-- A slot is valid (R361). -/
def slotValid (d : Dev) (a : Nat) : Bool :=
  let n := norNat d (a + 12) 4
  norNat d a 4 == 0x33534C4A && norNat d (a + 4) 2 == 3 && norNat d (a + 6) 2 == 64 && decide (64 ≤ n)
    && decide (n ≤ 0x1000000) && crc32 (norBytes d a 16 ++ [0, 0, 0, 0] ++ norBytes d (a + 20) (n - 20)) == norNat d (a + 16) 4

/-- The SEQ of slot A is later than that of slot B. -/
def seqLater (a b : Nat) : Bool := let x := (a + 2 ^ 32 - b) % 2 ^ 32; decide (0 < x) && decide (x < 2 ^ 31)

/-- The slot that is used: none, A or B (codes of `PW_STAT.SETTINGS`). -/
def slotUsed (d : Dev) : Nat :=
  let a := slotValid d (slotBase false)
  let b := slotValid d (slotBase true)
  if a && b then (if seqLater (norNat d (slotBase true + 8) 4) (norNat d 8 4) then 2 else 1)
  else if a then 1 else if b then 2 else 0

/-- The slot used is not the later-numbered one, or none is: the other slot bears a header with a later SEQ. -/
def fallback (d : Dev) : Bool :=
  let u := slotUsed d
  let seq (b : Bool) : Nat := norNat d (slotBase b + 8) 4
  u == 0 || (u == 1 && norNat d (slotBase true) 4 == 0x33534C4A && seqLater (seq true) (seq false))
    || (u == 2 && norNat d (slotBase false) 4 == 0x33534C4A && seqLater (seq false) (seq true))

/-- The value of the first item of a type, and of its length where `want` is not 0, from an offset, among n items (R359): one
of another length is as if absent (R360). -/
def itemAt (d : Dev) (type want stop : Nat) : Nat → Nat → Option (List Byte)
  | 0, _ => none
  | n + 1, o =>
    let len := norNat d (o + 2) 2
    if stop < o + 4 + len then none
    else if norNat d o 2 = type ∧ (want = 0 ∨ len = want) then some (norBytes d (o + 4) len)
    else itemAt d type want stop n (o + 4 + len)

/-- The value of an item in the slot used; none when absent or of another length (R360). `len` 0 takes any length. -/
def item (d : Dev) (type len : Nat) : Option (List Byte) :=
  let u := slotUsed d
  if u = 0 then none
  else
    let a := slotBase (u == 2)
    itemAt d type len (a + norNat d (a + 12) 4) (norNat d (a + 20) 4) (a + 64)

/-- A TILE_MAP item is in range and names no physical tile twice. -/
def tileMapOk (v : List Byte) : Bool :=
  (List.range 144).all (fun n => let p := leAt v n 1
    if n < 72 then decide (p < 80) else decide (80 ≤ p) && decide (p < 160))
    && distinct (v.map (·.toNat))

/-- The map of logical to physical tiles: only entries that differ from the default (R9, R360). -/
def tileMapOf (v : List Byte) : Tbl Nat :=
  (List.range 144).filterMap (fun n => let p := leAt v n 1; if p = (if n < 72 then n else n + 8) then none else some (n, p))

/-- The lanes that a LANE_REPAIR item excludes from training: of link u of 24 with 8 lanes, and under key 24 of the host
link with 16 (R298, R384). -/
def laneOutOf (v : List Byte) : Tbl Nat :=
  (List.range (v.length / 4)).foldl (fun a i =>
    let w := leAt v (4 * i) 4
    let u := bits w 8 4
    let lane := bits w 21 14
    let key := if bits w 3 0 = 2 ∧ u < 24 ∧ lane < 8 then some u
      else if bits w 3 0 = 4 ∧ u = 0 ∧ lane < 16 then some 24
      else none
    match key with
    | some k => if bits w 13 9 = 0 ∧ bits w 23 22 = 1 then tset 0 a k (tget 0 a k ||| 2 ^ lane) else a
    | none => a) []

/-- Apply a list of 32-bit register values with their masks. -/
def putRegs (v : List Byte) (l : List (Nat × Nat)) (d : Dev) : Dev :=
  l.zipIdx.foldl (fun e x => ctlSetN x.1.1 (leAt v (4 * x.2) 4 &&& x.1.2) e) d

/-- The registers of a ROUTER item: RT_CFG, RT_XY, RT_POS, 17 RT_SEAT. -/
def routerRegs : List (Nat × Nat) :=
  [(regOff 7 0 0x40, 0x3FF), (regOff 7 0 0x44, 0x3FF), (regOff 7 0 0x48, 0x1F)]
    ++ (List.range 17).map (fun i => (regOff 7 0 (0x80 + 4 * i), 0x3F))

/-- Thresholds that a write of `PW_THERM` may set (R356). -/
def thermOk (v : Nat) : Bool :=
  decide (v % 256 ≤ 104) && decide (v / 256 % 256 ≤ 104) && decide (v % 256 ≤ v / 256 % 256)
/-- Deadlines that `HL_DEADLINE` takes (R318), and limits that `PW_LIMIT` takes (R353). -/
def deadlineOk (v : Nat) : Bool := decide (100 ≤ v) && decide (v ≤ 1000000)
def limitOk (v : Nat) : Bool := decide (1000 ≤ v) && decide (v ≤ 1800)

/-- Put the settings in force; absent items and values that their registers ignore take the defaults (Table PW-4). -/
def applySettings (d : Dev) : Dev :=
  let tm := item d 1 144
  let host := item d 7 8
  let power := item d 8 8
  let link := item d 6 12
  let router := item d 5 80
  let d := modBody (fun b => { b with board :=
    { b.board with
      tileMap := (match tm with | some v => if tileMapOk v then tileMapOf v else [] | none => [])
      hbmLive := (match item d 2 32 with
        | some v => (List.range 8).foldl (fun a s => tset hbmLiveZ a s (leAt v (4 * s) 4)) []
        | none => [])
      gddrLive := (match item d 3 4 with | some v => leAt v 0 4 % 2 ^ 24 | none => gddrLiveZ)
      laneOut := (match item d 4 0 with | some v => laneOutOf v | none => [])
      hostItem := (match host with | some v => leAt v 0 4 % 128 | none => hostItemZ) } }) d
  let d := match router with | some v => putRegs v routerRegs d | none => d
  let d := match link with
    | some v => forN 6 (fun p e =>
        let w := leAt v (2 * p) 2
        ctlSetN (lkOff p 0x40) (2 * bits w 1 0 + 2 ^ 11 * bits w 5 2) e) d
    | none => d
  let us := match host with | some v => leAt v 4 4 % 2 ^ 20 | none => 4000
  let d := ctlSetN (regOff 8 0 0x48) (if deadlineOk us then us else 4000) d
  let lim := match power with | some v => leAt v 0 2 | none => 1800
  let therm := match power with | some v => leAt v 2 2 | none => 0x645F
  ctlSetN (pwOff 0x58) (if thermOk therm then therm else 0x645F) (ctlSetN (pwOff 0x48) (if limitOk lim then lim else 1800) d)

/-- The settings of Table PW-4's defaults, with CXL not offered (R371). -/
def splitSettings (d : Dev) : Dev :=
  modBody (fun b => { b with board :=
    { b.board with tileMap := [], hbmLive := [], gddrLive := gddrLiveZ, laneOut := [], hostItem := 6 + 8 * 3 } }) d

/-! ## What a reset reinitialises (R367) -/

/-- The pages on the auxiliary supply that a MAIN reset leaves: event controller, power, self-test. -/
def standbyPage (n : Nat) : Bool := n == 5 || n == 9 || n == 10

/-- The blocks that every reset but HOST reinitialises, and with `wide` (COLD, SYSTEM) the management complex, the event
controller and the standby pages. Pins, board, flash zones, PERST_N and the count of drawn values stay. -/
def resetBody (wide : Bool) (b : Body) : Body :=
  let z := { Body.z with
    board := { b.board with todLast := none, dbgError := false }, zones := b.zones, free := b.free, replies := b.replies
    hl := { HlSt.z with perst := b.hl.perst }, tb := { TbSt.z with tref := b.tb.tref } }
  if wide then { z with board := { z.board with tap := if b.board.tap = .idcode then .idcode else .bypass } }
  else
    { z with
      pages := b.pages.filter (fun p => standbyPage p.1), ctl := b.ctl.filter (fun p => standbyPage (p.1 / 1024))
      ev := b.ev, bt := { b.bt with acts := [] }, latches := b.latches, coreHalt := b.coreHalt }

/-- The life-cycle state is sampled with what a transition fuses, and debug and sessions close (R331, R333); a change to
RETURN resets every flash zone. -/
def sampleLife (d : Dev) : Dev :=
  let toReturn := d.sec.next = some .return_
  let d := { d with sec :=
    { (match d.sec.next with | some b => lcEffect d.sec.lc b d.sec | none => d.sec) with
      lc := d.sec.next.getD d.sec.lc, next := none, unlocked := false, session := false, ide := false } }
  if toReturn then (List.range 8).foldl (fun e q => eraseFlash q e) d else d

/-- The count restarts (R27, R367). -/
def restart (d : Dev) : Dev := { d with time := ⟨0, 0, 0⟩ }

/-- The power state after a reset: D is 16 after every reset, the rest of the page after COLD and SYSTEM only. `cold` that
the override and OFFCAUSE are cleared. -/
def resetPower (kind : Nat) (p : PowerSt) : PowerSt :=
  if kind = 2 then
    { p with pduty := 16, samples := [], ovr := 0, below := 0, isOver := false, gating := false, hotFor := 0, coolFor := 0
             lastRst := 2, operate := false }
  else
    { PowerSt.z with
      lastRst := kind, lockout := if kind = 0 then false else p.lockout, offCause := if kind = 0 then 0 else p.offCause
      override := if kind = 0 then 0 else p.override }

/-- The common part of the COLD (0), SYSTEM (1) and MAIN (2) resets, with main power off. -/
def resetAll (kind : Nat) (d : Dev) : Dev :=
  let d := if kind = 2 then { d with sec := { d.sec with session := false, ide := false } } else sampleLife d
  let d := restart (memLost { d with body := resetBody (kind != 2) d.body, power := resetPower kind d.power })
  let d := modPower (fun p => { p with mainOn := false }) d
  newNonce (ctlSetN (pwOff 0x60) 0 d)

/-! ## Start-up (R361, R363 to R366, R370, R371) -/

/-- What the two halves find at step 2: the master (0 East, 1 West), or the reason of SPLIT. -/
def election (d : Dev) (b : BootIn) : Nat × Nat :=
  if !b.sideband then (0, 3)
  else if d.power.override = 1 then (0, 0)
  else if d.power.override = 2 then (1, 0)
  else if b.claimEast && b.claimWest then (0, 1)
  else if !b.claimEast && !b.claimWest then (0, 2)
  else (b2n b.claimWest, 0)

/-- The Emfen image that the EMFEN item prefers: B or A (Table PW-4). -/
def emfenPrefers (d : Dev) : Bool := match item d 9 4 with | some v => bitAt (leAt v 0 4) 0 | none => false

/-- The Emfen image that is loaded: the preferred one if it verifies, else the other if it does (R363). -/
def emfenImage (d : Dev) (b : BootIn) : Option Bool :=
  let ok (x : Bool) : Bool := if x then b.emfenB else b.emfenA
  let p := emfenPrefers d
  if ok p then some p else if ok !p then some !p else none

/-- The digest of the settings record in use, 0 where none is. -/
def recordDigest (d : Dev) : Dword :=
  let u := slotUsed d
  let a := slotBase (u == 2)
  if u = 0 then 0 else Config.digest 3 (norContent d a (norNat d (a + 12) 4))

/-- Measurements 1 to 3 are taken: the boot ROM, the image that is loaded, the settings record in use (R332). -/
def takeMeasures (image : Option Bool) (d : Dev) : Dev :=
  let code := match image with
    | some x => Config.digest 2 (norContent d (imageBase x) 0x1000000)
    | none => 0
  { d with sec := { d.sec with taken := [Config.digest 1 [], code, recordDigest d] } }

/-- Measurement 3 is taken again: a MAIN reset applies the settings record (R332, R367). -/
def takeRecord (d : Dev) : Dev :=
  let l := d.sec.taken.take 2 ++ [recordDigest d]
  { d with sec := { d.sec with taken := l } }

/-- Steps 6 to 12: clocks, memories, links, dealer and host function; in SPLIT the host link alone. -/
def bringUp (b : BootIn) (d : Dev) : Dev :=
  let d := modPower (fun p => { p with mainOn := true, held := false, operate := true, stageFault := 0 }) d
  if d.power.splitWhy ≠ 0 then modPower (fun p => { p with phase := 6 }) (splitSettings d)
  else
    let d := applySettings d
    let d := modBody (fun y => { y with
      links := (List.range 24).map (fun l => (l, { LinkSt.z with state := lkTraining }))
      hl := { y.hl with ready := true }
      tb := { y.tb with tref := b.tref, locked := b.tref, running := true } }) d
    let d := if b.tref then source d else d
    thermEval (modPower (fun p => { p with phase := 5 }) d)

/-- Step 5: MOD_FAULT_N is released (R419), and a reset within the lockout waits in phase POWER (R350). -/
def powerUp (b : BootIn) (d : Dev) : Dev :=
  let d := modFault false d
  if d.power.lockout then modPower (fun p => { p with phase := 3, held := true }) d else bringUp b d

/-- Steps 1 to 4, then step 5: straps, election, settings, Emfen. With no image that verifies the device stays in phase
FIRMWARE with MOD_FAULT_N low (R363, R419). -/
def startUp (b : BootIn) (d : Dev) : Dev :=
  let e := election d b
  let d := modBody (fun y => { y with board := { y.board with straps := b, mgAddr := b.mgAddr.val } }) d
  let d := modPower (fun p => { p with master := e.1, splitWhy := e.2, phase := 0 }) d
  if e.2 ≠ 0 then powerUp b (pwEvent evSplit d)
  else
    let u := slotUsed d
    let d := modPower (fun p => { p with settings := u, phase := 2 }) d
    let d := if fallback d then pwEvent evFallback d else d
    let d := takeMeasures (emfenImage d b) d
    if (emfenImage d b).isSome then powerUp b d else modFault true d

/-- A reset of a kind runs the start-up; while SYS_RST_N is low it waits for the release (R417). -/
def resetRun (kind : Nat) (b : BootIn) (d : Dev) : Dev :=
  let d := resetAll kind d
  if d.body.board.rstLow then d else startUp b d

/-- COLD_RESET: R364, R367, R368, R370. -/
def execColdReset (b : BootIn) (s : State) : Out := runAll (resetRun 0 b) s

/-- SYS_RST_N goes low: after 10 µs a SYSTEM reset, held until the release; a shorter pulse is ignored. -/
def rstLow (us : Nat) (d : Dev) : Dev :=
  if us < 10 ∨ d.body.board.rstLow then d
  else resetAll 1 (modBody (fun b => { b with board := { b.board with rstLow := true } }) d)

/-- SYS_RST_N_LOW: R368, R417. -/
def execSysRstNLow (us : Nat) (s : State) : Out := runAll (rstLow us) s

/-- SYS_RST_N returns high: step 1 begins. -/
def rstRelease (b : BootIn) (d : Dev) : Dev :=
  if !d.body.board.rstLow then d
  else startUp b (modBody (fun y => { y with board := { y.board with rstLow := false } }) d)

/-- SYS_RST_N_RELEASE: R364, R417, R418. -/
def execSysRstNRelease (b : BootIn) (s : State) : Out := runAll (rstRelease b) s

/-- A MAIN reset: the settings in force are read again, and the sequence runs from step 5. -/
def mainReset (b : BootIn) (d : Dev) : Dev :=
  let d := resetAll 2 d
  if d.power.splitWhy ≠ 0 then powerUp b d
  else
    let u := slotUsed d
    let d := modPower (fun p => { p with settings := u }) d
    powerUp b (takeRecord (if fallback d then pwEvent evFallback d else d))

/-- A write of `PW_CTRL` (R356, R368): SYSRST is the wider of the two, and MAIN while SYS_RST_N is low is widened to a SYSTEM
reset (R417). -/
def pwCtrl (r : Req) (v : Nat) (b : BootIn) (d : Dev) : Dev :=
  mgmtOnly r (pageBase 9 0) (pwOff 0x40) (fun d =>
    if bitAt v 1 then resetRun 1 b d
    else if bitAt v 0 && d.body.board.rstLow then resetRun 1 b d
    else if bitAt v 0 then
      (if d.power.mainOn ∨ d.power.lockout ∨ d.power.phase = 2 then refuse r (pageBase 9 0) (pwOff 0x40) cState true d
       else mainReset b d)
    else d) d

/-- SYSRST: R367, R368. -/
def execSysrst (r : Req) (b : BootIn) (s : State) : Out := runAll (access r (pwOff 0x40) 4 true 2 (pwCtrl r 2 b)) s

/-- MAIN: R356, R367, R368. -/
def execMain (r : Req) (b : BootIn) (s : State) : Out := runAll (access r (pwOff 0x40) 4 true 1 (pwCtrl r 1 b)) s

/-- Ten seconds after a trip the lockout ends, and a reset that waits goes on. -/
def lockoutEnd (b : BootIn) (d : Dev) : Dev :=
  let d := modPower (fun p => { p with lockout := false }) d
  if d.power.held then bringUp b d else d

/-- THERM_LOCKOUT_END: R350. -/
def execThermLockoutEnd (b : BootIn) (s : State) : Out := runAll (lockoutEnd b) s

/-! ## HOST reset (R369) -/

/-- A HOST reset, while main power is on. -/
def hostReset (d : Dev) : Dev :=
  if !d.power.mainOn then d else hostResets d

/-- HOST_RESET: R353, R367 to R369. -/
def execHostReset (s : State) : Out := runAll hostReset s

/-! ## Election in SPLIT (R372, R420) -/

/-- The 7-bit address at which a half answers on the management bus, if it does: the master half's, or in SPLIT and before the
election ends each half's own (R420). -/
def smbusAt (d : Dev) (west : Bool) : Option Nat :=
  let two := d.power.phase = 6 ∨ d.power.phase = 0
  if two then some ((if west then 0x68 else 0x60) + d.body.board.mgAddr)
  else if (d.power.master == 1) == west then some (0x60 + d.body.board.mgAddr) else none

/-- A master is named in SPLIT: the override, then a SYSTEM reset. -/
def elect (v : Nat) (b : BootIn) (d : Dev) : Dev :=
  if v % 4 = 1 ∨ v % 4 = 2 then resetRun 1 b (modPower (fun p => { p with override := v % 4 }) d) else d

/-- A write of `PW_ELECT`: outside SPLIT it has no effect and is logged. -/
def pwElect (r : Req) (v : Nat) (b : BootIn) (d : Dev) : Dev :=
  if d.power.phase ≠ 6 then refuse r (pageBase 9 0) (pwOff 0x64) cState true d
  else if r = .host then elect v b d
  else mgmtOnly r (pageBase 9 0) (pwOff 0x64) (elect v b) d

/-- PW_ELECT: R371, R372. -/
def execPwElect (r : Req) (v : Word) (b : BootIn) (s : State) : Out :=
  runAll (access r (pwOff 0x64) 4 true v.toNat (pwElect r v.toNat b)) s

/-- SMBUS_ELECT_WRITE: R372, R420. -/
def execSmbusElectWrite (v : Byte) (b : BootIn) (s : State) : Out :=
  runAll (fun d => if d.power.phase = 6 then elect v.toNat b d else d) s

/-! ## The test access port (R421) -/

/-- The instruction that the port takes: BYPASS in place of one that is not available. -/
def tapTakes (d : Dev) (i : TapInstr) : TapInstr :=
  let plain := i = .idcode ∨ i = .bypass
  if plain then i
  else if !debugOpen d.sec ∨ d.body.bt.acts.any (fun a => a.kind == 7) then .bypass
  else i

/-- The port takes an instruction, and answers its identification register to IDCODE (R333, R421). -/
def tapInstruction (i : TapInstr) (d : Dev) : Dev :=
  let x := tapTakes d i
  let d := modBody (fun b => { b with board := { b.board with tap := x } }) d
  if x = .idcode then reply (.value (Config.tapId.setWidth 64)) d else d

/-- TAP_INSTRUCTION: R333, R421. -/
def execTapInstruction (i : TapInstr) (s : State) : Out := run (tapInstruction i) s

end Sys2Proof.Machine
end

