-- ==== Sys2Proof/WellFormed.lean ====
section
/-! DEFINITION. Which commands a sender may send: the checks on operands that the types of `Instr` leave open. A row
named after a kind of register names a register of that kind; a packet's payload and a host access have the lengths
that the rules allow. -/

namespace Sys2Proof.WellFormed

open Sys2Proof.Machine

/-- The access code of the register at a control-space offset, if the page's tables name one there. -/
def accOf (off : Nat) : Option Acc :=
  match ctlAt off with
  | .page p o => (regAt p.kind o).map (fun x => x.acc)
  | _ => none

/-- The offset names a register whose access code satisfies a test. -/
def names (off : CtlOff) (f : Acc → Bool) : Bool :=
  match accOf off.toNat with
  | some a => f a
  | none => false

/-- The offset is that of a header register of a page (R388). -/
def header (off : CtlOff) (o : Nat) : Bool :=
  match ctlAt off.toNat with
  | .page _ x => x == o
  | _ => false

/-- The offset names a register or header word of a page, or a word of an array, aligned to 4 bytes (R390, R394). -/
def aligned (off : CtlOff) : Bool := off.toNat % 4 == 0

/-- A quiet read is of an aligned word of control space, or of an aligned 8 bytes of memory (R334). -/
def quiet (off : BitVec 49) : Bool := off.toNat % (if Config.ctlBase ≤ off.toNat ∧ off.toNat < Config.flashBase then 4 else 8) == 0

/-- A host access reads 1 to 4,096 bytes, the max read request, or writes 1 to 512, the max payload (R299); what it writes
is as long as it says. -/
def hostLen (n : Nat) (wr : Option (List Byte)) : Bool :=
  decide (1 ≤ n) &&
    match wr with
    | none => decide (n ≤ 4096)
    | some l => l.length == n && decide (n ≤ 512)

/-- An access to BAR0 beyond the host-link page, which other rows reach (R299, R302). -/
def bar0 : Bar0 → Bool
  | .write off l => decide (0x1000 ≤ off.toNat) && hostLen l.length (some l)
  | .read off n => decide (0x1000 ≤ off.toNat) && hostLen n none

/-- A payload of at most 256 bytes, and a header KIND that is the row's or a reserved one (R225). -/
def packet (code : Nat) (k : Packet) : Bool :=
  decide (k.payload.length ≤ 256) && (k.kind.toNat == code || k.kind.toNat == 0 || decide (6 < k.kind.toNat))

/-- The checks, one line for each row that has one. -/
def ok : Instr → Bool
  | .latchingLowRead _ off => names off (fun a => a == .latchLo)
  | .plainPairLowWrite _ off _ => names off (fun a => match a with | .plainLo _ => true | .woLo => true | _ => false)
  | .plainPairHighWrite _ off _ => names off (fun a => match a with | .plainHi _ => true | .woHi => true | _ => false)
  | .rcRead _ off => names off (fun a => a == .rc) || header off 0x1C
  | .quietRead off => quiet off
  | .seqLockRead _ off => header off 0x20
  | .seqLockRelease _ off => header off 0x20
  | .lockTimeout off => header off 0x20
  | .dbgForce off => header off 0x20
  | .irqStatClear _ off _ => header off 0x18
  | .irqMaskWrite _ off _ => header off 0x14
  | .blockEvent off _ => header off 0x10
  | .write _ k => packet 1 k
  | .read _ k => packet 2 k
  | .data _ k => packet 3 k
  | .atomic _ k => packet 4 k
  | .completion _ k => packet 5 k
  | .collective _ k => packet 6 k
  | .codewordUncorrectable _ x => decide (x.owners.length ≤ 3) && (x.first.val % 5 == 0 || x.first.val % 5 == 2)
  | .hostWindowAccess _ n wr => hostLen n wr
  | .bar4Access _ n wr => hostLen n wr
  | .hostCxlMemAccess _ n wr => hostLen n wr
  | .hlCqTailWrite _ _ _ l => l.all bar0
  | .testComplete _ _ recs => decide (recs.length ≤ 64)
  | .tokenise _ _ host => host.data.all (fun p => decide (p.1 < 2 ^ 64))
  | .image _ _ host => host.data.all (fun p => decide (p.1 < 2 ^ 64))
  | _ => true

end Sys2Proof.WellFormed
end

