-- ==== Sys2Proof/Machine/Access.lean ====
section
/-! DEFINITION. Reads and writes of control space (spec/19_register_map.md, R388 to R406, R424, with the register tables
of the other chapters): what every register reads as, what every write does, latching and plain pairs, the page locks. -/

namespace Sys2Proof.Machine

/-! ## What the registers read as -/

/-- A word from bits, each with its place. -/
def packBits (l : List (Bool × Nat)) : Nat := l.foldl (fun a p => if p.1 then a + 2 ^ p.2 else a) 0

/-- The 64-bit value of a latching pair. -/
def pairNow (d : Dev) (p : PageAt) (x : RegAt) : Nat :=
  match x.reg with
  | .tbNowLo => d.time.trick
  | .tbTodLo => d.body.tb.todTrick
  | .tbSlipLo => if isPart d x.idx then (getJob d x.idx).slip else 0
  | .meStepsLo => (getMe d p.inst).steps
  | .hdIssueLo => ctlPair d (p.base + 0x50)
  | .hdElapsedLo => (getHand d p.inst x.idx).elapsed
  | .stCursorLo => (match tilePart d p.inst with | some q => (getJob d q).cursor | none => 0)
  | _ => 0

/-- `TB_STATE` (Table MP-9). -/
def tbStateWord (d : Dev) : Nat :=
  let x := d.body.tb
  x.parent + 8 * x.hops + packBits [(x.sourcing, 9), (x.running, 10), ((List.range 6).all (fun p => (carried d p).isNone), 11)]

/-- One word of the late log: eighth q, record n, word w. -/
def lateWord (d : Dev) (i : Nat) : Nat :=
  let q := i / 64
  let r := tget LateRec.z (getJob d q).lateLog (i % 64 / 4)
  if !isPart d q then 0
  else match i % 4 with
    | 0 => r.trick
    | 1 => r.cursor
    | 2 => r.cause + 256 * r.source
    | _ => bits r.trick 47 32 + 2 ^ 16 * bits r.cursor 47 32

/-- `DL_PSTAT[q]`. -/
def dlPstatWord (d : Dev) (q : Nat) : Nat :=
  let j := getJob d q
  packBits [(j.loaded, 0), (j.started, 1), (j.halted, 2)] + 8 * j.haltedWhy

/-- `EV_TILES[k][q]`: which tiles of an eighth hold the event of a kind (R339). -/
def evTilesWord (d : Dev) (k q : Nat) : Nat :=
  packBits ((List.range 18).map (fun i =>
    let t := 18 * q + i
    let p := getPage d (pageBase (if k = 0 then 16 else if k = 1 then 17 else if k = 2 then 18 else 20) t)
    (bitAt (p.raw.toNat &&& (0xFFFFFFFF - p.mask.toNat)) (if k = 4 then 1 else 0), i)))

def evPendWord (d : Dev) (k : Nat) : Nat :=
  packBits ((List.range 32).map (fun j => let s := (getSrc d (32 * k + j)).state; (s == .pending || s == .delivered, j)))
def evCntWord (d : Dev) (k : Nat) : Nat := (List.range 4).foldl (fun a j => a + (getSrc d (4 * k + j)).cnt * 2 ^ (8 * j)) 0
def SrcState.code : SrcState → Nat
  | .idle => 0 | .pending => 1 | .delivered => 2 | .inService => 3
def evSrcWord (d : Dev) (n : Nat) : Nat :=
  let x := getSrc d n
  x.tgt + 16 * b2n x.masked + 32 * x.state.code + 128 * b2n x.rearm + 256 * x.owner

/-- `CO_ACT[a]`: the suit that holds the position, its window, operation and phase (Table CO-9). -/
def coActWord (d : Dev) (a : Nat) : Nat :=
  match ownerOf d (a / 8) with
  | none => 0
  | some q =>
    let holder := (getJob d q).deal.suits.find? (fun x => x.act == a - 8 * q && suitHolds d q x)
    match getPos d a, holder with
    | some r, _ => r.suit + 2 ^ 12 * b2n (match holder with | some x => windowOpen d q x | none => false) + 2 ^ 13 + 2 ^ 14 * r.phase
    | none, some x => x.num + 2 ^ 12 * b2n (windowOpen d q x) + 2 ^ 14 * (if coDoorWaits d a then 5 else 0)
    | none, none => 2 ^ 14 * (if coDoorWaits d a then 5 else 0)

def coStatWord (d : Dev) : Nat := (d.body.positions.filter (fun p => p.2.isSome)).length
def rtDevWord (d : Dev) : Nat := match devNumber d with | some n => n | none => 2 ^ 15
def hlLstatWord (d : Dev) : Nat :=
  let x := d.body.hl
  x.rate + 8 * x.width + 32 * x.proto + 128 * b2n d.sec.ide

/-- `PW_STAT` (Table PW-9). -/
def pwStatWord (d : Dev) : Nat :=
  let p := d.power
  p.phase + 16 * p.master + 32 * p.settings + 128 * b2n d.body.tb.tref + 256 * b2n (p.override != 0) + 512 * p.splitWhy
    + 2048 * p.lastRst + 8192 * p.offCause

/-- The resources that self-tests hold: `BT_HOLD_MEM`, `BT_HOLD_IO`. -/
def btHeld (d : Dev) (kind unit : Nat) : Bool := d.body.bt.acts.any (fun a => btToken a.kind a.unit == (kind, unit))
def btMemWord (d : Dev) : Nat :=
  packBits ((List.range 8).map (fun s => (btHeld d 2 s, s)) ++ (List.range 24).map (fun g => (btHeld d 3 g, g + 8)))
def btIoWord (d : Dev) : Nat :=
  packBits ((List.range 6).map (fun p => (btHeld d 4 p, p)) ++ (List.range 16).map (fun c => (btHeld d 6 c, c + 6))
    ++ [(btHeld d 1 0, 22), (btHeld d 5 0, 23), (btHeld d 7 0, 24), (btHeld d 8 0, 25), (btHeld d 8 1, 26)])

/-- `LK_PSTAT`: a port that is being powered down or off says so, else the best state of its links. -/
def lkPstatWord (d : Dev) (p : Nat) : Nat :=
  let s := (getPort d p).state
  let l := (List.range 4).map (fun k => (getLink d (lkKey p k)).state)
  (if s = 3 ∨ s = 4 then s else if l.any (fun x => x == lkUp || x == lkChanging) then 2 else if l.contains lkTraining then 1 else 0)
    + 8 * b2n (bypassed d p)
def lkLstatWord (d : Dev) (p l : Nat) : Nat :=
  let x := getLink d (lkKey p l)
  x.state + 8 * x.gen + 16 * x.width + 64 * x.lanes + 2 ^ 14 * x.proto + 2 ^ 18 * x.peerPort + 2 ^ 21 * x.peerLink

/-- `MM_PCFG[q]` of a half, where the lowest eighth of a partition within it shows the loaded deal's TFRAC fields (R194), and
`MM_HOT[s]`. -/
def mmPcfgWord (d : Dev) (off e : Nat) : Nat :=
  let dl := match ownerOf d e with
    | some q => if (getJob d q).loaded ∧ queueEighth d q (e / 4) = e then (getJob d q).deal else Deal.z
    | none => Deal.z
  ctlNat d off % 16 + 16 * b2n (getEighth d e).enc + 32 * dl.tfracH + 512 * dl.tfracG
def mmHotWord (d : Dev) (s : Nat) : Nat :=
  let x := getStack d s
  x.hot + 256 * tget 0 x.temps x.hot + 2 ^ 16 * x.temp + 2 ^ 24 * x.throttle

def flZonesAddr (h : Nat) : Nat := Config.ctlBase + 0x110000 + 0x100000 * h
def inStatWord (d : Dev) (h : Nat) : Nat :=
  packBits ((List.range 4).map (fun q => ((match (getInq d h q).run with | some r => r.op == 1 | none => false), q))
    ++ (List.range 4).map (fun q => ((match (getInq d h q).run with | some r => r.op == 2 | none => false), q + 4)))
def inQstatWord (d : Dev) (h q : Nat) : Nat := let x := getInq d h q; x.dict + 4 * b2n x.ovr + 16 * x.derr
def mvStatWord (d : Dev) (h : Nat) : Nat := packBits ((List.range 4).map (fun q => ((getMover d h q).isSome, q)))

/-- `ME_STAT` (Table ME-10), `SF_STAT`, `ST_STAT`. `ME_STAT.PPEND` shows the writes to the matrix engine's banks alone; those
to the special function banks show nowhere (DESIGN CHOICE, log 102). -/
def meStatWord (d : Dev) (t : Nat) : Nat :=
  let x := getMe d t
  packBits [(x.run, 0), (x.aprog == 1, 1), (x.front == 1, 2), (x.active.isSome, 3), (x.shadow.isSome, 4), (x.shift.isSome, 5),
    (x.prog.pend, 6), (x.faulted, 7)] + 256 * (x.pc % 1024)
def sfStatWord (d : Dev) (t : Nat) : Nat :=
  let x := getSf d t
  -- the current step is the one that runs, or else the next to start; a forced reset clears it while a step still runs
  let cur := match x.running with
    | some r => if x.pc = 0 then 0 else r.at_.idx
    | none => x.pc
  x.aprog + 2 * b2n x.faulted + 4 * b2n x.zrow + 8 * (cur % 512)
def stStatWord (d : Dev) (t : Nat) : Nat :=
  let x := getSt d t
  x.aprog + 2 * b2n x.faulted + 4 * b2n x.prog.pend + 8 * (x.pc % 512) + 2 ^ 12 * x.xfers.length + 2 ^ 18 * reqsUsed x
def HState.code : HState → Nat
  | .idle => 0 | .ready => 1 | .switched => 2 | .stalled => 3 | .waiting => 4 | .slotwait => 5 | .halted => 6 | .faulted => 7
  | .debug => 8 | .stopping => 9
def hdStateWord (d : Dev) (t k : Nat) : Nat :=
  (List.range 8).foldl (fun a j => a + (getHand d t (8 * k + j)).state.code * 2 ^ (4 * j)) 0

/-- The value in force of a register, as a 32-bit number: taken from the state it shows, or stored. -/
def liveWord (d : Dev) (p : PageAt) (x : RegAt) (off : Nat) : Nat :=
  match x.reg with
  | .tbPhase => d.time.phase
  | .tbDealer => d.body.tb.dealer
  | .tbState => tbStateWord d
  | .tbTodPhase => d.body.tb.todPhase
  | .tbLateCnt => if isPart d x.idx then (getJob d x.idx).lateCnt else 0
  | .tbCause1 | .tbCause2 | .tbCause3 | .tbCause4 | .tbCause5 => if isPart d x.idx then ctlNat d off else 0
  | .tbLateLog => lateWord d x.idx
  | .dlStatus => d.body.dlCode + 256 * b2n d.body.dlBusy + 512 * d.body.dlEighth
  | .dlPstat => dlPstatWord d x.idx
  | .piLc => piLcWord d
  | .piStat => d.body.piCode + 16 * b2n d.body.piBusy
  | .piPart => piPartWord d x.idx
  | .evTctl => b2n (tgtEn d x.idx) + 2 * b2n (claimable d x.idx).isSome
  | .evClaim => (claimable d x.idx).getD 0
  | .evTiles => evTilesWord d (x.idx / 8) (x.idx % 8)
  | .evPend => evPendWord d x.idx
  | .evCnt => evCntWord d x.idx
  | .evSrc => evSrcWord d x.idx
  | .coStat => coStatWord d
  | .coAct => coActWord d x.idx
  | .rtDevnum => rtDevWord d
  | .hlLstat => hlLstatWord d
  | .pwStat => pwStatWord d
  | .pwDuty => d.power.pduty + 32 * d.power.tduty
  | .pwInpwr => inputPower d.power + 2 ^ 16 * d.power.vin
  | .pwTemp => d.power.tempEast + 256 * d.power.tempWest
  | .pwDomain => domainWord d
  | .btStat => d.body.bt.code + 8 * d.body.bt.acts.length + 128 * b2n d.body.bt.needRst
  | .btNonce => d.body.bt.nonce.toNat
  | .btHoldMem => btMemWord d
  | .btHoldIo => btIoWord d
  | .btResCnt => d.body.bt.resCnt
  | .btRes => (tget 0 d.body.bt.res x.idx).toNat
  | .lkPstat => lkPstatWord d p.inst
  | .lkLstat => lkLstatWord d p.inst x.idx
  | .lkRtt => (tget DelaySt.z d.body.tb.delays (lkKey p.inst x.idx)).roundTrip / 2 % 2 ^ 20
  | .lkPeerLo => (getLink d (lkKey p.inst x.idx)).serial.toNat
  | .lkPeerHi => (getLink d (lkKey p.inst x.idx)).serial.toNat / 2 ^ 32
  | .mmGddrLive => d.body.board.gddrLive / 2 ^ (12 * p.inst) % 2 ^ 12
  | .mmLive => hbmMask d (4 * p.inst + x.idx)
  | .mmPcfg => mmPcfgWord d off (4 * p.inst + x.idx)
  | .mmHot => mmHotWord d (4 * p.inst + x.idx)
  | .flPresent => d.body.board.flashFitted / 2 ^ (8 * p.inst) % 2 ^ 8
  | .flZonesLo => flZonesAddr p.inst
  | .flZonesHi => flZonesAddr p.inst / 2 ^ 32
  | .mvStat => mvStatWord d p.inst
  | .inStat => inStatWord d p.inst
  | .inQstat => inQstatWord d p.inst x.idx
  | .inDb => (getInq d p.inst x.idx).db
  | .meStat => meStatWord d p.inst
  | .meBankFill => (getMe d p.inst).fillA + 2 ^ 16 * (getMe d p.inst).fillB
  | .sfStat => sfStatWord d p.inst
  | .hdCfg => b2n (tileMsw d p.inst)
  | .hdState => hdStateWord d p.inst x.idx
  | .stStat => stStatWord d p.inst
  | .stDb => (tget StClass.z (getSt d p.inst).classes x.idx).db
  | .stTokens => (tget StClass.z (getSt d p.inst).classes x.idx).tokens
  | .lkPctrl => ctlNat d off &&& 0x7807
  | _ => ctlNat d off

/-! ## Reads (R391, R398, R399, R334) -/

/-- The key of one latched word of a requester (R391). -/
def latchKey (r : Req) (off : Nat) : Nat := 2 ^ 36 * Req.key r + off
def latchOf (d : Dev) (r : Req) (off : Nat) : Option Word := tget none d.body.latches (latchKey r off)
def putLatch (r : Req) (off : Nat) (x : Option Word) (d : Dev) : Dev :=
  modBody (fun b => { b with latches := tset none b.latches (latchKey r off) x }) d

/-- The word of a number. -/
def word (n : Nat) : Word := BitVec.ofNat 32 n

/-- The offsets of the companion of a latching low word, with the companion's value (R391). -/
def companionOf (d : Dev) (x : RegAt) (base : Nat) : List (Nat × Nat) :=
  match x.reg with
  | .tbNowLo => [(base + 0x48, d.time.phase)]
  | .tbTodLo => [(base + 0x60, d.body.tb.todPhase)]
  | _ => []

/-- What a read of an RC register clears (R5): the stored word, the counters of `EV_CNT`, the claim of `EV_CLAIM`, and
with `MM_IMBAL` the mark that its stack has raised MM_HOT. -/
def clearRc (p : PageAt) (x : RegAt) (off : Nat) (d : Dev) : Dev :=
  match x.reg with
  | .evClaim => (match claimable d x.idx with
    | some n => modSrc n (fun y => { y with state := .inService, reached := false }) d
    | none => d)
  | .evCnt => forN 4 (fun j e => modSrc (4 * x.idx + j) (fun y => { y with cnt := 0 }) e) d
  | .mmImbal => modStack (4 * p.inst + x.idx) (fun y => { y with counted := false }) (ctlSetN off 0 d)
  | _ => ctlSetN off 0 d

/-- A read of a block register: its value and its side effects; a quiet read has none (R334). -/
def readReg (r : Req) (p : PageAt) (o : Nat) (quiet : Bool) (d : Dev) : Word × Dev :=
  let off := p.base + o
  match regAt p.kind o with
  | none => (0, d)
  | some x => match x.acc with
    | .wo | .woLo | .woHi => (0, d)
    | .latchLo =>
      let v := pairNow d p x
      (word v, if quiet then d
        else (companionOf d x p.base).foldl (fun e c => putLatch r c.1 (some (word c.2)) e)
          (putLatch r (off + 4) (some (word (v / 2 ^ 32))) d))
    | .latchHi => ((latchOf d r off).getD 0, d)
    | .companion _ => (match latchOf d r off with
      | some w => (w, if quiet then d else putLatch r off none d)
      | none => (word (liveWord d p x off), d))
    | .rc => (word (liveWord d p x off), if quiet then d else clearRc p x off d)
    | _ => (word (liveWord d p x off), d)

/-- A read of `SEQ_LOCK` by a core: it acquires a free lock (R399). -/
def acquire (c : Nat) (p : Page) : Page :=
  if p.held then p else { p with held := true, owner := c, timer := 0, expect := p.expect ||| 2 ^ c }

/-- `SEQ_LOCK` as a core, or another requester, reads it. -/
def lockWord (p : Page) (core : Option Nat) : Nat :=
  p.owner + 4 * b2n p.held + 8 * b2n (p.held && core == some p.owner) + 16 * p.expect

/-- The management core that makes an access. -/
def Req.core? : Req → Option Nat
  | .core c => some c.val
  | _ => none

/-- A read of a header word (Table MP-2). -/
def readHead (r : Req) (p : PageAt) (o : Nat) (quiet : Bool) (d : Dev) : Word × Dev :=
  let x := getPage d p.base
  match o with
  | 0x00 => (word (p.kind + 256 * p.inst), d)
  | 0x04 => (word 0xB1, d)
  | 0x08 => (word x.lockmax, d)
  | 0x0C => (word (packBits [(x.held, 0), (x.err != 0, 1), (blockOff d p.kind p.inst, 2)]), d)
  | 0x10 => (x.raw, d)
  | 0x14 => (x.mask, d)
  | 0x18 => (x.raw &&& ~~~x.mask, d)
  | 0x1C => (x.err, if quiet then d else modPage p.base (fun y => { y with err := 0 }) d)
  | 0x20 =>
    let d := match quiet, Req.core? r with
      | false, some c => modPage p.base (acquire c) d
      | _, _ => d
    (word (lockWord (getPage d p.base) (Req.core? r)), d)
  | _ => (0, d)

/-- A read of one word of a page. -/
def readWord (r : Req) (p : PageAt) (o : Nat) (quiet : Bool) (d : Dev) : Word × Dev :=
  if o < 0x40 then readHead r p o quiet d else readReg r p o quiet d

/-- The pair and zone number in the pair of zone i of a half's table (R206). -/
def zoneAt (d : Dev) (h : Nat) : Nat → Nat → Nat → Option Nat
  | 0, _, _ => none
  | n + 1, k, i =>
    let z := pairSize d (4 * h + k) / Config.zoneSize
    if i < z then some (2048 * (4 * h + k) + i) else zoneAt d h n (k + 1) (i - z)

def ZoneState.code : ZoneState → Nat
  | .empty => 0 | .open_ => 1 | .full => 2 | .offline => 3

/-- One word of the flash zone table: an entry holds the pointer in bits [28:0] and the state in bits [31:30] (R206). -/
def zoneWord (d : Dev) (h o : Nat) : Nat :=
  match zoneAt d h 4 0 (o / 8) with
  | some z => if o % 8 = 0 then (getZone d z).ptr + (getZone d z).state.code * 2 ^ 30 else 0
  | none => 0

/-- One 32-bit word of an array. -/
def arrayWord (d : Dev) : ArrayAt → Word
  | .meBank t b o => word (bits (tget 0 (getMe d t).prog.words (1024 * b + o / 32)).toNat (8 * (o % 32) + 31) (8 * (o % 32)))
  | .sfBank t b o => word (bits (tget 0 (getSf d t).prog.words (512 * b + o / 32)).toNat (8 * (o % 32) + 31) (8 * (o % 32)))
  | .stBank t b o => word (bits (tget 0 (getSt d t).prog.words (512 * b + o / 64)).toNat (8 * (o % 64) + 31) (8 * (o % 64)))
  | .sfData t o => tget 0 (getSf d t).data (o / 4)
  | .imem t o => tget 0 (getTile d t).imem (o / 4)
  | .zones h o => word (zoneWord d h o)
  | .dict h o => word (dictWord d h (o / 4))

/-- A 32-bit read of control space by a requester, answered with its value. -/
def readAt (r : Req) (off : Nat) (quiet : Bool) (d : Dev) : Dev :=
  match ctlAt off with
  | .page p o => let x := readWord r p o quiet d; reply (.value (x.1.setWidth 64)) x.2
  | .array a => reply (.value ((arrayWord d a).setWidth 64)) d
  | .unmapped => d
def readAccess (r : Req) (off : Nat) (quiet : Bool) (d : Dev) : Dev := access r off 4 false 0 (readAt r off quiet) d

/-! ## Writes of block registers -/

/-- Registers that the deal loader alone writes (R63). -/
def loaderReg : Reg → Bool
  | .meTid => true
  | .meProfile => true
  | .atProf => true
  | _ => false

/-- A requester may write a register (R63, R302, R320, R326, R372, R424); through the debug access port, while debug is
open, any (R329). -/
def mayWrite (d : Dev) (r : Req) (x : Reg) : Bool :=
  match r with
  | .host => x == .hlWinBaseLo || x == .hlWinBaseHi || x == .hlCqTail || x == .pwElect
  | .hand _ _ => isTailReg x
  | .loader => loaderReg x
  | .debug => debugOpen d.sec
  | r => isMgmt d r && !loaderReg x

/-- The register of a queue's configuration that says whether it is enabled, for registers written only while it is not
(R189, R212, R298, R320). -/
def queueCfg (p : PageAt) (x : RegAt) : Option Nat :=
  match x.reg with
  | .flQbaseLo | .flQbaseHi | .flQcfg => some (flRing p.inst x.idx).cfg
  | .mvQbaseLo | .mvQbaseHi | .mvPdtLo | .mvPdtHi | .mvPbaseLo | .mvPbaseHi | .mvQcfg | .mvNpage => some (mvRing p.inst x.idx).cfg
  | .hlWqbaseLo | .hlWqbaseHi | .hlQcfg => some (wrRing x.idx).cfg
  | .inQbaseLo | .inQbaseHi => some (inOff p.inst x.idx 8)
  | _ => none

/-- The partition that owns an eighth has a deal loaded. -/
def eighthDeal (d : Dev) (e : Nat) : Bool := match ownerOf d e with | some q => (getJob d q).loaded | none => false

/-- A page size that a mover's queue takes (Table AT-8). -/
def pshiftOk (n : Nat) : Bool := decide (12 ≤ n) && decide (n ≤ 30)

/-- Why a write of a register is refused, 0 if it is not: its state, then its value (Table MP-5). -/
def writeCause (d : Dev) (p : PageAt) (x : RegAt) (v : Nat) : Nat :=
  let st := match x.reg with
    | .grantRange | .grantFlags | .grantOffloLo | .grantOffloHi | .grantOffhiLo | .grantOffhiHi =>
      eighthDeal d (4 * p.inst + x.idx / 16)
    | .mmPcfg => eighthDeal d (4 * p.inst + x.idx)
    | .meTid | .meProfile | .atProf => (getMe d p.inst).run
    | _ => (match queueCfg p x with
      | some c => bitAt (ctlNat d c) 0
      | none => false)
  let bad := match x.reg with
    | .flQcfg => decide (96 < bits v 7 1)
    | .hlQcfg => decide (96 < bits v 7 1)
    | .mvQcfg => decide (96 < bits v 12 6)
      || (bitAt v 0 && pshiftOk (bits v 5 1) && ctlNat d (regOff 14 p.inst (0x90 + 0x40 * x.idx)) % 2 ^ bits v 5 1 != 0)
    | .mvNpage => decide (0xFFFFFFE < v % 2 ^ 28)
    | .flQbaseLo | .mvQbaseLo | .hlWqbaseLo => v % 8192 != 0
    | .inQbaseLo => v % 16384 != 0
    | .mvPdtLo => v % 16 != 0
    | .mvPbaseLo => pshiftOk (mvPshift d p.inst x.idx) && v % 2 ^ mvPshift d p.inst x.idx != 0
    | .pwTherm => !thermOk v
    | .lkPctrl => !(bits v 2 1 == 1 || bits v 2 1 == 2) || decide (bits v 14 11 < 5)
    | _ => false
  if st then cState else if bad then cValue else 0

/-- A change of a seed: every address of the eighths that take it moves, and what they hold is undefined (R194). -/
def seedWrite (off e v : Nat) (d : Dev) : Dev :=
  if ctlNat d off % 16 = v % 16 then d
  else
    let takes (q : Nat) : Bool :=
      let y := getEighth d q
      decide (q / 4 = e / 4) && (if y.used then max y.lowest (4 * (q / 4)) == e else q == e)
    let f := freshEpoch d
    ((List.range 8).filter takes).foldl (fun a q => memDo (.current q f.1) a) (ctlSetN off (v % 16) f.2)

/-- A write of `LK_PCTRL`: OFF, the stored fields, and the requests (R218, R234, R239). -/
def pctrlEff (r : Req) (p v : Nat) (d : Dev) : Dev :=
  if bitAt v 0 ∧ portHeld d p then refuse r (pageBase 11 p) (lkOff p 0x40) cState true d
  else
    let d := if bitAt v 0 then portOffWrite r p d else portOnWrite p d
    let d := ctlSetN (lkOff p 0x40) (v &&& 0x7807) d
    ownRequest p (bits v 8 7) false (bits v 10 9) (retrainLinks p (bits v 6 3) d)

/-- The low word of a plain pair as its high word takes it: the staged one, or the one in force (R392). -/
def stagedLow (d : Dev) (base lo now_ : Nat) : Nat :=
  match (getPage d base).staged.find? (fun s => s.off == lo) with
  | some s => s.value.toNat
  | none => now_

/-- Stage a low word (R392). -/
def stageLow (r : Req) (base lo v : Nat) (d : Dev) : Dev :=
  modPage base (fun p => { p with staged := p.staged.filter (fun s => s.off != lo) ++ [⟨lo, Req.code r, word v⟩] }) d

/-- Drop what is staged for a pair. -/
def unstage (base lo : Nat) (d : Dev) : Dev :=
  modPage base (fun p => { p with staged := p.staged.filter (fun s => s.off != lo) }) d

/-- The bits that a write of the low word of a pair sets. -/
def lowMask (kind o : Nat) : Nat :=
  match regAt kind o with
  | some x => (match x.acc with | .plainLo m => m | _ => 0xFFFFFFFF)
  | none => 0xFFFFFFFF

/-- A write of the high word of a plain pair: the pair takes both words at once (R392). -/
def writeHigh (p : PageAt) (o mask v : Nat) (d : Dev) : Dev :=
  let lo := p.base + o - 4
  let l := stagedLow d p.base lo (ctlNat d lo) &&& lowMask p.kind (o - 4)
  unstage p.base lo (ctlSetPair lo (l + 2 ^ 32 * (v &&& mask)) d)

/-- A write of `PI_KTAG` high (R337). -/
def ktagHigh (p : PageAt) (o v : Nat) (d : Dev) : Dev :=
  let lo := p.base + o - 4
  let l := stagedLow d p.base lo (d.body.ktag.toNat % 2 ^ 32)
  unstage p.base lo (modBody (fun b => { b with ktag := BitVec.ofNat 64 (l + 2 ^ 32 * v) }) d)

/-- All pages of the HDM range are in device bias once the range is set (R313). -/
def hdmSet (d : Dev) : Dev := biasClear d

/-- What an admitted write of a register does, for those that do more than store the bits of their row. -/
def writeEff (r : Req) (p : PageAt) (o : Nat) (x : RegAt) (v : Nat) (d : Dev) : Dev :=
  let off := p.base + o
  match x.reg with
  | .dlCmd => dlCmd r v d
  | .piCmd => piCmd r v d
  | .evTctl => evTctlWrite r x.idx v d
  | .evComplete => evComplete r x.idx v d
  | .evSrc => evSrcWrite r x.idx v d
  | .rtCfg => routerWrite r off v 0x3FF d
  | .rtXy => routerWrite r off v 0x3FF d
  | .rtPos => routerWrite r off v 0x1F d
  | .rtSeat => routerWrite r off v 0x3F d
  | .rtPlan => routerWrite r off v 0x3FF d
  | .hlDeadline => let us := v % 2 ^ 20; if 100 ≤ us ∧ us ≤ 1000000 then ctlSetN off us d else d
  | .hlHdmPart => hdmSet (ctlSetN off (v &&& 0xF) d)
  | .hlHdmBaseHi => hdmSet (writeHigh p o 0x1FFFF v d)
  | .hlCqTail => cqTailWrite x.idx v d
  | .hlWtail => tailEff r (wrRing x.idx) v d
  | .flTail => tailEff r (flRing p.inst x.idx) v d
  | .mvTail => tailEff r (mvRing p.inst x.idx) v d
  | .mvQcfg => ctlSetN off (if pshiftOk (bits v 5 1) then v &&& 0x1FFF else v &&& 0x1FFE)
      (keepTokens (mvBucket p.inst x.idx) (mvRate d p.inst x.idx) d)
  | .flQcfg => ctlSetN off (v &&& 0xFF) (keepTokens (flBucket p.inst x.idx) (flRate d p.inst x.idx) d)
  | .hlQcfg => ctlSetN off (v &&& 0xFF) (keepTokens (wrBucket x.idx) (bits (ctlNat d off) 7 1) d)
  | .inQcfg => qcfgWrite r p.inst x.idx v d
  | .pwCtrl => pwCtrl r v d.body.board.straps d
  | .pwLimit => let w := v % 2 ^ 11; if limitOk w then ctlSetN off w d else d
  | .pwTherm => let e := ctlSetN off (v &&& 0xFFFF) d; if e.power.mainOn then thermEval e else e
  | .pwDomain => domainWrite r v d
  | .pwElect => pwElect r v d.body.board.straps d
  | .btCmd => btCmd r v d
  | .lkPctrl => pctrlEff r p.inst v d
  | .mmPcfg => seedWrite off (4 * p.inst + x.idx) v d
  | .meCtrl => if bitAt v 0 then forceReset p.inst d else d
  | .sfStat => if bitAt v 2 then modSf p.inst (fun y => { y with zrow := false }) d else d
  | .hdStart =>
    if bits v 7 6 = 0 then tryStart r p.inst (v % 64) off d else if bits v 7 6 = 1 then stopHand p.inst (v % 64) d else d
  | .piKtagLo => stageLow r p.base off v d
  | .piKtagHi => ktagHigh p o v d
  | _ => match x.acc with
    | .rw m => ctlSetN off (v &&& m) d
    | .plainLo _ => stageLow r p.base off v d
    | .plainHi m => writeHigh p o m v d
    | _ => d

/-- A write of a block register that has passed checks 1 to 5: the register's own rules, then its effect (R388, R396,
R405, R424). -/
def writeReg (r : Req) (p : PageAt) (o v : Nat) (d : Dev) : Dev :=
  let no (c : Nat) : Dev := refuse r p.base (p.base + o) c true d
  if p.kind = 1 then no cRequester
  else match regAt p.kind o with
    | none => if isMgmt d r then d else no cRequester
    | some x =>
      if !mayWrite d r x.reg then no cRequester
      else if writeCause d p x v ≠ 0 then no (writeCause d p x v)
      else writeEff r p o x v d

/-! ## Accesses of hands (R125, R326), and the accesses that waited (R401) -/

/-- The access of a hand that reaches an offset of control space ends: the posted store, or the load, is answered. -/
def handDone (t h off : Nat) (write : Bool) (st : Nat) (bs : List Byte) (d : Dev) : Dev :=
  if write then
    match (getHand d t h).posted.find? (fun p => p.res.isNone && gDev p.addr == myDev d && gOff p.addr == Config.ctlBase + off) with
    | some p => deliver (.post t h p.id) st 0 [] [] d
    | none => d
  else deliver (.hand t h) st 0 bs [] d

/-- A write was refused: a reply beyond the first n says so. -/
def deniedSince (n : Nat) (d : Dev) : Bool := (d.body.replies.drop n).any (fun r => match r with | .denied _ => true | _ => false)

/-- The requester of a hand. -/
def handReq (t h : Nat) : Req := .hand (Fin.ofNat 144 t) (Fin.ofNat 64 h)

/-- An access waits on a page for a requester. -/
def isWaiting (d : Dev) (base : Nat) (r : Req) (off : Nat) (write : Bool) : Bool :=
  (getPage d base).waiters.any (fun w => w.req == r && w.off == off && w.write == write)

/-- A 32-bit access of a hand to control space: performed, refused with ACCESS, waiting, or an address error. -/
def handAccess (t h off : Nat) (write : Bool) (v : Nat) (d : Dev) : Dev :=
  let r := handReq t h
  match gate d r off 4 write with
  | .page p o =>
    if write then
      let e := writeReg r p o v d
      handDone t h off true (if deniedSince d.body.replies.length e then 2 else 0) [] e
    else
      let x := readWord r p o false d
      handDone t h off false 0 (leBytes 4 x.1.toNat) x.2
  | .array _ => d
  | .denied base c => handDone t h off write 2 [] (refuse r base off c write d)
  | .waits base =>
    if isWaiting d base r off write then d
    else modPage base (fun p => { p with waiters := p.waiters ++ [⟨r, off, 4, write, v⟩] }) d
  | .unmapped => handDone t h off write 1 [] d
  | .silent => d

/-- The offset in control space of this device that a global address names. -/
def ctlOffset (d : Dev) (addr : Nat) : Option Nat :=
  if gDev addr = myDev d then (match homeOf d (gOff addr) with | .ctl o => some o | _ => none) else none

/-- The accesses of a hand to control space that have been issued and not performed. -/
def ctlWork (t h : Nat) (d : Dev) : Dev :=
  let x := getHand d t h
  let d := x.posted.foldl (fun e p =>
    match p.res, ctlOffset e p.addr, p.op with
    | none, some o, .write bs _ => handAccess t h o true (leNat bs) e
    | _, _, _ => e) d
  match x.miss with
  | some m =>
    if m.hold = 0 ∧ m.res = .pending ∧ m.kind.isAccess then
      match ctlOffset d m.addr with
      | some o => handAccess t h o false 0 d
      | none => d
    else d
  | none => d

/-- An access that waited is performed. -/
def performWaiter (w : Waiter) (d : Dev) : Dev :=
  match w.req with
  | .hand t h => handAccess t.val h.val w.off w.write w.value d
  | r =>
    match gate d r w.off w.size w.write with
    | .page p o =>
      if !w.write then let x := readWord r p o false d; reply (.value (x.1.setWidth 64)) x.2
      else if w.size = 8 then writeReg r p (o + 4) (w.value / 2 ^ 32) (writeReg r p o (w.value % 2 ^ 32) d)
      else writeReg r p o w.value d
    | .denied base c => refuse r base w.off c w.write d
    | _ => d

/-- The lock of a page is freed, and the accesses that waited are performed in order of arrival (R401). -/
def freeLock (base : Nat) (d : Dev) : Dev :=
  let ws := (getPage d base).waiters
  ws.foldl (fun e w => performWaiter w e) (modPage base (fun p => { p with held := false, timer := 0, waiters := [] }) d)

/-- A release by timeout or by force: logged, the low words staged by the owner discarded, its EXPECT bit kept (R336,
R392, R400). -/
def forceFree (base cause req : Nat) (d : Dev) : Dev :=
  let d := logError base cause req 0x20 false d
  freeLock base (modPage base (fun p => { p with staged := p.staged.filter (fun s => s.by_ != p.owner) }) d)

/-! ## Writes of the header (R389, R399, R402, R424) -/

/-- A write of `IRQ_MASK`: each mask bit cleared whose RAW bit is 1 raises one event (R402). -/
def maskWrite (p : PageAt) (v : Nat) (d : Dev) : Dev :=
  let x := getPage d p.base
  let raised := (List.range 32).filter (fun b => bitAt x.mask.toNat b && !bitAt v b && bitAt x.raw.toNat b)
  raised.foldl (fun e b => match eventSource p.kind p.inst b with
    | some n => raise n e
    | none => e) (modPage p.base (fun y => { y with mask := word v }) d)

/-- A write of RELEASE: the writer's EXPECT bit is cleared, and the owner frees the lock (R399). -/
def lockRelease (r : Req) (base v : Nat) (d : Dev) : Dev :=
  match Req.core? r with
  | none => d
  | some c =>
    if !bitAt v 8 then d
    else
      let x := getPage d base
      let d := modPage base (fun p => { p with expect := p.expect &&& (15 - 2 ^ c) }) d
      if x.held ∧ x.owner = c then freeLock base d else d

/-- A write of a header word by the management complex. -/
def headEff (r : Req) (p : PageAt) (o v : Nat) (d : Dev) : Dev :=
  match o with
  | 0x08 => if v % 2 ^ 16 = 0 then d else modPage p.base (fun x => { x with lockmax := v % 2 ^ 16 }) d
  | 0x14 => maskWrite p v d
  | 0x18 => modPage p.base (fun x => { x with raw := x.raw &&& ~~~word v }) d
  | 0x20 => lockRelease r p.base v d
  | _ => d
def writeHead (r : Req) (p : PageAt) (o v : Nat) (d : Dev) : Dev := mgmtOnly r p.base (p.base + o) (headEff r p o v) d

/-! ## Writes of arrays (R102, R115, R291, R394) -/

/-- The queue of the input engine whose region an offset of a half's dictionary SRAM lies in. -/
def dictQueue (d : Dev) (h o : Nat) : Nat :=
  let e := 4 * h + o / 0x800000
  match ownerOf d e with
  | some p => queueEighth d p h - 4 * h
  | none => e % 4

/-- A 32-bit write of an array. The flash zone table takes no writes. -/
def writeArray (r : Req) (a : ArrayAt) (off v : Nat) (d : Dev) : Dev :=
  let no (c : Nat) : Dev := refuse r (arrayPage a) off c true d
  match a with
  | .meBank _ _ _ => bankAccess r off 4 v d
  | .sfBank _ _ _ => bankAccess r off 4 v d
  | .stBank _ _ _ => bankAccess r off 4 v d
  | .sfData t o =>
    if !isMgmt d r then no cRequester
    else if (getMe d t).run then no cState
    else modSf t (fun x => { x with data := tset 0 x.data (o / 4) (word v) }) d
  | .imem t o =>
    if !isMgmt d r then no cRequester
    else if !(List.range 64).all (fun h => resting (getHand d t h)) then no cState
    else modTile t (fun x => { x with imem := tset 0 x.imem (o / 4) (word v) }) d
  | .zones _ _ => if isMgmt d r then d else no cRequester
  | .dict h o =>
    if !isMgmt d r then no cRequester
    else if (getInq d h (dictQueue d h o)).en then no cState
    else modBody (fun b => { b with dict := tset 0 b.dict (dictKey h (o / 4)) (word v) }) d

/-! ## The rows -/

/-- A 32-bit write of control space that has passed checks 1 to 5. -/
def writeAt (r : Req) (off v : Nat) (d : Dev) : Dev :=
  match ctlAt off with
  | .page p o => if o < 0x40 then writeHead r p o v d else writeReg r p o v d
  | .array a => writeArray r a off v d
  | .unmapped => d

/-- A write of a requester; a 64-bit one is two 32-bit ones, low word first (R393). -/
def writeAccess (r : Req) (off size v : Nat) (d : Dev) : Dev :=
  access r off size true v (fun e =>
    if size = 8 then writeAt r (off + 4) (v / 2 ^ 32) (writeAt r off (v % 2 ^ 32) e) else writeAt r off (v % 2 ^ 32) e) d

/-- LATCHING_LOW_READ: R391. -/
def execLatchingLowRead (r : Req) (off : CtlOff) (s : State) : Out :=
  run (fun d => if WellFormed.accOf off.toNat = some .latchLo then readAccess r off.toNat false d else d) s

/-- The access code is that of the low, or the high, word of a plain pair. -/
def isPlainLo (a : Option Acc) : Bool := match a with | some (.plainLo _) => true | some .woLo => true | _ => false
def isPlainHi (a : Option Acc) : Bool := match a with | some (.plainHi _) => true | some .woHi => true | _ => false

/-- PLAIN_PAIR_LOW_WRITE: R392. -/
def execPlainPairLowWrite (r : Req) (off : CtlOff) (v : Word) (s : State) : Out :=
  run (fun d => if isPlainLo (WellFormed.accOf off.toNat) then writeAccess r off.toNat 4 v.toNat d else d) s

/-- PLAIN_PAIR_HIGH_WRITE: R392. -/
def execPlainPairHighWrite (r : Req) (off : CtlOff) (v : Word) (s : State) : Out :=
  run (fun d => if isPlainHi (WellFormed.accOf off.toNat) then writeAccess r off.toNat 4 v.toNat d else d) s

/-- RC_READ: R5, R398: a register with RC fields, `ERR_LOG` among them. -/
def execRcRead (r : Req) (off : CtlOff) (s : State) : Out :=
  run (fun d => if WellFormed.accOf off.toNat = some .rc ∨ WellFormed.header off 0x1C then readAccess r off.toNat false d else d) s

/-- The debug access port reads 8 bytes of memory while debug is open (R329, R334): of any partition, and of a spare tile
while a self-test runs (R17; log 115). What has no power or a closed gate gives it an error. -/
def debugRead (a : Nat) (d : Dev) : Dev :=
  let off (h : Home) : Bool := !d.power.mainOn || (match h.eighth with
    | some e => gated d e || (decide (16 ≤ h.kind) && (getEighth d e).domain == .off)
    | none => false)
  if !debugOpen d.sec then d
  else match homeRange d a 8 with
    | .none => reply .addressError (portError d)
    | .host _ => reply .addressError (portError d)
    | .ctl _ => reply .addressError (portError d)
    | h =>
      if h.eighth.isNone ∧ d.body.bt.acts.isEmpty then reply .addressError (portError d)
      else if off h then reply (.denied cPoweredOff) (portError d)
      else if unitWaits d a 8 then reply .waits d
      else let r := unitRead a 8 d; reply (.data r.1 (!r.2.1.isEmpty)) r.2.2

/-- A quiet read of a local offset: of control space as a register, elsewhere of memory. -/
def quietRead (a : Nat) (d : Dev) : Dev :=
  if Config.ctlBase ≤ a ∧ a < Config.flashBase then readAccess .debug (a - Config.ctlBase) true d else debugRead a d

/-- QUIET_READ: R329, R334. -/
def execQuietRead (off : BitVec 49) (s : State) : Out := run (quietRead off.toNat) s

/-- REGISTER_WRITE: R388 to R398, R424. An access is of 1, 2, 4 or 8 bytes. -/
def execRegisterWrite (r : Req) (off : CtlOff) (size : Nat) (v : Dword) (s : State) : Out :=
  runAll (fun d => if size = 1 ∨ size = 2 ∨ size = 4 ∨ size = 8 then writeAccess r off.toNat size v.toNat d else d) s

/-- SEQ_LOCK_READ: R399. -/
def execSeqLockRead (r : Req) (off : CtlOff) (s : State) : Out :=
  run (fun d => if WellFormed.header off 0x20 then readAccess r off.toNat false d else d) s

/-- SEQ_LOCK_RELEASE: R399, R401. -/
def execSeqLockRelease (r : Req) (off : CtlOff) (s : State) : Out :=
  runAll (fun d => if WellFormed.header off 0x20 then writeAccess r off.toNat 4 0x100 d else d) s

/-- The hold timer of a page reaches `BLK_CTRL.LOCKMAX` (R400); it stops while the owner is debug-halted (R336). -/
def lockTimeout (base : Nat) (d : Dev) : Dev :=
  let x := getPage d base
  if x.held ∧ !d.body.coreHalt.contains x.owner ∧ x.lockmax * Config.usCycles ≤ x.timer then
    forceFree base cLockTimeout x.owner d
  else d

/-- LOCK_TIMEOUT: R392, R400. -/
def execLockTimeout (off : CtlOff) (s : State) : Out :=
  runAll (fun d => if WellFormed.header off 0x20 then lockTimeout (off.toNat - 0x20) d else d) s

/-- IRQ_STAT_CLEAR: R402, R424. -/
def execIrqStatClear (r : Req) (off : CtlOff) (v : Word) (s : State) : Out :=
  run (fun d => match ctlAt off.toNat with
    | .page p 0x18 => access r off.toNat 4 true v.toNat (writeHead r p 0x18 v.toNat) d
    | _ => d) s

/-- IRQ_MASK_WRITE: R402, R424. -/
def execIrqMaskWrite (r : Req) (off : CtlOff) (v : Word) (s : State) : Out :=
  run (fun d => match ctlAt off.toNat with
    | .page p 0x14 => access r off.toNat 4 true v.toNat (writeHead r p 0x14 v.toNat) d
    | _ => d) s

/-- The debugger releases a lock by force: through an open debug port, a lock that is held (R333, R336). -/
def dbgForce (base : Nat) (d : Dev) : Dev :=
  if debugOpen d.sec ∧ (getPage d base).held then countForced (forceFree base cDbgForce 4 d) else d

/-- DBG_FORCE: R336, R392. -/
def execDbgForce (off : CtlOff) (s : State) : Out :=
  runAll (fun d => if WellFormed.header off 0x20 then dbgForce (off.toNat - 0x20) d else d) s

/-- FORCE_RST: R72. -/
def execForceRst (r : Req) (t : Sys2Proof.Tile) (s : State) : Out :=
  let o := regOff 16 t.val 0x40
  runMain (access r o 4 true 1 (mgmtOnly r (pageBase 16 t.val) o (forceReset t.val))) s

end Sys2Proof.Machine
end

