-- ==== Sys2Proof/Machine/Arrive.lean ====
section
/-! DEFINITION. Packets that arrive (spec/10_links.md, R225, R226, R234, R235): the router takes a packet whole and in the
order of its stream, answers it, passes it on, or gives it to what its kind asks of this device. -/

namespace Sys2Proof.Machine

/-- What a packet for this device asks, by its kind. -/
def takePkt (at_ : Arrival) (kind : PKind) (k : Packet) (d : Dev) : Dev :=
  match kind with
  | .write => serveReq at_ .write k (.write k.payload (fieldBad k.poison k.payload.length)) d
  | .read => takeRead at_ k d
  | .data => completeTag k.tag.toNat 0 k.payload (fieldBad k.poison k.payload.length) d
  | .atomic => takeAtomic at_ k d
  | .completion => takeCompletion k.tag.toNat k.status.toNat k.arg.toNat d
  | .collective => takeCollective k d

/-- The header has a reserved KIND or a reserved bit set (R225). -/
def reservedHead (k : Packet) : Bool := k.kind.toNat == 0 || decide (6 < k.kind.toNat) || k.rsv != 0 || bitAt k.src.toNat 15

/-- An open packet that ends here gives the credits of its place back (R227). -/
def packetCredit (at_ : Arrival) (k : Packet) (d : Dev) : Dev :=
  if at_.slot.isSome then d else returnCredit at_.port.val (pktFlits k) d

/-- The router takes a packet: answered at a closed gate (R234), UNROUTED when its header is reserved (R225), passed on when it
is for another device, else taken by this one. An open packet that ends here gives its credits back (R227). -/
def route (at_ : Arrival) (kind : PKind) (k : Packet) (d : Dev) : Dev :=
  if (getPort d at_.port.val).gate then answerError k 3 (packetCredit at_ k d)
  else if reservedHead k then answerError k 4 (ctlAdd (regOff 7 0 0x50) 1 (packetCredit at_ k d))
  else if devNumber d ≠ some (gDev k.dst.toNat) then passOn at_ kind k d
  else takePkt at_ kind k (packetCredit at_ k d)

/-- The corrected symbols of codewords, lane by lane (R235, R236). -/
def noteCorr (p l : Nat) (corr : List Nat) (d : Dev) : Dev :=
  if corr.all (· == 0) then d
  else ctlAdd (lkOff p (0x88 + 0x20 * l)) (corr.foldl (· + ·) 0)
    (modLink (lkKey p l) (fun y =>
      { y with laneCorr := (List.range 8).foldl (fun a i => tset 0 a i (tget 0 a i + getAt 0 corr i)) y.laneCorr }) d)

/-- The packets that a link holds of a stream are taken, in order, once no flit of it is lost (R235). -/
def releaseHeld (p l o : Nat) (d : Dev) : Dev :=
  let x := getLink d (lkKey p l)
  if tget 0 x.lost o ≠ 0 ∨ !x.held.any (fun h => h.at_.owner == o) then d
  else (x.held.filter (fun h => h.at_.owner == o)).foldl (fun e h => route h.at_ h.kind h.pkt e)
    (modLink (lkKey p l) (fun y => { y with held := y.held.filter (fun h => h.at_.owner != o) }) d)

/-- A packet arrives on a link that carries traffic. Flits sent again make good what was lost of its stream; a packet behind
lost flits is held (R235). -/
def arrive (at_ : Arrival) (kind : PKind) (k : Packet) (d : Dev) : Dev :=
  let p := at_.port.val
  let l := at_.link.val
  let o := at_.owner
  if (getLink d (lkKey p l)).state ≠ lkUp then d
  else
    let d := noteCorr p l at_.corr d
    if at_.again = 0 ∧ tget 0 (getLink d (lkKey p l)).lost o ≠ 0 then
      modLink (lkKey p l) (fun y => { y with held := y.held ++ [⟨at_, kind, k⟩] }) d
    else if at_.again = 0 then route at_ kind k d
    else releaseHeld p l o (route at_ kind k
      (modLink (lkKey p l) (fun y => { y with lost := tset 0 y.lost o (tget 0 y.lost o - at_.again) }) d))

/-- WRITE: R225, R226, R325. -/
def execWrite (at_ : Arrival) (k : Packet) (s : State) : Out := runMain (arrive at_ .write k) s

/-- READ: R225, R226, R325. -/
def execRead (at_ : Arrival) (k : Packet) (s : State) : Out := runMain (arrive at_ .read k) s

/-- DATA: R225, R226: what a request of this device asked for. -/
def execData (at_ : Arrival) (k : Packet) (s : State) : Out := runMain (arrive at_ .data k) s

/-- ATOMIC: R125, R225, R226, R325. -/
def execAtomic (at_ : Arrival) (k : Packet) (s : State) : Out := runMain (arrive at_ .atomic k) s

/-- COMPLETION: R225, R226, R234: a request of this device ends with its status. -/
def execCompletion (at_ : Arrival) (k : Packet) (s : State) : Out := runMain (arrive at_ .completion k) s

/-- COLLECTIVE: R225, R251, R252. -/
def execCollective (at_ : Arrival) (k : Packet) (s : State) : Out := runMain (arrive at_ .collective k) s

end Sys2Proof.Machine
end

