-- ==== Sys2Proof/Machine/HandAlu.lean ====
section
/-! DEFINITION. The arithmetic of hands (R122, R123): the functions of classes ALU, ALUI, FPU and VEC on register
values. -/

namespace Sys2Proof.Machine

/-- The number of leading zeros of a 64-bit value, and of trailing ones below its lowest set bit. -/
def clz64 (v : Nat) : Nat := 64 - bitLen v
def ctz64 (v : Nat) : Nat := ((List.range 64).find? (fun i => bitAt v i)).getD 64
def pop64 (v : Nat) : Nat := ((List.range 64).filter (fun i => bitAt v i)).length

/-- A signed value as a register. -/
def ofSigned (v : Int) : Dword := BitVec.ofInt 64 v

/-- A shift: by 64 or more the result is a free value (R122 states none; log 42). `k` is 0 left, 1 right, 2 arithmetic. -/
def shiftBy (k : Nat) (a b : Dword) : Dword :=
  if 64 ≤ b.toNat then Config.wideShift k a b
  else if k = 0 then a <<< b.toNat
  else if k = 1 then a >>> b.toNat
  else a.sshiftRight b.toNat

/-- Signed division and remainder, toward zero; by zero R123's values; the most negative number by -1 is a free value
(log 43). -/
def divS (a b : Dword) : Dword :=
  if b = 0 then BitVec.allOnes 64
  else if a = BitVec.intMin 64 ∧ b = BitVec.allOnes 64 then Config.divOverflow false a
  else a.sdiv b
def remS (a b : Dword) : Dword :=
  if b = 0 then a
  else if a = BitVec.intMin 64 ∧ b = BitVec.allOnes 64 then Config.divOverflow true a
  else a.srem b
def divU (a b : Dword) : Dword := if b = 0 then BitVec.allOnes 64 else a / b
def remU (a b : Dword) : Dword := if b = 0 then a else a % b

/-- A truth value in a register. -/
def truth (b : Bool) : Dword := BitVec.ofNat 64 (b2n b)

/-- Class ALU (R122, R123). -/
def aluOp (fn : AluFn) (a b c : Dword) : Dword :=
  match fn with
  | .add => a + b
  | .sub => a - b
  | .and => a &&& b
  | .or => a ||| b
  | .xor => a ^^^ b
  | .shl => shiftBy 0 a b
  | .shr => shiftBy 1 a b
  | .sar => shiftBy 2 a b
  | .mul => a * b
  | .mulh => ofSigned (a.toInt * b.toInt / 2 ^ 64)
  | .mulhu => BitVec.ofNat 64 (a.toNat * b.toNat / 2 ^ 64)
  | .div => divS a b
  | .divu => divU a b
  | .rem => remS a b
  | .remu => remU a b
  | .min => if a.toInt ≤ b.toInt then a else b
  | .max => if a.toInt ≤ b.toInt then b else a
  | .minu => if a.toNat ≤ b.toNat then a else b
  | .maxu => if a.toNat ≤ b.toNat then b else a
  | .slt => truth (decide (a.toInt < b.toInt))
  | .sltu => truth (decide (a.toNat < b.toNat))
  | .clz => BitVec.ofNat 64 (clz64 a.toNat)
  | .ctz => BitVec.ofNat 64 (ctz64 a.toNat)
  | .popcount => BitVec.ofNat 64 (pop64 a.toNat)
  | .select => if c ≠ 0 then a else b

/-- Class ALUI: the immediate is signed, but ORSH extends it with zeros (R121, R122). -/
def aluiOp (fn : AluiFn) (a : Dword) (imm : BitVec 14) : Dword :=
  let b := imm.signExtend 64
  match fn with
  | .add => a + b
  | .and => a &&& b
  | .or => a ||| b
  | .xor => a ^^^ b
  | .shl => shiftBy 0 a b
  | .shr => shiftBy 1 a b
  | .sar => shiftBy 2 a b
  | .slt => truth (decide (a.toInt < b.toInt))
  | .sltu => truth (decide (a.toNat < b.toNat))
  | .orsh => (a <<< 14) ||| imm.zeroExtend 64

/-! ## Floating point -/

/-- The format of an FPU operand width. -/
def fpFmt (wide : Bool) : Fmt := if wide then fp64 else fp32

/-- A result of w bits in a register: the bits above it are a free value (R122 states none; log 44). -/
def narrowTo (w : Nat) (v : Nat) : Dword :=
  let x := v % 2 ^ w
  BitVec.ofNat 64 (x + (Config.narrowHigh w (BitVec.ofNat 64 x)).toNat / 2 ^ w * 2 ^ w)

/-- Code, width and format of a conversion's operand. -/
def nfCode : NumFmt → Nat
  | .fp64 => 0 | .fp32 => 1 | .bf16 => 2 | .e4m3 => 3 | .e5m2 => 4 | .s32 => 5 | .u32 => 6 | .s64 => 7 | .u64 => 8
def nfWidth : NumFmt → Nat
  | .fp64 => 64 | .fp32 => 32 | .bf16 => 16 | .e4m3 => 8 | .e5m2 => 8 | .s32 => 32 | .u32 => 32 | .s64 => 64 | .u64 => 64
def nfFmt : NumFmt → Option Fmt
  | .fp64 => some fp64 | .fp32 => some fp32 | .bf16 => some bf16 | .e4m3 => some e4m3 | .e5m2 => some e5m2 | _ => none
def nfSigned : NumFmt → Bool
  | .s32 => true | .s64 => true | _ => false

/-- The value that a conversion reads: the low bits of its register. -/
def nfValue (f : NumFmt) (a : Dword) : FV :=
  match nfFmt f with
  | some x => x.decode (a.toNat % 2 ^ (nfWidth f))
  | none => FV.ofInt (if nfSigned f then sext (nfWidth f) a.toNat else ((a.toNat % 2 ^ (nfWidth f) : Nat) : Int))

/-- A value fits an integer format. -/
def nfFits (f : NumFmt) (v : Int) : Bool :=
  if nfSigned f then decide (-(2 ^ ((nfWidth f) - 1) : Int) ≤ v) && decide (v < 2 ^ ((nfWidth f) - 1))
  else decide (0 ≤ v) && decide (v < 2 ^ (nfWidth f))

/-- A conversion (R80, R81, R122). To an integer it rounds to nearest, ties to even; a NaN, an infinity and a value out of
range give a free value (log 45). -/
def convert (src dst : NumFmt) (a : Dword) : Dword :=
  match nfFmt dst with
  | some f => narrowTo (nfWidth dst) (f.encode .nearest (nfValue src a))
  | none =>
    match nfValue src a with
    | .fin s m e =>
      let v := roundInt s m e
      if nfFits dst v then narrowTo (nfWidth dst) (unsext (nfWidth dst) v) else Config.intConvert (nfCode src) (nfCode dst) a
    | _ => Config.intConvert (nfCode src) (nfCode dst) a

/-- Class FPU (R79, R80, R122, R123). -/
def fpuOp (fn : FpuFn) (a b c : Dword) : Dword :=
  let rd (w : Bool) (x : Dword) : FV := (fpFmt w).decode (x.toNat % 2 ^ (fpFmt w).width)
  let out (w : Bool) (v : FV) : Dword := narrowTo (fpFmt w).width ((fpFmt w).encode .nearest v)
  match fn with
  | .add w => out w (FV.add (rd w a) (rd w b))
  | .sub w => out w (FV.sub (rd w a) (rd w b))
  | .mul w => out w (FV.mul (rd w a) (rd w b))
  | .fma w => out w (FV.fma (rd w a) (rd w b) (rd w c))
  | .div w => out w (FV.div (rd w a) (rd w b))
  | .sqrt w => out w (FV.sqrt (rd w a))
  | .min w => out w (FV.minOf (rd w a) (rd w b))
  | .max w => out w (FV.maxOf (rd w a) (rd w b))
  | .eq w => truth (FV.eq (rd w a) (rd w b))
  | .lt w => truth (FV.lt (rd w a) (rd w b))
  | .le w => truth (FV.lt (rd w a) (rd w b) || FV.eq (rd w a) (rd w b))
  | .cvt s d => convert s d a

/-! ## Vectors -/

/-- Width of a lane kind in bits. -/
def laneWidth : Lane → Nat
  | .f32 => 32 | .bf16 => 16 | .u32 => 32 | .u64 => 64
/-- The float format of a lane kind; none for integers. -/
def laneFmt : Lane → Option Fmt
  | .f32 => some fp32 | .bf16 => some bf16 | _ => none

/-- The lanes of a vector register, lane 0 in the lowest bits. -/
def lanesOf (w : Nat) (v : BitVec 512) : List Nat := (List.range (512 / w)).map (fun i => bits v.toNat (w * i + w - 1) (w * i))

/-- A vector register from its lanes. -/
def ofLanes (w : Nat) (l : List Nat) : BitVec 512 := BitVec.ofNat 512 (packNat w l)

/-- One lane's operation: of floats rounded once, of integers modulo the lane's width (R80, R122). -/
def laneAdd (l : Lane) (a b : Nat) : Nat :=
  match laneFmt l with
  | some f => f.encode .nearest (FV.add (f.decode a) (f.decode b))
  | none => (a + b) % 2 ^ laneWidth l
def laneMul (l : Lane) (a b : Nat) : Nat :=
  match laneFmt l with
  | some f => f.encode .nearest (FV.mul (f.decode a) (f.decode b))
  | none => a * b % 2 ^ laneWidth l
def laneFma (l : Lane) (a b c : Nat) : Nat :=
  match laneFmt l with
  | some f => f.encode .nearest (FV.fma (f.decode a) (f.decode b) (f.decode c))
  | none => (a * b + c) % 2 ^ laneWidth l
def laneMax (l : Lane) (a b : Nat) : Nat :=
  match laneFmt l with
  | some f => f.encode .nearest (FV.maxOf (f.decode a) (f.decode b))
  | none => max a b
def laneMin (l : Lane) (a b : Nat) : Nat :=
  match laneFmt l with
  | some f => f.encode .nearest (FV.minOf (f.decode a) (f.decode b))
  | none => min a b

/-- An operation on the lanes of two registers. -/
def lanes2 (l : Lane) (f : Nat → Nat → Nat) (a b : BitVec 512) : BitVec 512 :=
  ofLanes (laneWidth l) (List.zipWith f (lanesOf (laneWidth l) a) (lanesOf (laneWidth l) b))

/-- A result of which only the low w bits are stated; the rest is a free value (log 46). -/
def lowBits (code w v : Nat) (a : BitVec 512) : BitVec 512 :=
  BitVec.ofNat 512 (v % 2 ^ w + (Config.vecRest code a).toNat / 2 ^ w * 2 ^ w)

/-- A reduction in the pairwise tree of lane order (R74, R123), into lane 0. -/
def reduce (code : Nat) (l : Lane) (f : Nat → Nat → Nat) (a : BitVec 512) : BitVec 512 :=
  lowBits code (laneWidth l) (pairTree f 0 (lanesOf (laneWidth l) a)) a

/-- The number format of a lane kind. -/
def laneNum : Lane → NumFmt
  | .f32 => .fp32 | .bf16 => .bf16 | .u32 => .u32 | .u64 => .u64

/-- A conversion of lanes: lane i to lane i, for the lanes that both kinds have; what it leaves above them is a free value
(log 46). -/
def laneConvert (l k : Lane) (a : BitVec 512) : BitVec 512 :=
  let n := min (512 / laneWidth l) (512 / laneWidth k)
  lowBits 0 (laneWidth k * n) (packNat (laneWidth k)
    (((lanesOf (laneWidth l) a).take n).map (fun x => (convert (laneNum l) (laneNum k) (BitVec.ofNat 64 x)).toNat % 2 ^ laneWidth k))) a

/-- Class VEC but for VLD and VST (R122, R123). A conversion takes lane i to lane i (log 46). -/
def vecOp (fn : VecFn) (a b c : BitVec 512) : BitVec 512 :=
  match fn with
  | .add l => lanes2 l (laneAdd l) a b
  | .mul l => lanes2 l (laneMul l) a b
  | .fma l => ofLanes (laneWidth l) (List.zipWith (fun p z => laneFma l p.1 p.2 z)
      (List.zip (lanesOf (laneWidth l) a) (lanesOf (laneWidth l) b)) (lanesOf (laneWidth l) c))
  | .max l => lanes2 l (laneMax l) a b
  | .min l => lanes2 l (laneMin l) a b
  | .cvt l k => laneConvert l k a
  | .redAdd l => reduce 1 l (laneAdd l) a
  | .redMax l => reduce 2 l (laneMax l) a
  | .redMin l => reduce 3 l (laneMin l) a

end Sys2Proof.Machine
end

