-- ==== Sys2Proof/Machine/Hands.lean ====
section
/-! DEFINITION. The instructions of the hands (spec/06_hands.md, R113, R114, R117 to R127, R134, R135, R138, R139): what
each does when the issue port issues it, and the decoding of an instruction word (Tables HD-3, HD-4). -/

namespace Sys2Proof.Machine

/-! ## The checks at issue (R114, R125, R129, R139) -/

/-- The address lies in the hand's own tile's SRAM window (R114). -/
def ownWindow (d : Dev) (t addr : Nat) : Bool :=
  decide (gDev addr = myDev d) && decide (sramAddr t 0 ≤ gOff addr) && decide (gOff addr < sramAddr t Config.window)

/-- An access that its target answers rather than its issuer: a closed gate or a powered-off domain, or a target without
an IN entry where the issuer has its OUT entry (R234, R324, R325). -/
def atTarget (d : Dev) (q addr n perm : Nat) (v : Verdict) : Bool :=
  v == .domainOff || (v == .access && granted d q false (myDev d) (gOff addr) n perm)

/-- The fault code that an access of n bytes with a permission of R325 meets at issue, 0 for none: PIN_VIOLATION, then
MISALIGNED, then ACCESS and ADDRESS. -/
def handCheck (d : Dev) (t h addr n perm : Nat) : Nat :=
  if h < 8 ∧ !ownWindow d t addr then 6
  else if addr % n ≠ 0 then 3
  else if ownSram d t addr then 0
  else match ctlOffset d addr with
    | some _ => if perm = permA then 4 else if n ≠ 4 then 5 else 0
    | none => match tilePart d t with
      | none => if ownWindow d t addr then 4 else 5
      | some q =>
        let v := (checkGlobal d q addr n perm).2
        if v = .ok ∨ atTarget d q addr n perm v then 0 else handCode v.code

/-! ## Instructions by their effects, given the program counter at which they were issued -/

/-- Write the result of an instruction into general register rd. -/
def toReg (t h rd : Nat) (f : HandSt → Dword) (d : Dev) : Dev :=
  modHand t h (fun x => gSet rd (f x) x) d

/-- A memory access at an address: faulted at issue, or on its way. -/
def memAccess (t h : Nat) (kind : MissKind) (addr n perm : Nat) (op : MemReq) (ordered : Bool) (pc : Nat) (d : Dev) : Dev :=
  let c := handCheck d t h addr n perm
  if c ≠ 0 then handFault t h c addr pc d
  else ctlWork t h (goOn t h ⟨kind, addr, op, ordered, .pending, 0, pc⟩ d)

/-- The sum of a general register and an immediate, as an address. -/
def regPlus (x : HandSt) (a : Nat) (imm : BitVec 14) : Nat := (gGet x a + imm.signExtend 64).toNat

def effAlu (t h : Nat) (fn : AluFn) (rd a b c : Nat) (d : Dev) : Dev :=
  toReg t h rd (fun x => aluOp fn (gGet x a) (gGet x b) (gGet x c)) d
def effAlui (t h : Nat) (fn : AluiFn) (rd a : Nat) (imm : BitVec 14) (d : Dev) : Dev :=
  toReg t h rd (fun x => aluiOp fn (gGet x a) imm) d
def effFpu (t h : Nat) (fn : FpuFn) (rd a b c : Nat) (d : Dev) : Dev :=
  toReg t h rd (fun x => fpuOp fn (gGet x a) (gGet x b) (gGet x c)) d
def effVec (t h : Nat) (fn : VecFn) (rd a b c : Nat) (d : Dev) : Dev :=
  modHand t h (fun x => wSet rd (vecOp fn (wGet x a) (wGet x b) (wGet x c)) x) d

/-- LD: 1, 2, 4 or 8 bytes from A + IMM. -/
def effLd (t h lg : Nat) (signed : Bool) (rd a : Nat) (imm : BitVec 14) (pc : Nat) (d : Dev) : Dev :=
  memAccess t h (.load rd (2 ^ lg) signed) (regPlus (getHand d t h) a imm) (2 ^ lg) permR (.read (2 ^ lg)) false pc d

/-- ST: the low bytes of D to A + IMM. -/
def effSt (t h lg rd a : Nat) (imm : BitVec 14) (pc : Nat) (d : Dev) : Dev :=
  let x := getHand d t h
  memAccess t h .store (regPlus x a imm) (2 ^ lg) permW (.write (leBytes (2 ^ lg) (gGet x rd).toNat) []) false pc d

/-- ATOM at address A: the old value goes to D with zeros above it. -/
def effAtom (t h : Nat) (op : AtomOp) (wide rl : Bool) (rd a b c pc : Nat) (d : Dev) : Dev :=
  let x := getHand d t h
  let n := if wide then 8 else 4
  memAccess t h (.load rd n false) (gGet x a).toNat n permA (.atomic op n (gGet x b) (gGet x c)) rl pc d

/-- VLD and VST of 64 bytes at A + B. -/
def effVld (t h rd a b pc : Nat) (d : Dev) : Dev :=
  let x := getHand d t h
  memAccess t h (.vector rd) (gGet x a + gGet x b).toNat 64 permR (.read 64) false pc d
def effVst (t h rd a b pc : Nat) (d : Dev) : Dev :=
  let x := getHand d t h
  memAccess t h .store (gGet x a + gGet x b).toNat 64 permW (.write (leBytes 64 (wGet x rd).toNat) []) false pc d

/-- The condition of a branch. -/
def brTakes (c : BrCond) (a b : Dword) : Bool :=
  match c with
  | .eq => a == b
  | .ne => a != b
  | .lt => decide (a.toInt < b.toInt)
  | .ge => decide (b.toInt ≤ a.toInt)
  | .ltu => decide (a.toNat < b.toNat)
  | .geu => decide (b.toNat ≤ a.toNat)

/-- Set the program counter, modulo 0x1_0000 (R115). -/
def setPc (t h : Nat) (v : Int) (d : Dev) : Dev := modHand t h (fun x => { x with pc := BitVec.ofInt 16 v }) d

/-- BR: taken, the program counter moves by OFF instructions, as JAL moves it. -/
def effBr (t h : Nat) (c : BrCond) (a b : Nat) (off : BitVec 15) (pc : Nat) (d : Dev) : Dev :=
  let x := getHand d t h
  if brTakes c (gGet x a) (gGet x b) then setPc t h (pc + 4 * off.toInt) d else d

/-- The address of the next instruction, as a register takes it. -/
def nextPc (pc : Nat) : Dword := BitVec.ofNat 64 ((pc + 4) % 2 ^ 16)

def effJal (t h rd : Nat) (off : BitVec 23) (pc : Nat) (d : Dev) : Dev :=
  setPc t h (pc + 4 * off.toInt) (toReg t h rd (fun _ => nextPc pc) d)

/-- JALR: a target that is no multiple of 4, or not below 0x1_0000, faults with FETCH. -/
def effJalr (t h rd a : Nat) (imm : BitVec 14) (pc : Nat) (d : Dev) : Dev :=
  let v := regPlus (getHand d t h) a imm
  if v % 4 ≠ 0 ∨ 0x10000 ≤ v then handFault t h 2 v pc d else setPc t h v (toReg t h rd (fun _ => nextPc pc) d)

/-- SLOTW: register C into slot B of tile A, after every earlier access (R126, R134). -/
def effSlotw (t h a b c pc : Nat) (d : Dev) : Dev :=
  let x := getHand d t h
  let ta := (gGet x a).toNat
  let sb := (gGet x b).toNat
  if h < 8 ∧ ta ≠ t then handFault t h 6 0 pc d
  else if !slotOk d t ta sb then handFault t h 9 0 pc d
  else goOn t h ⟨.slotw ta sb (gGet x c), 0, .read 0, true, .pending, 0, pc⟩ d

/-- SLOTR and SLOTF: what a slot holds, or a BAD_SLOT fault. -/
def slotLook (t h rd a b pc : Nat) (f : Slot → Dword) (d : Dev) : Dev :=
  let x := getHand d t h
  let ta := (gGet x a).toNat
  let sb := (gGet x b).toNat
  if slotOk d t ta sb then toReg t h rd (fun _ => f (getSlot d ta sb)) d else handFault t h 9 0 pc d
def effSlotr (t h rd a b pc : Nat) (d : Dev) : Dev := slotLook t h rd a b pc (fun y => y.value) d
def effSlotf (t h rd a b pc : Nat) (d : Dev) : Dev := slotLook t h rd a b pc (fun y => truth y.full) d

/-- RING: add register B to doorbell A, after every earlier access (R126, R135). -/
def effRing (t h a b pc : Nat) (d : Dev) : Dev :=
  let x := getHand d t h
  goOn t h ⟨.ring (gGet x a).toNat ((gGet x b).toNat % 2 ^ 32), 0, .read 0, true, .pending, 0, pc⟩ d

/-- FENCE.S and FENCE.A: the hand goes on once its earlier accesses have been performed. -/
def effFence (t h pc : Nat) (d : Dev) : Dev := goOn t h ⟨.fence, 0, .read 0, true, .pending, 0, pc⟩ d

/-- WAIT on the word at A until it differs from B. -/
def effWait (t h a b pc : Nat) (d : Dev) : Dev :=
  let x := getHand d t h
  let addr := (gGet x a).toNat
  if addr % 8 ≠ 0 then handFault t h 3 addr pc d
  else if !ownSram d t addr then handFault t h 5 addr pc d
  else waitTest t h addr (gGet x b) pc d

/-- WAITT until the trick counter is at least A. -/
def effWaitt (t h a : Nat) (d : Dev) : Dev :=
  let v := gGet (getHand d t h) a
  if v.toNat ≤ d.time.trick then d else modHand t h (fun x => { x with state := .waiting, wait := .trick v }) d

/-- HID: device number, logical tile and hand number (R124). -/
def hidWord (d : Dev) (t h : Nat) : Dword := BitVec.ofNat 64 (h + 2 ^ 8 * t + 2 ^ 32 * myDev d)
def effHid (t h rd : Nat) (d : Dev) : Dev := toReg t h rd (fun _ => hidWord d t h) d
def effTrick (t h rd : Nat) (d : Dev) : Dev := toReg t h rd (fun _ => BitVec.ofNat 64 d.time.trick) d
def effPhase (t h rd : Nat) (d : Dev) : Dev := toReg t h rd (fun _ => BitVec.ofNat 64 d.time.phase) d
def effHalt (t h : Nat) (d : Dev) : Dev := modHand t h (fun x => { x with state := .halted, wait := .none, miss := none }) d
def effTrap (t h b pc : Nat) (d : Dev) : Dev := handFault t h 11 (gGet (getHand d t h) b).toNat pc d

/-! ## The rows of the instructions -/

/-- ALU: R122, R123. -/
def execAlu (t : Sys2Proof.Tile) (h : HandId) (fn : AluFn) (d a b c : GReg) (s : State) : Out :=
  runMain (issue t.val h.val (fun _ => effAlu t.val h.val fn d.val a.val b.val c.val)) s

/-- ALUI: R122. -/
def execAlui (t : Sys2Proof.Tile) (h : HandId) (fn : AluiFn) (d a : GReg) (imm : BitVec 14) (s : State) : Out :=
  runMain (issue t.val h.val (fun _ => effAlui t.val h.val fn d.val a.val imm)) s

/-- FPU: R122, R123. -/
def execFpu (t : Sys2Proof.Tile) (h : HandId) (fn : FpuFn) (d a b c : GReg) (s : State) : Out :=
  runMain (issue t.val h.val (fun _ => effFpu t.val h.val fn d.val a.val b.val c.val)) s

/-- LD: R117, R122, R125. -/
def execLd (t : Sys2Proof.Tile) (h : HandId) (lg : Fin 4) (signed : Bool) (d a : GReg) (imm : BitVec 14) (s : State) : Out :=
  runMain (issue t.val h.val (effLd t.val h.val lg.val signed d.val a.val imm)) s

/-- ST: R120, R122, R125. -/
def execSt (t : Sys2Proof.Tile) (h : HandId) (lg : Fin 4) (d a : GReg) (imm : BitVec 14) (s : State) : Out :=
  runMain (issue t.val h.val (effSt t.val h.val lg.val d.val a.val imm)) s

/-- ATOM: R122, R125, R126. AQ needs nothing more: the hand goes on when the old value is back. -/
def execAtom (t : Sys2Proof.Tile) (h : HandId) (op : AtomOp) (wide _aq rl : Bool) (d a b c : GReg) (s : State) : Out :=
  runMain (issue t.val h.val (effAtom t.val h.val op wide rl d.val a.val b.val c.val)) s

/-- BR: R122. -/
def execBr (t : Sys2Proof.Tile) (h : HandId) (cond : BrCond) (a b : GReg) (off : BitVec 15) (s : State) : Out :=
  runMain (issue t.val h.val (effBr t.val h.val cond a.val b.val off)) s

/-- JAL: R122. -/
def execJal (t : Sys2Proof.Tile) (h : HandId) (d : GReg) (off : BitVec 23) (s : State) : Out :=
  runMain (issue t.val h.val (effJal t.val h.val d.val off)) s

/-- JALR: R122, R124. -/
def execJalr (t : Sys2Proof.Tile) (h : HandId) (d a : GReg) (imm : BitVec 14) (s : State) : Out :=
  runMain (issue t.val h.val (effJalr t.val h.val d.val a.val imm)) s

/-- VEC: R122, R123. -/
def execVec (t : Sys2Proof.Tile) (h : HandId) (fn : VecFn) (d a b c : WReg) (s : State) : Out :=
  runMain (issue t.val h.val (fun _ => effVec t.val h.val fn d.val a.val b.val c.val)) s

/-- VLD: R122, R125. -/
def execVld (t : Sys2Proof.Tile) (h : HandId) (d : WReg) (a b : GReg) (s : State) : Out :=
  runMain (issue t.val h.val (effVld t.val h.val d.val a.val b.val)) s

/-- VST: R120, R122, R125. -/
def execVst (t : Sys2Proof.Tile) (h : HandId) (d : WReg) (a b : GReg) (s : State) : Out :=
  runMain (issue t.val h.val (effVst t.val h.val d.val a.val b.val)) s

/-- SLOTW: R126, R132, R134. -/
def execSlotw (t : Sys2Proof.Tile) (h : HandId) (a b c : GReg) (s : State) : Out :=
  runMain (issue t.val h.val (effSlotw t.val h.val a.val b.val c.val)) s

/-- SLOTR: R134. -/
def execSlotr (t : Sys2Proof.Tile) (h : HandId) (d a b : GReg) (s : State) : Out :=
  runMain (issue t.val h.val (effSlotr t.val h.val d.val a.val b.val)) s

/-- SLOTF: R134. -/
def execSlotf (t : Sys2Proof.Tile) (h : HandId) (d a b : GReg) (s : State) : Out :=
  runMain (issue t.val h.val (effSlotf t.val h.val d.val a.val b.val)) s

/-- RING: R126, R135. -/
def execRing (t : Sys2Proof.Tile) (h : HandId) (a b : GReg) (s : State) : Out :=
  runMain (issue t.val h.val (effRing t.val h.val a.val b.val)) s

/-- FENCE_S: R126, R127. -/
def execFenceS (t : Sys2Proof.Tile) (h : HandId) (s : State) : Out := runMain (issue t.val h.val (effFence t.val h.val)) s

/-- FENCE_A: R126, R127. -/
def execFenceA (t : Sys2Proof.Tile) (h : HandId) (s : State) : Out := runMain (issue t.val h.val (effFence t.val h.val)) s

/-- WAIT: R127. -/
def execWait (t : Sys2Proof.Tile) (h : HandId) (a b : GReg) (s : State) : Out :=
  runMain (issue t.val h.val (effWait t.val h.val a.val b.val)) s

/-- WAITT: R127. -/
def execWaitt (t : Sys2Proof.Tile) (h : HandId) (a : GReg) (s : State) : Out :=
  runMain (issue t.val h.val (fun _ => effWaitt t.val h.val a.val)) s

/-- HID: R124. -/
def execHid (t : Sys2Proof.Tile) (h : HandId) (d : GReg) (s : State) : Out :=
  runMain (issue t.val h.val (fun _ => effHid t.val h.val d.val)) s

/-- TRICK: R124. -/
def execTrick (t : Sys2Proof.Tile) (h : HandId) (d : GReg) (s : State) : Out :=
  runMain (issue t.val h.val (fun _ => effTrick t.val h.val d.val)) s

/-- PHASE: R124. -/
def execPhase (t : Sys2Proof.Tile) (h : HandId) (d : GReg) (s : State) : Out :=
  runMain (issue t.val h.val (fun _ => effPhase t.val h.val d.val)) s

/-- HALT: R112, R122. -/
def execHalt (t : Sys2Proof.Tile) (h : HandId) (s : State) : Out :=
  runMain (issue t.val h.val (fun _ => effHalt t.val h.val)) s

/-- TRAP: R124, R138. -/
def execTrap (t : Sys2Proof.Tile) (h : HandId) (b : GReg) (s : State) : Out :=
  runMain (issue t.val h.val (effTrap t.val h.val b.val)) s

/-- HAND_NOP: R122. -/
def execHandNop (t : Sys2Proof.Tile) (h : HandId) (s : State) : Out := runMain (issue t.val h.val (fun _ d => d)) s

/-- MISS_RETURN: R118, R119. -/
def execMissReturn (t : Sys2Proof.Tile) (h : HandId) (s : State) : Out :=
  runMain (fun d => ctlWork t.val h.val (missBack t.val h.val d)) s

/-- MTT_ENTRY_FREE: R118. -/
def execMttEntryFree (t : Sys2Proof.Tile) (h : HandId) (s : State) : Out :=
  runMain (fun d => ctlWork t.val h.val (entryFrees t.val h.val d)) s

/-! ## Decoding an instruction word (R121, R122) -/

/-- A general and a vector register of a 5-bit field. -/
def gReg (n : Nat) : GReg := Fin.ofNat 32 n
def wReg (n : Nat) : WReg := Fin.ofNat 8 n

/-- The functions of each class in the order of Table HD-4's contents; the code of each is a free value (log 47). -/
def aluFns : List AluFn :=
  [.add, .sub, .and, .or, .xor, .shl, .shr, .sar, .mul, .mulh, .mulhu, .div, .divu, .rem, .remu, .min, .max, .minu, .maxu,
   .slt, .sltu, .clz, .ctz, .popcount, .select]
def aluiFns : List AluiFn := [.add, .and, .or, .xor, .shl, .shr, .sar, .slt, .sltu, .orsh]
def numFmts : List NumFmt := [.fp64, .fp32, .bf16, .e4m3, .e5m2, .s32, .u32, .s64, .u64]
def fpuFns : List FpuFn :=
  ([false, true].map (fun w =>
    [.add w, .sub w, .mul w, .fma w, .div w, .sqrt w, .min w, .max w, .eq w, .lt w, .le w])).flatten
  ++ (numFmts.map (fun a => numFmts.map (fun b => FpuFn.cvt a b))).flatten
def loadFns : List (Fin 4 × Bool) := [(0, false), (1, false), (2, false), (3, false), (0, true), (1, true), (2, true), (3, true)]
def atomOps : List AtomOp := [.swap, .cas, .add, .and, .or, .xor, .mins, .maxs, .minu, .maxu]
def brConds : List BrCond := [.eq, .ne, .lt, .ge, .ltu, .geu]
def lanes : List Lane := [.f32, .bf16, .u32, .u64]
def vecFns : List VecFn :=
  (lanes.map (fun l => [VecFn.add l, .mul l, .fma l, .max l, .min l])).flatten ++ (lanes.map (fun l => (lanes.filter (· != l)).map (VecFn.cvt l))).flatten
  ++ (lanes.map (fun l => [VecFn.redAdd l, .redMax l, .redMin l])).flatten

/-- Which of B and C a function reads. -/
def aluUses : AluFn → Bool × Bool
  | .clz => (false, false)
  | .ctz => (false, false)
  | .popcount => (false, false)
  | .select => (true, true)
  | _ => (true, false)
def fpuUses : FpuFn → Bool × Bool
  | .sqrt _ => (false, false)
  | .cvt _ _ => (false, false)
  | .fma _ => (true, true)
  | _ => (true, false)
def vecUses : VecFn → Bool × Bool
  | .fma _ => (true, true)
  | .cvt _ _ => (false, false)
  | .redAdd _ => (false, false)
  | .redMax _ => (false, false)
  | .redMin _ => (false, false)
  | _ => (true, false)

/-- Keep an instruction if its unused fields are 0. -/
def ifZero (fields : List Nat) (i : Instr) : Option Instr := if fields.all (· == 0) then some i else none

/-- The instruction of a word, for the hand that issues it; none is ILLEGAL. -/
def decodeHand (t : Sys2Proof.Tile) (h : HandId) (w : Nat) : Option Instr :=
  let cls := bits w 3 0
  let d := bits w 8 4
  let a := bits w 13 9
  let b := bits w 18 14
  let c := bits w 23 19
  let fx := Config.fnCode cls (bits w 31 24)
  let fi := Config.fnCode cls (bits w 17 14)
  let imm := BitVec.ofNat 14 (bits w 31 18)
  let rest (u : Bool × Bool) : List Nat := [if u.1 then 0 else b, if u.2 then 0 else c]
  match cls with
  | 0 => aluFns[fx]?.bind (fun f => ifZero (rest (aluUses f)) (.alu t h f (gReg d) (gReg a) (gReg b) (gReg c)))
  | 1 => aluiFns[fi]?.map (fun f => .alui t h f (gReg d) (gReg a) imm)
  | 2 => fpuFns[fx]?.bind (fun f => ifZero (rest (fpuUses f)) (.fpu t h f (gReg d) (gReg a) (gReg b) (gReg c)))
  | 3 => loadFns[fi]?.map (fun f => .ld t h f.1 f.2 (gReg d) (gReg a) imm)
  | 4 => if fi < 4 then some (.st t h (Fin.ofNat 4 fi) (gReg d) (gReg a) imm) else none
  | 5 => atomOps[fx / 8]?.bind (fun f =>
      ifZero (rest (true, f == .cas)) (.atom t h f (bitAt fx 0) (bitAt fx 1) (bitAt fx 2) (gReg d) (gReg a) (gReg b) (gReg c)))
  | 6 => brConds[Config.fnCode 6 (bits w 6 4)]?.map (fun f =>
      .br t h f (gReg (bits w 11 7)) (gReg (bits w 16 12)) (BitVec.ofNat 15 (bits w 31 17)))
  | 7 => some (.jal t h (gReg d) (BitVec.ofNat 23 (bits w 31 9)))
  | 8 => ifZero [bits w 17 14] (.jalr t h (gReg d) (gReg a) imm)
  | 9 => (match vecFns[fx]? with
      | some f => ifZero (rest (vecUses f)) (.vec t h f (wReg d) (wReg a) (wReg b) (wReg c))
      | none =>
        if fx = vecFns.length then ifZero [c] (.vld t h (wReg d) (gReg a) (gReg b))
        else if fx = vecFns.length + 1 then ifZero [c] (.vst t h (wReg d) (gReg a) (gReg b))
        else none)
  | 10 => (match fx with
      | 0 => ifZero [d] (.slotw t h (gReg a) (gReg b) (gReg c))
      | 1 => ifZero [c] (.slotr t h (gReg d) (gReg a) (gReg b))
      | 2 => ifZero [c] (.slotf t h (gReg d) (gReg a) (gReg b))
      | 3 => ifZero [c, d] (.ring t h (gReg a) (gReg b))
      | _ => none)
  | 11 => (match fx with
      | 0 => ifZero [a, b, c, d] (.fenceS t h)
      | 1 => ifZero [a, b, c, d] (.fenceA t h)
      | 2 => ifZero [c, d] (.wait t h (gReg a) (gReg b))
      | 3 => ifZero [b, c, d] (.waitt t h (gReg a))
      | _ => none)
  | 12 => (match fx with
      | 0 => ifZero [a, b, c] (.hid t h (gReg d))
      | 1 => ifZero [a, b, c] (.trick t h (gReg d))
      | 2 => ifZero [a, b, c] (.phase t h (gReg d))
      | 3 => ifZero [a, b, c, d] (.halt t h)
      | 4 => ifZero [a, c, d] (.trap t h (gReg b))
      | 5 => ifZero [a, b, c, d] (.handNop t h)
      | _ => none)
  | _ => none

/-- The effect of a decoded instruction. -/
def handEffect (i : Instr) (pc : Nat) (d : Dev) : Dev :=
  match i with
  | .alu t h f rd a b c => effAlu t.val h.val f rd.val a.val b.val c.val d
  | .alui t h f rd a imm => effAlui t.val h.val f rd.val a.val imm d
  | .fpu t h f rd a b c => effFpu t.val h.val f rd.val a.val b.val c.val d
  | .ld t h lg sg rd a imm => effLd t.val h.val lg.val sg rd.val a.val imm pc d
  | .st t h lg rd a imm => effSt t.val h.val lg.val rd.val a.val imm pc d
  | .atom t h op wide _ rl rd a b c => effAtom t.val h.val op wide rl rd.val a.val b.val c.val pc d
  | .br t h c a b off => effBr t.val h.val c a.val b.val off pc d
  | .jal t h rd off => effJal t.val h.val rd.val off pc d
  | .jalr t h rd a imm => effJalr t.val h.val rd.val a.val imm pc d
  | .vec t h f rd a b c => effVec t.val h.val f rd.val a.val b.val c.val d
  | .vld t h rd a b => effVld t.val h.val rd.val a.val b.val pc d
  | .vst t h rd a b => effVst t.val h.val rd.val a.val b.val pc d
  | .slotw t h a b c => effSlotw t.val h.val a.val b.val c.val pc d
  | .slotr t h rd a b => effSlotr t.val h.val rd.val a.val b.val pc d
  | .slotf t h rd a b => effSlotf t.val h.val rd.val a.val b.val pc d
  | .ring t h a b => effRing t.val h.val a.val b.val pc d
  | .fenceS t h => effFence t.val h.val pc d
  | .fenceA t h => effFence t.val h.val pc d
  | .wait t h a b => effWait t.val h.val a.val b.val pc d
  | .waitt t h a => effWaitt t.val h.val a.val d
  | .hid t h rd => effHid t.val h.val rd.val d
  | .trick t h rd => effTrick t.val h.val rd.val d
  | .phase t h rd => effPhase t.val h.val rd.val d
  | .halt t h => effHalt t.val h.val d
  | .trap t h b => effTrap t.val h.val b.val pc d
  | _ => d

/-- The word at a program counter (R115). -/
def imemWord (d : Dev) (t pc : Nat) : Nat := (tget 0 (getTile d t).imem (pc / 4)).toNat

/-- The instruction of a hand at a program counter: its effect, or an ILLEGAL fault. -/
def fetched (t : Sys2Proof.Tile) (h : HandId) (pc : Nat) (d : Dev) : Dev :=
  match decodeHand t h (imemWord d t.val pc) with
  | some i => handEffect i pc d
  | none => handFault t.val h.val 1 0 pc d

/-- One look of a tile's issue port (R113). -/
def handIssue (t : Sys2Proof.Tile) (d : Dev) : Dev :=
  if !portFree d t.val then d
  else match portStop d t.val with
    | none => d
    | some h =>
      if (getHand d t.val h).state = .stalled then
        ctlAdd (regOff 18 t.val 0x5C) 1 (modTile t.val (fun x => { x with port := h, looked := some (now d) }) d)
      else issue t.val h (fetched t (Fin.ofNat 64 h)) d

/-- HAND_ISSUE: R113, R115. -/
def execHandIssue (t : Sys2Proof.Tile) (s : State) : Out := runMain (handIssue t) s

end Sys2Proof.Machine
end

