-- ==== Sys2Proof/Machine/Dispatch.lean ====
section
/-! DEFINITION. Dispatch: one arm for each command, each a call of its meaning. -/

namespace Sys2Proof.Machine

/-- The effect of a command on everything but the queue of waiting commands. -/
def exec (i : Instr) (s : State) : Host.Outcome State Fault Refusal :=
  match i with
  | .trickBoundary linkLate => Sys2Proof.Machine.execTrickBoundary linkLate s
  | .jobHalt q => Sys2Proof.Machine.execJobHalt q s
  | .trickMarker p low full dealer hops running arrival => Sys2Proof.Machine.execTrickMarker p low full dealer hops running arrival s
  | .parentLost => Sys2Proof.Machine.execParentLost s
  | .startSourcing => Sys2Proof.Machine.execStartSourcing s
  | .roundTripMeasure p l at_ => Sys2Proof.Machine.execRoundTripMeasure p l at_ s
  | .timestamp p l stamp arrived => Sys2Proof.Machine.execTimestamp p l stamp arrived s
  | .todPpsEdge => Sys2Proof.Machine.execTodPpsEdge s
  | .trefValid => Sys2Proof.Machine.execTrefValid s
  | .trefLost => Sys2Proof.Machine.execTrefLost s
  | .latchingLowRead r off => Sys2Proof.Machine.execLatchingLowRead r off s
  | .plainPairLowWrite r off v => Sys2Proof.Machine.execPlainPairLowWrite r off v s
  | .plainPairHighWrite r off v => Sys2Proof.Machine.execPlainPairHighWrite r off v s
  | .rcRead r off => Sys2Proof.Machine.execRcRead r off s
  | .quietRead off => Sys2Proof.Machine.execQuietRead off s
  | .registerWrite r off size v => Sys2Proof.Machine.execRegisterWrite r off size v s
  | .seqLockRead r off => Sys2Proof.Machine.execSeqLockRead r off s
  | .seqLockRelease r off => Sys2Proof.Machine.execSeqLockRelease r off s
  | .lockTimeout off => Sys2Proof.Machine.execLockTimeout off s
  | .irqStatClear r off v => Sys2Proof.Machine.execIrqStatClear r off v s
  | .irqMaskWrite r off v => Sys2Proof.Machine.execIrqMaskWrite r off v s
  | .blockEvent off bit => Sys2Proof.Machine.execBlockEvent off bit s
  | .load r q => Sys2Proof.Machine.execLoad r q s
  | .unload r q => Sys2Proof.Machine.execUnload r q s
  | .unloadEffect q => Sys2Proof.Machine.execUnloadEffect q s
  | .dealStart q => Sys2Proof.Machine.execDealStart q s
  | .shift t => Sys2Proof.Machine.execShift t s
  | .shiftDone t => Sys2Proof.Machine.execShiftDone t s
  | .compute t => Sys2Proof.Machine.execCompute t s
  | .computeDone t => Sys2Proof.Machine.execComputeDone t s
  | .swap t => Sys2Proof.Machine.execSwap t s
  | .mePswap t => Sys2Proof.Machine.execMePswap t s
  | .waitflag t => Sys2Proof.Machine.execWaitflag t s
  | .meNop t => Sys2Proof.Machine.execMeNop t s
  | .vadd t => Sys2Proof.Machine.execVadd t s
  | .vmul t => Sys2Proof.Machine.execVmul t s
  | .vfma t => Sys2Proof.Machine.execVfma t s
  | .vmax t => Sys2Proof.Machine.execVmax t s
  | .vmin t => Sys2Proof.Machine.execVmin t s
  | .vsel t => Sys2Proof.Machine.execVsel t s
  | .vcvt t => Sys2Proof.Machine.execVcvt t s
  | .vred t => Sys2Proof.Machine.execVred t s
  | .vectorStepDone t => Sys2Proof.Machine.execVectorStepDone t s
  | .forceRst r t => Sys2Proof.Machine.execForceRst r t s
  | .programBankWrite r off size v => Sys2Proof.Machine.execProgramBankWrite r off size v s
  | .programWriteVisible t k => Sys2Proof.Machine.execProgramWriteVisible t k s
  | .sfNop t => Sys2Proof.Machine.execSfNop t s
  | .tab t => Sys2Proof.Machine.execTab t s
  | .mprg t => Sys2Proof.Machine.execMprg t s
  | .smax1 t => Sys2Proof.Machine.execSmax1 t s
  | .smax2 t => Sys2Proof.Machine.execSmax2 t s
  | .smax3 t => Sys2Proof.Machine.execSmax3 t s
  | .nstat t => Sys2Proof.Machine.execNstat t s
  | .sfWaitflag t => Sys2Proof.Machine.execSfWaitflag t s
  | .sfPswap t => Sys2Proof.Machine.execSfPswap t s
  | .start r t h => Sys2Proof.Machine.execStart r t h s
  | .stop r t h => Sys2Proof.Machine.execStop r t h s
  | .handStopped t h => Sys2Proof.Machine.execHandStopped t h s
  | .handIssue t => Sys2Proof.Machine.execHandIssue t s
  | .alu t h fn d a b c => Sys2Proof.Machine.execAlu t h fn d a b c s
  | .alui t h fn d a imm => Sys2Proof.Machine.execAlui t h fn d a imm s
  | .fpu t h fn d a b c => Sys2Proof.Machine.execFpu t h fn d a b c s
  | .ld t h lg signed d a imm => Sys2Proof.Machine.execLd t h lg signed d a imm s
  | .st t h lg d a imm => Sys2Proof.Machine.execSt t h lg d a imm s
  | .atom t h op wide aq rl d a b c => Sys2Proof.Machine.execAtom t h op wide aq rl d a b c s
  | .br t h cond a b off => Sys2Proof.Machine.execBr t h cond a b off s
  | .jal t h d off => Sys2Proof.Machine.execJal t h d off s
  | .jalr t h d a imm => Sys2Proof.Machine.execJalr t h d a imm s
  | .vec t h fn d a b c => Sys2Proof.Machine.execVec t h fn d a b c s
  | .vld t h d a b => Sys2Proof.Machine.execVld t h d a b s
  | .vst t h d a b => Sys2Proof.Machine.execVst t h d a b s
  | .slotw t h a b c => Sys2Proof.Machine.execSlotw t h a b c s
  | .slotr t h d a b => Sys2Proof.Machine.execSlotr t h d a b s
  | .slotf t h d a b => Sys2Proof.Machine.execSlotf t h d a b s
  | .ring t h a b => Sys2Proof.Machine.execRing t h a b s
  | .fenceS t h => Sys2Proof.Machine.execFenceS t h s
  | .fenceA t h => Sys2Proof.Machine.execFenceA t h s
  | .wait t h a b => Sys2Proof.Machine.execWait t h a b s
  | .waitt t h a => Sys2Proof.Machine.execWaitt t h a s
  | .hid t h d => Sys2Proof.Machine.execHid t h d s
  | .trick t h d => Sys2Proof.Machine.execTrick t h d s
  | .phase t h d => Sys2Proof.Machine.execPhase t h d s
  | .halt t h => Sys2Proof.Machine.execHalt t h s
  | .trap t h b => Sys2Proof.Machine.execTrap t h b s
  | .handNop t h => Sys2Proof.Machine.execHandNop t h s
  | .missReturn t h => Sys2Proof.Machine.execMissReturn t h s
  | .mttEntryFree t h => Sys2Proof.Machine.execMttEntryFree t h s
  | .impreciseFault t h id => Sys2Proof.Machine.execImpreciseFault t h id s
  | .waitWake t h => Sys2Proof.Machine.execWaitWake t h s
  | .waittWake t h => Sys2Proof.Machine.execWaittWake t h s
  | .slotwaitRelease t h => Sys2Proof.Machine.execSlotwaitRelease t h s
  | .stockNop t => Sys2Proof.Machine.execStockNop t s
  | .copy t => Sys2Proof.Machine.execCopy t s
  | .edge t => Sys2Proof.Machine.execEdge t s
  | .gather t => Sys2Proof.Machine.execGather t s
  | .flag t => Sys2Proof.Machine.execFlag t s
  | .refill t => Sys2Proof.Machine.execRefill t s
  | .stockPswap t => Sys2Proof.Machine.execStockPswap t s
  | .waitf t => Sys2Proof.Machine.execWaitf t s
  | .flagPass t k => Sys2Proof.Machine.execFlagPass t k s
  | .stockRequestIssue t play => Sys2Proof.Machine.execStockRequestIssue t play s
  | .tokenRefill t => Sys2Proof.Machine.execTokenRefill t s
  | .stockRequestComplete t req => Sys2Proof.Machine.execStockRequestComplete t req s
  | .transferComplete t xfer => Sys2Proof.Machine.execTransferComplete t xfer s
  | .writeHoldRelease t => Sys2Proof.Machine.execWriteHoldRelease t s
  | .sfRotationRelease t => Sys2Proof.Machine.execSfRotationRelease t s
  | .mvTailWrite r h q v => Sys2Proof.Machine.execMvTailWrite r h q v s
  | .swapOut h q host => Sys2Proof.Machine.execSwapOut h q host s
  | .swapIn h q host => Sys2Proof.Machine.execSwapIn h q host s
  | .moverCopy h q => Sys2Proof.Machine.execMoverCopy h q s
  | .moverCommandComplete h q => Sys2Proof.Machine.execMoverCommandComplete h q s
  | .channelDequeue c ecc => Sys2Proof.Machine.execChannelDequeue c ecc s
  | .trumpCounterGain c => Sys2Proof.Machine.execTrumpCounterGain c s
  | .imbalanceWindowEnd k => Sys2Proof.Machine.execImbalanceWindowEnd k s
  | .hbmTempSample k stack chans => Sys2Proof.Machine.execHbmTempSample k stack chans s
  | .writebackPoint q n host => Sys2Proof.Machine.execWritebackPoint q n host s
  | .flTailWrite r h q v => Sys2Proof.Machine.execFlTailWrite r h q v s
  | .flashWrite h q => Sys2Proof.Machine.execFlashWrite h q s
  | .flashReset h x => Sys2Proof.Machine.execFlashReset h x s
  | .flashUnitDurable h q mediaFail => Sys2Proof.Machine.execFlashUnitDurable h q mediaFail s
  | .flashCommandComplete h q => Sys2Proof.Machine.execFlashCommandComplete h q s
  | .linkTrain p l x => Sys2Proof.Machine.execLinkTrain p l x s
  | .linkTrainTimeout p l => Sys2Proof.Machine.execLinkTrainTimeout p l s
  | .linkTrainRetry p l => Sys2Proof.Machine.execLinkTrainRetry p l s
  | .width p l w => Sys2Proof.Machine.execWidth p l w s
  | .retrain p l w => Sys2Proof.Machine.execRetrain p l w s
  | .ack p l => Sys2Proof.Machine.execAck p l s
  | .linkSwitch p x => Sys2Proof.Machine.execLinkSwitch p x s
  | .credit p n => Sys2Proof.Machine.execCredit p n s
  | .replay p l first => Sys2Proof.Machine.execReplay p l first s
  | .gateClosed p l => Sys2Proof.Machine.execGateClosed p l s
  | .codewordUncorrectable p x => Sys2Proof.Machine.execCodewordUncorrectable p x s
  | .lkDegraded p l => Sys2Proof.Machine.execLkDegraded p l s
  | .linkSlotSend p l play => Sys2Proof.Machine.execLinkSlotSend p l play s
  | .skipLinkForward p => Sys2Proof.Machine.execSkipLinkForward p s
  | .write at_ k => Sys2Proof.Machine.execWrite at_ k s
  | .read at_ k => Sys2Proof.Machine.execRead at_ k s
  | .data at_ k => Sys2Proof.Machine.execData at_ k s
  | .atomic at_ k => Sys2Proof.Machine.execAtomic at_ k s
  | .completion at_ k => Sys2Proof.Machine.execCompletion at_ k s
  | .collective at_ k => Sys2Proof.Machine.execCollective at_ k s
  | .openPacketForward p => Sys2Proof.Machine.execOpenPacketForward p s
  | .openPacketTimeout p => Sys2Proof.Machine.execOpenPacketTimeout p s
  | .lkPctrlOff r p => Sys2Proof.Machine.execLkPctrlOff r p s
  | .portGateClose p => Sys2Proof.Machine.execPortGateClose p s
  | .portLanesOff p => Sys2Proof.Machine.execPortLanesOff p s
  | .lkPctrlOn r p => Sys2Proof.Machine.execLkPctrlOn r p s
  | .lkPctrlRetrain r p links => Sys2Proof.Machine.execLkPctrlRetrain r p links s
  | .lkPctrlWidth r p l w => Sys2Proof.Machine.execLkPctrlWidth r p l w s
  | .planSeatWrite r off v => Sys2Proof.Machine.execPlanSeatWrite r off v s
  | .startPoint q suit n => Sys2Proof.Machine.execStartPoint q suit n s
  | .collectiveStart x => Sys2Proof.Machine.execCollectiveStart x s
  | .collectiveNop a => Sys2Proof.Machine.execCollectiveNop a s
  | .allreduce x => Sys2Proof.Machine.execAllreduce x s
  | .reduceScatter x => Sys2Proof.Machine.execReduceScatter x s
  | .reduce x => Sys2Proof.Machine.execReduce x s
  | .broadcast x => Sys2Proof.Machine.execBroadcast x s
  | .allgather x => Sys2Proof.Machine.execAllgather x s
  | .gatherv x => Sys2Proof.Machine.execGatherv x s
  | .alltoallv x => Sys2Proof.Machine.execAlltoallv x s
  | .shuffle x => Sys2Proof.Machine.execShuffle x s
  | .combine x => Sys2Proof.Machine.execCombine x s
  | .ringpass x => Sys2Proof.Machine.execRingpass x s
  | .collectiveComplete a => Sys2Proof.Machine.execCollectiveComplete a s
  | .inputCommandStart h q => Sys2Proof.Machine.execInputCommandStart h q s
  | .tokenise h q host => Sys2Proof.Machine.execTokenise h q host s
  | .image h q host => Sys2Proof.Machine.execImage h q host s
  | .inputCommandComplete h q => Sys2Proof.Machine.execInputCommandComplete h q s
  | .inputDeadlineCheck h q => Sys2Proof.Machine.execInputDeadlineCheck h q s
  | .inQcfgEnable r h q v => Sys2Proof.Machine.execInQcfgEnable r h q v s
  | .dictionaryBuildDone h q => Sys2Proof.Machine.execDictionaryBuildDone h q s
  | .inQcfgDisable r h q v => Sys2Proof.Machine.execInQcfgDisable r h q v s
  | .hostLinkTrain rate width cxl => Sys2Proof.Machine.execHostLinkTrain rate width cxl s
  | .perstDeassert => Sys2Proof.Machine.execPerstDeassert s
  | .configRequest => Sys2Proof.Machine.execConfigRequest s
  | .hlWinBaseWrite r v => Sys2Proof.Machine.execHlWinBaseWrite r v s
  | .hostWindowAccess off n wr => Sys2Proof.Machine.execHostWindowAccess off n wr s
  | .hlCqTailWrite r q v slots => Sys2Proof.Machine.execHlCqTailWrite r q v slots s
  | .hostNop q => Sys2Proof.Machine.execHostNop q s
  | .writeInline q => Sys2Proof.Machine.execWriteInline q s
  | .copyIn q host => Sys2Proof.Machine.execCopyIn q host s
  | .register q => Sys2Proof.Machine.execRegister q s
  | .unregister q => Sys2Proof.Machine.execUnregister q s
  | .bias x => Sys2Proof.Machine.execBias x s
  | .hostCommandComplete q => Sys2Proof.Machine.execHostCommandComplete q s
  | .bar4Access off n wr => Sys2Proof.Machine.execBar4Access off n wr s
  | .hostRegionAccess acc host => Sys2Proof.Machine.execHostRegionAccess acc host s
  | .hostBiasAccess off host => Sys2Proof.Machine.execHostBiasAccess off host s
  | .hostCxlMemAccess off n wr => Sys2Proof.Machine.execHostCxlMemAccess off n wr s
  | .hlWtailWrite r q v => Sys2Proof.Machine.execHlWtailWrite r q v s
  | .snapshot q host => Sys2Proof.Machine.execSnapshot q host s
  | .log q host => Sys2Proof.Machine.execLog q host s
  | .writerCommandComplete q => Sys2Proof.Machine.execWriterCommandComplete q s
  | .hostDeadlineExpiry x => Sys2Proof.Machine.execHostDeadlineExpiry x s
  | .setup r q shape enc => Sys2Proof.Machine.execSetup r q shape enc s
  | .teardown r q erase => Sys2Proof.Machine.execTeardown r q erase s
  | .partitionGateClose q => Sys2Proof.Machine.execPartitionGateClose q s
  | .scrubStart q => Sys2Proof.Machine.execScrubStart q s
  | .scrubEnd q => Sys2Proof.Machine.execScrubEnd q s
  | .lcTransitionRequest into x => Sys2Proof.Machine.execLcTransitionRequest into x s
  | .spdmRequest x => Sys2Proof.Machine.execSpdmRequest x s
  | .debugUnlock by_ => Sys2Proof.Machine.execDebugUnlock by_ s
  | .debugHalt x => Sys2Proof.Machine.execDebugHalt x s
  | .debugResume x => Sys2Proof.Machine.execDebugResume x s
  | .dbgForce off => Sys2Proof.Machine.execDbgForce off s
  | .serviceToken by_ serialOk nonce kinds => Sys2Proof.Machine.execServiceToken by_ serialOk nonce kinds s
  | .eventRaise n => Sys2Proof.Machine.execEventRaise n s
  | .eventSelect => Sys2Proof.Machine.execEventSelect s
  | .eventArrive n => Sys2Proof.Machine.execEventArrive n s
  | .evClaim r t => Sys2Proof.Machine.execEvClaim r t s
  | .evComplete r t v => Sys2Proof.Machine.execEvComplete r t v s
  | .evSrcWrite r n v => Sys2Proof.Machine.execEvSrcWrite r n v s
  | .evTctlWrite r t v => Sys2Proof.Machine.execEvTctlWrite r t v s
  | .externalSourceRead => Sys2Proof.Machine.execExternalSourceRead s
  | .coldReset b => Sys2Proof.Machine.execColdReset b s
  | .sysRstNLow us => Sys2Proof.Machine.execSysRstNLow us s
  | .sysrst r b => Sys2Proof.Machine.execSysrst r b s
  | .main r b => Sys2Proof.Machine.execMain r b s
  | .hostReset => Sys2Proof.Machine.execHostReset s
  | .mainFail cause => Sys2Proof.Machine.execMainFail cause s
  | .thermLockoutEnd b => Sys2Proof.Machine.execThermLockoutEnd b s
  | .psAlert => Sys2Proof.Machine.execPsAlert s
  | .limiterSample power vin => Sys2Proof.Machine.execLimiterSample power vin s
  | .limiterDutyStep => Sys2Proof.Machine.execLimiterDutyStep s
  | .dieTempSample east west => Sys2Proof.Machine.execDieTempSample east west s
  | .thermalDutyStep => Sys2Proof.Machine.execThermalDutyStep s
  | .pwDomainOff r q => Sys2Proof.Machine.execPwDomainOff r q s
  | .pwDomainOn r q => Sys2Proof.Machine.execPwDomainOn r q s
  | .domainDone q => Sys2Proof.Machine.execDomainDone q s
  | .pwElect r v b => Sys2Proof.Machine.execPwElect r v b s
  | .smbusElectWrite v b => Sys2Proof.Machine.execSmbusElectWrite v b s
  | .btStart r kind unit mode => Sys2Proof.Machine.execBtStart r kind unit mode s
  | .btAbort r kind unit => Sys2Proof.Machine.execBtAbort r kind unit s
  | .abortEffect kind unit => Sys2Proof.Machine.execAbortEffect kind unit s
  | .testComplete kind unit recs => Sys2Proof.Machine.execTestComplete kind unit recs s
  | .linkSignalLost p l => Sys2Proof.Machine.execLinkSignalLost p l s
  | .postedStoreComplete t h id => Sys2Proof.Machine.execPostedStoreComplete t h id s
  | .sfStepDone t => Sys2Proof.Machine.execSfStepDone t s
  | .widthChangeEnd p l => Sys2Proof.Machine.execWidthChangeEnd p l s
  | .postedCreditReturn n => Sys2Proof.Machine.execPostedCreditReturn n s
  | .sysRstNRelease b => Sys2Proof.Machine.execSysRstNRelease b s
  | .tapInstruction x => Sys2Proof.Machine.execTapInstruction x s

end Sys2Proof.Machine
end

