-- ==== Sys2Proof/Safety.lean ====
section
/-! DEFINITION. What holds in every state that the block may be in: the invariant that every step keeps. -/

namespace Sys2Proof.Safety

open Sys2Proof.Machine

/-- The count stands inside a trick (R20). -/
def TimeOk (s : State) : Prop := s.dev.time.phase < 768

/-- Both duties stand from 8 to 16 (R353, R356). -/
def DutyOk (s : State) : Prop :=
  8 ≤ s.dev.power.pduty ∧ s.dev.power.pduty ≤ 16 ∧ 8 ≤ s.dev.power.tduty ∧ s.dev.power.tduty ≤ 16

/-- Memory is in its canonical form. -/
def MemOk (s : State) : Prop := s.dev.mem.wf = true

/-- The invariant of the block. -/
def Inv (s : State) : Prop := TimeOk s ∧ DutyOk s ∧ MemOk s

end Sys2Proof.Safety
end

