-- ==== Sys2Proof/Certificates/Slice0/Obligations.lean ====
section
/-! DEFINITION. The statements about the block: what each command does where it completes, what it leaves alone, and
what every step keeps. `Claims` holds the vocabulary; a statement is `Obligations.<Name>`. -/

namespace Sys2Proof.Claims

open Sys2Proof.Machine

/-! ## Vocabulary -/

/-- The commands that wait, the count, power and the life cycle are as before. -/
def Rest (s s' : State) : Prop :=
  s'.pending = s.pending ∧ s'.dev.time = s.dev.time ∧ s'.dev.power = s.dev.power ∧ s'.dev.sec = s.dev.sec

/-- Every byte of the device's memory reads as before. -/
def SameBytes (s s' : State) : Prop := ∀ a, readByte s'.dev a = readByte s.dev a

/-- The command answers a next state, and its effect is what `f` makes of the device, its memory operations and answers
counted from none: the count, power, the life cycle and the waiting commands are left alone, and so is every register,
buffer and byte that `f` does not write. -/
def Does (c : Instr) (s : State) (f : Dev → Dev) : Prop := exec c s = .next (commitBody s (f (fresh s.dev)))

/-- The command answers a next state that differs from the one before only in that the last command's answers and memory
operations are no longer kept: its condition does not hold, so it has no effect. -/
def NoEffect (c : Instr) (s : State) : Prop := Does c s id

/-- Main power is on. -/
def Powered (s : State) : Prop := s.dev.power.mainOn = true

/-- Every stored word of control space is as before but for those of a list of offsets. -/
def CtlBut (l : List Nat) (s s' : State) : Prop := ∀ o, o / 4 ∉ l.map (· / 4) → ctlGet s'.dev o = ctlGet s.dev o

/-- The count of instructions that a tile has issued (`HD_ISSUE`). -/
def issueCount (d : Dev) (t : Nat) : Nat := ctlPair d (regOff 18 t 0x50)

/-- What an issue of hand h of tile t leaves alone: all but this hand, the tile's issue port and its count. -/
def IssueFrame (t h : Nat) (s s' : State) : Prop :=
  Rest s s' ∧ s'.dev.mem = s.dev.mem
  ∧ s'.dev.body = { s.dev.body with replies := [], tiles := s'.dev.body.tiles, hands := s'.dev.body.hands, ctl := s'.dev.body.ctl }
  ∧ (∀ u k, handKey u k ≠ handKey t h → getHand s'.dev u k = getHand s.dev u k)
  ∧ (∀ u, u ≠ t → getTile s'.dev u = getTile s.dev u)
  ∧ CtlBut [regOff 18 t 0x50, regOff 18 t 0x54] s s'

/-- The port has looked at the hand in this cycle and counts one more instruction (R113). -/
def Counted (t h : Nat) (s s' : State) : Prop :=
  getTile s'.dev t = { getTile s.dev t with port := h, looked := some (now s.dev) }
  ∧ issueCount s'.dev t = (issueCount s.dev t + 1) % 2 ^ 64

/-- The hand as its issue leaves it before the instruction's own effect: the cycle noted, the program counter moved on
modulo 0x1_0000 (R115). -/
def afterIssue (s : State) (t h : Nat) : HandSt :=
  let x := getHand s.dev t h
  { x with lastIssue := some (now s.dev), pc := x.pc + 4 }

/-- The hand is issued, ends as `f` makes it, and all else is left alone. -/
def Issues (i : Instr) (t h : Nat) (f : HandSt → HandSt) (s : State) : Prop :=
  ∃ s', exec i s = .next s' ∧ getHand s'.dev t h = f (afterIssue s t h) ∧ Counted t h s s' ∧ IssueFrame t h s s'

/-- The port of the tile may issue this hand's instruction in this cycle, on main power (R113). -/
def MayIssue (s : State) (t h : Nat) : Prop := s.dev.power.mainOn = true ∧ mayIssue s.dev t h = true

/-- General register n of a hand. -/
def reg (s : State) (t h n : Nat) : Dword := gGet (getHand s.dev t h) n

/-- A branch condition holds of two register values (R122). -/
def Holds : BrCond → Dword → Dword → Prop
  | .eq, a, b => a = b
  | .ne, a, b => a ≠ b
  | .lt, a, b => a.toInt < b.toInt
  | .ge, a, b => b.toInt ≤ a.toInt
  | .ltu, a, b => a.toNat < b.toNat
  | .geu, a, b => b.toNat ≤ a.toNat

/-- A hand's instruction completes: it is issued (R113, R115) and its effect on the device is `f`. -/
def Issued (c : Instr) (t h : Nat) (s : State) (f : Dev → Dev) : Prop := Does c s (fun d => f (noteIssue t h d))

/-- The hand goes on with the next instruction: READY, waiting for nothing. -/
def onward (x : HandSt) : HandSt := { x with state := .ready, wait := .none, miss := none }

/-- A fault's record and its hand (R138): record n of the log at 0x400 + 16 * (n mod 16), n the count before; CODE, HAND,
the imprecise bit and the PC, the trick and the address; the hand FAULTED with its registers kept. -/
def FaultNoted (t h code addr pc : Nat) (imp : Bool) (s s' : State) : Prop :=
  let n := ctlNat s.dev (regOff 18 t 0x48)
  let o := regOff 18 t (0x400 + 16 * (n % 16))
  ctlNat s'.dev o = code + 256 * h + 2 ^ 14 * b2n imp + 2 ^ 16 * pc
  ∧ ctlNat s'.dev (o + 4) = s.dev.time.trick % 2 ^ 32
  ∧ ctlPair s'.dev (o + 8) = addr % 2 ^ 64
  ∧ ctlNat s'.dev (regOff 18 t 0x48) = (n + 1) % 2 ^ 32
  ∧ bitAt (getPage s'.dev (pageBase 18 t)).raw.toNat 0 = true
  ∧ (getHand s'.dev t h).state = .faulted

/-- Slot n of a tile takes a value after the reads of the cycle (R133, R134). -/
def slotTakes (t n : Nat) (v : Dword) : Dev → Dev :=
  modTile t (fun x =>
    let y := tget Slot.z x.slots n
    { x with slots := tset Slot.z x.slots n { y with next := some v } })

/-- A SLOTW need not wait for the slot, and it must (Table HD-6). -/
def SlotTakesNow (x : Slot) : Prop := x.policy = 2 ∨ (x.full = false ∧ x.next = none)
def SlotIsTaken (x : Slot) : Prop := x.policy ≠ 2 ∧ (x.full = true ∨ x.next ≠ none)

/-- The hand stays READY with an access outstanding, which takes its place among those that wait for its tile's SRAM (R46,
R113). -/
def sramAsks (t h : Nat) (m : Miss) (d : Dev) : Dev :=
  modTile t (fun y => { y with sramq := sramInsert t ⟨.hand t h, now d, gOff m.addr, 0, m.op⟩ y.sramq })
    (modHand t h (fun x => { x with state := .ready, wait := .none, miss := some m }) d)

/-- An aligned access of n bytes in the SRAM of the hand's own tile. -/
def OwnAt (s : State) (t addr n : Nat) : Prop := ownSram s.dev t addr = true ∧ addr % n = 0

/-- A READY hand waits for an access of a kind to its own tile's SRAM. -/
def AwaitsSram (d : Dev) (t h : Nat) (kind : MissKind) : Prop :=
  (getHand d t h).state = .ready ∧ ∃ m, (getHand d t h).miss = some m ∧ m.kind = kind ∧ m.res = .pending

/-- An address in the SRAM of the hand's own tile whose n bytes are aligned, lie in that SRAM and hold no poison. -/
def OwnAccess (s : State) (t addr n : Nat) : Prop :=
  ownSram s.dev t addr = true ∧ addr % n = 0 ∧ badBytes s.dev (gOff addr) n = []

/-- Every store that the hand has posted has been performed. -/
def Settled (s : State) (t h : Nat) : Prop := unperformed (getHand s.dev t h) = false

/-- The requester is no management core that debug has halted (R335). -/
def Goes (s : State) (r : Req) : Prop := coreHalted (fresh s.dev) r = false

/-- A request passes the checks of Table MP-3 and reaches a word of a page. -/
def Reaches (s : State) (r : Req) (off : CtlOff) (write : Bool) (p : PageAt) (o : Nat) : Prop :=
  Goes s r ∧ ctlAt off.toNat = .page p o ∧ gate (fresh s.dev) r off.toNat 4 write = .page p o

/-- As `Does`, for a command that may also change the count, power and the life cycle. -/
def DoesAll (c : Instr) (s : State) (f : Dev → Dev) : Prop := exec c s = .next (commitAll s (f (fresh s.dev)))

/-- The lock of a page is free and nothing waits for it. -/
def unlock (base : Nat) : Dev → Dev := modPage base (fun p => { p with held := false, timer := 0, waiters := [] })

/-- An access passes the checks of Table MP-3. -/
def Passes (s : State) (r : Req) (off size : Nat) (write : Bool) : Prop :=
  Goes s r ∧ ∃ p o, gate (fresh s.dev) r off size write = .page p o

/-- A word write of the management complex that passes the checks (R424). -/
def MgmtWrite (s : State) (r : Req) (off : Nat) : Prop := Passes s r off 4 true ∧ isMgmt (fresh s.dev) r = true

/-- An event bit of a page is set (R402). -/
def Raised (s : State) (kind inst bit : Nat) : Prop := bitAt (getPage s.dev (pageBase kind inst)).raw.toNat bit = true

/-- Every job but those of the numbers given is as before. -/
def JobsBut (l : List Nat) (s s' : State) : Prop := ∀ q, q ∉ l → getJob s'.dev q = getJob s.dev q

/-- Every tile but those of the numbers given is as before. -/
def TilesBut (l : List Nat) (s s' : State) : Prop := ∀ t, t ∉ l → getTile s'.dev t = getTile s.dev t

/-- What the start of a step leaves alone: all but its own tile. -/
def StepFrame (t : Nat) (s s' : State) : Prop :=
  Rest s s' ∧ s'.dev.mem = s.dev.mem ∧ TilesBut [t] s s'
  ∧ s'.dev.body = { s.dev.body with replies := [], tiles := s'.dev.body.tiles }

/-- Step f of the matrix engine path is due, is one of an operation, can be read, and waits for nothing (R69). -/
def MeDue (s : State) (t op : Nat) (f : Found) : Prop :=
  Powered s ∧ gatedCycle s.dev = false ∧ ∃ q c, meNext s.dev t (op != 0) = some (q, c, f) ∧ meBad f.word = false
    ∧ swOp f.word = op ∧ (op = 2 ∨ swPslot f.word = 0) ∧ meWait s.dev t c f.word = none

/-- The bank write of a kind, and the page that it is logged on. -/
def bankOf (k : ProgKind) (t b o : Nat) : ArrayAt :=
  match k with
  | .me => .meBank t b o
  | .sf => .sfBank t b o
  | .stock => .stBank t b o
def bankPage (k : ProgKind) (t : Nat) : Nat := pageBase (match k with | .me => 16 | .sf => 17 | .stock => 20) t

/-- A program shows, in a trick, the writes whose shift boundary is reached (none waits for a SHIFT) and that were
accepted in an earlier trick, in the order of their acceptance, and keeps the others waiting (R71, R140). -/
def Shows {n : Nat} (trick : Nat) (p p' : Prog n) : Prop :=
  let seen := fun w : ProgWrite => w.shift = false ∧ w.trick < trick
  p'.words = p.words
  ∧ (∀ w, w ∈ p'.waits ↔ w ∈ p.waits ∧ ¬ seen w)
  ∧ ((∀ w, w ∈ p.waits → ¬ seen w) → p' = p)
  ∧ (∀ a b w, p.waits = a ++ w :: b → (∀ v, v ∈ a → seen v) → seen w → (∀ v, v ∈ b → ¬ seen v) →
      p'.waits = b ∧ p'.seen = wordsPut 0 w.off w.bytes (a.foldl (fun x v => wordsPut 0 v.off v.bytes x) p.seen))

/-- The matrix engine path behind a step, with n more steps completed (Table ME-12). -/
def pastStep (f : Found) (n : Nat) (m : MeSt) : MeSt :=
  { m with aprog := f.ref.bank, pc := f.ref.idx + 1, base := f.ref.deal, swaps := m.swaps + f.swaps
           steps := (m.steps + f.nops + n) % 2 ^ 64 }

/-- Step f of the special function path is due, is one of an operation, can be read, and waits for nothing (R96). -/
def SfDue (s : State) (t op : Nat) (f : Found) : Prop :=
  Powered s ∧ gatedCycle s.dev = false ∧ sfFree s.dev t = true ∧ ∃ q c, sfNext s.dev t false = some (q, c, f)
    ∧ sfBad f.word = false ∧ swOp f.word = op ∧ sfWait s.dev t c f.word = none

/-- A flag word that a step can test: aligned, in the tile's SRAM and without poison (R58, R66, R160). -/
def FlagReadable (d : Dev) (t o : Nat) : Prop := o % 8 = 0 ∧ o + 8 ≤ 0x300000 ∧ poisoned d (sramAddr t o) 8 = false

/-- The special function path behind a step, free again after n cycles (R96, Table SF-2). -/
def pastSf (s : State) (f : Found) (n : Nat) (m : SfSt) : SfSt :=
  { m with aprog := f.ref.bank, pc := f.ref.idx + 1, base := f.ref.deal, freeAt := now s.dev + n }

/-- The slots that a COMPUTE reads are named (R69, R131). -/
def SlotsNamed (d : Dev) (t w : Nat) : Prop := slotUnnamed d t (swPslot w) = false ∧ slotUnnamed d t (meMslot d t w) = false

/-- A COMPUTE of operand pair p on plane pl that no check refuses (R52, R55, R60, R65, R66, R69, R179, R184). -/
def ComputeFits (d : Dev) (t w p : Nat) (pl : Plane) : Prop :=
  let rows := stepRows d t (swPslot w) (swRows w)
  let e := atProf d t (swProfile w)
  let l := stagesOf d t (swProfile w) (if swLast w then swNstg w else 0)
  SlotsNamed d t w ∧ pairOf (swWfmt w) (swAfmt w) = some p ∧ 1 ≤ rows ∧ rows ≤ (if p = 5 then 512 else 1024)
  ∧ actRow (swAfmt w) ≤ 16 * swAstride w ∧ swNstg w ≤ 8 ∧ swOfmt w ≤ 8
  ∧ (swLast w = true → profileOk l (swOfmt w) (swAux2 w) = true ∧ swNcols w ≤ pairN p)
  ∧ attentionOk l e w rows = true ∧ (if meMslot d t w = 0 then 0 else slotValue d t (meMslot d t w)) < 2 ^ 58
  ∧ planeOf (getMe d t) w = some pl ∧ pl.wfmt = swWfmt w ∧ pl.n = pairN p ∧ inSram (computeExtents l e w p rows) = true

/-- A vector step f is due, is one of an operation, and no check or slot keeps it (R69, R74). -/
def VecDue (s : State) (t op : Nat) (f : Found) : Prop :=
  Powered s ∧ gatedCycle s.dev = false ∧ vecBusy s.dev t = false ∧ ∃ q c, vecNext s.dev t = some (q, c, f)
    ∧ swOp f.word = op ∧ swGood f.word = true ∧ vecOk f.word = true ∧ slotUnnamed s.dev t (swPslot f.word) = false
    ∧ slotWaits s.dev t (swPslot f.word) = false

/-- A fault of a path halts its partition's running job with cause 4 (R43, R73, R111, R164). -/
def JobFaults (t : Nat) (s s' : State) : Prop :=
  ∀ q, tilePart s.dev t = some q → jobRuns s.dev q = true →
    (getJob s'.dev q).why = (if (getJob s.dev q).why = 0 then 4 else min (getJob s.dev q).why 4)

/-- What a fault of a path leaves alone: all but its tile, its registers, the event and its job. -/
def FaultFrame (t : Nat) (s s' : State) : Prop :=
  Rest s s' ∧ s'.dev.mem = s.dev.mem ∧ TilesBut [t] s s'
  ∧ s'.dev.body = { s.dev.body with replies := [], tiles := s'.dev.body.tiles, ctl := s'.dev.body.ctl, pages := s'.dev.body.pages
                                    ev := s'.dev.body.ev, jobs := s'.dev.body.jobs }

/-- A special function step that no check refuses (R97, R98, R102, R106). -/
def SfFits (d : Dev) (t w : Nat) : Prop :=
  let rows := stepRows d t (sfPslot w) (swRows w)
  let op := swOp w
  slotUnnamed d t (sfPslot w) = false ∧ 1 ≤ rows ∧ rows ≤ 1024 ∧ 1 ≤ sfNelem w ∧ sfNelem w ≤ 1048576
  ∧ ((op = 4 ∨ op = 5) → sfNseed w ≠ 0) ∧ (sfHasSeed op = true → sfClash w rows = false)
  ∧ inSram (sfReads w rows ++ sfOuts w rows) = true
  ∧ ((op = 1 ∨ op = 4) → tabValid (getSf d t).data (sfTab w) = true)
  ∧ (op = 2 → (mpList (getSf d t).data (sfMprog w) 32 0).isSome = true)

/-- Descriptor f of a tile's stock is due, is one of a kind, finds an entry free and its slots filled, and no check
refuses it (R141, R147, R154, R164). -/
def StDue (s : State) (t kind : Nat) (f : Found) : Prop :=
  Powered s ∧ entriesFull s.dev t = false ∧ ∃ q c, stNext s.dev t (kind != 0) = some (q, c, f) ∧ dsKind f.word = kind
    ∧ descUnnamed s.dev t f.word = false ∧ descSlotWaits s.dev t f.word = false
    ∧ descBad s.dev t f.word (descArgs s.dev t f.word) = false ∧ descMisaligned f.word (descArgs s.dev t f.word) = false

/-- The stock's path stands behind descriptor f, whose doorbell count is taken (R141, R148). -/
def pastDesc (f : Found) (x : StSt) : StSt :=
  { x with
    aprog := f.ref.bank, pc := f.ref.idx + 1, base := f.ref.deal
    classes := if dsDbgate f.word then
        (let y := tget StClass.z x.classes (dsClass f.word)
         tset StClass.z x.classes (dsClass f.word) { y with db := y.db - 1 })
      else x.classes }

/-- A descriptor completes at its start: its slots are taken, the path goes past it, `g` acts on the stock, and all else
is left alone. -/
def Starts (i : Instr) (t : Nat) (f : Found) (g : StSt → StSt) (s : State) : Prop :=
  ∃ s', exec i s = .next s' ∧ StepFrame t s s' ∧ (getTile s'.dev t).slots = (getTile (takeArgs t f.word s.dev) t).slots
    ∧ getTile s'.dev t = { getTile s.dev t with slots := (getTile s'.dev t).slots, st := g (pastDesc f (getSt s.dev t)) }

/-- The transfer entry of a descriptor with its operands. -/
def entryOf (x : StSt) (f : Found) (a : DescArgs) (y : Transfer) : Prop :=
  let w := f.word
  y.id = x.nextId ∧ y.at_ = f.ref ∧ y.kind = dsKind w ∧ y.cls = dsClass w ∧ y.src = a.src ∧ y.dst = a.dst
  ∧ y.rowbytes = dsRowbytes w ∧ y.sstride = dsSstride w ∧ y.dstride = dsDstride w ∧ y.faddr = dsFaddr w ∧ y.ftag = dsFtag w
  ∧ y.lead = dsLead w ∧ y.row = 0 ∧ y.pos = 0 ∧ y.entries = [] ∧ y.listPos = 0 ∧ y.held = false ∧ y.flagged = false

/-- A stock request of a tile, by number. -/
def reqOf (d : Dev) (t id : Nat) : Option StReq := (getSt d t).reqs.find? (fun r => r.id == id)

/-- Link l of port p is changed by `f`, and nothing else is. -/
def LinkDoes (i : Instr) (p l : Nat) (s : State) (f : LinkSt → LinkSt) : Prop := Does i s (modLink (4 * p + l) f)

/-- The device once the corrected symbols of an arrival's codewords are counted (R235, R236). -/
def noted (a : Arrival) (d : Dev) : Dev := noteCorr a.port a.link a.corr d

/-- A packet arrives whole on a link that is up, with nothing of its stream lost before it, through an open gate, with its
reserved fields 0 (R225, R234, R235). -/
def Arrives (s : State) (a : Arrival) (k : Packet) : Prop :=
  let e := noted a (fresh s.dev)
  Powered s ∧ (getLink s.dev (lkKey a.port a.link)).state = 2 ∧ a.again = 0
    ∧ tget 0 (getLink e (lkKey a.port a.link)).lost a.owner = 0
    ∧ (getPort e a.port).gate = false ∧ reservedHead k = false

/-- The packet is for this device. -/
def ForMe (s : State) (a : Arrival) (k : Packet) : Prop := devNumber (noted a (fresh s.dev)) = some (gDev k.dst.toNat)

/-- The device as the request of a packet that ends here finds it: its symbols counted and its credits on their way back. -/
def taken (a : Arrival) (k : Packet) (d : Dev) : Dev := packetCredit a k (noted a d)

/-- What a served request keeps until its answer (R226). -/
def serveOf (d : Dev) (a : Arrival) (kind : PKind) (k : Packet) (op : MemReq) (st : Nat) : Serve :=
  { dev := k.src.toNat % 2 ^ 15, tag := k.tag.toNat, kind := kind
    part := if a.slot.isSome then (homeOf d (gOff k.dst.toNat)).eighth.bind (ownerOf d) else none
    addr := gOff k.dst.toNat, len := (match op with | .read n => n | .atomic _ n _ _ => n | _ => 0)
    left := if op.len = 0 then 0 else partsOf d (gOff k.dst.toNat) op, data := (match op with | .write bs _ => [(0, bs)] | _ => []), bad := [], status := st }

/-- A write of `LK_PCTRL` by the management complex passes its checks. -/
def PctrlMay (s : State) (r : Req) (p : Nat) : Prop := Powered s ∧ MgmtWrite s r (lkOff p 0x40)

/-- The empty sources of an operation that do not know its parameters and have not been told them (R247, R251). -/
def untold (d : Dev) (r : CoRun) (x : Suit) : List Nat :=
  let me := myRank d r.q x
  (coSources x r.desc me).filter (fun k =>
    coHeard r k && !preKnows (coBytes r k 0) && !(coDests x r.desc me).contains k && !r.told.contains k)

/-- A combining or row operation of a kind is in progress on a position, it knows its parameters and its job runs (R247,
R249). -/
def CoGoes (s : State) (a op : Nat) (r : CoRun) (x : Suit) : Prop :=
  Powered s ∧ coAt s.dev a = some (r, x) ∧ r.done = false ∧ r.desc.op = op ∧ coUnlearned r = false ∧ jobRuns s.dev r.q = true

/-- An operation goes, and no empty member awaits its parameters. -/
def CoRuns (s : State) (a op : Nat) (r : CoRun) (x : Suit) : Prop := CoGoes s a op r x ∧ untold s.dev r x = []

/-- A write of a unit to memory of this device waits for an older request there. -/
def putWaits (d : Dev) (a n : Nat) : Bool := !isFar d a && unitWaits d (gOff a) n

/-- A turn of input queue q at a unit (4 the tokeniser, 6 the image unit) that ends its command with a status (R287, R289). -/
def inputEnds (unit h q st : Nat) (d : Dev) : Dev :=
  nextTurn (unit + h) q (modInq h q (fun x =>
    { x with run := x.run.map (fun r => { r with status := st, flags := r.flags ||| 0, done := true }) }) d)

/-- A queue takes its next host command, in slot i: no command is in progress, the tail is ahead of the head, and every write
through the window before the tail write is performed (R305). -/
def HostFront (s : State) (q i : Nat) (c : HostCmd) : Prop :=
  Powered s ∧ getRun s.dev q = none ∧ ctlNat s.dev (cqTail q) ≠ ctlNat s.dev (cqHead q) ∧ fenced s.dev q = false
    ∧ i = ctlNat s.dev (cqHead q) % 32 ∧ c = hostCmdOf (slotBytes512 s.dev q i)

/-- And nothing refuses it whatever its operation (R307, R308). -/
def HostNext (s : State) (q p i : Nat) (c : HostCmd) : Prop :=
  HostFront s q i c ∧ ownerOf s.dev q = some p ∧ cmdStatus s.dev (some p) (slotBytes512 s.dev q i) c = 0

/-- As `Does`, for a command that may also change the life cycle, attestation and debug. -/
def DoesSec (c : Instr) (s : State) (f : Dev → Dev) : Prop := exec c s = .next (commitSec s (f (fresh s.dev)))

/-- Every eighth of a list ends as `f` makes it of itself, and every other one is as before. -/
def Eighths (l : List Nat) (f : EighthSt → EighthSt) (d d' : Dev) : Prop :=
  (∀ e, e ∈ l → getEighth d' e = f (getEighth d e)) ∧ (∀ e, e ∉ l → getEighth d' e = getEighth d e)

/-- Table PI-7: an edge of the life cycle, and the signers who may ask for it (R331). -/
def lcTable : List (LcState × LcState × List Signer) :=
  [(.blank, .provisioned, [.vendor]), (.provisioned, .production, [.vendor]), (.production, .return_, [.owner]),
    (.return_, .provisioned, [.vendor]), (.blank, .scrapped, [.vendor, .owner]), (.provisioned, .scrapped, [.vendor, .owner]),
    (.production, .scrapped, [.owner]), (.return_, .scrapped, [.vendor, .owner])]

/-- A partition command is written by management in phase READY, with none running (R323). -/
def PartReady (s : State) (r : Req) : Prop :=
  MgmtWrite s r (piOff 0x44) ∧ s.dev.power.phase = 5 ∧ s.dev.body.piBusy = false

/-- A running self-test activity. -/
def Testing (s : State) (kind unit : Nat) (aborting : Bool) : Prop := btRunning s.dev kind unit aborting = true

/-- An activity has ended: it holds no token, and BT_DONE is raised. -/
def TestEnds (s s' : State) (kind unit : Nat) : Prop :=
  Rest s s' ∧ s'.dev.body.bt.acts = s.dev.body.bt.acts.filter (fun a => a.kind != kind || a.unit != unit) ∧ Raised s' 10 0 0

/-- Record n of the self-test log holds a result (Table BT-4). -/
def TestLogged (s' : State) (n kind unit : Nat) (x : TestRec) : Prop :=
  (tget 0 s'.dev.body.bt.res (4 * (n % 64))).toNat
      = (kind + 16 * unit + 2 ^ 12 * x.outcome.val + 2 ^ 15 * x.repair.val + 2 ^ 18 * x.channel.val + 2 ^ 23 * x.lane.toNat) % 2 ^ 32
  ∧ (tget 0 s'.dev.body.bt.res (4 * (n % 64) + 1)).toNat = (x.errors.toNat + 2 ^ 16 * x.bit.val) % 2 ^ 32
  ∧ (tget 0 s'.dev.body.bt.res (4 * (n % 64) + 2)).toNat = x.address.toNat % 2 ^ 32
  ∧ (tget 0 s'.dev.body.bt.res (4 * (n % 64) + 3)).toNat = x.address.toNat / 2 ^ 32 % 2 ^ 32

/-- As `Does`, for a command that may also change power; both duties are kept from 8 to 16. -/
def DoesPower (c : Instr) (s : State) (f : Dev → Dev) : Prop := exec c s = .next (commitPower s (f (fresh s.dev)))

/-- The commands that wait, the count and the life cycle are as before. -/
def RestPower (s s' : State) : Prop :=
  s'.pending = s.pending ∧ s'.dev.time = s.dev.time ∧ s'.dev.sec = s.dev.sec

/-- Every byte of HBM, GDDR7 and tile SRAM is zero (R350, R367). -/
def MemoryLost (s' : State) : Prop :=
  ∀ a, (Config.hbmBase ≤ a ∧ a < Config.hbmBase + 0x006000000000) ∨ (Config.gddrBase ≤ a ∧ a < 0x011200000000)
    ∨ (Config.sramBase ≤ a ∧ a < 0x018028000000) → tget (0 : Byte) s'.dev.mem.cells a = 0

/-- The commands of the blocks on main power (R350): all but those of time at a boundary or a marker, of the registers, the event
controller and the partition, self-test and power pages, of resets, the life cycle and the pins. -/
def onMain : Instr → Bool
  | .trickBoundary .. | .trickMarker .. | .trefValid | .trefLost | .latchingLowRead .. | .plainPairLowWrite ..
  | .plainPairHighWrite .. | .rcRead .. | .quietRead .. | .seqLockRead .. | .irqStatClear .. | .irqMaskWrite ..
  | .blockEvent .. | .setup .. | .teardown .. | .partitionGateClose .. | .scrubStart .. | .scrubEnd .. | .debugHalt ..
  | .debugResume .. | .serviceToken .. | .eventRaise .. | .eventSelect | .eventArrive .. | .evClaim .. | .evComplete ..
  | .evSrcWrite .. | .evTctlWrite .. | .externalSourceRead | .psAlert | .pwDomainOff .. | .pwDomainOn .. | .btStart ..
  | .btAbort .. | .abortEffect .. | .testComplete .. | .tapInstruction .. | .registerWrite .. | .seqLockRelease ..
  | .lockTimeout .. | .dbgForce .. | .coldReset .. | .sysRstNLow .. | .sysrst .. | .main .. | .thermLockoutEnd ..
  | .pwElect .. | .smbusElectWrite .. | .sysRstNRelease .. | .lcTransitionRequest .. | .spdmRequest .. | .debugUnlock ..
  | .hostReset | .mainFail .. | .limiterSample .. | .limiterDutyStep | .dieTempSample .. | .thermalDutyStep => false
  | _ => true

/-- The limiter's average over the samples it holds exceeds `PW_LIMIT` (R353), in 0.1 W. -/
def AboveLimit (s : State) (l : List Nat) : Prop := l.length * (10 * ctlNat s.dev (pwOff 0x48)) < l.foldl (· + ·) 0

/-- The hotter of two lists of die sensor readings. -/
def hottestOf (east west : List Byte) : Nat :=
  max (east.foldl (fun a b => max a b.toNat) 0) (west.foldl (fun a b => max a b.toNat) 0)

/-- What a COLD (0) or SYSTEM (1) reset leaves: the kind, the count at 0, full duty, the life cycle sampled and debug closed,
no job, idle hands, empty memories (R27, R331, R333, R353, R367). -/
def WideReset (kind : Nat) (s s' : State) : Prop :=
  s'.pending = s.pending ∧ s'.dev.power.lastRst = kind ∧ s'.dev.power.pduty = 16 ∧ s'.dev.time = ⟨0, 0, 0⟩
  ∧ s'.dev.sec.lc = s.dev.sec.next.getD s.dev.sec.lc ∧ s'.dev.sec.next = none ∧ s'.dev.sec.unlocked = false ∧ s'.dev.sec.ide = false
  ∧ s'.dev.sec.session = false
  ∧ (let x := (match s.dev.sec.next with | some b => lcEffect s.dev.sec.lc b s.dev.sec | none => s.dev.sec);
      s'.dev.sec.secret = x.secret ∧ s'.dev.sec.cert = x.cert ∧ s'.dev.sec.owners = x.owners ∧ s'.dev.sec.epoch = x.epoch)
  ∧ (∀ q, (getJob s'.dev q).loaded = false) ∧ (∀ t h, (getHand s'.dev t h).state = .idle) ∧ MemoryLost s'
  ∧ (kind = 0 → s'.dev.power.override = 0 ∧ s'.dev.power.offCause = 0 ∧ s'.dev.power.lockout = false)
  ∧ (kind = 1 → s'.dev.power.override = s.dev.power.override ∧ s'.dev.power.offCause = s.dev.power.offCause
      ∧ s'.dev.power.lockout = s.dev.power.lockout)

/-- What the start-up does from step 5 on: SPLIT or READY on main power; the lockout is waited out in phase POWER (R350, R364,
R371). -/
def PowersUp (s' : State) : Prop :=
  let p := s'.dev.power
  (p.lockout = true → p.phase = 3 ∧ p.held = true ∧ p.mainOn = false)
  ∧ (p.lockout = false → p.splitWhy ≠ 0 → p.phase = 6 ∧ p.mainOn = true)
  ∧ (p.lockout = false → p.splitWhy = 0 → p.phase = 5 ∧ p.mainOn = true ∧ s'.dev.body.hl.ready = true
      ∧ ∀ l, l < 24 → (getLink s'.dev l).state = lkTraining)

/-- What the start-up does: one half is elected master, or none and the device is SPLIT; the image that the settings prefer is
loaded if it verifies, else the other; without one that verifies the start-up stops in phase FIRMWARE with MOD_FAULT_N low
(R332, R363, R364, R370, R371, R419). -/
def StartedUp (b : BootIn) (s' : State) : Prop :=
  let p := s'.dev.power
  (b.sideband = false → p.splitWhy = 3)
  ∧ (b.sideband = true → p.override = 0 → b.claimEast = b.claimWest → p.splitWhy = if b.claimEast then 1 else 2)
  ∧ (b.sideband = true → p.override = 0 → b.claimEast ≠ b.claimWest → p.splitWhy = 0 ∧ p.master = b2n b.claimWest)
  ∧ (b.sideband = true → (p.override = 1 ∨ p.override = 2) → p.splitWhy = 0 ∧ p.master = p.override - 1)
  ∧ (p.splitWhy ≠ 0 → Raised s' 9 0 7)
  ∧ ((p.splitWhy ≠ 0 ∨ b.emfenA = true ∨ b.emfenB = true) → PowersUp s')
  ∧ ((p.splitWhy ≠ 0 ∨ b.emfenA = true ∨ b.emfenB = true) → s'.dev.body.board.modFault = false)
  ∧ (p.splitWhy = 0 → b.emfenA = false → b.emfenB = false → p.phase = 2 ∧ p.mainOn = false ∧ s'.dev.body.board.modFault = true)
  ∧ (p.splitWhy = 0 →
      let west := emfenPrefers s'.dev
      let verifies := fun (x : Bool) => if x then b.emfenB else b.emfenA
      let code := fun (x : Bool) => Config.digest 2 (norContent s'.dev (imageBase x) 0x1000000)
      s'.dev.sec.taken = [Config.digest 1 [],
        if verifies west then code west else if verifies (!west) then code (!west) else 0, recordDigest s'.dev])

/-- The commands that may reset the device, as a write of the power page or as a reset of their own; the release of a lock may
perform a write that waited for it. -/
def mayReset : Instr → Bool
  | .coldReset _ | .sysRstNLow _ | .sysRstNRelease _ | .sysrst .. | .main .. | .thermLockoutEnd _ | .pwElect ..
  | .smbusElectWrite .. | .registerWrite .. | .seqLockRelease .. | .lockTimeout _ | .dbgForce .. => true
  | _ => false

/-- The commands that may move the count (R20, R26, R27). -/
def movesTime : Instr → Bool
  | .trickBoundary _ | .trickMarker .. => true
  | c => mayReset c

/-- The commands that may change power (R350, R353, R356); a HOST reset, and the PCIE test that does one, set the limiter's
duty (R353, R381). -/
def movesPower : Instr → Bool
  | .mainFail _ | .limiterSample .. | .limiterDutyStep | .dieTempSample .. | .thermalDutyStep | .hostReset | .btStart .. => true
  | c => mayReset c

/-- The commands that may change the life cycle, attestation or debug (R331 to R333, R369, R381). -/
def movesLife : Instr → Bool
  | .lcTransitionRequest .. | .spdmRequest _ | .debugUnlock _ | .hostReset | .btStart .. => true
  | c => mayReset c

end Sys2Proof.Claims

open Sys2Proof Sys2Proof.Machine Sys2Proof.Claims

/-! ## Hands (R112 to R139) -/

/-- R113, R115, R122 to R124: ALU, ALUI, FPU, VEC, HID, TRICK, PHASE and NOP complete at issue; each writes its one
destination (g0 takes no value) and leaves all else alone. -/
def Obligations.RegisterInstructions : Prop :=
  ∀ (t : Sys2Proof.Tile) (h : HandId) (s : State), MayIssue s t h →
    (∀ fn (d a b c : GReg), Issues (.alu t h fn d a b c) t h
        (gSet d (aluOp fn (reg s t h a) (reg s t h b) (reg s t h c))) s)
    ∧ (∀ fn (d a : GReg) imm, Issues (.alui t h fn d a imm) t h (gSet d (aluiOp fn (reg s t h a) imm)) s)
    ∧ (∀ fn (d a b c : GReg), Issues (.fpu t h fn d a b c) t h
        (gSet d (fpuOp fn (reg s t h a) (reg s t h b) (reg s t h c))) s)
    ∧ (∀ fn (d a b c : WReg), Issues (.vec t h fn d a b c) t h
        (wSet d (vecOp fn (wGet (getHand s.dev t h) a) (wGet (getHand s.dev t h) b) (wGet (getHand s.dev t h) c))) s)
    ∧ (∀ d : GReg, Issues (.hid t h d) t h (gSet d (BitVec.ofNat 64 (h.val + 2 ^ 8 * t.val + 2 ^ 32 * myDev s.dev))) s)
    ∧ (∀ d : GReg, Issues (.trick t h d) t h (gSet d (BitVec.ofNat 64 s.dev.time.trick)) s)
    ∧ (∀ d : GReg, Issues (.phase t h d) t h (gSet d (BitVec.ofNat 64 s.dev.time.phase)) s)
    ∧ Issues (.handNop t h) t h id s

/-- R122, R124, R127, R112: BR, JAL and JALR move the program counter modulo 0x1_0000, HALT ends the hand's run, and
WAITT waits until the trick counter has reached its operand. R124, R138: TRAP faults the hand with TRAP and writes the
record; a JALR whose target is no multiple of 4 or not below 0x1_0000 faults with FETCH. -/
def Obligations.ControlInstructions : Prop :=
  (∀ (t : Sys2Proof.Tile) (h : HandId) (s : State), MayIssue s t h →
      let pc := (getHand s.dev t h).pc
      let next := (pc + 4).setWidth 64
      (∀ c (a b : GReg) off, Holds c (reg s t h a) (reg s t h b) →
          Issues (.br t h c a b off) t h (fun x => { x with pc := BitVec.ofInt 16 (pc.toNat + 4 * off.toInt) }) s)
      ∧ (∀ c (a b : GReg) off, ¬ Holds c (reg s t h a) (reg s t h b) → Issues (.br t h c a b off) t h id s)
      ∧ (∀ (d : GReg) off, Issues (.jal t h d off) t h
          (fun x => { gSet d next x with pc := BitVec.ofInt 16 (pc.toNat + 4 * off.toInt) }) s)
      ∧ (∀ (d a : GReg) imm, (reg s t h a + imm.signExtend 64).toNat < 0x10000 →
          (reg s t h a + imm.signExtend 64).toNat % 4 = 0 →
          Issues (.jalr t h d a imm) t h
            (fun x => { gSet d next x with pc := (reg s t h a + imm.signExtend 64).setWidth 16 }) s)
      ∧ Issues (.halt t h) t h (fun x => { x with state := .halted, wait := .none, miss := none }) s
      ∧ (∀ a : GReg, (reg s t h a).toNat ≤ s.dev.time.trick → Issues (.waitt t h a) t h id s)
      ∧ (∀ a : GReg, s.dev.time.trick < (reg s t h a).toNat →
          Issues (.waitt t h a) t h (fun x => { x with state := .waiting, wait := .trick (reg s t h a) }) s))
  ∧ (∀ (t : Sys2Proof.Tile) (h : HandId) (s : State), MayIssue s t h →
      (∀ b : GReg, ∃ s', exec (.trap t h b) s = .next s' ∧
          FaultNoted t h 11 (reg s t h b).toNat (getHand s.dev t h).pc.toNat false s s'
          ∧ getHand s'.dev t h = { afterIssue s t h with state := .faulted, wait := .none, miss := none }
          ∧ s'.dev.mem = s.dev.mem ∧ Rest s s')
      ∧ (∀ (d a : GReg) imm, let v := (reg s t h a + imm.signExtend 64).toNat
          (v % 4 ≠ 0 ∨ 0x10000 ≤ v) → ∃ s', exec (.jalr t h d a imm) s = .next s' ∧
          FaultNoted t h 2 v (getHand s.dev t h).pc.toNat false s s'
          ∧ getHand s'.dev t h = { afterIssue s t h with state := .faulted, wait := .none, miss := none }
          ∧ s'.dev.mem = s.dev.mem ∧ Rest s s'))

/-- R133, R134: SLOTR and SLOTF read a slot's value and its FULL bit, SLOTW into a slot of the hand's own tile that does not
make it wait gives it the value, which the slot takes after the reads of the cycle; into a full HOLD or ZERO slot it waits in SLOTWAIT. A slot that a hand may
not name faults with BAD_SLOT, and a SLOTW of hands 0 to 7 into another tile with PIN_VIOLATION. R126, R127, R135: with every earlier store performed, the fences let the hand go on, RING
adds register B to a named doorbell and goes on, and an unnamed doorbell faults with BAD_DOORBELL. WAIT goes on when the
word differs and waits when it is equal. -/
def Obligations.SlotAndOrderInstructions : Prop :=
  (∀ (t : Sys2Proof.Tile) (h : HandId) (a b : GReg) (s : State), MayIssue s t h →
      let ta := (reg s t h a).toNat
      let sb := (reg s t h b).toNat
      (slotOk s.dev t ta sb = true →
        (∀ d : GReg, Issues (.slotr t h d a b) t h (gSet d (getSlot s.dev ta sb).value) s)
        ∧ (∀ d : GReg, Issues (.slotf t h d a b) t h (gSet d (BitVec.ofNat 64 (b2n (getSlot s.dev ta sb).full))) s)
        ∧ (∀ c : GReg, ta = t.val → Settled s t h →
            SlotTakesNow (getSlot s.dev t sb) →
            Issued (.slotw t h a b c) t h s (fun d => modHand t h onward
              (slotTakes t sb (reg s t h c) d)))
        ∧ (∀ c : GReg, ta = t.val → Settled s t h →
            SlotIsTaken (getSlot s.dev t sb) →
            Issues (.slotw t h a b c) t h
              (fun x => { x with state := .slotwait, wait := .slot t sb (reg s t h c), miss := none }) s))
      ∧ (slotOk s.dev t ta sb = false → ∀ (d : GReg) i, i ∈ [Instr.slotr t h d a b, .slotf t h d a b]
            ++ (if h.val < 8 ∧ ta ≠ t.val then [] else [.slotw t h a b d]) → ∃ s', exec i s = .next s' ∧
          FaultNoted t h 9 0 (getHand s.dev t h).pc.toNat false s s')
      ∧ (∀ d : GReg, h.val < 8 → ta ≠ t.val → ∃ s', exec (.slotw t h a b d) s = .next s' ∧
          FaultNoted t h 6 0 (getHand s.dev t h).pc.toNat false s s'))
  ∧ (∀ (t : Sys2Proof.Tile) (h : HandId) (s : State), MayIssue s t h → Settled s t h →
      Issues (.fenceS t h) t h onward s ∧ Issues (.fenceA t h) t h onward s
      ∧ (∀ a b : GReg, (bellOf s.dev t (reg s t h a).toNat).named = true →
          Issued (.ring t h a b) t h s (fun d =>
            modHand t h onward (ringBell t (reg s t h a).toNat ((reg s t h b).toNat % 2 ^ 32) d)))
      ∧ (∀ a b : GReg, (bellOf s.dev t (reg s t h a).toNat).named = false →
          ∃ s', exec (.ring t h a b) s = .next s' ∧ FaultNoted t h 10 0 (getHand s.dev t h).pc.toNat false s s')
      ∧ (∀ a b : GReg, OwnAccess s t (reg s t h a).toNat 8 →
          readNat s.dev (gOff (reg s t h a).toNat) 8 ≠ (reg s t h b).toNat →
          Issued (.wait t h a b) t h s (fun d => modHand t h onward (noteRead (gOff (reg s t h a).toNat) 8 d)))
      ∧ (∀ a b : GReg, OwnAccess s t (reg s t h a).toNat 8 →
          readNat s.dev (gOff (reg s t h a).toNat) 8 = (reg s t h b).toNat →
          Issued (.wait t h a b) t h s (fun d =>
            modHand t h (fun x => { x with state := .waiting, wait := .word (reg s t h a).toNat (reg s t h b) })
              (noteRead (gOff (reg s t h a).toNat) 8 d))))

/-- R46, R113, R114, R122, R125: LD, ST, VLD, VST and ATOM in the hand's own tile SRAM are issued with an access at A + IMM,
A + B or A that waits for the SRAM, the hand READY and not eligible. In a cycle that is 3 modulo 4 the SRAM serves the
first access in order of each sub-bank, in the others none of a hand's. A served read or atomic writes the destination
with the value read and the hand goes on; a served store or atomic writes its bytes. Single-bit errors of the words read
are corrected and counted (R47); nothing but these changes. -/
def Obligations.OwnSramInstructions : Prop :=
  (∀ (t : Sys2Proof.Tile) (h : HandId) (s : State), MayIssue s t h → Settled s t h →
    let at_ := fun (a : GReg) (imm : BitVec 14) => (reg s t h a + imm.signExtend 64).toNat
    let pc := (getHand s.dev t h).pc.toNat
    (∀ (lg : Fin 4) sg (d a : GReg) imm, OwnAt s t (at_ a imm) (2 ^ lg.val) →
        Issued (.ld t h lg sg d a imm) t h s
          (sramAsks t h ⟨.load d (2 ^ lg.val) sg, at_ a imm, .read (2 ^ lg.val), false, .pending, 0, pc⟩))
    ∧ (∀ (lg : Fin 4) (d a : GReg) imm, OwnAt s t (at_ a imm) (2 ^ lg.val) →
        Issued (.st t h lg d a imm) t h s
          (sramAsks t h ⟨.store, at_ a imm, .write (leBytes (2 ^ lg.val) (reg s t h d).toNat) [], false, .pending, 0, pc⟩))
    ∧ (∀ (d : WReg) (a b : GReg), OwnAt s t (reg s t h a + reg s t h b).toNat 64 →
        Issued (.vld t h d a b) t h s
          (sramAsks t h ⟨.vector d, (reg s t h a + reg s t h b).toNat, .read 64, false, .pending, 0, pc⟩))
    ∧ (∀ (d : WReg) (a b : GReg), OwnAt s t (reg s t h a + reg s t h b).toNat 64 →
        Issued (.vst t h d a b) t h s
          (sramAsks t h ⟨.store, (reg s t h a + reg s t h b).toNat, .write (leBytes 64 (wGet (getHand s.dev t h) d).toNat) [],
            false, .pending, 0, pc⟩))
    ∧ (∀ op wide aq rl (d a b c : GReg), let n := if wide then 8 else 4
        OwnAt s t (reg s t h a).toNat n →
        Issued (.atom t h op wide aq rl d a b c) t h s
          (sramAsks t h ⟨.load d n false, (reg s t h a).toNat, .atomic op n (reg s t h b) (reg s t h c), rl, .pending, 0, pc⟩)))
  ∧ (∀ (t phase : Nat) (q : List SramReq),
      let x := sramTurn t phase q
      x.1.Sublist q ∧ x.2.Sublist q ∧ x.1.length + x.2.length = q.length
      ∧ (phase % 4 ≠ 3 → ∀ r, r ∈ x.1 → r.who.stock? = some t)
      ∧ (phase % 4 = 3 → (∀ r, r ∈ x.1 → r.who.stock? ≠ some t) ∧ x.1.Pairwise (fun r y => subBank r.addr ≠ subBank y.addr)
          ∧ ∀ a r b, q = a ++ r :: b → r.who.stock? ≠ some t →
              (∀ y, y ∈ a → y.who.stock? ≠ some t → subBank y.addr ≠ subBank r.addr) → r ∈ x.1))
  ∧ (∀ (t h a c n : Nat) (d : Dev) (x : Nat),
      let v := BitVec.ofNat 512 (readNat d a n)
      (∀ sg, AwaitsSram d t h (.load x n sg) → badBytes d a n = [] → 
        serveSram t d ⟨.hand t h, c, a, 0, .read n⟩ = modHand t h (fun y => onward (gSet x (loadValue n sg v) y)) (noteRead a n d))
      ∧ (AwaitsSram d t h (.vector x) → badBytes d a n = [] → 
        serveSram t d ⟨.hand t h, c, a, 0, .read n⟩ = modHand t h (fun y => onward (wSet x v y)) (noteRead a n d))
      ∧ (∀ op b k, AwaitsSram d t h (.load x n false) → badBytes d a n = [] → 
        serveSram t d ⟨.hand t h, c, a, 0, .atomic op n b k⟩
          = modHand t h (fun y => onward (gSet x (loadValue n false v) y))
              (writeBytes a (leBytes n (atomNew op n (readNat d a n) b.toNat k.toNat)) (noteRead a n d)))
      ∧ (∀ bs, AwaitsSram d t h .store → 
        serveSram t d ⟨.hand t h, c, a, 0, .write bs []⟩ = modHand t h onward (writeBytes a bs (noteParts a bs.length d))))
  ∧ (∀ (n : Nat) (v : BitVec 512), loadValue n false v = BitVec.ofNat 64 (v.toNat % 2 ^ (8 * n))
      ∧ loadValue n true v = BitVec.ofInt 64 (sext (8 * n) (v.toNat % 2 ^ (8 * n))))

/-- R113: HAND_ISSUE issues the instruction at the program counter of the hand at which the port stops; the port looks
once in a cycle; a hand that is STALLED holds the port, and a word that is no instruction faults with ILLEGAL. R116:
START of a hand in IDLE, HALTED or FAULTED makes it READY at its start address with its registers and elapsed time 0;
STOP makes a hand with nothing outstanding IDLE and one with something outstanding STOPPING, and the last completion
makes that one IDLE. -/
def Obligations.PortAndStart : Prop :=
  (∀ (t : Sys2Proof.Tile) (h : HandId) (s : State), Powered s →
      (∀ i, mayIssue s.dev t h = true → decodeHand t h (imemWord s.dev t (getHand s.dev t h).pc.toNat) = some i →
          exec (.handIssue t) s = exec i s)
      ∧ (mayIssue s.dev t h = true → decodeHand t h (imemWord s.dev t (getHand s.dev t h).pc.toNat) = none →
          ∃ s', exec (.handIssue t) s = .next s' ∧ FaultNoted t h 1 0 (getHand s.dev t h).pc.toNat false s s')
      ∧ (portFree s.dev t = true → portStop s.dev t = some h.val → (getHand s.dev t h).state = .stalled →
          Does (.handIssue t) s (fun d => ctlAdd (regOff 18 t 0x5C) 1
            (modTile t (fun x => { x with port := h, looked := some (now d) }) d)))
      ∧ ((portFree s.dev t = false ∨ portStop s.dev t = none) → NoEffect (.handIssue t) s))
  ∧ (∀ (r : Req) (t : Sys2Proof.Tile) (h : HandId) (s : State), Powered s →
      (isMgmt (fresh s.dev) r = true → Goes s r →
        gate (fresh s.dev) r (regOff 18 t 0x44) 4 true = .page ⟨18, t, pageBase 18 t⟩ 0x44 →
        (((getHand s.dev t h).state = .idle ∨ (getHand s.dev t h).state = .halted ∨ (getHand s.dev t h).state = .faulted) →
          Does (.start r t h) s (modHand t h (fun x =>
            { x with state := .ready, pc := BitVec.ofNat 16 (ctlNat s.dev (regOff 18 t (0x100 + 4 * h))), g := [], w := []
                     elapsed := 0, wait := .none, miss := none })))
        ∧ ((getHand s.dev t h).state = .ready → (getHand s.dev t h).posted = [] → (getHand s.dev t h).miss = none →
          Does (.stop r t h) s (modHand t h (fun x => { x with state := .idle, wait := .none, miss := none })))
        ∧ ((getHand s.dev t h).state = .ready →
            ((getHand s.dev t h).posted ≠ [] ∨ ∃ m, (getHand s.dev t h).miss = some m ∧ m.hold = 0 ∧ m.kind.isAccess = true) →
          Does (.stop r t h) s (modHand t h (fun x => { x with state := .stopping, wait := .none }))))
      ∧ ((getHand s.dev t h).state = .stopping → (getHand s.dev t h).posted = [] → (getHand s.dev t h).miss = none →
          Does (.handStopped t h) s (modHand t h (fun x => { x with state := .idle, miss := none })))
      ∧ ((getHand s.dev t h).state = .stopping → (getHand s.dev t h).posted ≠ [] → NoEffect (.handStopped t h) s))

/-- R118 to R120, R139: MISS_RETURN writes what a load or vector load returned and the hand goes on; an error faults the
hand with its code. A RING that waited for a table entry rings when MTT_ENTRY_FREE finds one. A posted store
that ends without an error frees its entry, one that ends with an error faults its hand imprecisely. R127, R132, R133: a
waiting hand goes on when its word differs, its trick has come, or its slot has been read (its value is then written and
FULL set, after the reads of the cycle); until then WAITT_WAKE and SLOTWAIT_RELEASE have no effect. -/
def Obligations.MissesAndWakes : Prop :=
  (∀ (t : Sys2Proof.Tile) (h : HandId) (s : State), Powered s →
      (∀ m v, ((getHand s.dev t h).state = .switched ∨ (getHand s.dev t h).state = .stalled) →
          (getHand s.dev t h).miss = some m → m.hold = 0 → m.res = .data v false → (getHand s.dev t h).posted = [] →
          (∀ d n sg, m.kind = .load d n sg →
            Does (.missReturn t h) s (modHand t h (fun x => onward (gSet d
              (if sg then BitVec.ofInt 64 (sext (8 * n) (v.toNat % 2 ^ (8 * n))) else BitVec.ofNat 64 (v.toNat % 2 ^ (8 * n))) x))))
          ∧ (∀ d, m.kind = .vector d → Does (.missReturn t h) s (modHand t h (fun x => onward (wSet d v x)))))
      ∧ (∀ m c, ((getHand s.dev t h).state = .switched ∨ (getHand s.dev t h).state = .stalled) →
          (getHand s.dev t h).miss = some m → m.hold = 0 → m.res = .error c → c < 256 → m.pc < 2 ^ 16 →
          (∃ d n sg, m.kind = .load d n sg) → (getHand s.dev t h).posted = [] →
          ∃ s', exec (.missReturn t h) s = .next s' ∧ FaultNoted t h c m.addr m.pc false s s')
      ∧ (∀ m bell n, (getHand s.dev t h).state = .stalled → (getHand s.dev t h).miss = some m → m.hold = 3 →
          m.kind = .ring bell n → m.ordered = false → (bellOf s.dev t bell).named = true → (getHand s.dev t h).posted = [] →
          Does (.mttEntryFree t h) s (fun d => modHand t h onward (ringBell t bell n d)))
      ∧ (∀ id p, (getHand s.dev t h).posted.find? (fun p => p.id == id && p.res == some 0) = some p →
          Does (.postedStoreComplete t h id) s
            (modHand t h (fun x => { x with posted := x.posted.filter (fun y => y.id != id) })))
      ∧ (∀ id p c, (getHand s.dev t h).posted.find? (fun p => p.id == id) = some p → p.res = some c → 0 < c → c < 256 →
          (((getHand s.dev t h).state = .ready ∧ (getHand s.dev t h).miss = none) ∨ (getHand s.dev t h).state = .halted) →
          ∃ s', exec (.impreciseFault t h id) s = .next s' ∧
            FaultNoted t h c p.addr (getHand s.dev t h).pc.toNat true s s'))
  ∧ (∀ (t : Sys2Proof.Tile) (h : HandId) (s : State), Powered s →
      (∀ a v, (getHand s.dev t h).state = .waiting → (getHand s.dev t h).wait = .word a v →
          badBytes s.dev (gOff a) 8 = [] → readNat s.dev (gOff a) 8 ≠ v.toNat →
          Does (.waitWake t h) s (fun d => modHand t h onward (noteRead (gOff a) 8 d)))
      ∧ (∀ v, (getHand s.dev t h).state = .waiting → (getHand s.dev t h).wait = .trick v →
          (v.toNat ≤ s.dev.time.trick → Does (.waittWake t h) s (modHand t h onward))
          ∧ (s.dev.time.trick < v.toNat → NoEffect (.waittWake t h) s))
      ∧ (∀ a b v, (getHand s.dev t h).state = .slotwait → (getHand s.dev t h).wait = .slot a b v →
          (SlotTakesNow (getSlot s.dev a b) →
            Does (.slotwaitRelease t h) s (fun d => modHand t h onward
              (slotTakes a b v d)))
          ∧ (SlotIsTaken (getSlot s.dev a b) → NoEffect (.slotwaitRelease t h) s)))
  ∧ (∀ (d : Dev) (t n : Nat) (v : Dword), (getSlot d t n).next = some v →
      getSlot (settleSlots t d) t n = { getSlot d t n with value := v, full := true, next := none })

/-- R122, R123: what ALU computes, function by function, where the spec states the value. R76, R80: in every format each
value that is not NaN is written back as its own bit pattern, whatever the rounding: no bit of an element is dropped; a
NaN stays a NaN in the formats that have one. -/
def Obligations.HandAndNumberValues : Prop :=
  (∀ a b c : Dword,
      aluOp .add a b c = a + b ∧ aluOp .sub a b c = a - b ∧ aluOp .and a b c = a &&& b ∧ aluOp .or a b c = a ||| b
      ∧ aluOp .xor a b c = a ^^^ b ∧ aluOp .mul a b c = a * b
      ∧ (aluOp .mulhu a b c).toNat = a.toNat * b.toNat / 2 ^ 64
      ∧ (aluOp .mulh a b c).toInt = a.toInt * b.toInt / 2 ^ 64
      ∧ (b.toNat < 64 → (aluOp .shl a b c).toNat = a.toNat * 2 ^ b.toNat % 2 ^ 64
          ∧ (aluOp .shr a b c).toNat = a.toNat / 2 ^ b.toNat
          ∧ (aluOp .sar a b c).toInt = a.toInt / 2 ^ b.toNat)
      ∧ (b = 0 → aluOp .div a b c = BitVec.allOnes 64 ∧ aluOp .divu a b c = BitVec.allOnes 64 ∧ aluOp .rem a b c = a
          ∧ aluOp .remu a b c = a)
      ∧ (b ≠ 0 → (aluOp .divu a b c).toNat = a.toNat / b.toNat ∧ (aluOp .remu a b c).toNat = a.toNat % b.toNat)
      ∧ (b ≠ 0 → (a ≠ BitVec.intMin 64 ∨ b ≠ BitVec.allOnes 64) →
          (aluOp .div a b c).toInt = a.toInt.tdiv b.toInt ∧ (aluOp .rem a b c).toInt = a.toInt.tmod b.toInt)
      ∧ (aluOp .min a b c).toInt = min a.toInt b.toInt ∧ (aluOp .max a b c).toInt = max a.toInt b.toInt
      ∧ (aluOp .minu a b c).toNat = min a.toNat b.toNat ∧ (aluOp .maxu a b c).toNat = max a.toNat b.toNat
      ∧ aluOp .slt a b c = (if a.toInt < b.toInt then 1 else 0) ∧ aluOp .sltu a b c = (if a.toNat < b.toNat then 1 else 0)
      ∧ (a ≠ 0 → 2 ^ 63 ≤ a.toNat * 2 ^ (aluOp .clz a b c).toNat ∧ a.toNat * 2 ^ (aluOp .clz a b c).toNat < 2 ^ 64)
      ∧ (a ≠ 0 → a.toNat % 2 ^ (aluOp .ctz a b c).toNat = 0 ∧ a.toNat.testBit (aluOp .ctz a b c).toNat = true)
      ∧ aluOp .clz 0 b c = 64 ∧ aluOp .ctz 0 b c = 64
      ∧ aluOp .select a b c = (if c = 0 then b else a))
  ∧ ((∀ f, f ∈ [fp64, fp32, bf16, e4m3, e5m2, e3m2, e2m3, e2m1] → ∀ v rd, v < 2 ^ f.width → (f.decode v).isNan = false →
      f.encode rd (f.decode v) = v)
    ∧ (∀ f, f ∈ [fp64, fp32, bf16, e4m3, e5m2] → ∀ s rd, (f.decode (f.encode rd (.nan s))).isNan = true))

/-! ## Global time (R20 to R30, R39 to R42) -/

/-- R20, R39, R41, R42: a trick boundary moves the count to phase 0 of the next trick. Every partition whose job runs
and is neither being halted nor unloaded is checked: with nothing late its cursor advances and its stall count is 0,
else its slip, stall count and late count gain one and its cursor stays. A job that is not checked keeps all of them. R23,
R28: a port that brought no marker in the trick that ends has been silent for one trick more, and the device's own marker
leaves on every trained link. -/
def Obligations.TrickBoundary : Prop :=
  ∀ (links : List (Eighth × DevNum)) (s : State), Powered s →
    let e := trickEnd (fresh s.dev)
    ∃ s', exec (.trickBoundary links) s = .next s' ∧ s'.dev.time.trick = e.time.trick + 1 ∧ s'.dev.time.phase = 0
      ∧ s'.pending = s.pending ∧ s'.dev.sec = s.dev.sec ∧ s'.dev.power = s.dev.power
      ∧ (∀ p, p < 6 → tget 0 s'.dev.body.tb.silent p
          = if e.body.tb.heard.contains p then tget 0 e.body.tb.silent p else tget 0 e.body.tb.silent p + 1)
      ∧ s'.dev.body.tb.heard = []
      ∧ (∀ k, k < 24 → tget Marker.z s'.dev.body.tb.sent k
          = if (getLink s'.dev k).state = 2 then markerOut s'.dev (k / 4) else none)
      ∧ ∀ q, q < 8 →
        let j := getJob e q
        let k := getJob s'.dev q
        let due := partLate e q ((links.filter (fun x => x.1.val == q)).map (fun x => x.2.val))
        (checked e q = true → due = [] → k = { j with cursor := j.cursor + 1, stall := 0 })
        ∧ (checked e q = true → due ≠ [] → k.slip = j.slip + 1 ∧ k.stall = j.stall + 1 ∧ k.cursor = j.cursor
            ∧ k.lateCnt = (j.lateCnt + 1) % 2 ^ 32 ∧ (j.deal.stallLimit < j.stall + 1 → k.why = 1)
            ∧ (j.stall + 1 ≤ j.deal.stallLimit → k.why = 0))
        ∧ (checked e q = false → k = j)

/-- R23, R24, R26 to R29: a marker on the parent port gives the hop count, the dealer and the phase error, its arrival less
half of the round trip measured on the port; with no deal running the count follows the full trick number that a marker carries. While a job runs, a low part or a phase error of
more than a play halts it with TIME_LOST. A parent port silent for 16 tricks is given up; a device locked to TREF that
has heard no marker for 32 tricks sources them. R25, R30, R414 to R416: a trained link keeps the timestamps that arrive
and takes its round trip from the arrival and the echo (log 97); an edge of TOD_PPS latches the count, a valid TREF is noted, and a device that loses TREF no longer sources
markers. -/
def Obligations.MarkersAndMeasures : Prop :=
  (∀ s : State, Powered s →
      (∀ (p : Port) low full dealer hops running arrival, portUp s.dev p = true → s.dev.body.tb.sourcing = false →
          s.dev.body.tb.parent = p.val →
          let err := phaseError s.dev p arrival
          ∃ s', exec (.trickMarker p low full dealer hops running arrival) s = .next s'
            ∧ s'.dev.body.tb.hops = hops.val ∧ s'.dev.body.tb.dealer = dealer.val ∧ s'.dev.body.tb.offset = err
            ∧ tget 0 s'.dev.body.tb.silent p = 0 ∧ s'.dev.body.tb.heard.contains p.val = true
            ∧ s'.pending = s.pending ∧ s'.dev.power = s.dev.power ∧ s'.dev.sec = s.dev.sec ∧ s'.dev.mem = s.dev.mem
            ∧ s'.dev.body = { s.dev.body with replies := [], tb := s'.dev.body.tb, pages := s'.dev.body.pages
                                              ev := s'.dev.body.ev, jobs := s'.dev.body.jobs }
            ∧ (anyRuns s.dev = false → s'.dev.time.trick = if low.toNat % 1024 = 0 then full.toNat else s.dev.time.trick)
            ∧ (anyRuns s.dev = true → s'.dev.time.trick = s.dev.time.trick
                ∧ ∀ q, q < 8 → jobRuns s.dev q = true → (getJob s.dev q).why = 0 →
                  ((low.toNat ≠ s.dev.time.trick % 65536 ∨ 32000 < err.natAbs) → (getJob s'.dev q).why = 2)
                  ∧ (low.toNat = s.dev.time.trick % 65536 → err.natAbs ≤ 32000 → (getJob s'.dev q).why = 0)))
      ∧ (s.dev.body.tb.parent < 6 → 16 ≤ tget 0 s.dev.body.tb.silent s.dev.body.tb.parent → s.dev.body.tb.sourcing = false →
          (bestPort s.dev = none → Does .parentLost s (modTb (fun x => { x with parent := 7, hops := 0 })))
          ∧ (∀ p m, bestPort s.dev = some (p, m) →
              Does .parentLost s (fun d => setDealer m.dealer (modTb (fun x => { x with parent := p, hops := m.hops }) d))))
      ∧ (s.dev.body.tb.tref = true → s.dev.body.tb.locked = true → s.dev.body.tb.sourcing = false →
          (∀ p, p < 6 → 32 ≤ tget 0 s.dev.body.tb.silent p) →
          Does .startSourcing s (modTb (fun x => { x with sourcing := true, parent := 7, hops := 0, dealer := myDev s.dev }))))
  ∧ (∀ s : State,
      (Powered s → ∀ (p : Port) (l : Link), (getLink s.dev (4 * p.val + l.val)).state = 2 →
        let x := tget DelaySt.z s.dev.body.tb.delays (4 * p.val + l.val)
        (∀ n a, x.arrived = some a →
            Does (.roundTripMeasure p l n) s
              (modDelay p l (fun y => { y with roundTrip := a - x.echo, sentAt := n, arrived := none })))
        ∧ (∀ n, x.arrived = none → Does (.roundTripMeasure p l n) s (modDelay p l (fun y => { y with sentAt := n, arrived := none })))
        ∧ (∀ a b c, Does (.timestamp p l ⟨a, b⟩ c) s (modDelay p l (fun y => { y with stamp := a, echo := b, arrived := some c }))))
      ∧ (Powered s → (∀ c, s.dev.body.board.todLast = some c → now s.dev < c ∨ c + 1500000 ≤ now s.dev) →
          Does .todPpsEdge s (fun d =>
            modBody (fun b => { b with board := { b.board with todLast := some (now s.dev) } })
              (modTb (fun x => { x with todTrick := s.dev.time.trick, todPhase := s.dev.time.phase }) d)))
      ∧ Does .trefValid s (modTb (fun x => { x with tref := true }))
      ∧ (s.dev.body.tb.sourcing = false →
          Does .trefLost s (modTb (fun x => { x with tref := false, locked := false, sourcing := false }))))

/-- R29: a marker on the parent port whose dealer number differs from the one in `TB_DEALER` raises DEALER_CHANGE, and
the number is recorded; one with the same number does not. With a deal running and the marker in time, the count and
every job are as before. -/
def Obligations.DealerChange : Prop :=
  ∀ (s : State) (p : Port) low full dealer hops running arrival, Powered s → portUp s.dev p = true → s.dev.body.tb.sourcing = false →
    s.dev.body.tb.parent = p.val →
    ∃ s', exec (.trickMarker p low full dealer hops running arrival) s = .next s' ∧ s'.pending = s.pending ∧ s'.dev.mem = s.dev.mem
      ∧ s'.dev.body.tb.dealer = dealer.val
      ∧ (dealer.val ≠ s.dev.body.tb.dealer → Raised s' 1 0 0)
      ∧ (dealer.val = s.dev.body.tb.dealer → (Raised s' 1 0 0 ↔ Raised s 1 0 0))
      ∧ (anyRuns s.dev = true → low.toNat = s.dev.time.trick % 65536 → (phaseError s.dev p arrival).natAbs ≤ 32000 → Safety.TimeOk s →
          s'.dev.time = s.dev.time ∧ s'.dev.power = s.dev.power ∧ s'.dev.sec = s.dev.sec ∧ ∀ q, getJob s'.dev q = getJob s.dev q)

/-! ## Registers and the event controller (R338 to R348, R388 to R402) -/

/-- R5, R334, R391, R398: a read of a latching low word answers it and latches its high word for the requester; one of
`TB_NOW` latches the phase too. A read of a counter, or of `ERR_LOG`, answers it and clears it. A quiet read answers the
value that a read would, and changes nothing; of memory it answers the bytes; through a closed debug port it has no effect. R388, R392, R397, R398: a
write of a stored register sets the bits of its mask; the low word of a plain pair is staged and takes effect with the
high word, both at once; a write that fails a check has no effect but the record of its cause and its answer, and a halted
core makes no access. -/
def Obligations.RegisterAccesses : Prop :=
  (∀ (r : Req) (off : CtlOff) (s : State) (p : PageAt) (o : Nat), Reaches s r off false p o →
      (∀ x, 0x40 ≤ o → regAt p.kind o = some x → x.acc = .latchLo →
          ∃ s', exec (.latchingLowRead r off) s = .next s' ∧ Rest s s' ∧ s'.dev.mem = s.dev.mem
            ∧ s'.dev.body.replies = [.value ((word (pairNow s.dev p x)).setWidth 64)]
            ∧ latchOf s'.dev r (p.base + o + 4) = some (word (pairNow s.dev p x / 2 ^ 32))
            ∧ (x.reg = .tbNowLo → o = 0x40 → latchOf s'.dev r (p.base + 0x48) = some (word s.dev.time.phase))
            ∧ s'.dev.body = { s.dev.body with replies := s'.dev.body.replies, latches := s'.dev.body.latches }
            ∧ (∀ u k, k < 2 ^ 36 → (u ≠ r ∨ k ∉ (p.base + o + 4) :: (companionOf s.dev x p.base).map (·.1)) →
                latchOf s'.dev u k = latchOf s.dev u k))
      ∧ (∀ x, 0x40 ≤ o → regAt p.kind o = some x → x.acc = .rc → x.reg ≠ .evClaim → x.reg ≠ .evCnt →
          ∃ s', exec (.rcRead r off) s = .next s' ∧ Rest s s' ∧ s'.dev.mem = s.dev.mem
            ∧ s'.dev.body.replies = [.value ((word (liveWord s.dev p x (p.base + o))).setWidth 64)]
            ∧ ctlNat s'.dev (p.base + o) = 0 ∧ CtlBut [p.base + o] s s'
            ∧ s'.dev.body = { s.dev.body with replies := s'.dev.body.replies, ctl := s'.dev.body.ctl
                                              hbmStacks := s'.dev.body.hbmStacks }
            ∧ (∀ k, getStack s'.dev k = if x.reg = .mmImbal ∧ k = 4 * p.inst + x.idx then { getStack s.dev k with counted := false }
                else getStack s.dev k))
      ∧ (∀ x, 0x40 ≤ o → regAt p.kind o = some x → x.acc = .rc → x.reg = .evCnt →
          Does (.rcRead r off) s (fun d => reply (.value ((word (evCntWord s.dev x.idx)).setWidth 64))
            (forN 4 (fun j e => modSrc (4 * x.idx + j) (fun y => { y with cnt := 0 }) e) d)))
      ∧ (o = 0x1C → Does (.rcRead r off) s (fun d =>
          reply (.value ((getPage s.dev p.base).err.setWidth 64)) (modPage p.base (fun x => { x with err := 0 }) d)))
      ∧ (r = .debug → ∀ a : BitVec 49, a.toNat = Config.ctlBase + off.toNat →
          Does (.quietRead a) s (reply (.value ((readWord .debug p o true (fresh s.dev)).1.setWidth 64)))))
  ∧ (∀ (a : BitVec 49) (s : State),
      (debugOpen s.dev.sec = false → NoEffect (.quietRead a) s)
      ∧ (∀ t o, debugOpen s.dev.sec = true → Powered s → homeRange s.dev a.toNat 8 = .sram t o →
          (∀ e, (homeOf s.dev a.toNat).eighth = some e → gated s.dev e = false ∧ (getEighth s.dev e).domain ≠ .off) →
          (homeOf s.dev a.toNat).eighth.isSome = true → unitWaits s.dev a.toNat 8 = false →
          ∃ s', exec (.quietRead a) s = .next s' ∧ Rest s s' ∧ SameBytes s s'
            ∧ s'.dev.body.replies = [.data (readBytes s.dev a.toNat 8) (!(badBytes s.dev a.toNat 8).isEmpty)]))
  ∧ (∀ (r : Req) (off : CtlOff) (s : State) (p : PageAt) (o : Nat) (v : Word),
      (∀ x, Reaches s r off true p o → 0x40 ≤ o → p.kind ≠ 1 → regAt p.kind o = some x →
        mayWrite (fresh s.dev) r x.reg = true → writeCause (fresh s.dev) p x v.toNat = 0 →
        ((∃ m, x.acc = .plainLo m) → Does (.plainPairLowWrite r off v) s (modPage p.base (fun y =>
            { y with staged := y.staged.filter (fun z => z.off != p.base + o) ++ [⟨p.base + o, Req.code r, v⟩] })))
        ∧ (∀ m w, x.acc = .plainHi m → x.reg ≠ .hlHdmBaseHi → 4 ≤ o →
            (getPage s.dev p.base).staged.find? (fun z => z.off == p.base + o - 4) = some w →
            ∃ s', exec (.plainPairHighWrite r off v) s = .next s' ∧ Rest s s' ∧ s'.dev.mem = s.dev.mem
              ∧ ctlPair s'.dev (p.base + o - 4)
                  = ((w.value.toNat &&& lowMask p.kind (o - 4)) + 2 ^ 32 * (v.toNat &&& m)) % 2 ^ 64
              ∧ getPage s'.dev p.base = { getPage s.dev p.base with
                  staged := (getPage s.dev p.base).staged.filter (fun z => z.off != p.base + o - 4) }
              ∧ (∀ b, b ≠ p.base → getPage s'.dev b = getPage s.dev b) ∧ CtlBut [p.base + o - 4, p.base + o] s s'
              ∧ s'.dev.body = { s.dev.body with replies := [], ctl := s'.dev.body.ctl, pages := s'.dev.body.pages })
        ∧ (∀ m, x.acc = .rw m → x.reg ∈ [.grantRange, .grantFlags, .hlT3share, .hlWinPart, .hdEntry, .mvNpage] →
            DoesAll (.registerWrite r off 4 (v.setWidth 64)) s (ctlSetN (p.base + o) (v.toNat &&& m)))
        ∧ (x.reg = .flQcfg → DoesAll (.registerWrite r off 4 (v.setWidth 64)) s (fun d =>
            ctlSetN (p.base + o) (v.toNat &&& 0xFF) (keepTokens (flBucket p.inst x.idx) (flRate s.dev p.inst x.idx) d))))
      ∧ (∀ (c : Core) base cause, Goes s (.core c) → gate (fresh s.dev) (.core c) off.toNat 4 true = .denied base cause →
          DoesAll (.registerWrite (.core c) off 4 (v.setWidth 64)) s (fun d =>
            reply (.denied cause) (logError base cause c.val off.toNat true d)))
      ∧ (∀ c : Core, coreHalted (fresh s.dev) (.core c) = true →
          DoesAll (.registerWrite (.core c) off 4 (v.setWidth 64)) s id ∧ NoEffect (.rcRead (.core c) off) s))

/-- R399 to R401, R336: a core's read of `SEQ_LOCK` takes a free lock and sets its EXPECT bit, and finds a held one
held; RELEASE by the owner frees it; a hold of LOCKMAX ends with LOCK_TIMEOUT and DBG_FORCE ends one by force: both are
logged, drop what the owner staged and keep the EXPECT bits. R402, Table MP-6: a write of `IRQ_STAT` clears the bits
written as 1; a mask bit cleared over a set RAW bit raises one event; a block's event sets its RAW bit and raises its
source unless it is masked. -/
def Obligations.LocksAndInterrupts : Prop :=
  (∀ (c : Core) (off : CtlOff) (s : State) (p : PageAt), ctlAt off.toNat = .page p 0x20 →
      let x := getPage s.dev p.base
      (Reaches s (.core c) off false p 0x20 → x.held = false →
          Does (.seqLockRead (.core c) off) s (fun d =>
            reply (.value ((word (c.val + 4 + 8 + 16 * (x.expect ||| 2 ^ c.val))).setWidth 64))
              (modPage p.base (fun y => { y with held := true, owner := c.val, timer := 0, expect := y.expect ||| 2 ^ c.val }) d)))
      ∧ (Reaches s (.core c) off false p 0x20 → x.held = true → Does (.seqLockRead (.core c) off) s (fun d =>
          reply (.value ((word (x.owner + 4 + 8 * b2n (c.val == x.owner) + 16 * x.expect)).setWidth 64)) (modPage p.base id d)))
      ∧ (Reaches s (.core c) off true p 0x20 → x.held = true → x.owner = c.val → x.waiters = [] →
          DoesAll (.seqLockRelease (.core c) off) s (fun d =>
            unlock p.base (modPage p.base (fun y => { y with expect := y.expect &&& (15 - 2 ^ c.val) }) d)))
      ∧ (off.toNat - 0x20 = p.base → x.held = true → x.waiters = [] → x.owner ∉ s.dev.body.coreHalt →
          x.lockmax * Config.usCycles ≤ x.timer →
          DoesAll (.lockTimeout off) s (fun d =>
            unlock p.base (modPage p.base (fun y => { y with staged := y.staged.filter (fun z => z.by_ != y.owner) })
              (logError p.base 13 x.owner 0x20 false d))))
      ∧ (off.toNat - 0x20 = p.base → x.held = true → x.waiters = [] → debugOpen s.dev.sec = true →
          DoesAll (.dbgForce off) s (fun d =>
            countForced (unlock p.base (modPage p.base (fun y => { y with staged := y.staged.filter (fun z => z.by_ != y.owner) })
              (logError p.base 12 4 0x20 false d))))))
  ∧ (∀ (r : Req) (off : CtlOff) (s : State) (p : PageAt) (o : Nat) (v : Word), ctlAt off.toNat = .page p o →
      let x := getPage s.dev p.base
      (o = 0x18 → Reaches s r off true p o → isMgmt (fresh s.dev) r = true →
          Does (.irqStatClear r off v) s (modPage p.base (fun y => { y with raw := y.raw &&& ~~~v })))
      ∧ (o = 0x14 → Reaches s r off true p o → isMgmt (fresh s.dev) r = true →
          Does (.irqMaskWrite r off v) s (fun d =>
            ((List.range 32).filter (fun b => bitAt x.mask.toNat b && !bitAt v.toNat b && bitAt x.raw.toNat b)).foldl
              (fun e b => match eventSource p.kind p.inst b with
                | some n => raise n e
                | none => e) (modPage p.base (fun y => { y with mask := v }) d)))
      ∧ (∀ (b : Fin 32) n, p.base = pageBase p.kind p.inst → eventSource p.kind p.inst b = some n →
          (bitAt x.mask.toNat b = false → Does (.blockEvent off b) s (fun d =>
              raise n (modPage p.base (fun y => { y with raw := y.raw ||| BitVec.ofNat 32 (2 ^ b.val) }) d)))
          ∧ (bitAt x.mask.toNat b = true → Does (.blockEvent off b) s
              (modPage p.base (fun y => { y with raw := y.raw ||| BitVec.ofNat 32 (2 ^ b.val) }))))
      ∧ (∀ b : Fin 32, eventSource p.kind p.inst b = none → NoEffect (.blockEvent off b) s))

/-- R338, R340, R341: an event makes an idle source pending, re-arms one in service, and its count gains one up to 255;
the controller gives the highest-numbered deliverable source to the next eligible target; a reserved source never
becomes pending. R344: MG_ALERT_N is low while an external source is pending, and a read by the carrier's controller takes
the highest one. R342: a write of
`EV_SRC` sets TGT and MASKED, and masking a source that has arrived and is unclaimed makes it pending again. -/
def Obligations.EventSources : Prop :=
  (∀ s : State,
      (∀ n : Fin 512, (sourceReserved n = true → NoEffect (.eventRaise n) s)
        ∧ (sourceReserved n = false → Does (.eventRaise n) s (modSrc n (fun x =>
            { x with cnt := min 255 (x.cnt + 1)
                     state := (if x.state = .idle then .pending else x.state)
                     rearm := (if x.state = .inService then true else x.rearm) }))))
      ∧ (∀ n t, deliverable s.dev = some n →
          ((List.range 4).map (fun i => (s.dev.body.ev.prev + 1 + i) % 4)).find? (evEligible s.dev (getSrc s.dev n)) = some t →
          Does .eventSelect s (fun d => modBody (fun b => { b with ev := { b.ev with prev := t } })
            (modSrc n (fun x => { x with state := .delivered, owner := t, reached := false }) d)))
      ∧ (∀ n, deliverable s.dev = some n → n < 512 ∧ (getSrc s.dev n).state = .pending ∧ (getSrc s.dev n).masked = false
          ∧ (∃ t, t < 4 ∧ (getSrc s.dev n).tgt.testBit t = true ∧ tgtEn s.dev t = true)
          ∧ ∀ m t, n < m → m < 512 → (getSrc s.dev m).state = .pending → (getSrc s.dev m).masked = false → t < 4 →
              (getSrc s.dev m).tgt.testBit t = true → tgtEn s.dev t = false)
      ∧ (∀ n : Fin 512, (getSrc s.dev n).state = .delivered → Does (.eventArrive n) s (modSrc n (fun x => { x with reached := true })))
      ∧ (∀ n, srcsDown.find? (fun n => (getSrc s.dev n).state == .pending && (getSrc s.dev n).tgt == 0 && !(getSrc s.dev n).masked) = some n →
          alertLow s.dev = true ∧ Does .externalSourceRead s (fun d =>
            reply (.value (BitVec.ofNat 64 n)) (modSrc n (fun x => { x with state := .idle }) d)))
      ∧ (alertLow s.dev = false → Does .externalSourceRead s (reply (.value 0))))
  ∧ (∀ (r : Req) (s : State),
      (∀ (n : Fin 512) (v : Word), MgmtWrite s r (evOff (0x800 + 4 * n.val)) →
          ∃ s', exec (.evSrcWrite r n v) s = .next s' ∧ (∀ m, m ≠ n.val → getSrc s'.dev m = getSrc s.dev m)
            ∧ (getSrc s'.dev n).tgt = v.toNat % 16 ∧ (getSrc s'.dev n).masked = v.toNat.testBit 4
            ∧ (((getSrc s.dev n).state = .delivered ∧ (getSrc s.dev n).reached = true ∧ v.toNat.testBit 4 = true) →
                (getSrc s'.dev n).state = .pending)
            ∧ (((getSrc s.dev n).state ≠ .delivered ∨ (getSrc s.dev n).reached = false ∨ v.toNat.testBit 4 = false) →
                getSrc s'.dev n = { getSrc s.dev n with tgt := v.toNat % 16, masked := v.toNat.testBit 4 })
            ∧ Rest s s' ∧ s'.dev.mem = s.dev.mem
            ∧ s'.dev.body = { s.dev.body with replies := [], ev := { s.dev.body.ev with srcs := s'.dev.body.ev.srcs } }))

/-- R343: clearing `EV_TCTL[t].EN` returns every source delivered to t and not yet claimed to PENDING. A source that t
has claimed stays IN_SERVICE, and t can still complete it. A change to TGT leaves a delivered or claimed source with its
target. -/
def Obligations.TargetDisabled : Prop :=
  ∀ (r : Req) (t : Core) (s : State),
    (∀ v : Word, MgmtWrite s r (evOff (0x80 + 0x10 * t.val)) →
      ∃ s', exec (.evTctlWrite r t v) s = .next s' ∧ Rest s s' ∧ s'.dev.mem = s.dev.mem
        ∧ s'.dev.body = { s.dev.body with replies := [], ev := { s.dev.body.ev with srcs := s'.dev.body.ev.srcs, en := s'.dev.body.ev.en } }
        ∧ tgtEn s'.dev t = v.toNat.testBit 0
        ∧ (∀ u, u ≠ t.val → tgtEn s'.dev u = tgtEn s.dev u)
        ∧ ∀ n, n < 512 →
            let x := getSrc s.dev n
            (v.toNat.testBit 0 = false → x.state = .delivered → x.owner = t.val →
              getSrc s'.dev n = { x with state := .pending, reached := false })
            ∧ ((v.toNat.testBit 0 = true ∨ x.state ≠ .delivered ∨ x.owner ≠ t.val) → getSrc s'.dev n = x))
    ∧ (∀ v : Word, MgmtWrite s r (evOff (0x88 + 0x10 * t.val)) → tgtEn s.dev t = false →
        (getSrc s.dev (v.toNat % 512)).state = .inService → (getSrc s.dev (v.toNat % 512)).owner = t.val →
        Does (.evComplete r t v) s (modSrc (v.toNat % 512)
          (fun y => { y with state := (if y.rearm then .pending else .idle), rearm := false })))
    ∧ (∀ (n : Fin 512) (v : Word), MgmtWrite s r (evOff (0x800 + 4 * n.val)) → v.toNat.testBit 4 = false →
        ∃ s', exec (.evSrcWrite r n v) s = .next s' ∧ Rest s s' ∧ s'.dev.mem = s.dev.mem
          ∧ getSrc s'.dev n = { getSrc s.dev n with tgt := v.toNat % 16, masked := false }
          ∧ (∀ m, m ≠ n.val → getSrc s'.dev m = getSrc s.dev m)
          ∧ s'.dev.body = { s.dev.body with replies := [], ev := { s.dev.body.ev with srcs := s'.dev.body.ev.srcs } })

/-- R345, R346: a read of `EV_CLAIM[t]` returns the highest-numbered source that has reached target t and is unclaimed,
and makes it IN_SERVICE; it returns 0 when there is none, and then changes no source; a quiet read returns the same
number and claims nothing. A claim taken before a write of MASKED = 1 stands. A write of `EV_COMPLETE[t]` completes a
source that is IN_SERVICE for t: with REARM 0 it becomes IDLE, with REARM 1 REARM is cleared and it becomes PENDING. An
event taken before the completion re-arms the source. A completion for any other source changes no source and is logged
in `ERR_LOG`. -/
def Obligations.ClaimAndComplete : Prop :=
  ∀ (r : Req) (t : Core) (s : State),
    let unclaimed := fun (n : Nat) => n < 512 ∧ (getSrc s.dev n).state = .delivered ∧ (getSrc s.dev n).reached = true ∧ (getSrc s.dev n).owner = t.val
    (Passes s r (evOff (0x84 + 0x10 * t.val)) 4 false →
      ((∀ n, ¬ unclaimed n) → Does (.evClaim r t) s (reply (.value 0)))
      ∧ (∀ n, unclaimed n → (∀ m, n < m → ¬ unclaimed m) →
          Does (.evClaim r t) s (fun d =>
            reply (.value (BitVec.ofNat 64 n)) (modSrc n (fun x => { x with state := .inService, reached := false }) d))
          ∧ (∀ (u : Req) (v : Word), v.toNat.testBit 4 = true → ∀ s1, exec (.evClaim r t) s = .next s1 → ∀ k : Fin 512, k.val = n →
              MgmtWrite s1 u (evOff (0x800 + 4 * k.val)) →
              ∃ s', exec (.evSrcWrite u k v) s1 = .next s' ∧ (getSrc s'.dev n).state = .inService)))
    ∧ (∀ (off : CtlOff) (a : BitVec 49), off.toNat = evOff (0x84 + 0x10 * t.val) → a.toNat = Config.ctlBase + off.toNat →
        Reaches s .debug off false ⟨5, 0, 0x5000⟩ (0x84 + 0x10 * t.val) →
        ((∀ n, ¬ unclaimed n) → Does (.quietRead a) s (reply (.value 0)))
        ∧ (∀ n, unclaimed n → (∀ m, n < m → ¬ unclaimed m) → Does (.quietRead a) s (reply (.value (BitVec.ofNat 64 n)))))
    ∧ (∀ v : Word, MgmtWrite s r (evOff (0x88 + 0x10 * t.val)) →
      let x := getSrc s.dev (v.toNat % 512)
      (x.state = .inService → x.owner = t.val →
        Does (.evComplete r t v) s (modSrc (v.toNat % 512) (fun y => { y with state := (if x.rearm then .pending else .idle), rearm := false }))
        ∧ (∀ n : Fin 512, n.val = v.toNat % 512 → sourceReserved n = false → ∃ s1, exec (.eventRaise n) s = .next s1
            ∧ (MgmtWrite s1 r (evOff (0x88 + 0x10 * t.val)) →
                ∃ s', exec (.evComplete r t v) s1 = .next s' ∧ (getSrc s'.dev n).state = .pending)))
      ∧ ((x.state ≠ .inService ∨ x.owner ≠ t.val) →
          Does (.evComplete r t v) s (logError (pageBase 5 0) cState (Sys2Proof.Machine.Req.code r) (evOff (0x88 + 0x10 * t.val)) true)))

/-! ## Deals (R31 to R37, R43, R406, R407) -/

/-- R36, R406: a LOAD of the management complex checks the deal at `DL_ADDR` for the partition, in the order of Table
TB-3, and ends with the code of the first check that fails and DEAL_DONE; a refused deal changes neither jobs nor tiles
nor memory, an accepted one is the partition's job, not yet started. R407: an UNLOAD with a deal loaded keeps the loader
busy until the next trick boundary; with none it ends at once. R36, Table TB-3: a deal is accepted exactly when no deal
is loaded and the image passes every check. -/
def Obligations.DealCommands : Prop :=
  (∀ (r : Req) (q : Eighth) (s : State), Powered s → MgmtWrite s r (dlOff 0x50) → s.dev.body.dlBusy = false →
      dlPart s.dev q = true →
      (∃ s', exec (.load r q) s = .next s' ∧ Rest s s' ∧ s'.dev.body.dlBusy = false ∧ s'.dev.body.dlEighth = q.val
        ∧ Raised s' 2 0 0 ∧ JobsBut [q.val] s s'
        ∧ s'.dev.body.dlCode = loadCode s.dev q (ctlPair s.dev (dlOff 0x40)) (ctlPair s.dev (dlOff 0x48))
        ∧ (s'.dev.body.dlCode ≠ 0 → s'.dev.mem = s.dev.mem ∧ s'.dev.body = { s.dev.body with
              replies := [], dlCode := s'.dev.body.dlCode, dlBusy := false, dlEighth := q.val, pages := s'.dev.body.pages
              ev := s'.dev.body.ev })
        ∧ (s'.dev.body.dlCode = 0 → Does (.load r q) s (fun d =>
            event 2 0 0 (modBody (fun b => { b with dlCode := 0, dlBusy := false })
              (install q (ctlPair s.dev (dlOff 0x40)) (ctlPair s.dev (dlOff 0x48)) (modBody (fun b => { b with dlEighth := q.val }) d)))))
        ∧ (s'.dev.body.dlCode = 0 → TilesBut (partTiles s.dev q) s s' ∧ ∃ l, imageOf s.dev q (ctlPair s.dev (dlOff 0x40)) = some l ∧
            getJob s'.dev q = { Job.z with loaded := true, startTrick := ctlPair s.dev (dlOff 0x48), deal := dealOf l }))
      ∧ ((getJob s.dev q).loaded = true → Does (.unload r q) s (fun d =>
          modJob q (fun j => { j with unloading := s.dev.time.trick + 1 })
            (modBody (fun b => { b with dlBusy := true }) (modBody (fun b => { b with dlEighth := q.val }) d))))
      ∧ ((getJob s.dev q).loaded = false → Does (.unload r q) s (fun d =>
          event 2 0 0 (modBody (fun b => { b with dlCode := 0, dlBusy := false }) (modBody (fun b => { b with dlEighth := q.val }) d)))))
  ∧ (∀ (d : Dev) (q addr start : Nat),
      loadCode d q addr start = 0 ↔ (getJob d q).loaded = false ∧ ∃ l, imageOf d q addr = some l ∧ dealFormat d q l = true
        ∧ poisoned d (gOff addr) l.length = false ∧ imageCheck l = leAt l 12 4 ∧ shapeOk d q l = true ∧ tilesIn d q l = true
        ∧ memoryOk d q (secBytes l 0) = true ∧ linkSlotsOk d q (secBytes l 1) (dealSuits (secBytes l 6)) = true
        ∧ streamsOk d q l = true ∧ kittyOk (partEighths d q).length (dealSuits (secBytes l 6)) = true
        ∧ suitsConsent d q (dealSuits (secBytes l 6)) = true
        ∧ (∀ c, c < hdPrologue l + hdPeriod l → energyOf (secBytes l 4) (hdPrologue l) (hdPeriod l) c ≤ 927 * (partEighths d q).length / 8)
        ∧ energyWindow (partEighths d q).length (secBytes l 4) (hdPrologue l) (hdPeriod l) = true
        ∧ d.time.trick + 2048 ≤ start)

/-- R37: at its start trick a loaded deal begins at cursor 0 and its tiles run. R43: a job whose halt is due is halted
with its cause and DEAL_STALL. R405, R407: an UNLOAD takes effect at a boundary: the job and its tiles' slots, classes and
play owners are gone but for slip, late count and late log, RUN is 0, and DEAL_DONE is raised. -/
def Obligations.DealBoundaries : Prop :=
  ∀ (q : Eighth) (s : State), Powered s → s.dev.time.phase = 0 →
    let j := getJob s.dev q
    (j.loaded = true → j.started = false → j.startTrick ≤ s.dev.time.trick → j.unloading = 0 →
      ∃ s', exec (.dealStart q) s = .next s' ∧ Rest s s' ∧ s'.dev.mem = s.dev.mem ∧ getJob s'.dev q = { j with started := true, cursor := 0 }
        ∧ JobsBut [q.val] s s' ∧ TilesBut (partTiles s.dev q) s s'
        ∧ s'.dev.body = { s.dev.body with replies := [], jobs := s'.dev.body.jobs, tiles := s'.dev.body.tiles }
        ∧ (∀ t, t ∈ partTiles s.dev q → getTile s'.dev t = { getTile s.dev t with me := { getMe s.dev t with run := true } }))
    ∧ (jobRuns s.dev q = true → j.why ≠ 0 → j.whyAt < s.dev.time.trick → j.unloading = 0 →
      ∃ s', exec (.jobHalt q) s = .next s' ∧ Rest s s' ∧ getJob s'.dev q = { j with halted := true, haltedWhy := j.why, why := 0 }
        ∧ JobsBut [q.val] s s' ∧ Raised s' 2 0 (8 + q.val)
        ∧ ((∀ a, a < 64 → getPos s.dev a = none) → s'.dev.mem = s.dev.mem ∧ s'.dev.body = { s.dev.body with
              replies := [], jobs := s'.dev.body.jobs, pages := s'.dev.body.pages, ev := s'.dev.body.ev }))
    ∧ (j.loaded = true → j.unloading ≠ 0 → j.unloading ≤ s.dev.time.trick →
      ∃ s', exec (.unloadEffect q) s = .next s' ∧ Rest s s' ∧ getJob s'.dev q = { Job.z with slip := j.slip, lateCnt := j.lateCnt, lateLog := j.lateLog } ∧ s'.dev.body.dlCode = 0
        ∧ s'.dev.body.dlBusy = false ∧ Raised s' 2 0 0 ∧ JobsBut [q.val] s s'
        ∧ (∀ t h, h < 64 → tilePart s.dev t ≠ some q.val → getHand s'.dev t h = getHand s.dev t h)
        ∧ ((∀ a, a < 64 → getPos s.dev a = none) → s'.dev.mem = s.dev.mem ∧ TilesBut (partTiles s.dev q) s s'
            ∧ s'.dev.body = { s.dev.body with
                replies := [], jobs := s'.dev.body.jobs, tiles := s'.dev.body.tiles, hands := s'.dev.body.hands
                ctl := s'.dev.body.ctl, pages := s'.dev.body.pages, ev := s'.dev.body.ev, suits := s'.dev.body.suits
                positions := s'.dev.body.positions, dlCode := 0, dlBusy := false })
        ∧ (∀ t, t ∈ partTiles s.dev q → (getTile s'.dev t).slots = [] ∧ (getMe s'.dev t).run = false
            ∧ (getSt s'.dev t).owners = [] ∧ (getSt s'.dev t).classes = []))

/-! ## The matrix engine, vector unit and special function paths (R44 to R111) -/

/-- R71, R96, R140: while RUN is 0 a write of a program bank is visible at once; while RUN is 1 the active bank refuses
with PROG_ACTIVE and the inactive one takes the write, to be visible later. A write is visible once the unit has reached
a shift boundary after it and a trick boundary has passed, whatever is written after it; a SHIFT that ends, also in a
fault, is such a boundary. -/
def Obligations.ProgramBanks : Prop :=
  ∀ s : State, Powered s →
    (∀ (r : Req) (off : CtlOff) (size : Nat) v k t b o, ctlAt off.toNat = .array (bankOf k t b o) →
      Goes s r → gate (fresh s.dev) r off.toNat size true = .array (bankOf k t b o) →
      (∀ x, bankPut k b o (leBytes size v.toNat) s.dev.time.trick (getTile s.dev t) = some x →
        ∃ s', exec (.programBankWrite r off size v) s = .next s' ∧ getTile s'.dev t = x ∧ StepFrame t s s')
      ∧ (bankPut k b o (leBytes size v.toNat) s.dev.time.trick (getTile s.dev t) = none → 
          Does (.programBankWrite r off size v) s (refuse r (bankPage k t) off.toNat cProgActive true)))
    ∧ (∀ (n words bank off : Nat) bs sh active trick (p : Prog n),
        progPut words bank off bs false sh active trick p
            = some { p with words := wordsPut (words * bank) off bs p.words, seen := wordsPut (words * bank) off bs p.seen }
        ∧ progPut words active off bs true sh active trick p = none
        ∧ (bank ≠ active → ∃ p', progPut words bank off bs true sh active trick p = some p' ∧ p'.seen = p.seen
            ∧ p'.words = wordsPut (words * bank) off bs p.words
            ∧ p'.waits = p.waits ++ [⟨n / 8 * (words * bank) + off, bs, sh, trick⟩]))
    ∧ (∀ t : Sys2Proof.Tile, ∃ s₁ s₂ s₃, exec (.programWriteVisible t .me) s = .next s₁ ∧ exec (.programWriteVisible t .sf) s = .next s₂
        ∧ exec (.programWriteVisible t .stock) s = .next s₃ ∧ StepFrame t s s₁ ∧ StepFrame t s s₂ ∧ StepFrame t s s₃
        ∧ getMe s₁.dev t = { getMe s.dev t with prog := (getMe s₁.dev t).prog }
        ∧ Shows s.dev.time.trick (getMe s.dev t).prog (getMe s₁.dev t).prog
        ∧ getSf s₂.dev t = { getSf s.dev t with prog := (getSf s₂.dev t).prog }
        ∧ Shows s.dev.time.trick (getSf s.dev t).prog (getSf s₂.dev t).prog
        ∧ getSt s₃.dev t = { getSt s.dev t with prog := (getSt s₃.dev t).prog }
        ∧ Shows s.dev.time.trick (getSt s.dev t).prog (getSt s₃.dev t).prog)
    ∧ (∀ (t : Nat) (d : Dev) (f : ProgWrite), f ∈ (getMe (atShiftBoundary t d) t).prog.waits → f.shift = false)

/-- R54, R57, R58, R68 to R70: the steps of the matrix engine path but COMPUTE. A SHIFT makes the shadow plane invalid
and starts copying from the front bank; with its 128th row copied the shadow plane is valid. A SWAP exchanges the banks
and clears the new back bank's fill count. A PSWAP goes on at step 0 of a bank. A WAITFLAG whose flag passes and a NOP
only move the path on. Each leaves every other tile, all memory and everything outside the tile alone. -/
def Obligations.MatrixSteps : Prop :=
  ∀ (t : Sys2Proof.Tile) (s : State) (f : Found),
    let m := getMe s.dev t
    (∀ p, MeDue s t 1 f → pairOf (swWfmt f.word) (swAfmt f.word) = some p → swSrc f.word % 64 = 0 →
      0x80000 * m.front ≤ swSrc f.word → swSrc f.word + pairSet p ≤ 0x80000 * m.front + 0x80000 →
      ∃ s' r, exec (.shift t) s = .next s' 
        ∧ getTile s'.dev t = { getTile s.dev t with me := { pastStep f 0 m with shadow := none, shift := some r }
                                                    ce := (getTile s'.dev t).ce }
        ∧ r.at_ = f.ref ∧ r.wfmt = swWfmt f.word ∧ r.pair = p ∧ r.src = swSrc f.word ∧ r.start = now s.dev ∧ r.got ≤ 1
        ∧ StepFrame t s s')
    ∧ (∀ x, Powered s → m.shift = some x →
        let r := copyRows (fresh s.dev) t (now s.dev) x
        gatedCycle s.dev = false → r.bad = false → r.start + 127 ≤ now s.dev →
        ∃ s', exec (.shiftDone t) s = .next s' ∧ StepFrame t s s'
          ∧ getTile s'.dev t = { getTile s.dev t with sf := { getSf s.dev t with prog := (getSf s'.dev t).prog }, me := { m with
              shift := none, shadow := some ⟨r.wfmt, pairN r.pair, r.weights ++ r.scales⟩, steps := (m.steps + 1) % 2 ^ 64
              shiftFree := r.start + 128, prog := (getMe s'.dev t).prog } }
          ∧ (∀ w, w ∈ (getMe s'.dev t).prog.waits → w.shift = false))
    ∧ (MeDue s t 3 f → ∃ s', exec (.swap t) s = .next s' ∧ StepFrame t s s'
        ∧ getTile s'.dev t = { getTile s.dev t with me := { pastStep f 1 m with
            front := 1 - m.front, fillA := (if m.front = 0 then 0 else m.fillA), fillB := if m.front = 0 then m.fillB else 0 } })
    ∧ (MeDue s t 4 f → swFills f.word ≤ 1 → ∃ s', exec (.mePswap t) s = .next s' ∧ StepFrame t s s'
        ∧ getTile s'.dev t = { getTile s.dev t with me := { pastStep f 1 m with
            aprog := (if swFills f.word = 1 then f.ref.bank else 1 - f.ref.bank), pc := 0, swaps := m.swaps + f.swaps + 1 } })
    ∧ (MeDue s t 5 f → FlagReadable s.dev t (swAux1 f.word) → ∃ s', exec (.waitflag t) s = .next s' ∧ StepFrame t s s'
        ∧ getTile s'.dev t = { getTile s.dev t with me := pastStep f 1 m, ce := (getTile s'.dev t).ce })
    ∧ (MeDue s t 0 f → ∃ s', exec (.meNop t) s = .next s' ∧ StepFrame t s s' ∧ getTile s'.dev t = { getTile s.dev t with me := pastStep f 1 m })

/-- R55, R58, R69, R73, R97, R111: a step that cannot be read stops its path at that step: FAULTED, the code and place
in `ME_FAULT` or `SF_FAULT`, the event, and the job's halt with cause 4. The engine's forced reset (R72) discards the
planes and what runs, and halts a running job with cause 6. R164: a descriptor that names an unnamed slot or breaks a
rule faults with BAD_DESC, one that is misaligned with MISALIGNED: the stock's path stops, `ST_FAULT` holds the code and
place, the event is raised and the job halts. -/
def Obligations.StepAndStockFaults : Prop :=
  (∀ (t : Sys2Proof.Tile) (s : State) (f : Found) (q c : Nat), Powered s →
      (gatedCycle s.dev = false → meNext s.dev t true = some (q, c, f) → meBad f.word = true →
        ∀ i, i ∈ [Instr.shift t, .compute t, .swap t, .mePswap t, .waitflag t] → ∃ s', exec i s = .next s'
          ∧ getTile s'.dev t = { getTile s.dev t with me := { getMe s.dev t with faulted := true } } ∧ FaultFrame t s s'
          ∧ CtlBut [regOff 16 t 0x48] s s' ∧ ctlNat s'.dev (regOff 16 t 0x48) = 1 + 256 * (f.ref.idx % 1024) + 2 ^ 18 * (f.ref.bank % 2)
          ∧ Raised s' 16 t 0 ∧ JobFaults t s s')
      ∧ (gatedCycle s.dev = false → sfFree s.dev t = true → sfNext s.dev t false = some (q, c, f) → sfBad f.word = true →
        ∀ i, i ∈ [Instr.sfNop t, .tab t, .mprg t, .smax1 t, .smax2 t, .smax3 t, .nstat t, .sfWaitflag t, .sfPswap t] →
          ∃ s', exec i s = .next s' ∧ getTile s'.dev t = { getTile s.dev t with sf := { getSf s.dev t with faulted := true } }
          ∧ FaultFrame t s s' ∧ CtlBut [regOff 17 t 0x44] s s' ∧ ctlNat s'.dev (regOff 17 t 0x44) = 1 + 256 * (f.ref.idx % 512) + 2 ^ 17 * (f.ref.bank % 2)
          ∧ Raised s' 17 t 0 ∧ JobFaults t s s')
      ∧ (∀ r, MgmtWrite s r (regOff 16 t 0x40) → ∃ s', exec (.forceRst r t) s = .next s' ∧ FaultFrame t s s'
          ∧ CtlBut [regOff 19 t 0x40] s s' ∧ ctlNat s'.dev (regOff 19 t 0x40) = 0
          ∧ (let m := getMe s'.dev t
            m.run = false ∧ m.faulted = false ∧ m.pc = 0 ∧ m.front = 0 ∧ m.fillA = 0 ∧ m.fillB = 0 ∧ m.active = none
            ∧ m.shadow = none ∧ m.shift = none ∧ m.computes = [] ∧ m.acc = [] ∧ m.vec = (getMe s.dev t).vec
            ∧ m.prog.words = (getMe s.dev t).prog.words ∧ m.prog.pend = false)
          ∧ (∀ q, tilePart s.dev t = some q → jobRuns s.dev q = true →
              (getJob s'.dev q).why = (if (getJob s.dev q).why = 0 then 6 else min (getJob s.dev q).why 6))))
  ∧ (∀ (t : Sys2Proof.Tile) (s : State) (f : Found) (q c kind : Nat) (i : Instr), Powered s →
      entriesFull s.dev t = false → stNext s.dev t true = some (q, c, f) → dsKind f.word = kind →
      (kind, i) ∈ [(1, Instr.copy t), (2, .edge t), (3, .gather t), (4, .flag t), (5, .refill t), (6, .stockPswap t), (7, .waitf t)] →
      let a := descArgs s.dev t f.word
      let faults := fun code => ∃ s', exec i s = .next s' ∧ (getSt s'.dev t).faulted = true ∧ Raised s' 20 t 0 ∧ JobFaults t s s'
        ∧ ctlNat s'.dev (regOff 20 t 0x44) = code + 256 * (f.ref.idx % 512) + 2 ^ 17 * (f.ref.bank % 2)
        ∧ ctlPair s'.dev (regOff 20 t 0x50) = 0 ∧ FaultFrame t s s' ∧ CtlBut [regOff 20 t 0x44, regOff 20 t 0x50, regOff 20 t 0x54] s s'
      (descUnnamed s.dev t f.word = true → faults 1)
      ∧ (descUnnamed s.dev t f.word = false → descSlotWaits s.dev t f.word = false → descBad s.dev t f.word a = true → faults 1)
      ∧ (descUnnamed s.dev t f.word = false → descSlotWaits s.dev t f.word = false → descBad s.dev t f.word a = false →
          descMisaligned f.word a = true → faults 2))

/-- R51 to R53, R55, R69, R179: a COMPUTE that no check refuses starts: its run holds the step, its rows and the start
cycle; FLIP makes the shadow plane active and invalidates it; a step whose every element is masked is skipped. A PSLOT
value of 0 completes it at once. When its last byte is written it leaves, its rows of the accumulator and of SRAM
written. -/
def Obligations.Compute : Prop :=
  ∀ (t : Sys2Proof.Tile) (s : State),
    let m := getMe s.dev t
    (∀ f p pl, MeDue s t 2 f → ComputeFits s.dev t f.word p pl →
      ∃ s' r, exec (.compute t) s = .next s' ∧ Rest s s' ∧ s'.dev.mem = s.dev.mem ∧ TilesBut [t.val] s s'
        ∧ s'.dev.body = { s.dev.body with replies := [], tiles := s'.dev.body.tiles, ctl := s'.dev.body.ctl }
        ∧ CtlBut [regOff 19 t 0x40, regOff 19 t 0x44] s s'
        ∧ getMe s'.dev t = { pastStep f 0 m with
            computes := m.computes ++ [r]
            active := (if swFlip f.word then m.shadow else m.active)
            shadow := if swFlip f.word then none else m.shadow }
        ∧ r.at_ = f.ref ∧ r.start = now s.dev ∧ r.env.word = f.word ∧ r.env.pair = p ∧ r.env.plane = pl
        ∧ r.env.rows = stepRows s.dev t (swPslot f.word) (swRows f.word)
        ∧ r.skip = isSkipped s.dev t (atProf s.dev t (swProfile f.word)) r.env.mask r.env.rows
        ∧ (r.skip = true → r.got = 0 ∧ ctlNat s'.dev (regOff 19 t 0x44) = min (ctlNat s.dev (regOff 19 t 0x44) + 1) 0xFFFFFFFF))
    ∧ (∀ f, MeDue s t 2 f → SlotsNamed s.dev t f.word → swPslot f.word ≠ 0 →
        stepRows s.dev t (swPslot f.word) (swRows f.word) = 0 →
        ∃ s', exec (.compute t) s = .next s' ∧ StepFrame t s s' ∧ getTile s'.dev t = { getTile s.dev t with
            me := pastStep f 1 m, slots := (getTile s'.dev t).slots })
    ∧ (∀ x rest, Powered s → m.computes = x :: rest →
        let r := rowsUpTo (fresh s.dev) t (now s.dev) x
        gatedCycle s.dev = false → endCycle r ≤ now s.dev → r.fault = none →
        Does (.computeDone t) s (fun d => meCount t (endRun t r (modMe t (fun m =>
          { m with computes := rest, arrayFree := max m.arrayFree (freeCycle r) }) d))))
    ∧ (∀ (o : RowOut) (a : Tbl AccCell) j, j < o.sums.length →
        tget AccCell.z (accPut o a) ((if o.wide then 256 else 128) * o.row + j) = ⟨o.wide, BitVec.ofNat 32 (getAt 0 o.sums j)⟩)
    ∧ (∀ pl p j acts, colSum pl p j acts ≠ 0x80000000)

/-- R69, R74: a due vector step of each operation that no check refuses starts: the vector unit holds it, the path goes
past it, and the planes, the accumulator and memory are as before; a PSLOT value of 0 lets it complete at once. When its
last result is written its rows are in SRAM and the unit is free. VADD, VMUL and VFMA combine the lanes of FP32 rows. -/
def Obligations.VectorSteps : Prop :=
  ∀ (t : Sys2Proof.Tile) (s : State),
    let m := getMe s.dev t
    let pastVec := fun (r : Option StepRun) (f : Found) (s s' : State) =>
      let n := getMe s'.dev t
      getTile s'.dev t = { getTile s.dev t with
        slots := (getTile s'.dev t).slots, ce := (getTile s'.dev t).ce
        me := { m with vec := r, vbank := f.ref.bank, vpc := f.ref.idx + 1, vbase := f.ref.deal, vswaps := m.vswaps + f.swaps
                       aprog := n.aprog, pc := n.pc, base := n.base, swaps := n.swaps, steps := n.steps } }
    (∀ f op i, (op, i) ∈ [(8, Instr.vadd t), (9, .vmul t), (10, .vfma t), (11, .vmax t), (12, .vmin t), (13, .vsel t),
        (14, .vcvt t), (15, .vred t)] → VecDue s t op f →
      let rows := stepRows s.dev t (swPslot f.word) (swRows f.word)
      (1 ≤ rows → rows ≤ 1024 → inSram (vecExtents f.word rows) = true →
        ∃ s' r, exec i s = .next s' ∧ StepFrame t s s' ∧ r.at_ = f.ref ∧ r.start = now s.dev
          ∧ r.env.word = f.word ∧ r.env.rows = rows ∧ r.skip = false ∧ pastVec (some r) f s s')
      ∧ (swPslot f.word ≠ 0 → rows = 0 → ∃ s', exec i s = .next s' ∧ StepFrame t s s' ∧ pastVec none f s s'))
    ∧ (∀ x, Powered s → m.vec = some x →
        let r := rowsUpTo (fresh s.dev) t (now s.dev) x
        gatedCycle s.dev = false → endCycle r ≤ now s.dev → r.fault = none →
        Does (.vectorStepDone t) s (fun d => endRun t r (modMe t (fun m => { m with vec := none, vecFree := endCycle r + 1 }) d)))
    ∧ (∀ (w : Nat) (rd : Nat → Rounding) (a b c : List Byte) (j : Nat), swWfmt w = 0 → swOfmt w = 0 → j < 64 →
        rd j = .nearest → a.length = 256 → b.length = 256 → c.length = 256 →
        let y := leAt (vecRow w rd a b c) (4 * j) 4
        (swOp w = 8 → y = f32add (leAt a (4 * j) 4) (leAt b (4 * j) 4))
        ∧ (swOp w = 9 → y = f32mul (leAt a (4 * j) 4) (leAt b (4 * j) 4))
        ∧ (swOp w = 10 → y = f32fma (leAt a (4 * j) 4) (leAt b (4 * j) 4) (leAt c (4 * j) 4)))

/-- R96, R98, R100, R104, R107 to R110, Table SF-2: a due step of each operation that no check refuses starts: the path
goes past it and is busy for the cycles of Table SF-2, and it ends in the last of them; then its rows and records are in
SRAM. A NOP takes one cycle, a WAITFLAG whose flag passes lets the path go on, a PSWAP goes on at step 0 of a bank. -/
def Obligations.SpecialFunctionSteps : Prop :=
  ∀ (t : Sys2Proof.Tile) (s : State) (f : Found),
    let m := getSf s.dev t
    let w := f.word
    let rows := stepRows s.dev t (sfPslot w) (swRows w)
    let g := (sfNelem w + 63) / 64
    (∀ op i n, (op, i, n) ∈ [(1, Instr.tab t, rows * g + 8),
        (2, .mprg t, rows * g * 8 * ((mpList m.data (sfMprog w) 32 0).getD []).length + 8),
        (3, .smax1 t, rows * (g + sfNseed w) + 8), (4, .smax2 t, rows * (g + sfNseed w) + 8),
        (5, .smax3 t, rows * (max g 4 + sfNseed w) + 32), (6, .nstat t, rows * g + 8)] →
      SfDue s t op f → SfFits s.dev t w →
      ∃ s' r, exec i s = .next s' ∧ StepFrame t s s' ∧ r.at_ = f.ref ∧ r.endAt = now s.dev + n - 1
        ∧ getTile s'.dev t = { getTile s.dev t with
            sf := { pastSf s f n m with running := some r }, slots := (getTile s'.dev t).slots, ce := (getTile s'.dev t).ce })
    ∧ (∀ op i, (op, i) ∈ [(1, Instr.tab t), (2, .mprg t), (3, .smax1 t), (4, .smax2 t), (5, .smax3 t), (6, .nstat t)] →
        SfDue s t op f → slotUnnamed s.dev t (sfPslot w) = false → sfPslot w ≠ 0 → rows = 0 →
        ∃ s', exec i s = .next s' ∧ StepFrame t s s' ∧ getTile s'.dev t = { getTile s.dev t with
            sf := { pastSf s f 0 m with freeAt := m.freeAt }, slots := (getTile s'.dev t).slots })
    ∧ (∀ r, Powered s → gatedCycle s.dev = false → m.running = some r → r.endAt ≤ now s.dev → r.fault = none →
        Does (.sfStepDone t) s (fun d => sramWrites t r.writes (modSf t (fun m =>
          { m with running := none, zrow := m.zrow || r.zrow }) d)))
    ∧ (SfDue s t 0 f → ∃ s', exec (.sfNop t) s = .next s' ∧ StepFrame t s s'
        ∧ getTile s'.dev t = { getTile s.dev t with sf := pastSf s f 1 m })
    ∧ (SfDue s t 7 f → FlagReadable s.dev t (swAux1 w) → ∃ s', exec (.sfWaitflag t) s = .next s' ∧ StepFrame t s s'
        ∧ getTile s'.dev t = { getTile s.dev t with sf := { pastSf s f 1 m with freeAt := m.freeAt }, ce := (getTile s'.dev t).ce })
    ∧ (SfDue s t 8 f → sfValue w ≤ 1 → ∃ s', exec (.sfPswap t) s = .next s' ∧ StepFrame t s s'
        ∧ getTile s'.dev t = { getTile s.dev t with sf := { pastSf s f 1 m with
            aprog := if sfValue w = 1 then f.ref.bank else 1 - f.ref.bank, pc := 0 } })

/-! ## The stock (R140 to R168) -/

/-- R141, R144, R146 to R148, R154, R157, R158: a due NOP, COPY, EDGE, GATHER or REFILL that no check refuses takes a
transfer entry with its operands after its slots and its doorbell, and the path goes past it; a cancelled one and a NOP
move no row. PSWAP goes on at step 0 of the same bank, or of the other one when every write there is visible, and waits
until then; one that its slot or doorbell leaves empty only completes. -/
def Obligations.StockDescriptors : Prop :=
  ∀ (t : Sys2Proof.Tile) (s : State) (f : Found),
    let x := getSt s.dev t
    let a := descArgs s.dev t f.word
    (∀ kind i, (kind, i) ∈ [(0, Instr.stockNop t), (1, .copy t), (2, .edge t), (3, .gather t), (5, .refill t)] → StDue s t kind f →
      ∃ y, Starts i t f (fun z => { z with nextId := z.nextId + 1, xfers := z.xfers ++ [y] }) s ∧ entryOf x f a y
        ∧ y.wfill = (dsWfill f.word && kind != 0) ∧ y.rows = (if a.empty ∨ kind = 0 then 0 else if kind = 5 then 1 else a.rows))
    ∧ (StDue s t 6 f → a.empty = false → (dsTarget f.word = 1 ∨ x.prog.pend = false) →
        Starts (.stockPswap t) t f (fun z => { z with aprog := if dsTarget f.word = 1 then f.ref.bank else 1 - f.ref.bank, pc := 0 }) s)
    ∧ (StDue s t 6 f → a.empty = false → dsTarget f.word ≠ 1 → x.prog.pend = true → NoEffect (.stockPswap t) s)
    ∧ (StDue s t 6 f → a.empty = true → Starts (.stockPswap t) t f id s)

/-- R144, R147, R148, R155, R159 to R161: a FLAG without an address only goes on; one with an address makes one write
request of 8 bytes, TAG and the deal trick plus LEAD. The request is held while an earlier write of the stock touches
its block or no entry is free; else its write is under way, or its address is refused and the stock faults. A WAITF, and
a FLAG_PASS for it, whose flag is in this device and has its tag and an index not below the cursor lets the path go on;
one whose flag has not passed waits; one that its slot or doorbell leaves empty completes at once. -/
def Obligations.StockFlags : Prop :=
  ∀ (t : Sys2Proof.Tile) (s : State) (f : Found),
    let w := f.word
    let x := getSt s.dev t
    let word := dsFtag w % 2 ^ 16 + 2 ^ 16 * ((f.ref.deal + dsLead w) % 2 ^ 48)
    let r := flagReq x.nextId flagXfer (dsClass w) f.ref (dsFaddr w) word
    let waits := blocksClash s.dev t x.nextId (dsFaddr w) 8 = true ∨ 224 ≤ reqsUsed x
    let q := (tilePart s.dev t).getD 0
    let chk := checkGlobal s.dev q (dsFaddr w) 8 permW
    (StDue s t 4 f → dsFaddr w = 0 → Starts (.flag t) t f id s)
    ∧ (StDue s t 4 f → dsFaddr w ≠ 0 → waits → Starts (.flag t) t f (fun z => { z with nextId := z.nextId + 1, reqs := z.reqs ++ [r] }) s)
    ∧ (StDue s t 4 f → dsFaddr w ≠ 0 → ¬ waits → chk = (true, .ok) →
        Does (.flag t) s (fun d => issueLocal false (gOff (dsFaddr w)) (.write (leBytes 8 word) []) (.stockWrite t x.nextId) 0
          (addReq t { r with stage := .writing, out := partsOf s.dev (gOff (dsFaddr w)) (.write (leBytes 8 word) []) }
            (stAdvance t f (takeArgs t w d)))))
    ∧ (StDue s t 4 f → dsFaddr w ≠ 0 → ¬ waits → chk.2 ≠ .ok →
        Does (.flag t) s (fun d => stFault t f.ref (stockCode chk.2.code) (dsFaddr w) (stAdvance t f (takeArgs t w d))))
    ∧ (∀ q c i, i ∈ [Instr.waitf t, .flagPass t .stock] → StDue s t 7 f → stNext s.dev t true = some (q, c, f) →
        (descArgs s.dev t w).empty = false →
        gDev (dsFaddr w) = myDev s.dev → tierOf (dsFaddr w) ≠ 3 → (checkGlobal s.dev q (dsFaddr w) 8 permR).2 = .ok →
        let v := readNat s.dev (gOff (dsFaddr w)) 8
        ((v % 2 ^ 16 = dsFtag w % 2 ^ 16 ∧ c % 2 ^ 48 ≤ v / 2 ^ 16 % 2 ^ 48) →
          Does i s (fun d => stAdvance t f (takeArgs t w (noteRead (gOff (dsFaddr w)) 8 d))))
        ∧ (¬ (v % 2 ^ 16 = dsFtag w % 2 ^ 16 ∧ c % 2 ^ 48 ≤ v / 2 ^ 16 % 2 ^ 48) → NoEffect i s))
    ∧ (∀ i, i ∈ [Instr.waitf t, .flagPass t .stock] → StDue s t 7 f → (descArgs s.dev t w).empty = true → Starts i t f id s)
    ∧ (∀ g, MeDue s t 5 g → FlagReadable s.dev t (swAux1 g.word) → ∃ s', exec (.flagPass t .me) s = .next s'
        ∧ StepFrame t s s' ∧ getTile s'.dev t = { getTile s.dev t with me := pastStep g 1 (getMe s.dev t), ce := (getTile s'.dev t).ce })
    ∧ (∀ g, SfDue s t 7 g → FlagReadable s.dev t (swAux1 g.word) → ∃ s', exec (.flagPass t .sf) s = .next s'
        ∧ StepFrame t s s' ∧ getTile s'.dev t
          = { getTile s.dev t with sf := { pastSf s g 1 (getSf s.dev t) with freeAt := (getSf s.dev t).freeAt }, ce := (getTile s'.dev t).ce })

/-- R146, R150, R151, R153, R157, R159, R162: in each play the class that owns it issues the next request of its oldest
transfer when two cycles have passed since the last one, the class's bucket holds its tokens, and nothing holds the
class. A request that would write into a block that an earlier write of the stock is writing holds its class, and a
transfer whose source a running special function step writes is held. A request covers at most 256 bytes and a copied
one never crosses a 256-byte boundary of its source. At a play boundary every bucket gains its rate, up to its depth. -/
def Obligations.StockRequests : Prop :=
  ∀ (t : Sys2Proof.Tile) (s : State), Powered s →
    let x := getSt s.dev t
    (∀ (play : Play) c y, s.dev.time.phase / 48 = play.val → tget ownerZ x.owners play = c → c < 8 →
      c ∉ x.wheld → (∀ r, r ∈ x.reqs → ¬ (r.stage = .held ∧ r.cls = c)) →
      (∀ l, x.lastReq = some l → l + 2 ≤ now s.dev) → classHead x c = some y → y.held = false →
      (sfOverlap s.dev t y = true → Does (.stockRequestIssue t play) s (putXfer t { y with held := true }))
      ∧ (∀ n, sfOverlap s.dev t y = false → nextReq y = some n →
        let clash := blocksClash s.dev t x.nextId (n.dst % 2 ^ 64) n.len
        (n.list = none → clash = true →
          Does (.stockRequestIssue t play) s (modSt t (fun z => { z with wheld := setAdd z.wheld c })))
        ∧ ((n.list.isSome = true ∨ clash = false) → (n.len + 63) / 64 ≤ (tget StClass.z x.classes c).tokens → reqsUsed x < 224 →
          Does (.stockRequestIssue t play) s
            (issueReq t ((tilePart s.dev t).getD 0) c ((tget StClass.z x.classes c).trump || (y.kind == 3 && n.list.isSome)) y n))))
    ∧ (∀ (d : Dev) (c n : Nat), (getSt (spend t c n d) t).lastReq = some (now d)
        ∧ (tget StClass.z (getSt (spend t c n d) t).classes c).tokens
            = (tget StClass.z (getSt d t).classes c).tokens - (n + 63) / 64)
    ∧ (∀ (y : Transfer) n, y.pos < y.rowbytes → nextReq y = some n → n.len ≤ 256
        ∧ (∀ a k, n.piece = .copy a k → k = n.len ∧ a % 256 + k ≤ 256)
        ∧ (∀ b k, n.piece = .fill b k → k = n.len ∧ n.dst % 256 + k ≤ 256))
    ∧ (s.dev.time.phase % 48 = 0 → x.refilled ≠ some (now s.dev) → ∃ s', exec (.tokenRefill t) s = .next s'
        ∧ StepFrame t s s' ∧ getTile s'.dev t = { getTile s.dev t with st := { x with
            refilled := some (now s.dev), classes := (getSt s'.dev t).classes } }
        ∧ ∀ c, c < 8 →
            let y := tget StClass.z x.classes c
            tget StClass.z (getSt s'.dev t).classes c = { y with tokens := min y.depth (y.tokens + y.rate) })

/-- R57, R145, R154, R155, R159, R161, R162: a write request that has completed frees its entry, and one that has its
data sends it. A transfer all of whose requests have completed writes its flag as one more request; without a flag, or
when that has completed too, it frees its entry and counts its fill, saturating at 0xFFFF. A class that a held write
held goes on when the earlier writes to its blocks have completed, and the transfers that a special function step held
start when it has ended. -/
def Obligations.StockCompletion : Prop :=
  ∀ (t : Sys2Proof.Tile) (s : State), Powered s →
    let x := getSt s.dev t
    (∀ id r, reqOf s.dev t id = some r → r.xfer ≠ waitfXfer →
      (r.stage = .done → ∃ s', exec (.stockRequestComplete t id) s = .next s' ∧ StepFrame t s s'
        ∧ getTile s'.dev t = { getTile s.dev t with st := { x with reqs := x.reqs.filter (fun z => z.id != id) } })
      ∧ (r.stage = .gotData → r.list = none → r.poison = [] →
        Does (.stockRequestComplete t id) s (fun d => settle t id (sendData t ((tilePart d t).getD 0) r d))))
    ∧ (∀ id y, x.xfers.find? (fun z => z.id == id) = some y → allIssued y = true → x.reqs.any (fun r => r.xfer == id) = false →
      ((y.faddr = 0 ∨ y.flagged = true) → ∃ s', exec (.transferComplete t id) s = .next s' ∧ StepFrame t s s'
          ∧ getTile s'.dev t = { getTile s.dev t with me := getMe s'.dev t, st := { x with xfers := x.xfers.filter (fun z => z.id != id) } }
          ∧ getMe s'.dev t = { getMe s.dev t with fillA := (getMe s'.dev t).fillA, fillB := (getMe s'.dev t).fillB }
          ∧ (∀ b, y.wfill = true → fillBank s.dev t y.dst = some b →
              (if b = 0 then (getMe s'.dev t).fillA = min 0xFFFF ((getMe s.dev t).fillA + 1) ∧ (getMe s'.dev t).fillB = (getMe s.dev t).fillB
               else (getMe s'.dev t).fillB = min 0xFFFF ((getMe s.dev t).fillB + 1) ∧ (getMe s'.dev t).fillA = (getMe s.dev t).fillA))
          ∧ ((y.wfill = false ∨ fillBank s.dev t y.dst = none) → getMe s'.dev t = getMe s.dev t))
      ∧ (y.faddr ≠ 0 → y.flagged = false →
          let word := y.ftag % 2 ^ 16 + 2 ^ 16 * ((y.at_.deal + y.lead) % 2 ^ 48)
          let r := flagReq x.nextId id y.cls y.at_ y.faddr word
          let marked := x.xfers.map (fun z => if z.id = id then { y with flagged := true } else z)
          let waits := blocksClash s.dev t x.nextId y.faddr 8 = true ∨ 224 ≤ reqsUsed x
          (waits → ∃ s', exec (.transferComplete t id) s = .next s' ∧ StepFrame t s s'
            ∧ getTile s'.dev t = { getTile s.dev t with st := { x with xfers := marked, nextId := x.nextId + 1, reqs := x.reqs ++ [r] } })
          ∧ (¬ waits → checkGlobal s.dev ((tilePart s.dev t).getD 0) y.faddr 8 permW = (true, .ok) →
            Does (.transferComplete t id) s (fun d => issueLocal false (gOff y.faddr) (.write (leBytes 8 word) []) (.stockWrite t x.nextId) 0
              (addReq t { r with stage := .writing, out := partsOf s.dev (gOff y.faddr) (.write (leBytes 8 word) []) }
                (modSt t (fun z => { z with xfers := marked }) d))))))
    ∧ ((∀ r, r ∈ x.reqs → r.stage ≠ .held) → ∃ s', exec (.writeHoldRelease t) s = .next s' ∧ StepFrame t s s'
        ∧ getTile s'.dev t = { getTile s.dev t with st := { x with wheld := (getSt s'.dev t).wheld } }
        ∧ ∀ c, c ∈ (getSt s'.dev t).wheld ↔ c ∈ x.wheld ∧ ∃ n, (classHead x c).bind nextReq = some n ∧ n.list = none
            ∧ blocksClash s.dev t x.nextId (n.dst % 2 ^ 64) n.len = true)
    ∧ (∀ id r, x.reqs.filter (fun z => z.stage == .held) = [r] → r.id = id → reqOf s.dev t id = some r →
        blocksClash s.dev t id r.dst 8 = false → reqsUsed x < 224 → x.wheld = [] →
        Does (.writeHoldRelease t) s (fun d => modSt t (fun y => { y with wheld := [] })
          (settle t id (sendData t ((tilePart d t).getD 0) r d))))
    ∧ ((getSf s.dev t).running = none → ∃ s', exec (.sfRotationRelease t) s = .next s' ∧ StepFrame t s s'
        ∧ getTile s'.dev t = { getTile s.dev t with st := { x with xfers := x.xfers.map (fun y => { y with held := false }) } })

/-! ## Memory tiers (R169 to R211) -/

/-- R173, R208, R316, R320, R398: a tail write that passes the checks sets the tail when it lies at most 256 commands
ahead of the head; one that lies further ahead is refused with VALUE, and the host's of a writer's tail with REQUESTER.
R169, R173, R175, R208, R209: a command that has ended frees its queue: STATUS is written into its slot, the head advances,
the flag is written, and a status other than OK counts in the queue's failures. At the end of a SWAP_OUT the page becomes
HOST with one reference, FREE with none, and RESIDENT again with more; a page that another requester has moved stays. -/
def Obligations.RingQueues : Prop :=
  (∀ (r : Req) (h : Half) (q : Queue) (e : Eighth) (v : Word) (s : State) i (x : RingRegs), Powered s →
      (i, x) ∈ [(Instr.mvTailWrite r h q v, mvRing h q), (.flTailWrite r h q v, flRing h q), (.hlWtailWrite r e v, wrRing e)] →
      Passes s r x.tail 4 true →
      (r ≠ .host → (v.toNat + 2 ^ 32 - ctlNat s.dev x.head) % 2 ^ 32 ≤ 256 → Does i s (ctlSetN x.tail v.toNat))
      ∧ (r ≠ .host → 256 < (v.toNat + 2 ^ 32 - ctlNat s.dev x.head) % 2 ^ 32 → Does i s (refuse r x.page x.tail cValue true))
      ∧ (r = .host → i = .hlWtailWrite r e v → Does i s (refuse r x.page x.tail cRequester true)))
  ∧ (∀ (h : Half) (q : Queue) (s : State), Powered s →
      (∀ x, getMover s.dev h q = some x → x.status ≠ 0 → mvWaits s.dev h q x = false → unitWaits s.dev (gOff x.slot) 32 = false →
        let p := (queuePart s.dev h q).getD 0
        Does (.moverCommandComplete h q) s (fun d =>
          let r := moverLast h q p x d
          dropFlight (.mover h q) (setMover h q none (ringEnd (mvRing h q) 1 p x.slot r.1 x.faddr 14 h q r.2))))
      ∧ (∀ x, getFlash s.dev h q = some x → x.status ≠ 0 → unitWaits s.dev (gOff x.slot) 32 = false →
        Does (.flashCommandComplete h q) s (fun d =>
          setFlash h q none (ringEnd (flRing h q) 0 ((queuePart s.dev h q).getD 0) x.slot x.status x.faddr 13 h q d)))
      ∧ (getMover s.dev h q = none → NoEffect (.moverCommandComplete h q) s)
      ∧ (getFlash s.dev h q = none → NoEffect (.flashCommandComplete h q) s)
      ∧ (∀ (d : Dev) (r : RingRegs) (e : Eighth) (u p slot status kind inst bit : Nat), r ∈ [mvRing h q, flRing h q, wrRing e] →
          let x := ringEnd r u p slot status 0 kind inst bit d
          ctlNat x r.head = (ctlNat d r.head + 1) % 2 ^ 32
          ∧ (status = 1 → ctlNat x r.fails = ctlNat d r.fails)
          ∧ (status ≠ 1 → ctlNat x r.fails = min (ctlNat d r.fails + 1) 0xFFFFFFFF))
      ∧ (∀ x, x.begun = false → ∀ p, moverLast h q p x s.dev = (x.status, s.dev))
      ∧ (∀ x, x.status = 1 → pdState (pdtGet s.dev h q x.page) = 2 →
          (pdRef (pdtGet s.dev h q x.page) = 1 → swapOutEnd h q x s.dev = (1, setPageState h q x.page 3 s.dev))
          ∧ (pdRef (pdtGet s.dev h q x.page) = 0 → swapOutEnd h q x s.dev = (5, setPageState h q x.page 0 s.dev))
          ∧ (2 ≤ pdRef (pdtGet s.dev h q x.page) → swapOutEnd h q x s.dev = (5, setPageState h q x.page 1 s.dev)))
      ∧ (∀ x, pdState (pdtGet s.dev h q x.page) ≠ 2 → swapOutEnd h q x s.dev = (3, s.dev)))

/-- R169, R172 to R176: a queue's next command, in its turn and with tokens, stands with BAD_CMD when it breaks a rule, and
with BAD_STATE when its page is in no state for it. A SWAP_OUT makes its page SWAP_OUT with its HOSTPG and sends its frame
to the host; a SWAP_IN makes it SWAP_IN and fills its frame with what the host answers; a COPY copies one frame into
another. A host that stalls leaves the command waiting with what has been moved, and it goes on from there in its turn. -/
def Obligations.MoverCommands : Prop :=
  (∀ (h : Half) (q : Queue) (s : State) p l x, Powered s → mvFront s.dev h q = some (p, l, x) → mvTurn s.dev h q = true →
    let n := 2 ^ mvPshift s.dev h q
    let d0 := pdtRead h q x.page (ringRead x.slot (fresh s.dev))
    let d1 := if x.op = 3 then pdtRead h q x.arg d0 else d0
    let e := mvSpend h q d1
    let y := { x with begun := true }
    (mvBad s.dev h q l x = true → ∀ i, (∃ o, i = Instr.swapOut h q o) ∨ (∃ o, i = Instr.swapIn h q o) ∨ i = .moverCopy h q →
        Does i s (fun d => setMover h q (some { x with status := 2 }) (nextTurn h q (ringRead x.slot d))))
    ∧ (mvBad s.dev h q l x = false → mvWaits s.dev h q x = false → pdtStatus s.dev p h q x.page = 1 →
        (x.op = 3 → pdtStatus s.dev p h q x.arg = 1) →
        (mvState d1 h q x = false →
          (x.op = 1 → ∀ o, Does (.swapOut h q o) s (fun _ => setMover h q (some { x with status := 3 }) (nextTurn h q d1)))
          ∧ (x.op = 2 → ∀ o, Does (.swapIn h q o) s (fun _ => setMover h q (some { x with status := 3 }) (nextTurn h q d1)))
          ∧ (x.op = 3 → Does (.moverCopy h q) s (fun _ => setMover h q (some { x with status := 3 }) (nextTurn h q d1))))
        ∧ (mvState d1 h q x = true →
          (x.op = 1 →
            let g := setHostPg h q x.page x.host (setPageState h q x.page 2 e)
            let a := mvHost g h q p y n (some 1)
            a.1 = 0 → frameStatus g p h q x.page = 1 →
            (let r := frameRead h q x.page 0 n g;
              Does (.swapOut h q .taken) s (fun _ => setMover h q (some { y with status := 1, at_ := n })
                (hostLeave (hostSends (.mover h q) a.2 r.1 n) r.2)))
            ∧ (∀ k, let r := frameRead h q x.page 0 (min k n) g
                Does (.swapOut h q (.stall k)) s (fun _ => setMover h q (some { y with at_ := min k n })
                  (hostLeave (hostSends (.mover h q) a.2 r.1 (min k n)) r.2)))
            ∧ Does (.swapOut h q .error) s (fun _ => setMover h q (some { y with status := 7 }) g))
          ∧ (x.op = 2 →
            let g := setPageState h q x.page 4 e
            let f := gOff (frameAddr g h q x.page)
            (mvHost g h q p y n none).1 = 0 → checkGlobal g p (frameAddr g h q x.page) n permW = (true, .ok) →
            (∀ bs, n ≤ bs.length → Does (.swapIn h q (.data bs)) s (fun _ =>
                setMover h q (some { y with status := 1, at_ := n }) (unitWrite f (bs.take n) [] g)))
            ∧ (∀ bs, bs.length ≤ n → Does (.swapIn h q (.stall bs)) s (fun _ =>
                setMover h q (some { y with at_ := bs.length }) (unitWrite f bs [] g)))
            ∧ Does (.swapIn h q .poison) s (fun _ => setMover h q (some { y with status := 6 }) g)
            ∧ Does (.swapIn h q .error) s (fun _ => setMover h q (some { y with status := 7 }) g))
          ∧ (x.op = 3 → frameStatus e p h q x.page = 1 →
            let r := frameRead h q x.page 0 n e
            checkGlobal r.2 p (frameAddr e h q x.arg) n permW = (true, .ok) →
            Does (.moverCopy h q) s (fun _ => setMover h q (some { y with status := 1 })
              (unitWrite (gOff (frameAddr e h q x.arg)) r.1 [] r.2))))))
  ∧ (∀ (h : Half) (q : Queue) (s : State) x, Powered s → getMover s.dev h q = some x → x.status = 0 → mvTurn s.dev h q = true →
      mvWaits s.dev h q x = false → queuePart s.dev h q ≠ none →
      let p := (queuePart s.dev h q).getD 0
      let n := 2 ^ mvPshift s.dev h q
      let g := nextTurn h q (fresh s.dev)
      (x.op = 1 → (mvHost g h q p x n (some 1)).1 = 0 → frameStatus g p h q x.page = 1 → x.at_ ≤ n →
        let r := frameRead h q x.page x.at_ (n - x.at_) g
        Does (.swapOut h q .taken) s (fun _ => setMover h q (some { x with status := 1, at_ := n })
          (hostLeave (hostSends (.mover h q) (mvHost g h q p x n (some 1)).2 r.1 (n - x.at_)) r.2)))
      ∧ (x.op = 2 → (mvHost g h q p x n none).1 = 0 → checkGlobal g p (frameAddr g h q x.page) n permW = (true, .ok) → x.at_ ≤ n →
        ∀ bs, bs.length = n - x.at_ → Does (.swapIn h q (.data bs)) s (fun _ =>
          setMover h q (some { x with status := 1, at_ := n }) (unitWrite (gOff (frameAddr g h q x.page) + x.at_) bs [] g))))

/-- R198 to R202, R204, R381: the request that leaves a channel's queue is performed at its home and answered, and the
queue, the window's count and the trump counter are as they should be: requests leave in order, but the oldest trump
request of the 256 in the queue leaves early when the counter holds its bytes and no earlier request touches its sectors;
none leaves while a self-test holds the channel. The counter gains at a play boundary, up to four plays' gain. R206 to
R210: a queue's next flash command that Table MM-6 refuses stands with its status. A WRITE that is accepted writes, in its
queue's turns, unit after unit of 64 KiB at its zone's pointer: each durable unit moves the pointer on, a zone filled to
its end is FULL, and a media failure makes it OFFLINE. A RESET empties its zone and erases it; an erase that fails makes it
OFFLINE. -/
def Obligations.ChannelsAndFlash : Prop :=
  (∀ (c : ChanId) (s : State), Powered s →
      let x := getChan s.dev c
      (∀ ecc i early r, chanTested s.dev c = false → nextOut x = some (i, early) → x.q[i]? = some r →
        Does (.channelDequeue c ecc) s (fun d => serve c r ecc (modChan c (fun y =>
          { y with q := y.q.eraseIdx i, count := y.count + 1, trump := if early then y.trump - r.op.len else y.trump }) d)))
      ∧ (x.q = [] ∨ chanTested s.dev c = true → ∀ ecc, NoEffect (.channelDequeue c ecc) s)
      ∧ (∀ y : Chan, y.q ≠ [] → ∃ i early r, nextOut y = some (i, early) ∧ y.q[i]? = some r ∧ (early = false → i = 0)
          ∧ (early = true → i < 256 ∧ r.trump = true ∧ r.op.len ≤ y.trump
              ∧ ∀ j z, j < i → y.q[j]? = some z → z.trump = false ∧ sameSector z r = false))
      ∧ (let g := trumpGain s.dev c;
          (s.dev.time.phase % 48 = 0 → x.gained ≠ some (now s.dev) → Does (.trumpCounterGain c) s (modChan c (fun y =>
            { y with trump := min (4 * g) (y.trump + g), gained := some (now s.dev) })))
          ∧ ((s.dev.time.phase % 48 ≠ 0 ∨ x.gained = some (now s.dev)) → NoEffect (.trumpCounterGain c) s)))
  ∧ (∀ (h : Half) (q : Queue) (s : State), Powered s →
      (∀ l x, flFront s.dev h q = some (l, x) →
        (x.op = 1 → flRefusal s.dev h q l x = 0 → Does (.flashWrite h q) s (fun d => setFlash h q (some x) (ringRead x.slot d)))
        ∧ (x.op = 1 → flRefusal s.dev h q l x ≠ 0 → Does (.flashWrite h q) s (fun d =>
            setFlash h q (some { x with status := flRefusal s.dev h q l x }) (ringRead x.slot d)))
        ∧ (x.op = 2 → flRefusal s.dev h q l x ≠ 0 → ∀ m, Does (.flashReset h ⟨q, m⟩) s (fun d =>
            setFlash h q (some { x with status := flRefusal s.dev h q l x }) (ringRead x.slot d)))
        ∧ (∀ p z o, x.op = 2 → flRefusal s.dev h q l x = 0 → flZone s.dev (flAddr x) = some (p, z, o) →
            flashTested s.dev (2 * p) = false → flashTested s.dev (2 * p + 1) = false →
            ((getZone s.dev z).state = .offline → ∀ m, Does (.flashReset h ⟨q, m⟩) s (fun d =>
              setFlash h q (some { x with status := 6 }) (ringRead x.slot d)))
            ∧ ((getZone s.dev z).state ≠ .offline →
              Does (.flashReset h ⟨q, false⟩) s (fun d => setFlash h q (some { x with status := 1 })
                (setZone z ⟨0, .empty⟩ (memDo (.clear (flAddr x - o) Config.zoneSize) (ringRead x.slot d))))
              ∧ Does (.flashReset h ⟨q, true⟩) s (fun d =>
                setFlash h q (some { x with status := 6 }) (setZone z ⟨0, .offline⟩ (ringRead x.slot d))))))
      ∧ (∀ x p z o, getFlash s.dev h q = some x → turnOf s.dev (2 + h) (flReady s.dev h) = some q.val →
          flZone s.dev (flNext x) = some (p, z, o) →
          let src := x.src + 65536 * x.units
          let k := (homeRange s.dev (gOff src) 65536).kind
          let r := unitRead (gOff src) 65536 (takeTokens (flBucket h q) (flRate s.dev h q) 65536 (fresh s.dev))
          unitWaits s.dev (gOff src) 65536 = false → checkGlobal s.dev ((queuePart s.dev h q).getD 0) src 65536 permR = (true, .ok) →
          (k = 1 ∨ k = 2) →
          (r.2.1 = [] → Does (.flashUnitDurable h q false) s (fun _ => nextTurn (2 + h) q
              (setFlash h q (some { x with units := x.units + 1, status := if x.units + 1 = x.len then 1 else 0 })
                (writeRaw (flNext x) r.1
                  (setZone z ⟨o + 65536, if o + 65536 = Config.zoneSize then .full else .open_⟩ r.2.2)))))
          ∧ (r.2.1 = [] → Does (.flashUnitDurable h q true) s (fun _ => nextTurn (2 + h) q
              (setFlash h q (some { x with status := 6 }) (setZone z { getZone r.2.2 z with state := .offline } r.2.2))))
          ∧ (r.2.1 ≠ [] → ∀ m, Does (.flashUnitDurable h q m) s (fun _ => nextTurn (2 + h) q
              (setFlash h q (some { x with status := 5 }) r.2.2)))))

/-- R196, R197: at the end of an imbalance window every live channel's count starts again, and a window in which the
busiest live channel took over four times the mean of at least 4,096 requests is counted and named, the first one since
the last read with MM_HOT. A temperature sample sets the stack's throttle step: from 100 °C the second, from 95 °C the
first, each left 5 °C lower; a channel's refresh doubles from 85 °C and is single again below 80. R203 to R205: a
write-back point of a running job comes at its deal trick once in a pass of the cursor; with no write-back of its window
under way and tokens for it, its window is walked, and its flag is written with the cursor once every block has left. A
window without a dirty block is left as it is. -/
def Obligations.MonitorsAndWriteback : Prop :=
  (∀ (k : Eighth) (s : State), Powered s →
      let live := liveOf s.dev k
      let cnt := fun c => (getChan s.dev (32 * k.val + c)).count
      let total := (live.map cnt).foldl (· + ·) 0
      let top := (live.map cnt).foldl max 0
      let clear := fun (d : Dev) => live.foldl (fun a c => modChan (32 * k.val + c) (fun y => { y with count := 0 }) a) d
      let named := fun (d : Dev) => modStack k (fun x =>
        { x with hot := (live.find? (fun c => cnt c == top)).getD 0, counted := true })
          (ctlAdd (regOff 12 (k.val / 4) (0xA0 + 4 * (k.val % 4))) 1 d)
      (s.dev.time.trick % 1024 = 0 → s.dev.time.phase = 0 →
        (4096 ≤ total → 4 * total < top * live.length →
          ((getStack s.dev k).counted = true → Does (.imbalanceWindowEnd k) s (fun d => clear (named d)))
          ∧ ((getStack s.dev k).counted = false →
            Does (.imbalanceWindowEnd k) s (fun d => clear (event 12 (k.val / 4) (k.val % 4) (named d)))))
        ∧ (¬ (4096 ≤ total ∧ 4 * total < top * live.length) → Does (.imbalanceWindowEnd k) s clear))
      ∧ (∀ (t : Byte) (ts : List Byte), ∃ s', exec (.hbmTempSample k t ts) s = .next s' ∧ Rest s s' ∧ s'.dev.mem = s.dev.mem
          ∧ s'.dev.body = { s.dev.body with replies := [], hbmStacks := s'.dev.body.hbmStacks }
          ∧ (∀ m, m ≠ k.val → getStack s'.dev m = getStack s.dev m)
          ∧ (let x := getStack s'.dev k;
            x = { getStack s.dev k with temp := t.toNat, temps := x.temps, refresh := x.refresh
                                        throttle := throttleStep (getStack s.dev k).throttle t.toNat }
            ∧ ∀ c v, c < 32 → ts[c]? = some v → tget 0 x.temps c = v.toNat ∧ (85 ≤ v.toNat → c ∈ x.refresh)
                ∧ (v.toNat < 80 → c ∉ x.refresh)
                ∧ (80 ≤ v.toNat → v.toNat < 85 → (c ∈ x.refresh ↔ c ∈ (getStack s.dev k).refresh)))))
  ∧ (∀ old t, (100 ≤ t → throttleStep old t = 2)
      ∧ (95 < t → t < 100 → old = 2 → throttleStep old t = 2)
      ∧ (95 ≤ t → t < 100 → old ≤ 1 → throttleStep old t = 1)
      ∧ (90 < t → t ≤ 95 → 1 ≤ old → throttleStep old t = 1)
      ∧ (t ≤ 90 → throttleStep old t = 0))
  ∧ (∀ (q : Eighth) (n : Nat) (host : HostOut) (s : State), Powered s →
      let j := getJob s.dev q
      (∀ p w, j.deal.points[n]? = some p → j.deal.windows[p.window]? = some w → jobRuns s.dev q = true →
        recursAt j.deal p.deal j.cursor = true → tget 0 j.fired n ≠ j.cursor + 1 →
        (∀ o, o ∈ (getWb s.dev q).owed → o.1 ≠ n) → 
        let comes := fun d => modWb q (fun x => { x with owed := x.owed ++ [(n, j.cursor)] })
          (modJob q (fun x => { x with fired := tset 0 x.fired n (j.cursor + 1) }) d)
        let blocks := dirtyBlocks s.dev q w
        ((getWb s.dev q).runs.any (fun r => r.window == p.window) = true → Does (.writebackPoint q n host) s comes)
        ∧ ((getWb s.dev q).runs.any (fun r => r.window == p.window) = false → walkWaits s.dev q w = false →
            (blocks = [] ∨ bucketOpen s.dev (wbBucket q) j.deal.wbrate = true) →
            Does (.writebackPoint q n host) s (fun d =>
              let e := modWb q (fun x => { x with owed := x.owed.erase (n, j.cursor) }) (comes d)
              let r := walkWindow q w host (if blocks = [] then e else takeTokens (wbBucket q) j.deal.wbrate (4096 * blocks.length) e)
              wbFlags q (modWb q (fun x => { x with
                runs := x.runs ++ [⟨p.window, p.faddr, p.ftag % 2 ^ 16 + 2 ^ 16 * (j.cursor % 2 ^ 48), r.1⟩] }) r.2))))
      ∧ (∀ p, j.deal.points[n]? = some p → (∀ o, o ∈ (getWb s.dev q).owed → o.1 ≠ n) →
          (jobRuns s.dev q = false ∨ recursAt j.deal p.deal j.cursor = false ∨ tget 0 j.fired n = j.cursor + 1) →
          NoEffect (.writebackPoint q n host) s)
      ∧ (∀ (d : Dev) (w : Window), (∀ i, i < 16 * w.len → isDirty d q (gOff w.work + 4096 * i) = false) →
          walkWindow q w host d = ([], d)))

/-! ## Links (R212 to R239) -/

/-- R216, R217, R230, R233, R279, R384: a link that trains comes up at the first candidate that both ends allow and the
lanes supply, or MISWIRED when the identity exchange finds a mistake; towards a FAILED position, or on a device that is
FAILED or parked, it stays DOWN, and with no candidate it goes on training; a Z link that trains puts the seat table in
force. A link still training at its time limit is DOWN with LK_DOWN, and trains again. -/
def Obligations.LinkTraining : Prop :=
  ∀ (p : Port) (l : Link) (s : State), Powered s →
    let x := getLink s.dev (lkKey p l)
    (∀ i, x.state = 1 → portOff s.dev p = false →
      let e := takeSeats p (fresh s.dev)
      let j := trainLanes s.dev p l i
      let choice := lkSelect (bits (ctlNat s.dev (lkOff p 0x40)) 2 1) x j
      ((neighbour e p l = none ∨ devNumber e = none) →
        Does (.linkTrain p l i) s (fun d => modLink (lkKey p l) (fun y => { y with state := 0 }) (takeSeats p d)))
      ∧ ((neighbour e p l).isSome = true → (devNumber e).isSome = true →
          (choice = none → Does (.linkTrain p l i) s (takeSeats p))
          ∧ (∀ g w, choice = some (g, w) → Does (.linkTrain p l i) s (fun d => modLink (lkKey p l) (fun y =>
              { y with
                state := if miswired e p l j then 4 else 2
                gen := g - 1, width := w, lanes := lowLanes (widthLanes w) (if g = 2 then j.pass2.toNat else j.pass1.toNat)
                proto := min 2 i.peerProto.val, peerPort := i.peerPort.val, peerLink := i.peerLink.val, serial := i.peerSerial
                asked := none, agreed := none, maxWidth := 1, peerGate := false, laneCorr := [], degrade := false })
              (takeSeats p d)))))
    ∧ ((x.state ≠ 1 ∨ portOff s.dev p = true) → ∀ i, NoEffect (.linkTrain p l i) s)
    ∧ (∀ d k, k < 17 → 4 ≤ p.val → tget 0 (takeSeats p d).body.seats k = ctlNat d (regOff 7 0 (0x80 + 4 * k)))
    ∧ (∀ d, p.val < 4 → takeSeats p d = d)
    ∧ (∀ maxGen i g w, lkSelect maxGen x i = some (g, w) → g ≤ maxGen ∧ g ≤ i.peerMaxGen.val ∧ x.maxWidth ≤ w
        ∧ ((w = 1 ∧ 8 ≤ popcountN 8 (if g = 2 then i.pass2.toNat else i.pass1.toNat))
          ∨ (w = 2 ∧ 6 ≤ popcountN 8 (if g = 2 then i.pass2.toNat else i.pass1.toNat))
          ∨ (w = 3 ∧ 4 ≤ popcountN 8 (if g = 2 then i.pass2.toNat else i.pass1.toNat))))
    ∧ (x.state = 1 → Does (.linkTrainTimeout p l) s (fun d =>
        event 11 p (4 + l) (modLink (lkKey p l) (fun y => { y with state := 0, maxWidth := 1 }) d)))
    ∧ (x.state ≠ 1 → NoEffect (.linkTrainTimeout p l) s)
    ∧ (x.state = 0 → portOff s.dev p = false → LinkDoes (.linkTrainRetry p l) p l s (fun y => { y with state := 1 }))
    ∧ ((x.state ≠ 0 ∨ portOff s.dev p = true) → NoEffect (.linkTrainRetry p l) s)

/-- R218, R219, R235 to R237: a REQUEST of the peer is agreed to and answered with ACK, or merged with an unanswered one of
our own; an ACK agrees to ours; at the next trick boundary a WIDTH change re-checks the lanes and stops the link for 2,048
tricks and a RETRAIN repeats training. An uncorrectable codeword is counted, its flits are awaited and REPLAY asks for them;
more than 16 in a window of 1,024 tricks degrade the link; REPLAY of the peer puts the flits it names to be sent again. A
link that loses its signal is DOWN. -/
def Obligations.LinkChanges : Prop :=
  ∀ (p : Port) (l : Link) (s : State), Powered s →
    let x := getLink s.dev (lkKey p l)
    (∀ (w : Fin 4) i re, (i, re) ∈ [(Instr.width p l w, false), (.retrain p l w, true)] →
      (w.val ≠ 0 → x.state = 2 → x.asked = none → Does i s (fun d =>
        sendWord p l .ack (modLink (lkKey p l) (fun y => { y with agreed := some (re, w.val) }) d)))
      ∧ (∀ own v, w.val ≠ 0 → x.state = 2 → x.asked = some (own, v) →
          LinkDoes i p l s (fun y => { y with agreed := some (own || re, max v w.val), asked := none }))
      ∧ ((w.val = 0 ∨ x.state ≠ 2) → NoEffect i s))
    ∧ (∀ a, x.asked = some a → LinkDoes (.ack p l) p l s (fun y => { y with agreed := some a, asked := none }))
    ∧ (x.asked = none → LinkDoes (.ack p l) p l s id)
    ∧ (∀ pass : Byte,
        let keep := (pass &&& laneKeep s.dev p l).toNat
        (∀ w, s.dev.time.phase = 0 → x.state = 2 →
          (x.agreed = some (true, w) → LinkDoes (.linkSwitch p ⟨l, pass⟩) p l s (fun y =>
              { y with state := 1, maxWidth := w, agreed := none, downAt := s.dev.time.trick }))
          ∧ (∀ c, x.agreed = some (false, w) → widthOf w keep = some c → LinkDoes (.linkSwitch p ⟨l, pass⟩) p l s (fun y =>
              { y with state := 3, width := c, lanes := lanesAt y (widthLanes c) keep, changeAt := s.dev.time.trick
                       agreed := none, degrade := false }))
          ∧ (x.agreed = some (false, w) → widthOf w keep = none → Does (.linkSwitch p ⟨l, pass⟩) s (fun d =>
              event 11 p (4 + l) (modLink (lkKey p l) (fun y =>
                { y with state := 0, agreed := none, degrade := false, downAt := s.dev.time.trick }) d))))
        ∧ ((s.dev.time.phase ≠ 0 ∨ x.state ≠ 2 ∨ x.agreed = none) → NoEffect (.linkSwitch p ⟨l, pass⟩) s))
    ∧ (∀ w keep c, widthOf w keep = some c → w ≤ c ∧ widthLanes c ≤ popcountN 8 keep
        ∧ ∀ b, w ≤ b → 1 ≤ b → b < c → popcountN 8 keep < widthLanes b)
    ∧ (x.state = 3 → x.changeAt + 2048 ≤ s.dev.time.trick → LinkDoes (.widthChangeEnd p l) p l s (fun y => { y with state := 2 }))
    ∧ ((x.state ≠ 3 ∨ s.dev.time.trick < x.changeAt + 2048) → NoEffect (.widthChangeEnd p l) s)
    ∧ (∀ (first : Fin 400) owners,
        (x.state = 2 → Does (.codewordUncorrectable p ⟨l, first, owners⟩) s (fun d =>
          ctlAdd (lkOff p (0x8C + 0x20 * l.val)) 1 (sendWord p l (.replay first)
            (modLink (lkKey p l) (fun y =>
              { y with unc := if x.window = s.dev.time.trick / 1024 then x.unc + 1 else 1, window := s.dev.time.trick / 1024
                       lost := owners.foldl (fun a o => tset 0 a o (tget 0 a o + 1)) x.lost }) d))))
        ∧ (x.state ≠ 2 → NoEffect (.codewordUncorrectable p ⟨l, first, owners⟩) s))
    ∧ (x.state = 2 → x.window = s.dev.time.trick / 1024 → 16 < x.unc → x.raised ≠ x.window + 1 →
        Does (.lkDegraded p l) s (fun d => event 11 p l
          (sendWord p l (.request (decide (x.width = 3)) (if x.width = 3 then 1 else x.width + 1))
            (modLink (lkKey p l) (fun y =>
              { y with raised := x.window + 1, degrade := !decide (x.width = 3)
                       asked := some (decide (x.width = 3), if x.width = 3 then 1 else x.width + 1) }) d))))
    ∧ ((x.state ≠ 2 ∨ x.window ≠ s.dev.time.trick / 1024 ∨ x.unc ≤ 16) → NoEffect (.lkDegraded p l) s)
    ∧ ((x.state = 2 ∨ x.state = 3) → Does (.linkSignalLost p l) s (fun d => event 11 p (4 + l) (modLink (lkKey p l) (fun y =>
          { y with state := 0, asked := none, agreed := none, downAt := s.dev.time.trick }) d)))
    ∧ (x.state ≠ 2 → x.state ≠ 3 → NoEffect (.linkSignalLost p l) s)
    ∧ LinkDoes (.gateClosed p l) p l s (fun y => { y with peerGate := true })
    ∧ (∀ first : Fin 400, LinkDoes (.replay p l first) p l s (fun y => { y with
        again := y.again ++ y.wire.filter (fun f => decide (first.val ≤ f.num) && decide (f.num < first.val + 3) && !y.again.contains f) }))
    ∧ (∀ n, Does (.credit p n) s (modPort p (fun y => { y with credits := min 64 (y.credits + n) })))

/-- R218, R234, R239: writes of `LK_PCTRL` by the management complex. OFF is refused with STATE while a plan entry keeps
the port up; else the gate closes from the next trick, told by GATE_CLOSED on each link, and the lanes go off three tricks
after the write; ON trains the port's links again. RETRAIN and WIDTH ask the peers of links that are up. R222, R230, R233: a
write of the port plan, a seat or the router's configuration by the management complex takes effect while no partition has a
deal loaded; with a deal loaded only plan entries that no loaded deal uses may change, to such entries. -/
def Obligations.PortsAndRouter : Prop :=
  (∀ (r : Req) (p : Port) (s : State), Powered s →
      let x := getPort s.dev p
      let v := ctlNat s.dev (lkOff p 0x40)
      let asks := fun (l : Nat) (re : Bool) (w : Nat) (d : Dev) =>
        sendWord p l (.request re w) (modLink (lkKey p l) (fun y => { y with asked := some (re, w) }) d)
      (PctrlMay s r p →
        (portHeld s.dev p = true → Does (.lkPctrlOff r p) s (refuse r (pageBase 11 p) (lkOff p 0x40) cState true))
        ∧ (portHeld s.dev p = false → x.state ≠ 3 → x.state ≠ 4 → Does (.lkPctrlOff r p) s (fun d =>
            modPort p (fun y => { y with state := 3, offTrick := s.dev.time.trick, gate := false })
              (ctlSetN (lkOff p 0x40) (v / 2 * 2 + 1) d)))
        ∧ (portHeld s.dev p = false → (x.state = 3 ∨ x.state = 4) → NoEffect (.lkPctrlOff r p) s)
        ∧ ((x.state = 3 ∨ x.state = 4) → Does (.lkPctrlOn r p) s (fun d =>
            forN 4 (fun l => modLink (lkKey p l) (fun y => { y with state := 1, maxWidth := 1 }))
              (modPort p (fun y => { y with state := 0, gate := false }) (ctlSetN (lkOff p 0x40) (v / 2 * 2) d))))
        ∧ (x.state ≠ 3 → x.state ≠ 4 → NoEffect (.lkPctrlOn r p) s)
        ∧ (∀ (l : Link) (w : Fin 4),
            (w.val ≠ 0 → (getLink s.dev (lkKey p l)).state = 2 → Does (.lkPctrlWidth r p l w) s (asks l false w))
            ∧ ((w.val = 0 ∨ (getLink s.dev (lkKey p l)).state ≠ 2) → NoEffect (.lkPctrlWidth r p l w) s))
        ∧ (∀ m : BitVec 4, Does (.lkPctrlRetrain r p m) s (forN 4 (fun l d =>
            if m.toNat.testBit l ∧ (getLink s.dev (lkKey p l)).state = 2 then asks l true 1 d else d))))
      ∧ (x.state = 3 → x.gate = false → x.offTrick + 1 ≤ s.dev.time.trick → Does (.portGateClose p) s (fun d =>
          forN 4 (fun l e => if (getLink s.dev (lkKey p l)).state = 2 then sendWord p l .gateClosed e else e)
            (modPort p (fun y => { y with gate := true }) d)))
      ∧ ((x.state ≠ 3 ∨ x.gate = true ∨ s.dev.time.trick ≤ x.offTrick) → NoEffect (.portGateClose p) s)
      ∧ (x.state = 3 → x.gate = true → x.offTrick + 3 ≤ s.dev.time.trick → Does (.portLanesOff p) s (fun d =>
          forN 4 (fun l => modLink (lkKey p l) (fun y =>
              { y with state := 5, asked := none, agreed := none, downAt := s.dev.time.trick }))
            (modPort p (fun y => { y with state := 4 }) d)))
      ∧ ((x.state ≠ 3 ∨ x.gate = false ∨ s.dev.time.trick < x.offTrick + 3) → NoEffect (.portLanesOff p) s))
  ∧ (∀ (r : Req) (off : CtlOff) (v : Word) (m : Nat) (s : State), Powered s → routerMask off.toNat = some m →
      MgmtWrite s r off.toNat →
      (routerMay s.dev off.toNat v.toNat = true → Does (.planSeatWrite r off v) s (ctlSetN off.toNat (v.toNat &&& m)))
      ∧ (routerMay s.dev off.toNat v.toNat = false → Does (.planSeatWrite r off v) s (refuse r (pageBase 7 0) off.toNat cState true))
      ∧ (anyDeal s.dev = false → routerMay s.dev off.toNat v.toNat = true)
      ∧ (anyDeal s.dev = true → routerMay s.dev off.toNat v.toNat = true → regOff 7 0 0x400 ≤ off.toNat
          ∧ (∀ w, w ∈ [ctlNat s.dev off.toNat, v.toNat] → planKind w = 0 ∨ (planKind w = 1 ∧ (getJob s.dev (planEighth w)).loaded = false))))

/-- R220 to R223, R227, R228, R231, R232, R234, R235, R237: in each play the owner of a link's slot puts its packets on
the link, in order, as many bytes as the slot's flits hold, those that were lost first; one that does not fit whole goes on in
the owner's next slot. What waits for a bypassed port goes by the skip link; towards a closed gate it is answered. The open
channel takes one flit of a play, for one credit, and a packet that waits 4,096 tricks for a DOWN link is answered
DOMAIN_OFF. Each hop towards a place on a ring brings it nearer. -/
def Obligations.LinkSlots : Prop :=
  ∀ (p : Port) (s : State), Powered s →
    (∀ (l : Link) (play : Play),
      let x := getLink s.dev (lkKey p l)
      let mine := fun st (y : TxPkt) => y.stream == st && y.port == p.val && y.link == some l.val
      let plan := planBytes s.dev p l play
      let joined := fun st (d : Dev) => modLink (lkKey p l) (fun y => { y with sentAt := some (playNow s.dev) })
        (modBody (fun b => { b with tx := joinLink st p l (if x.state = 2 then max plan (slotBytes x play) else plan) b.tx }) d)
      (∀ st, s.dev.time.phase / 48 = play.val → x.sentAt ≠ some (playNow s.dev) → portOff s.dev p = false →
        slotStream s.dev p l play = some st →
        (x.state = 2 → x.peerGate = false → (bypassed s.dev p = false ∨ l.val = 3) →
          Does (.linkSlotSend p l play) s (fun d => slotFlitsOut p l play st (joined st d)))
        ∧ (x.state = 2 → x.peerGate = true → (bypassed s.dev p = false ∨ l.val = 3) →
            Does (.linkSlotSend p l play) s (fun d =>
              let e := joined st d
              (e.body.tx.filter (mine st)).foldl (fun a k => answerOff p l k a)
                (modBody (fun b => { b with tx := b.tx.filter (fun y => !mine st y) }) e)))
        ∧ (x.state ≠ 2 → (bypassed s.dev p = false ∨ l.val = 3) → Does (.linkSlotSend p l play) s (joined st))
        ∧ (bypassed s.dev p = true → l.val < 3 → Does (.linkSlotSend p l play) s (fun d =>
            let e := joined st d
            let r := takeTx (mine st) (min plan (skipRoom (getLink e (lkKey p 3)) - queued (getPort e p).skipq)) e
            modPort p (fun y => { y with skipq := y.skipq ++ ended r.1 }) r.2)))
      ∧ ((s.dev.time.phase / 48 ≠ play.val ∨ x.sentAt = some (playNow s.dev) ∨ portOff s.dev p = true
          ∨ slotStream s.dev p l play = none) → NoEffect (.linkSlotSend p l play) s))
    ∧ (∀ (mine : TxPkt → Bool) (room : Nat) (l : List TxPkt),
        let r := takeBytes mine room l
        (r.1.map (·.len)).sum ≤ room ∧ (r.1.map (·.len)).sum + queued r.2 = queued l ∧ (∀ c, c ∈ r.1 → mine c.x = true))
    ∧ (∀ (mine : TxPkt → Bool) st t n num (l : List TxPkt),
        let r := takeFlits mine st t n num l
        r.1.length ≤ n ∧ (r.1.map (fun f => (f.parts.map (·.len)).sum)).sum + queued r.2 = queued l
        ∧ (∀ f, f ∈ r.1 → f.stream = st ∧ num ≤ f.num ∧ f.num < num + n ∧ (f.parts.map (·.len)).sum ≤ 256))
    ∧ (∀ st port link need (l : List TxPkt),
        (joinLink st port link need l).map (fun y => { y with link := none }) = l.map (fun y => { y with link := none }))
    ∧ (let x := getLink s.dev (lkKey p 3)
       let play := s.dev.time.phase / 48
       let used := modLink (lkKey p 3) (fun y => { y with sentAt := some (playNow s.dev) });
        (bypassed s.dev p = true → x.state = 2 → x.sentAt ≠ some (playNow s.dev) → planKind (planWord s.dev p 3 play) = 3 →
          (x.peerGate = true → Does (.skipLinkForward p) s (fun d =>
            (getPort (used d) p).skipq.foldl (fun a k => answerOff p 3 k a) (modPort p (fun y => { y with skipq := [] }) (used d))))
          ∧ (x.peerGate = false → Does (.skipLinkForward p) s (fun d =>
              let a := resend p 3 (.skip p) (slotFlits x play) (slotFirst x play) (used d)
              let r := takeFlits (fun _ => true) (.skip p) s.dev.time.trick (slotFlits x play - a.1) (slotFirst x play + a.1)
                (getPort a.2 p).skipq
              putWire p 3 r.1 (modPort p (fun y => { y with skipq := r.2 }) a.2))))
        ∧ ((bypassed s.dev p = false ∨ x.state ≠ 2 ∨ x.sentAt = some (playNow s.dev) ∨ planKind (planWord s.dev p 3 play) ≠ 3) →
            NoEffect (.skipLinkForward p) s))
    ∧ (∀ l, openAgain s.dev p = some l → Does (.openPacketForward p) s (fun d =>
        openUsed p l (resend p l .opened 1 (openNum s.dev p l) d).2))
    ∧ (∀ x rest l, openAgain s.dev p = none → (getPort s.dev p).openq = x :: rest → openLink s.dev p x.link = some l →
        ((getLink s.dev (lkKey p l)).peerGate = true → Does (.openPacketForward p) s (fun d =>
          answerOff p l x (returnCredit x.inport (pktFlits x.pkt) (modPort p (fun y => { y with openq := rest }) d))))
        ∧ ((getLink s.dev (lkKey p l)).peerGate = false → (getPort s.dev p).credits ≠ 0 →
            (x.rest ≤ 256 → Does (.openPacketForward p) s (fun d => returnCredit x.inport (pktFlits x.pkt)
              (modPort p (fun y => { y with openq := rest, credits := y.credits - 1 })
                (openUsed p l (putWire p l [⟨openNum s.dev p l, s.dev.time.trick, .opened, [⟨x, x.sent, x.rest⟩]⟩] d)))))
            ∧ (256 < x.rest → Does (.openPacketForward p) s (fun d =>
                modPort p (fun y => { y with openq := { x with sent := x.sent + 256, link := some l } :: rest, credits := y.credits - 1 })
                  (openUsed p l (putWire p l [⟨openNum s.dev p l, s.dev.time.trick, .opened, [⟨x, x.sent, 256⟩]⟩] d)))))
        ∧ ((getLink s.dev (lkKey p l)).peerGate = false → (getPort s.dev p).credits = 0 → NoEffect (.openPacketForward p) s))
    ∧ (openAgain s.dev p = none → (getPort s.dev p).openq = [] → NoEffect (.openPacketForward p) s)
    ∧ (∀ x rest, (getPort s.dev p).openq = x :: rest →
        (portDown s.dev p = true → waitsSince s.dev p x + 4096 ≤ s.dev.time.trick → Does (.openPacketTimeout p) s (fun d =>
          answerError x.pkt 3 (returnCredit x.inport (pktFlits x.pkt) (modPort p (fun y => { y with openq := rest }) d))))
        ∧ ((portDown s.dev p = false ∨ s.dev.time.trick < waitsSince s.dev p x + 4096) → NoEffect (.openPacketTimeout p) s))
    ∧ (∀ len start stop, start < len → stop < len → start ≠ stop →
        hopsUp len ((start + 1) % len) stop + 1 = hopsUp len start stop
        ∧ hopsUp len stop ((start + len - 1) % len) + 1 = hopsUp len stop start)

/-- R225, R226, R227, R234, R235, R325: a WRITE, READ or ATOMIC for this device is checked and issued to its home, or answered
with the status of the check that failed; DATA and a COMPLETION free their request's tag and answer its requester; an open
packet gives its credits back. A packet for another device goes on through the TRANSIT entry that names its slot, or openly;
a scheduled one that none names is UNROUTED, and so is one whose header has a reserved kind or bit; at a closed gate every
packet is answered DOMAIN_OFF, and a link that is not up carries none. A packet behind lost flits of its stream is held;
the flits sent again let the router take it. -/
def Obligations.PacketsArrive : Prop :=
  ∀ (a : Arrival) (k : Packet) (s : State), Powered s →
    let addr := gOff k.dst.toNat
    let bad := fieldBad k.poison k.payload.length
    let e := taken a k (fresh s.dev)
    (∀ i kind op, (i, kind, op) ∈ [(Instr.write a k, PKind.write, MemReq.write k.payload bad), (.read a k, .read, .read k.arg.toNat)]
          ++ (if leAt k.payload 1 1 ∈ [4, 8] ∧ k.dst.toNat % leAt k.payload 1 1 = 0 then
                ((atomOf (leAt k.payload 0 1)).map (fun o => (Instr.atomic a k, PKind.atomic,
                  MemReq.atomic o (leAt k.payload 1 1) k.arg (BitVec.ofNat 64 (leAt k.payload 8 8))))).toList else []) →
      Arrives s a k → ForMe s a k → (kind = .read → k.arg.toNat ≤ 256) →
      let v := checkLocal e none (k.src.toNat % 2 ^ 15) addr (max 1 op.len) op.perm
      ((∀ o, homeOf e addr ≠ .ctl o) →
        (v = .ok → 0 < op.len → Does i s (fun d => issueLocal false addr op (.remote (newServe e)) 0
          (openServe (newServe e) (serveOf e a kind k op 0) (taken a k d))))
        ∧ (v = .ok → op.len = 0 → Does i s (fun d =>
            flushServes (openServe (newServe e) (serveOf e a kind k op 0) (taken a k d))))
        ∧ (v ≠ .ok → Does i s (fun d => answer (serveOf e a kind k op v.code) (taken a k d))))
      ∧ (∀ o, homeOf e addr = .ctl o → v ≠ .ok → Does i s (fun d =>
          answer (serveOf e a kind k op v.code) (logRemote o (kind != .read) (taken a k d)))))
    ∧ (Arrives s a k → ForMe s a k → 256 < k.arg.toNat → Does (.read a k) s (fun d => answerError k 1 (taken a k d)))
    ∧ (Arrives s a k → ForMe s a k → (atomOf (leAt k.payload 0 1) = none ∨ leAt k.payload 1 1 ∉ [4, 8]
          ∨ k.dst.toNat % leAt k.payload 1 1 ≠ 0) → Does (.atomic a k) s (fun d => answerError k 1 (taken a k d)))
    ∧ (∀ w, Arrives s a k → ForMe s a k → tget none e.body.tags k.tag.toNat = some w →
        let freed := modBody (fun b => { b with tags := tset none b.tags k.tag.toNat none })
        Does (.data a k) s (fun d => deliver w 0 0 k.payload bad (freed (taken a k d)))
        ∧ (k.tag.toNat ≠ 0 → k.status.toNat ≠ 3 → Does (.completion a k) s (fun d =>
            deliver w k.status.toNat 0 [] [] (freed (taken a k d))))
        ∧ (k.tag.toNat ≠ 0 → k.status.toNat = 3 →
            Does (.completion a k) s (fun d => deliver w 3 0 [] [] (freed (ctlAdd (regOff 7 0 0x54) 1 (taken a k d))))))
    ∧ (Arrives s a k → ForMe s a k → k.tag.toNat = 0 → k.status.toNat = 0 → Does (.completion a k) s (taken a k))
    ∧ (∀ i kind, (i, kind) ∈ [(Instr.write a k, PKind.write), (.read a k, .read), (.data a k, .data), (.atomic a k, .atomic),
          (.completion a k, .completion), (.collective a k, .collective)] →
        let n := noted a (fresh s.dev)
        let key := lkKey a.port a.link
        (Arrives s a k → ¬ ForMe s a k →
          (a.slot = none → Does i s (fun d => sendFrom a.port .opened (gDev k.dst.toNat) kind k (noted a d)))
          ∧ (∀ play x, a.slot = some play → transitOf n a.port a.link play = some x → Does i s (fun d => modBody (fun b =>
              { b with tx := b.tx ++ [⟨.transit x.1 x.2.1 x.2.2, x.1, some x.2.1, gDev k.dst.toNat, s.dev.time.trick, now s.dev,
                                      a.port, 0, kind, k⟩] }) (noted a d)))
          ∧ (∀ play, a.slot = some play → transitOf n a.port a.link play = none →
              Does i s (fun d => answerError k 4 (ctlAdd (regOff 7 0 0x50) 1 (noted a d)))))
        ∧ ((getLink s.dev key).state = 2 → a.again = 0 → tget 0 (getLink n key).lost a.owner = 0 →
            ((getPort n a.port).gate = true → Does i s (fun d => answerError k 3 (taken a k d)))
            ∧ ((getPort n a.port).gate = false → (k.kind.toNat = 0 ∨ 6 < k.kind.toNat ∨ k.rsv ≠ 0 ∨ bitAt k.src.toNat 15 = true) →
                Does i s (fun d => answerError k 4 (ctlAdd (regOff 7 0 0x50) 1 (taken a k d)))))
        ∧ ((getLink s.dev key).state = 2 → a.again = 0 → tget 0 (getLink n key).lost a.owner ≠ 0 →
            Does i s (fun d => modLink key (fun y => { y with held := y.held ++ [⟨a, kind, k⟩] }) (noted a d)))
        ∧ ((getLink s.dev key).state = 2 → a.again ≠ 0 → Does i s (fun d => releaseHeld a.port a.link a.owner (route a kind k
            (modLink key (fun y => { y with lost := tset 0 y.lost a.owner (tget 0 y.lost a.owner - a.again) }) (noted a d)))))
        ∧ ((getLink s.dev key).state ≠ 2 → NoEffect i s))

/-! ## Collectives (R240 to R265) -/

/-- R247, R248, R250: a start point of a running job comes at its deal trick and play and waits for its suit's position.
On a free position the start that came first starts its operation: it takes one doorbell count and descriptor STARTED
mod 1,024, and STARTED gains one; without a count it waits under HOLD and runs empty under ZERO; where its reads have to wait,
so does it. R251 to R258: a combining operation waits until every rank has been heard, sends its level-0 blocks, and with its
group's data sends the narrowed blocks to the other groups or, where there is none, ends its chunk: it writes its blocks and
ends after the last. A result block depends on what each rank sent in each phase, not on the order in which packets of
different ranks came. A NOP ends when every rank is heard. -/
def Obligations.CollectiveStarts : Prop :=
  (∀ (q : Eighth) (s : State), Powered s →
      (∀ (suit : Fin 4096) n x p, suitOf s.dev q suit = some x → x.starts[n]? = some p →
        let j := getJob s.dev q
        let comes := jobRuns s.dev q = true ∧ recursAt j.deal p.deal j.cursor = true ∧ 48 * p.play ≤ s.dev.time.phase
          ∧ (getSuit s.dev q suit).failed = false ∧ tget 0 j.fired (startKey suit n) ≠ j.cursor + 1
        (comes → Does (.startPoint q suit n) s (fun d =>
          modSuit q suit (fun u => { u with waiting := u.waiting ++ [256 * j.cursor + p.lead] })
            (modJob q (fun y => { y with fired := tset 0 y.fired (startKey suit n) (j.cursor + 1) }) d)))
        ∧ (¬ comes → NoEffect (.startPoint q suit n) s))
      ∧ (∀ (a : Position) (far : FarIn) p, ownerOf s.dev (a.val / 8) = some p →
        let c := Instr.collectiveStart ⟨a, far⟩
        ((jobRuns s.dev p = false ∨ (getPos s.dev a).isSome = true ∨ waitingSuit s.dev p (a.val - 8 * p) = none) → NoEffect c s)
        ∧ (∀ x, jobRuns s.dev p = true → getPos s.dev a = none → waitingSuit s.dev p (a.val - 8 * p) = some x →
          let u := getSuit s.dev p x.num
          let w := getAt 0 u.waiting 0
          let addr := x.qaddr + 64 * (u.started % 1024)
          let l := readBytes s.dev (gOff addr) 64
          let reads := coStartReads s.dev far p x addr l (coDescOf l)
          let st := firstBad [coStartStatus s.dev far p x l (coDescOf l), coFarStatus s.dev far reads]
          let begins := fun (c' : CoDesc) (empty : Bool) (reads : List (Nat × Nat)) (st : Nat) => Does c s (fun d =>
            coBegin far p a x (setPos a (some
              { q := p, suit := x.num, addr := addr, desc := c', empty := empty, index := (w / 256 + w % 256) % 2 ^ 48
                phase := 1, sub := 0, chunk := 0, rx := [], status := st, flags := 0, done := st != 0
                seq := (u.started + 1) % 2 ^ 32, told := [], out := 0 })
              (coEntry p x.num (modSuit p x.num (fun y =>
                { y with waiting := y.waiting.drop 1, db := y.db - 1, started := (y.started + 1) % 2 ^ 32 }) (coNote reads d)))))
          (u.failed = true → NoEffect c s)
          ∧ (u.failed = false →
              (u.db = 0 → x.policy % 2 = 0 → NoEffect c s)
              ∧ (u.db = 0 → x.policy % 2 = 1 → begins coDescZ true [] 0)
              ∧ (1 ≤ u.db → u.db ≤ 1024 →
                  (st = 0 → coReady s.dev far reads = false → NoEffect c s)
                  ∧ ((st ≠ 0 ∨ coReady s.dev far reads = true) → begins (coDescOf l) false reads st))
              ∧ (1024 < u.db → begins (coDescOf l) false [] 6)))))
  ∧ (∀ (a : Position) (far : FarIn) (s : State) (r : CoRun) (x : Suit),
      (∀ op i, (op, i) ∈ [(1, Instr.allreduce ⟨a, far⟩), (2, .reduceScatter ⟨a, far⟩), (3, .reduce ⟨a, far⟩)] →
        let me := myRank s.dev r.q x
        let lo := r.chunk
        let hi := coChunkEnd x r.desc lo
        let group := groupOf x me
        let sum := coSum r.desc
        let blocks := chunkBlocks lo hi
        let others := (ranksOf x).filter (fun k => !group.contains k)
        let away := (leadersOf x).filter (fun k => !group.contains k)
        let leads := fun (g : Dev → Dev) => if (leadersOf x).contains me then g else id
        let goesOn := fun (g : Dev → Dev) => Does i s (fun d => coStages op a (coCombineStage far) (coFuel s.dev a - 1) (g d))
        (CoGoes s a op r x →
          (r.phase = 1 →
            let reads := coLists x r.desc ++ coChunkReads s.dev far r.desc lo hi
            let st := firstBad [coReadStatus s.dev far r.q r.desc, coFarStatus s.dev far reads]
            let heard := (ranksOf x).all (coHeard r) = true ∧ (sum = true → coAll r group 2 hi = true)
            (¬ heard → NoEffect i s)
            ∧ (heard → r.empty = true → goesOn (setPos a (some { r with phase := 2 })))
            ∧ (heard → r.empty = false →
                (st ≠ 0 → Does i s (setPos a (some (coEnd st r))))
                ∧ (st = 0 → coReady s.dev far reads = false → NoEffect i s)
                ∧ (st = 0 → coReady s.dev far reads = true →
                    (sum = true → goesOn (fun d => coSend r.q x group
                      (coPack me 3 2 (hi - lo + 1) lo (blocks.map (coLevel0 s.dev far r x group)))
                      (coNote reads (setPos a (some { r with phase := 2 }) d))))
                    ∧ (sum = false → goesOn (fun d => coSend r.q x (ranksOf x)
                      (coCut me 3 128 (hi - lo + 1) lo (blocks.map (coOwnExtreme s.dev far r.desc)).flatten)
                      (coNote reads (setPos a (some { r with phase := 2 }) d)))))))
          ∧ (r.phase = 2 →
            let here := coAll r (if sum then group else ranksOf x) 3 (128 * hi)
            (here = false → NoEffect i s)
            ∧ (here = true → (sum = false ∨ away = []) → goesOn (coChunkDone far r.q a x r))
            ∧ (here = true → sum = true → away ≠ [] → goesOn (fun d => leads (coSend r.q x others
                (coCut me 4 1 (hi - lo + 1) lo (blocks.map (fun b => BitVec.ofNat 8 (narrowExp (coLevel1 r x group b)).1))))
                (setPos a (some { r with phase := 3, sub := 0 }) d))))
          ∧ (r.phase ≠ 1 → r.phase ≠ 2 → r.sub = 0 →
            let here := away.all (fun k => decide (hi ≤ (coBytes r k 4).length))
            (here = false → NoEffect i s)
            ∧ (here = true → goesOn (fun d => leads (coSend r.q x others (coPack me 5 4 (hi - lo + 1) lo
                (blocks.map (fun b => narrowBlock (coE2 r x me b) (coLevel1 r x group b)))))
                (setPos a (some { r with sub := 1 }) d))))
          ∧ (r.phase ≠ 1 → r.phase ≠ 2 → r.sub ≠ 0 →
            let here := away.all (fun k => decide (64 * hi ≤ (coBytes r k 5).length))
            (here = false → NoEffect i s) ∧ (here = true → goesOn (coChunkDone far r.q a x r)))))
      ∧ (∀ d : Dev,
          let me := myRank d r.q x
          let c := r.desc
          let hi := coChunkEnd x c r.chunk
          let waits := (coOwnBlocks x c me r.chunk hi).any (fun b => putWaits d (coBlockAddr x c me b) (coResultSize c))
          coBlocks c ≤ hi → r.empty = false →
          (coDstStatus d r.q x c me ≠ 0 → coChunkDone far r.q a x r d = setPos a (some (coEnd (coDstStatus d r.q x c me) r)) d)
          ∧ (coDstStatus d r.q x c me = 0 → waits = true → coChunkDone far r.q a x r d = d)
          ∧ (coDstStatus d r.q x c me = 0 → waits = false →
              coChunkDone far r.q a x r d = modPos a (coEnd 1) (coWriteBlocks a x me r.chunk hi r d)))
      ∧ (∀ (r' : CoRun) me b, r' = { r with rx := r'.rx } → (∀ rank phase, coFrom r rank phase = coFrom r' rank phase) →
          coResult r x me b = coResult r' x me b)
      ∧ (Powered s → coAt s.dev a = some (r, x) → r.done = false → r.desc.op = 0 → jobRuns s.dev r.q = true →
          ((∀ k, k ∈ ranksOf x → coHeard r k = true) → Does (.collectiveNop a) s (setPos a (some (coEnd 1 r))))
          ∧ ((∃ k, k ∈ ranksOf x ∧ coHeard r k = false) → NoEffect (.collectiveNop a) s)))

/-- R249, R251, R253, R261, R262: a row operation waits for the ranks whose preambles and counts it needs, then sends
its rows, each to its destination; with every row that it takes here, it writes them, the counts, row map and +0 rows
beside them, counts the rows dropped and ends with OK; a read or a write that is refused ends it with its status, and one
that has to wait keeps it. -/
def Obligations.RowOperations : Prop :=
  ∀ (a : Position) (far : FarIn) (s : State) (r : CoRun) (x : Suit) op i,
    (op, i) ∈ [(4, Instr.broadcast ⟨a, far⟩), (5, .allgather ⟨a, far⟩), (6, .gatherv ⟨a, far⟩), (7, .alltoallv ⟨a, far⟩), (8, .shuffle ⟨a, far⟩),
      (9, .combine ⟨a, far⟩), (10, .ringpass ⟨a, far⟩)] →
    let me := myRank s.dev r.q x
    let out := coRowsOut s.dev far x r.desc me
    let reads := coRowReads x r.desc out
    let rst := coRowReadStatus s.dev far r.q x r.desc out
    let rows := coRowsIn s.dev far r x me
    let kept := coRowsKept r.desc rows
    let drop := coDropped s.dev far r x me rows
    let side := coSideWrites r x me rows
    let writes := coRowWrites r side kept
    let wst := coWriteStatus s.dev r.q r.desc kept side
    let ends := fun (d : Dev) => modPos a (fun y => coEnd 1 { y with flags := if 0 < drop then 4 else 0 })
      (ctlAdd (regOff 6 0 0x54) drop d)
    let goesOn := fun (g : Dev → Dev) => Does i s (fun d => coStages op a (coRowStage far) 1 (g d))
    (CoGoes s a op r x → untold s.dev r x ≠ [] → Does i s (fun d =>
      let e := coTell r.q a x r d
      match coAt e a with
      | some (y, _) => coStages op a (coRowStage far) 1 (coRowStage far r.q a x y e)
      | none => e))
    ∧ (CoRuns s a op r x →
      (r.phase = 1 →
        let heard := (coSources x r.desc me).all (coHeard r) = true ∧ coAll r (coSources x r.desc me) 1 (4 * coExchangeN x r.desc) = true
        (¬ heard → NoEffect i s)
        ∧ (heard → r.empty = true → goesOn (setPos a (some { r with phase := 2 })))
        ∧ (heard → r.empty = false → rst ≠ 0 → Does i s (setPos a (some (coEnd rst r))))
        ∧ (heard → r.empty = false → rst = 0 → coReady s.dev far reads = false → NoEffect i s)
        ∧ (heard → r.empty = false → rst = 0 → coReady s.dev far reads = true → goesOn (fun d =>
            coSendRows far r.q x me r.desc out (coNote reads (setPos a (some { r with phase := 2 }) d)))))
      ∧ (r.phase ≠ 1 →
        let here := rows.all (fun y => coRowHere r y.rank y.row)
        let waits := writes.any (fun p => putWaits s.dev p.1 p.2.1.length)
        (here = false → NoEffect i s)
        ∧ (here = true → r.empty = true → Does i s ends)
        ∧ (here = true → r.empty = false → wst ≠ 0 → Does i s (setPos a (some (coEnd wst r))))
        ∧ (here = true → r.empty = false → wst = 0 → waits = true → NoEffect i s)
        ∧ (here = true → r.empty = false → wst = 0 → waits = false → Does i s (fun d =>
            ends (writes.foldl (fun e p => coPut a p.1 p.2.1 p.2.2 e) d)))))

/-- R250, R251, R252, R255, R264: a COLLECTIVE packet with a reserved field is UNROUTED; another is kept for the
operation of each member here that it names, or before its operation; an error completion of one ends the operation that
sent it. An operation that is done, its writes performed, writes its status and its suit's HEAD, one on, leaves its position
free and writes its flag; one that did not end OK is counted, stops its suit, raises the event and halts the job with
cause 5. -/
def Obligations.CollectivePacketsAndEnds : Prop :=
  ∀ s : State,
    (∀ (b : Arrival) (k : Packet), Arrives s b k → ForMe s b k →
      let g := k.arg.toNat
      let e := taken b k (fresh s.dev)
      let y : CoRx := ⟨bits g 61 48, bits g 15 12, bits g 39 16, bits g 47 40, k.payload, k.poison.toNat⟩
      ((bits g 63 62 ≠ 0 ∨ 8 ≤ bits g 15 12) →
        Does (.collective b k) s (fun d => answerError k 4 (ctlAdd (regOff 7 0 0x50) 1 (taken b k d))))
      ∧ (bits g 63 62 = 0 → bits g 15 12 < 8 → Does (.collective b k) s (fun d =>
          (suitParts e (bits g 11 0) y.rank (k.src.toNat % 2 ^ 15)).foldl (fun e q =>
            match suitOf e q (bits g 11 0) with
            | some x => coHear q x y e
            | none => e) (taken b k d)))
      ∧ (k.tag.toNat = 0 → k.status.toNat ≠ 0 → Does (.completion b k) s (fun d => coRefused g k.status.toNat (taken b k d))))
    ∧ (∀ (d : Dev) q x y,
        ((getSuit d q x.num).failed = true → coArrive q x y d = d)
        ∧ ((getSuit d q x.num).failed = false →
          (getPos d (8 * q + x.act) = none → coHear q x y d = modSuit q x.num (fun u => { u with early := u.early ++ [y] }) d)
          ∧ (∀ r, getPos d (8 * q + x.act) = some r → r.q = q → r.suit = x.num →
              coEarly x (myRank d q x) (getSuit d q x.num) (some r) y = false →
              coArrive q x y d = setPos (8 * q + x.act) (some (coTake x (getSuit d q x.num).started y r)) d
              ∧ (coUnlearned r = false → coHear q x y d = coArrive q x y d))))
    ∧ (∀ (d : Dev) q x r arg st, let n := bits arg 11 0;
        suitParts d n (bits arg 61 48) (myDev d) = [q] → suitOf d q n = some x → memEighth (getAt 0 x.members (bits arg 61 48)) = q →
        getPos d (8 * q + x.act) = some r → r.suit = n → r.done = false → st ≠ 3 →
        coRefused arg st d = setPos (8 * q + x.act) (some { r with status := 4, done := true }) d)
    ∧ (∀ (a : Position), Powered s →
        (∀ r, getPos s.dev a = some r → r.done = true → (r.out = 0 ∨ r.status ≠ 1) → Does (.collectiveComplete a) s (fun d =>
          let ends := leBytes 1 r.status ++ leBytes 1 r.flags
          let e1 := modSuit r.q r.suit (fun u => { u with head := (u.head + 1) % 2 ^ 32 })
            (if r.empty then d else unitWrite (gOff r.addr + 1) ends [] d)
          let entry := (getJob e1 r.q).deal.runaddr % 2 ^ 49 + 16 * r.suit
          let e2 := unitWrite (entry + 8) ends [] e1
          let e3 := setPos a none (unitWrite entry (leBytes 4 (getSuit e1 r.q r.suit).head) [] e2)
          if r.status ≠ 1 then coFailure a r e3
          else if r.empty ∨ r.desc.faddr = 0 then e3
          else (putFlag .opened 0 r.q r.desc.faddr (r.desc.ftag % 2 ^ 16 + 2 ^ 16 * r.index) e3).2))
        ∧ ((getPos s.dev a = none ∨ ∃ r, getPos s.dev a = some r ∧ (r.done = false ∨ (r.out ≠ 0 ∧ r.status = 1))) →
            NoEffect (.collectiveComplete a) s))
    ∧ (∀ a r (d : Dev), let f := coFailure a r d;
        (getSuit f r.q r.suit).failed = true ∧ (getSuit f r.q r.suit).waiting = []
        ∧ (getPage f (pageBase 6 0)).raw = (getPage d (pageBase 6 0)).raw ||| BitVec.ofNat 32 (2 ^ r.q)
        ∧ ctlNat f (regOff 6 0 0x48) = min (ctlNat d (regOff 6 0 0x48) + 1) 0xFFFFFFFF
        ∧ ctlNat f (regOff 6 0 0x44) = (r.suit + 2 ^ 16 * r.status + 2 ^ 24 * a) % 2 ^ 32
        ∧ (∀ q, q ≠ r.q → getJob f q = getJob d q)
        ∧ (jobRuns d r.q = true → (getJob f r.q).why = (if (getJob d r.q).why = 0 then 5 else min (getJob d r.q).why 5)))

/-! ## The input engine (R284 to R298) -/

/-- R286, R289, R290, R292, R298: an enabled queue that holds a count starts its next command, once the partition may
reach its slot and no older request there is queued; the command in progress whose deadline the cursor reaches is an
underrun, once, which halts the job with cause 3. A command at its end writes its STATUS and FLAGS, the head advances, and a
status other than OK is counted. EN set by the management complex starts the dictionary's check; EN cleared ends the command
in progress with ABANDONED; a field that changes under EN, and a rate above 96, are refused. -/
def Obligations.InputQueues : Prop :=
  ∀ (h : Half) (q : Queue) (s : State), Powered s →
    let x := getInq s.dev h q
    let o := inOff h q 8
    let starts := x.en = true ∧ x.ovr = false ∧ x.run = none ∧ x.db ≠ 0 ∧ inSlotFree s.dev h q = true
    (starts →
      let a := inSlot s.dev h q
      let l := readBytes s.dev (gOff a) 64
      Does (.inputCommandStart h q) s (fun d => underrun h q (modInq h q (fun y => { y with
        db := x.db - 1, started := x.started + 1
        run := some { addr := a, op := leAt l 0 1, deadline := leAt l 8 8, faddr := leAt l 16 8, ftag := leAt l 4 2
                      status := 0, flags := 0, done := false, next := 0 } }) (unitRead (gOff a) 64 d).2.2)))
    ∧ (¬ starts → NoEffect (.inputCommandStart h q) s)
    ∧ (∀ (d : Dev) r p, (getInq d h q).run = some r → ownerOf d (4 * h.val + q.val) = some p →
        let due := r.deadline ≠ 0 ∧ (getJob d p).loaded = true ∧ (getJob d p).started = true ∧ r.deadline ≤ (getJob d p).cursor
          ∧ bitAt r.flags 1 = false
        (due → underrun h q d = haltFor p 3 (event 15 h (4 + q.val) (ctlAdd (regOff 15 h 0x48) 1
          (modInq h q (fun y => { y with run := some { r with flags := r.flags + 2 } }) d))))
        ∧ (¬ due → underrun h q d = d))
    ∧ (s.dev.time.phase < 48 → Does (.inputDeadlineCheck h q) s (underrun h q))
    ∧ (48 ≤ s.dev.time.phase → NoEffect (.inputDeadlineCheck h q) s)
    ∧ (∀ r, x.run = some r → r.done = true →
        let p := (ownerOf s.dev (4 * h.val + q.val)).getD 0
        let tag := r.ftag % 2 ^ 16 + 2 ^ 16 * (if r.deadline = 0 then 2 ^ 48 - 1 else r.deadline % 2 ^ 48)
        let frees := fun (d : Dev) =>
          let e := if slotMay s.dev p r.addr then unitWrite (gOff r.addr + 1) (leBytes 1 r.status ++ leBytes 1 r.flags) [] d else d
          modInq h q (fun y => { y with run := none }) (ctlSetN (inOff h q 0x10) ((ctlNat e (inOff h q 0x10) + 1) % 2 ^ 32) e)
        (r.status ≠ 1 → Does (.inputCommandComplete h q) s (fun d => event 15 h q (ctlAdd (inOff h q 0x14) 1 (frees d))))
        ∧ (r.status = 1 → r.faddr = 0 → Does (.inputCommandComplete h q) s frees)
        ∧ (r.status = 1 → r.faddr ≠ 0 → Does (.inputCommandComplete h q) s (fun d => (putFlag .opened 0 p r.faddr tag (frees d)).2)))
    ∧ ((x.run = none ∨ ∃ r, x.run = some r ∧ r.done = false) → NoEffect (.inputCommandComplete h q) s)
    ∧ (∀ (r : Req) (v : Word), MgmtWrite s r o →
        let w := v.toNat % 2 ^ 10
        let en := v.toNat.testBit 0
        let i := if en then Instr.inQcfgEnable r h q v else .inQcfgDisable r h q v
        let kept := keepTokens (inBucket h q) (bits (inCfg s.dev h q) 7 1)
        (96 < bits w 7 1 → Does i s (refuse r (pageBase 15 h) o cValue true))
        ∧ (bits w 7 1 ≤ 96 →
          (x.en = true → w / 2 ≠ inCfg s.dev h q / 2 → Does i s (refuse r (pageBase 15 h) o cState true))
          ∧ (x.en = true → w / 2 = inCfg s.dev h q / 2 → en = true → NoEffect i s)
          ∧ (x.en = true → w / 2 = inCfg s.dev h q / 2 → en = false → Does i s (fun d =>
              modInq h q (fun y => { y with en := false, dict := if x.dict = 1 then 0 else x.dict }) (ctlSetN o (w / 2 * 2)
                (match x.run with
                  | some y => if y.done then d
                    else modInq h q (fun z => { z with run := some { y with status := 6, flags := y.flags ||| 0, done := true } }) d
                  | none => d))))
          ∧ (x.en = false → en = true → bits w 9 8 ≠ 0 → Does i s (fun d =>
              modInq h q (fun y => { y with en := true, dict := 1, derr := 0, ovr := false, db := 0, started := 0 })
                (ctlSetN o w (kept d))))
          ∧ (x.en = false → (en = false ∨ bits w 9 8 = 0) → Does i s (fun d => ctlSetN o (w / 2 * 2) (kept d)))))
    ∧ (∀ (r : Req) (v : Word), NoEffect (if v.toNat.testBit 0 then .inQcfgDisable r h q v else .inQcfgEnable r h q v) s)
    ∧ (x.dict = 1 → (dictCheck s.dev h q = 0 → Does (.dictionaryBuildDone h q) s (modInq h q (fun y => { y with dict := 2, derr := 0 })))
        ∧ (dictCheck s.dev h q ≠ 0 → Does (.dictionaryBuildDone h q) s
            (modInq h q (fun y => { y with dict := 3, derr := dictCheck s.dev h q }))))
    ∧ (x.dict ≠ 1 → NoEffect (.dictionaryBuildDone h q) s)

/-- R287, R288, R293 to R297: in its queue's turn a TOKENISE or IMAGE with a bad field ends with BAD_CMD, a TOKENISE without a
valid dictionary with NO_DICT; one that lacks bytes of the host, or whose sources or destinations older requests touch, waits.
A turn makes one sample a padded row of tokens with its length, or one row of patches of an image; after the last sample the
other rows are padded, and the command ends. The tokeniser takes the longest entry that the bytes begin with. -/
def Obligations.InputCommands : Prop :=
  ∀ (h : Half) (q : Queue) (host : HostBytes) (s : State), Powered s →
    ((inRun s.dev h q 1 = none ∨ inTurn s.dev 4 h q 1 = false) → NoEffect (.tokenise h q host) s)
    ∧ ((inRun s.dev h q 2 = none ∨ inTurn s.dev 6 h q 2 = false) → NoEffect (.image h q host) s)
    ∧ (∀ r l, inRun s.dev h q 1 = some (r, l) → inTurn s.dev 4 h q 1 = true →
      let c := Instr.tokenise h q host
      let dst := leAt l 24 8
      let lenv := leAt l 56 8
      let width := leAt l 48 4
      let pad := leAt l 52 4
      let samples := leAt l 40 4
      let rows := leAt l 44 4
      let pads := fun (d : Dev) => inputEnd h q 1 0
        (forN (rows - samples) (fun i => tokWrite dst lenv width pad (samples + i) []) d)
      let st := inFirst [inFlagStatus s.dev h q r.faddr, inWriteStatus s.dev h q dst (4 * width * rows), inWriteStatus s.dev h q lenv (4 * rows)]
      (tokBad s.dev h q l = true → Does c s (inputEnds 4 h q 2))
      ∧ (tokBad s.dev h q l = false → (getInq s.dev h q).dict ≠ 2 → Does c s (inputEnds 4 h q 3))
      ∧ (tokBad s.dev h q l = false → (getInq s.dev h q).dict = 2 →
        (st = 0 → NoEffect c s)
        ∧ (st ≠ 0 → st ≠ 1 → Does c s (inputEnds 4 h q st))
        ∧ (st = 1 → samples = 0 → Does c s (fun d => nextTurn (4 + h.val) q (pads d)))
        ∧ (st = 1 → samples ≠ 0 →
          let e := tokEntry s.dev h q host (leAt l 32 8) r.next
          let text := inRead s.dev h q host e.2.1 e.2.2
          let ts := tokens (dictEntries s.dev h (dictBase q)) (dictNat s.dev h (dictBase q + 8)) (e.2.2 + 1) text.2
          let long := decide (width < ts.length)
          let row := fun (d : Dev) => modInq h q (fun y => { y with
              run := y.run.map (fun z => { z with next := z.next + 1, flags := z.flags ||| b2n long }) })
            ((if long then ctlAdd (regOff 15 h 0x44) 1 else id) (tokWrite dst lenv width pad r.next ts
              (inSpend 4 h q (16 + e.2.2) (inNote e.2.1 e.2.2 (inNote (leAt l 32 8 + 16 * r.next) 16 d)))))
          (e.1 = 0 ∨ (e.1 = 1 ∧ text.1 = 0) → NoEffect c s)
          ∧ (e.1 ≠ 0 → e.1 ≠ 1 → Does c s (inputEnds 4 h q e.1))
          ∧ (e.1 = 1 → text.1 ≠ 0 → text.1 ≠ 1 → Does c s (inputEnds 4 h q text.1))
          ∧ (e.1 = 1 → text.1 = 1 → r.next + 1 < samples → Does c s row)
          ∧ (e.1 = 1 → text.1 = 1 → samples ≤ r.next + 1 → Does c s (fun d => pads (row d))))))
    ∧ (∀ r l, inRun s.dev h q 2 = some (r, l) → inTurn s.dev 6 h q 2 = true →
      let c := Instr.image h q host
      let par := inRead s.dev h q host (leAt l 56 8) 128
      (imgBad s.dev h q l = true → Does c s (inputEnds 6 h q 2))
      ∧ (imgBad s.dev h q l = false → par.1 = 0 → NoEffect c s)
      ∧ (imgBad s.dev h q l = false → par.1 ≠ 0 → par.1 ≠ 1 → Does c s (inputEnds 6 h q par.1))
      ∧ (imgBad s.dev h q l = false → par.1 = 1 →
        let x := imgCmd l par.2
        let wide := x.ow / imgSide x
        let tall := x.oh / imgSide x
        let size := imgSide x * imgSide x * imgChans x * 2
        let meshN := 8 * imgNx x * imgNy x
        let srcN := (x.h - 1) * imgPitch x + x.w * imgBpp x
        let mesh := if imgMesh x = 0 then (1, []) else inRead s.dev h q host (imgMesh x) meshN
        let src := inRead s.dev h q host x.src srcN
        let st := inFirst [inFlagStatus s.dev h q r.faddr, mesh.1, src.1, inWriteStatus s.dev h q x.dst (size * (wide * tall))]
        let begun := fun (d : Dev) => if r.next = 0 then
            inSpend 6 h q (128 + srcN + (if imgMesh x = 0 then 0 else meshN)) (inNote x.src srcN
              ((if imgMesh x = 0 then id else inNote (imgMesh x) meshN) (inNote (leAt l 56 8) 128 d)))
          else nextTurn (6 + h.val) q d
        let row := fun (d : Dev) => modInq h q (fun y => { y with run := y.run.map (fun z => { z with next := z.next + 1 }) })
          (forN wide (fun px => unitWrite (gOff x.dst + (r.next * wide + px) * size) (imgPatch x mesh.2 src.2 px r.next) []) (begun d))
        (imgParBad x = true → Does c s (inputEnds 6 h q 2))
        ∧ (imgParBad x = false →
          (st = 0 → NoEffect c s)
          ∧ (st ≠ 0 → st ≠ 1 → Does c s (inputEnds 6 h q st))
          ∧ (st = 1 → r.next + 1 < tall → Does c s row)
          ∧ (st = 1 → tall ≤ r.next + 1 → Does c s (fun d => inputEnd h q 1 0 (row d))))))
    ∧ (∀ (es : List (List Byte × Nat)) (b : List Byte) n t, longest es b = some (n, t) →
        (∃ e, e ∈ es ∧ e.1.length = n ∧ e.2 = t ∧ e.1.isPrefixOf b = true)
        ∧ ∀ e, e ∈ es → e.1.isPrefixOf b = true → e.1.length ≤ n)
    ∧ (∀ (es : List (List Byte × Nat)) (b : List Byte), longest es b = none ↔ ∀ e, e ∈ es → e.1.isPrefixOf b = false)
    ∧ (∀ n pad (ts : List Nat), (tokenRow n pad ts).length = 4 * n)

/-! ## The host link (R299 to R320) -/

/-- R299, R300, R366, R371: with PERST# deasserted the host link comes up at the highest rate and width that the host, the
settings and the lanes allow; without CXL every page is in device bias. A configuration request gets Request Retry Status
until the function is ready. An 8-byte write of `HL_WIN_BASE` that passes its checks sets it. R303, R304, R311, R313, R315: an
access of the host or a peer through the window, the peer aperture or the HDM range goes to the partition's memory that it
names, 256 bytes to a request, when the link is up and the checks pass; every other one completes as an unsupported request.
A CXL.mem access flips its pages to host bias first. A device access to a line in host bias takes what the host returns. -/
def Obligations.HostLinkAndAccesses : Prop :=
  (∀ s : State, Powered s →
      Does .perstDeassert s (modHl (fun y => { y with perst := true }))
      ∧ (∀ (rate : Fin 7) (width : Fin 4) (cxl : Fin 3),
          let r := min rate.val (bits (hostItem s.dev) 2 0)
          let w := min (min width.val (bits (hostItem s.dev) 4 3)) (pcieWidth (tget 0 s.dev.body.board.laneOut 24))
          let proto := hostProto r (bits (hostItem s.dev) 6 5) cxl
          let up := modHl (fun y => { y with rate := r, width := w, proto := proto })
          let tested := s.dev.body.bt.acts.any (fun a => a.kind == 5)
          (s.dev.body.hl.perst = true → tested = false → r ≠ 0 → w ≠ 0 →
            (proto ≠ 0 → Does (.hostLinkTrain rate width cxl) s up)
            ∧ (proto = 0 → Does (.hostLinkTrain rate width cxl) s (fun d => biasClear (up d))))
          ∧ ((s.dev.body.hl.perst = false ∨ tested = true ∨ r = 0 ∨ w = 0) → NoEffect (.hostLinkTrain rate width cxl) s))
      ∧ (s.dev.body.hl.rate = 0 → NoEffect .configRequest s)
      ∧ (s.dev.body.hl.rate ≠ 0 → s.dev.body.hl.ready = false → s.dev.power.phase ≠ 6 →
          Does .configRequest s (fun d => reply .waits (modHl (fun y => { y with crs := y.crs + 1 }) d)))
      ∧ (s.dev.body.hl.rate ≠ 0 → (s.dev.body.hl.ready = true ∨ s.dev.power.phase = 6) →
          Does .configRequest s (fun d => reply (.value (draw d).1) (draw d).2))
      ∧ (∀ r v, Passes s r (hlOff 0x50) 8 true → Does (.hlWinBaseWrite r v) s (setPair (hlOff 0x50) 0x1FFFFC0000000 v.toNat)))
  ∧ (∀ (d : Dev) v, ctlPair (setPair (hlOff 0x50) 0x1FFFFC0000000 v d) (hlOff 0x50) = (v &&& 0x1FFFFC0000000) % 2 ^ 64)
  ∧ (∀ out, out < 2 ^ 16 → (pcieWidth out = 2 ↔ (out % 2 ^ 8 = 0 ∧ out ≠ 0)) ∧ (pcieWidth out = 3 ↔ out = 0))
  ∧ (∀ (entry : Option Nat) a n wr (d : Dev),
      let ps := granules 256 (n + 1) a n
      let op := fun (p : Nat × Nat) => match wr with
        | some bs => MemReq.write ((bs.drop (p.1 - a)).take p.2) []
        | none => .read p.2
      let id := d.body.hl.winNext
      (256 < winUsed d + ps.length → hostIssue entry a n wr d = reply .waits d)
      ∧ (winUsed d + ps.length ≤ 256 → hostIssue entry a n wr d =
          ps.foldl (fun e p => issueLocal false p.1 (op p) (.window id) (p.1 - a) e) (modHl (fun y => { y with
            winNext := id + 1
            windows := tset none y.windows id (some ⟨entry, a, n, wr.isSome,
              ps.foldl (fun t p => tset 0 t (p.1 / 256) (partsOf d p.1 (op p))) [], [], []⟩) }) d)))
  ∧ (∀ (n : Nat) (wr : Option (List Byte)) (s : State),
      let len := accessLen n wr
      let perm := accessPerm wr
      let up := hostUp (fresh s.dev) = true ∧ 0 < len
      (∀ off : BitVec 36,
        let a := ctlPair s.dev (hlOff 0x50) + off.toNat
        let may := fun p => namedPart s.dev (hlOff 0x4C) = some p ∧ off.toNat + len ≤ 2 ^ 36 ∧ ownedRange s.dev p a len perm = true
        (∀ p, up → may p → Does (.hostWindowAccess off n wr) s (hostIssue none a len wr))
        ∧ (up → (∀ p, ¬ may p) → Does (.hostWindowAccess off n wr) s hostUr)
        ∧ (¬ up → NoEffect (.hostWindowAccess off n wr) s))
      ∧ (∀ off : BitVec 40,
        (up → inboundEntry s.dev off.toNat len = none → Does (.bar4Access off n wr) s hostUr)
        ∧ (∀ k r, up → inboundEntry s.dev off.toNat len = some (k, r) →
            let a := r.doff + (off.toNat - r.hoff)
            let may := (if wr.isSome then bits r.use 2 1 != 0 else bitAt r.use 0) = true
              ∧ checkLocal s.dev (ownerOf s.dev (k / 512)) (myDev s.dev) a len perm = .ok
            (may → Does (.bar4Access off n wr) s (hostIssue (some k) a len wr)) ∧ (¬ may → Does (.bar4Access off n wr) s hostUr))
        ∧ (¬ up → NoEffect (.bar4Access off n wr) s))
      ∧ (∀ off : BitVec 36,
        let c := Instr.hostCxlMemAccess off n wr
        let a := ctlPair s.dev (hlOff 0x58) + off.toNat
        let may := inHdm s.dev a = true ∧ inHdm s.dev (a + len - 1) = true
          ∧ checkLocal s.dev (namedPart s.dev (hlOff 0x60)) (myDev s.dev) a len perm = .ok
        let e := autoFlip a len (fresh s.dev)
        (up → s.dev.body.hl.proto ≠ 0 → may → (blocksOf a len).any (flipping e) = true → Does c s (fun d => reply .waits (autoFlip a len d)))
        ∧ (up → s.dev.body.hl.proto ≠ 0 → may → (blocksOf a len).any (flipping e) = false → Does c s (fun d =>
            hostIssue none a len wr (modHl (fun y => { y with answered := y.answered.filter (fun l => !overlaps l 64 a len) })
              (autoFlip a len d))))
        ∧ (up → s.dev.body.hl.proto ≠ 0 → ¬ may → Does c s hostUr)
        ∧ ((¬ up ∨ s.dev.body.hl.proto = 0) → NoEffect c s)))
  ∧ (∀ (off : BitVec 49) (s : State), Powered s →
      let l := off.toNat / 64 * 64
      let meets := hostBias s.dev off.toNat = true ∧ inHdm s.dev off.toNat = true ∧ flipping s.dev off.toNat = false
      let asks := fun (d : Dev) => if s.dev.body.hl.asked.contains l then d else modHl (fun y => { y with
        asked := y.asked ++ [l], snoops := if y.proto = 2 then y.snoops ++ [l] else y.snoops }) d
      (meets →
        (∀ bs, Does (.hostBiasAccess off (.data bs)) s (fun d => lineAnswered l (writeBytes l (bs.take 64) (asks d))))
        ∧ Does (.hostBiasAccess off .poison) s (fun d => lineAnswered l (forN 8 (fun i => poisonWord (l / 8 + i)) (asks d)))
        ∧ Does (.hostBiasAccess off .error) s (fun d => lineAnswered l (asks d))
        ∧ (∀ bs, Does (.hostBiasAccess off (.stall bs)) s asks))
      ∧ (∀ x, ¬ meets → NoEffect (.hostBiasAccess off x) s))

/-- R302, R305, R307 to R310, R313, R314, R318: the host writes and reads the command slots and the MSI-X table through BAR0;
the tail of a command queue moves by at most 32 commands. A command with a bad field stands with BAD_CMD, one outside its
partition's reach with ADDRESS; NOP does nothing, WRITE_INLINE and COPY_IN write the partition's memory, REGISTER fills a
region entry, UNREGISTER frees one and waits for what is in flight through it, BIAS flips pages. A command at its end writes
STATUS, the head advances, its vector is raised if it asks, and a status other than OK is counted and raised. -/
def Obligations.HostCommands : Prop :=
  (∀ (x : Bar0) (d : Dev), match x with
      | .write off l => bar0Access x d = (if bar0Mapped off.toNat l.length then
          msixSend ((l.zipIdx).foldl (fun e p => bar0Put (off.toNat + p.2) p.1 e) d) else hostUr d)
      | .read off n => bar0Access x d = (if bar0Mapped off.toNat n then
          reply (.data ((List.range n).map (fun i => bar0Byte d (off.toNat + i))) false) d else hostUr d))
  ∧ (∀ (q : Eighth) (i : Fin 32) (j : Fin 512) b (d : Dev), let o := 0x100000 + 0x200 * (32 * q.val + i.val) + j.val;
      bar0Byte (bar0Put o b d) o = b ∧ (slotBytes512 (bar0Put o b d) q i)[j.val]? = some b)
  ∧ (∀ (q : Eighth) (s : State), Powered s →
    (∀ (r : Req) (v : Word) l,
      let bars := fun (d : Dev) => if r = .host ∧ hostUp d then l.foldl (fun e x => bar0Access x e) d else d
      let e := bars (fresh s.dev)
      coreHalted e r = false → (∃ p o, gate e r (cqTail q) 4 true = .page p o) →
      ((v.toNat + 2 ^ 32 - ctlNat e (cqHead q)) % 2 ^ 32 ≤ 32 → Does (.hlCqTailWrite r q v l) s (fun d =>
          ctlSetN (cqTail q) v.toNat (modHl (fun y =>
            { y with fences := tset [] y.fences q ((tget [] y.fences q).filter (tailLive e q) ++ [(v.toNat, y.winNext)]) }) (bars d))))
      ∧ (32 < (v.toNat + 2 ^ 32 - ctlNat e (cqHead q)) % 2 ^ 32 →
          Does (.hlCqTailWrite r q v l) s (fun d => unsupported (bars d))))
    ∧ (∀ op c x b, (op, c) ∈ [(0, Instr.hostNop q), (1, .writeInline q), (2, .copyIn q x), (3, .register q), (4, .unregister q),
          (5, .bias ⟨q, b⟩)] →
        (getRun s.dev q = none → (ctlNat s.dev (cqTail q) = ctlNat s.dev (cqHead q) ∨ fenced s.dev q = true) → NoEffect c s)
        ∧ (∀ i cmd, HostFront s q i cmd → let st := cmdStatus s.dev (ownerOf s.dev q) (slotBytes512 s.dev q i) cmd;
            (st ≠ 0 → Does c s (setRun q (some ⟨i, st, 0⟩))) ∧ (st = 0 → cmd.op ≠ op → NoEffect c s))
        ∧ (∀ r, getRun s.dev q = some r → (r.status ≠ 0 ∨ op < 2 ∨ op = 3 ∨ (hostCmdOf (slotBytes512 s.dev q r.slot)).op ≠ op) →
            NoEffect c s))
    ∧ (∀ p c,
      let copies := fun (r : HostRun) =>
        let a := c.doff + r.at_
        let n := c.len - r.at_
        let may := (hostRange s.dev (.command q) (some p) (c.hoff + r.at_) n none).1 = 0 ∧ cmdWriteStatus s.dev p a n = 0
        let takes := fun st (bs : List Byte) (d : Dev) =>
          setRun q (some { r with status := st, at_ := r.at_ + bs.length }) (unitWrite a bs [] d)
        (¬ may → ∀ x, Does (.copyIn q x) s (setRun q (some { r with status := 3 })))
        ∧ (may →
          Does (.copyIn q .error) s (setRun q (some { r with status := 3 }))
          ∧ Does (.copyIn q .poison) s (setRun q (some { r with status := 5 }))
          ∧ (∀ bs, (unitWaits s.dev a (slice bs 0 n).length = true → NoEffect (.copyIn q (.data bs)) s)
              ∧ (unitWaits s.dev a (slice bs 0 n).length = false → Does (.copyIn q (.data bs)) s (takes 1 (slice bs 0 n))))
          ∧ (∀ bs, (unitWaits s.dev a (bs.take n).length = true → NoEffect (.copyIn q (.stall bs)) s)
              ∧ (unitWaits s.dev a (bs.take n).length = false → Does (.copyIn q (.stall bs)) s (takes 0 (bs.take n)))))
      (∀ i, HostNext s q p i c →
        let ends := fun (st : Nat) => setRun q (some ⟨i, st, 0⟩)
        let inlineBad := c.len < 4 ∨ 256 < c.len ∨ c.len % 4 ≠ 0 ∨ c.doff % 4 ≠ 0
        let outside := c.kind = 1 ∧ (2 ^ 49 ≤ c.doff ∨ ownedRange s.dev p c.doff c.len permR = false
          ∨ ((homeOf s.dev c.doff).kind ≠ 1 ∧ (homeOf s.dev c.doff).kind ≠ 2))
        let biasBad := c.doff % 4096 ≠ 0 ∨ c.len % 4096 ≠ 0 ∨ 1 < c.kind ∨ s.dev.body.hl.proto = 0
        (c.op = 0 → Does (.hostNop q) s (ends 1))
        ∧ (c.op = 1 →
          (inlineBad → Does (.writeInline q) s (ends 2))
          ∧ (¬ inlineBad → cmdWriteStatus s.dev p c.doff c.len ≠ 0 → Does (.writeInline q) s (ends 3))
          ∧ (¬ inlineBad → cmdWriteStatus s.dev p c.doff c.len = 0 → unitWaits s.dev c.doff c.len = true → NoEffect (.writeInline q) s)
          ∧ (¬ inlineBad → cmdWriteStatus s.dev p c.doff c.len = 0 → unitWaits s.dev c.doff c.len = false →
              Does (.writeInline q) s (fun d => ends 1 (unitWrite c.doff (c.inline_.take c.len) [] d))))
        ∧ (c.op = 2 → (c.len % 64 ≠ 0 → ∀ x, Does (.copyIn q x) s (ends 2)) ∧ (c.len % 64 = 0 → copies ⟨i, 0, 0⟩))
        ∧ (c.op = 3 → (registerBad s.dev p c = true → Does (.register q) s (ends 2))
          ∧ (registerBad s.dev p c = false → outside → Does (.register q) s (ends 3))
          ∧ (registerBad s.dev p c = false → ¬ outside → Does (.register q) s (fun d => ends 1 (modHl (fun y =>
              { y with regions := tset none y.regions c.region (some ⟨c.kind, c.hoff, c.doff, c.bus, c.len, c.use, none⟩) }) d))))
        ∧ (c.op = 4 → let none' := tget none s.dev.body.hl.regions c.region = none ∨ ownRegion s.dev p c.region = false;
          (none' → Does (.unregister q) s (ends 2))
          ∧ (¬ none' → Does (.unregister q) s (fun d => let e := freeEntry c.region d;
              ends (if tget none e.body.hl.regions c.region = none then 1 else 0) e)))
        ∧ (c.op = 5 → ∀ b, (biasBad → Does (.bias ⟨q, b⟩) s (ends 2))
          ∧ (¬ biasBad → Does (.bias ⟨q, b⟩) s (fun d => let x := flipPages p (c.kind == 1) b c.doff (c.len / 4096) 0 d;
              setRun q (some ⟨i, x.1, x.2.1⟩) x.2.2))))
      ∧ (∀ r, getRun s.dev q = some r → r.status = 0 → c = hostCmdOf (slotBytes512 s.dev q r.slot) →
        (c.op = 2 → ownerOf s.dev q = none → ∀ x, Does (.copyIn q x) s (setRun q (some { r with status := 3 })))
        ∧ (c.op = 2 → ownerOf s.dev q = some p → tearing s.dev p = true → ∀ x, Does (.copyIn q x) s (setRun q (some { r with status := 6 })))
        ∧ (c.op = 2 → ownerOf s.dev q = some p → tearing s.dev p = false → copies r)
        ∧ (c.op = 4 → (tget none s.dev.body.hl.regions c.region = none → Does (.unregister q) s (setRun q (some { r with status := 1 })))
          ∧ (tget none s.dev.body.hl.regions c.region ≠ none → NoEffect (.unregister q) s))
        ∧ (c.op = 5 → ownerOf s.dev q = some p → ∀ b, Does (.bias ⟨q, b⟩) s (fun d =>
            let x := flipPages p (c.kind == 1) b c.doff (c.len / 4096 - r.at_) r.at_ d
            setRun q (some { r with status := x.1, at_ := x.2.1 }) x.2.2))))
    ∧ (∀ r, getRun s.dev q = some r → r.status ≠ 0 →
        let l := slotBytes512 s.dev q r.slot
        let frees := fun (d : Dev) => dropFlight (.command q) (ctlSetN (cqHead q) ((ctlNat s.dev (cqHead q) + 1) % 2 ^ 32)
          (setRun q none (modHl (fun y => { y with
            slots := tset [] y.slots (slotKey q r.slot) (l.take 1 ++ leBytes 1 r.status ++ l.drop 2) }) d)))
        let tells := fun (d : Dev) => if bitAt (leAt l 2 1) 0 then msixRaise q (frees d) else frees d
        (r.status = 1 → Does (.hostCommandComplete q) s tells)
        ∧ (r.status ≠ 1 → Does (.hostCommandComplete q) s (fun d => event 8 0 q (ctlAdd (hlOff 0x70) 1 (tells d)))))
    ∧ ((getRun s.dev q = none ∨ ∃ r, getRun s.dev q = some r ∧ r.status = 0) → NoEffect (.hostCommandComplete q) s))
  ∧ (∀ p toHost host a n k (d : Dev),
      flipPages p toHost host a 0 k d = (1, k, d)
      ∧ (inHdm d (a + 4096 * k) = false → flipPages p toHost host a (n + 1) k d = (2, k, d))
      ∧ (inHdm d (a + 4096 * k) = true → checkLocal d (some p) (myDev d) (a + 4096 * k) 4096 permW ≠ .ok →
          flipPages p toHost host a (n + 1) k d = (3, k, d))
      ∧ (flipping d a = false → hostBias d a = toHost → flipPage toHost host a d = (true, d))
      ∧ (flipping d a = false → hostBias d a = false → pageInFlight d a = true → toHost = true →
          flipPage toHost host a d = (false, flipBegin false a d))
      ∧ (flipping d a = false → hostBias d a = true → toHost = false → d.body.hl.proto ≠ 2 →
          flipPage toHost host a d = (true, flipEnd false a d)))
  ∧ (∀ v (d : Dev),
      (msixMasked d v = true → msixRaise v d = modHl (fun y => { y with msixPend := setAdd y.msixPend v }) d)
      ∧ (msixMasked d v = false → msixRaise v d = modHl (fun y => { y with msix := y.msix ++ [v] }) d))

/-- R312, R316 to R318: an admitted read of host memory is answered with the host's bytes, a refused one with its
status; a write leaves with credit, or waits for it behind its requester's earlier ones; a hand's load of the host region
waits behind its own earlier host stores, and a store behind earlier ones to its bytes. Posted writes leave in order as
credit comes back, and are then performed. SNAPSHOT and LOG copy the partition's memory to the host, within their queue's rate,
and end as a ring's command does. A transfer at its deadline ends with HOST_STALL and is counted. -/
def Obligations.HostTransfers : Prop :=
  (∀ s : State, Powered s →
    (∀ (t : Sys2Proof.Tile) (h : HandId) (x : HostIn),
      let c := Instr.hostRegionAccess (.load t h) x
      (∀ o n, handHostLoad s.dev t h = some (o, n) → Does c s (hostFetch (tilePart s.dev t) 0 (.hand t h) o n x))
      ∧ (handHostLoad s.dev t h = none → NoEffect c s)
      ∧ (∀ id p, (getHand s.dev t h).posted.find? (fun y => y.id == id && y.res.isNone) = some p →
          (storeWaits s.dev (getHand s.dev t h).posted p = true → NoEffect (.hostRegionAccess (.store t h id) x) s)
          ∧ (∀ o bs bad, storeWaits s.dev (getHand s.dev t h).posted p = false → hostOffOf s.dev p.addr = some o → p.op = .write bs bad →
              Does (.hostRegionAccess (.store t h id) x) s (hostStore (tilePart s.dev t) 0 (.post t h id) o bs 0 x))))
    ∧ (∀ (t : Sys2Proof.Tile) req y r o (x : HostIn), reqOf s.dev t req = some r → hostOffOf s.dev r.addr = some o →
        (r.stage = .reading → (∀ z, z ∈ (getSt s.dev t).reqs → z.id = req → z = r) →
          Does (.hostRegionAccess (.stockRead t req y) x) s (hostFetch (tilePart s.dev t) 0 (.stockRead t req 0) o r.len x))
        ∧ (r.stage = .writing → (∀ z, z ∈ (getSt s.dev t).reqs → z.id = req → z = r) →
          Does (.hostRegionAccess (.stockWrite t req) x) s (hostStore (tilePart s.dev t) 0 (.stockWrite t req) o
            (r.data.foldl (fun l p => l.take p.1 ++ p.2 ++ l.drop (p.1 + p.2.length)) (List.replicate r.len 0)) 2 x)))
    ∧ (∀ id z o (x : HostIn), tget none s.dev.body.serves id = some z → homeOf s.dev z.addr = .host o →
        (z.kind = .read → Does (.hostRegionAccess (.remote id) x) s (hostFetch none z.dev (.remote id) o z.len x))
        ∧ (z.kind = .write → Does (.hostRegionAccess (.remote id) x) s
            (hostStore none z.dev (.remote id) o ((z.data.map (·.2)).flatten) 0 x)))
    ∧ (∀ n, let go := s.dev.body.hl.posted.take n;
        Does (.postedCreditReturn n) s (fun d => go.foldl (fun e w => postDone true w e)
          (modHl (fun y => { y with sent := y.sent ++ go }) (modHl (fun y => { y with posted := y.posted.drop n }) d))))
    ∧ (∀ (q : Eighth) i o, (i, o) ∈ [(fun z => Instr.snapshot q z, 1), (fun z => Instr.log q z, 2)] →
        let part := ownerOf s.dev q
        (∀ x, getWriter s.dev q = some x →
          (x.op = o → x.status = 0 → writerWaits s.dev x = false → ∀ z, Does (i z) s (writerRun q x z))
          ∧ ((x.op ≠ o ∨ x.status ≠ 0 ∨ writerWaits s.dev x = true) → ∀ z, NoEffect (i z) s))
        ∧ (getWriter s.dev q = none → ringNext s.dev (part.getD q) (wrRing q) = none → ∀ z, NoEffect (i z) s)
        ∧ (∀ slot, getWriter s.dev q = none → ringNext s.dev (part.getD q) (wrRing q) = some slot →
          let l := ringCmd s.dev slot
          let x := wrCmd l slot
          let rate := wrRate s.dev q
          let opens := x.op = o ∧ writerWaits s.dev x = false ∧ bucketOpen s.dev (wrBucket q) rate = true
          (wrBad l x = true → ∀ z, Does (i z) s (fun d => setWriter q (some { x with status := 2 }) (ringRead slot d)))
          ∧ (wrBad l x = false → ¬ opens → ∀ z, NoEffect (i z) s)
          ∧ (wrBad l x = false → opens →
              ∀ z, Does (i z) s (fun d => writerRun q x z (takeTokens (wrBucket q) rate x.len (ringRead slot d))))))
    ∧ (∀ (q : Eighth) x, getWriter s.dev q = some x →
        let p := (ownerOf s.dev q).getD q
        (x.status ≠ 0 → unitWaits s.dev (gOff x.slot) 32 = false → Does (.writerCommandComplete q) s (fun d =>
          dropFlight (.writer q) (ringEnd (wrRing q) (x.op + 1) p x.slot x.status x.faddr 8 0 p (setWriter q none d))))
        ∧ ((x.status = 0 ∨ unitWaits s.dev (gOff x.slot) 32 = true) → NoEffect (.writerCommandComplete q) s))
    ∧ (∀ (q : Eighth), getWriter s.dev q = none → NoEffect (.writerCommandComplete q) s)
    ∧ (let counted := ctlAdd (hlOff 0x68) 1;
      (∀ (h : Half) (q : Queue) m, getMover s.dev h q = some m → m.status = 0 →
        Does (.hostDeadlineExpiry (.mover h q)) s (fun d => counted (setMover h q (some { m with status := 4 }) d)))
      ∧ (∀ (q : Eighth) w, getWriter s.dev q = some w → w.status = 0 →
        Does (.hostDeadlineExpiry (.writer q)) s (fun d => counted (setWriter q (some { w with status := 4 }) d)))
      ∧ (∀ (q : Eighth) r, getRun s.dev q = some r → r.status = 0 → (hostCmdOf (slotBytes512 s.dev q r.slot)).op = 2 →
        Does (.hostDeadlineExpiry (.command q)) s (fun d => counted (setRun q (some { r with status := 4 }) d)))
      ∧ (∀ (q : Eighth) b, s.dev.body.hl.posted.any (fun w => w.who == .writeBack q b) = true →
        Does (.hostDeadlineExpiry (.writeback q b)) s (fun d =>
          dropFlight (.writeBack q b) (wbBlockEnd q b false (dropPosted (.writeBack q b) (counted d)))))
      ∧ (∀ (q : Eighth) b, s.dev.body.hl.posted.any (fun w => w.who == .writeBack q b) = false →
        NoEffect (.hostDeadlineExpiry (.writeback q b)) s)
      ∧ (∀ (t : Sys2Proof.Tile) req r, (getSt s.dev t).reqs.find? (fun z => z.id == req && (hostOffOf s.dev z.addr).isSome) = some r →
        (r.stage = .reading → Does (.hostDeadlineExpiry (.stock t req)) s (fun d => hostDone (.stockRead t req 0) 1 [] [] (counted d)))
        ∧ (r.stage = .writing → Does (.hostDeadlineExpiry (.stock t req)) s (fun d =>
            hostDone (.stockWrite t req) 1 [] [] (dropPosted (.stockWrite t req) (counted d)))))
      ∧ (∀ (t : Sys2Proof.Tile) (h : HandId),
        (handHostLoad s.dev t h ≠ none → Does (.hostDeadlineExpiry (.hand t h)) s (fun d => hostDone (.hand t h) 1 [] [] (counted d)))
        ∧ (∀ w, handHostLoad s.dev t h = none →
            s.dev.body.hl.posted.find? (fun w => match w.who with | .post u k _ => u == t.val && k == h.val | _ => false) = some w →
            Does (.hostDeadlineExpiry (.hand t h)) s (fun d => hostDone w.who 1 [] [] (dropPosted w.who (counted d)))))))
  ∧ (∀ q (x : WriterRun) (d : Dev),
      let part := ownerOf d q
      let a := gOff x.src + x.at_
      let n := x.len - x.at_
      let h := hostRange d (.writer q) part (x.host + x.at_) n (some (x.op + 1))
      let may := part ≠ none ∧ h.1 = 0 ∧ (n = 0 ∨ (gDev x.src = myDev d ∧ ownedRange d (part.getD 0) a n permR = true
        ∧ ((homeOf d a).kind = 1 ∨ (homeOf d a).kind = 2)))
      let sends := fun m st =>
        let r := unitRead a m d
        setWriter q (some { x with status := st, at_ := x.at_ + m }) (hostLeave (hostSends (.writer q) h.2 r.1 m) r.2.2)
      (¬ may → ∀ z, writerRun q x z d = setWriter q (some { x with status := 7 }) d)
      ∧ (may → poisoned d a n = true → ∀ z, writerRun q x z d = setWriter q (some { x with status := 6 }) (unitRead a n d).2.2)
      ∧ (may → poisoned d a n = false →
          writerRun q x .taken d = sends n 1 ∧ (∀ m, writerRun q x (.stall m) d = sends (min m n) x.status)
          ∧ writerRun q x .error d = setWriter q (some { x with status := 7 }) d))
  ∧ (∀ part src who o n (d : Dev), let a := hostAdmits d who part src o n none;
      (a.1 ≠ 0 → ∀ x, hostFetch part src who o n x d = hostDone who a.1 [] [] d)
      ∧ (a.1 = 0 → (∀ bs, hostFetch part src who o n (.data bs) d = hostDone who 0 (slice bs 0 n) [] d)
          ∧ hostFetch part src who o n .poison d = hostDone who 0 (List.replicate n 0) (List.range n) d
          ∧ hostFetch part src who o n .error d = hostDone who 1 [] [] d
          ∧ (∀ bs, hostFetch part src who o n (.stall bs) d = d)))
  ∧ (∀ part src who o bs purpose (d : Dev), let a := hostAdmits d who part src o bs.length (some purpose);
      (d.body.hl.posted.any (fun w => w.who == who) = true → ∀ x, hostStore part src who o bs purpose x d = d)
      ∧ (d.body.hl.posted.any (fun w => w.who == who) = false →
        (a.1 ≠ 0 → ∀ x, hostStore part src who o bs purpose x d = hostDone who a.1 [] [] d)
        ∧ (a.1 = 0 →
          (∀ y, hostStore part src who o bs purpose (.stall y) d = hostPost who a.2 bs d)
          ∧ (∀ y, hostStore part src who o bs purpose (.data y) d =
              (if d.body.hl.posted.any (fun w => sameRequester w.who who) then hostPost who a.2 bs d
               else hostDone who 0 [] [] (hostLeave [⟨who, a.2, bs⟩] d))))))

/-! ## Partitions, life cycle, debug and self-test (R321 to R337, R375 to R387) -/

/-- R323, R337, R377, R381: `PI_CMD` outside phase READY, or a SETUP while a CONNECTOR test asks for a reset, is refused with
STATE, and one while another command runs with BUSY. A SETUP whose shape does not fit its lowest eighth ends with code 1, one
with an eighth in use or being scrubbed with 2, one on a SCRAPPED device with 6. One whose eighths a self-test holds waits.
Every other makes the partition: each of its eighths names it, is powered (or will be, once it has stopped gating), and has
seed 0 and a fresh key, no other eighth changes, the service token ends, and PI_DONE is raised. A TEARDOWN of no partition
ends with code 3, of a loaded one with 4, with hands running with 5; otherwise SCRUB is set. -/
def Obligations.PartitionCommands : Prop :=
  (∀ (r : Req) (q : Eighth) (s : State) (shape : Fin 4) (enc erase : Bool) i, MgmtWrite s r (piOff 0x44) →
      i ∈ [Instr.setup r q shape enc, .teardown r q erase] →
      (s.dev.power.phase ≠ 5 → Does i s (refuse r (pageBase 3 0) (piOff 0x44) cState true))
      ∧ (s.dev.power.phase = 5 → s.dev.body.bt.needRst = true →
          Does (.setup r q shape enc) s (refuse r (pageBase 3 0) (piOff 0x44) cState true))
      ∧ (s.dev.power.phase = 5 → (i = .teardown r q erase ∨ s.dev.body.bt.needRst = false) → s.dev.body.piBusy = true →
          Does i s (refuse r (pageBase 3 0) (piOff 0x44) cBusy true)))
  ∧ (∀ (r : Req) (q : Eighth) (s : State), PartReady s r →
    (∀ (shape : Fin 4) (enc : Bool), s.dev.body.bt.needRst = false →
      let es := cmdEighths shape q
      let busy := es.any (fun e => let x := getEighth s.dev e; x.used || x.scrubbing || x.scrub)
      let tested := es.any (eighthTested s.dev)
      let t := setupDo q shape enc (fresh s.dev)
      (shapeFits shape q = false → Does (.setup r q shape enc) s (piDone 1))
      ∧ (shapeFits shape q = true → busy = true → Does (.setup r q shape enc) s (piDone 2))
      ∧ (shapeFits shape q = true → busy = false → s.dev.sec.lc = .scrapped → Does (.setup r q shape enc) s (piDone 6))
      ∧ (shapeFits shape q = true → busy = false → s.dev.sec.lc ≠ .scrapped → tested = true →
          Does (.setup r q shape enc) s (modBody (fun b => { b with setupWait := some ⟨q, shape, enc⟩, piBusy := true })))
      ∧ (shapeFits shape q = true → busy = false → s.dev.sec.lc ≠ .scrapped → tested = false →
          Does (.setup r q shape enc) s (setupDo q shape enc)
          ∧ Eighths es (fun x => { x with
              used := true, shape := shape, lowest := q, enc := enc, msw := decide (2 ≤ shape.val)
              domain := if x.domain = .gating then .gating else .on, onWaits := decide (x.domain = .gating) }) s.dev t
          ∧ (∀ e, e ∈ es → ctlNat t (regOff 12 (e / 4) (0x90 + 4 * (e % 4))) = 0
              ∧ tget 0 t.mem.cur e = (if enc then s.dev.body.free + 1 else 0))
          ∧ ctlNat t (regOff 10 0 0x48) = 0 ∧ t.body.piCode = 0 ∧ t.body.piBusy = false
          ∧ bitAt (getPage t (pageBase 3 0)).raw.toNat 0 = true))
    ∧ (∀ erase : Bool,
      (isPart s.dev q = false → Does (.teardown r q erase) s (piDone 3))
      ∧ (isPart s.dev q = true → (getJob s.dev q).loaded = true → Does (.teardown r q erase) s (piDone 4))
      ∧ (isPart s.dev q = true → (getJob s.dev q).loaded = false → handsRun s.dev q = true → Does (.teardown r q erase) s (piDone 5))
      ∧ (isPart s.dev q = true → (getJob s.dev q).loaded = false → handsRun s.dev q = false →
          Does (.teardown r q erase) s (fun d => (partEighths s.dev q).foldl (fun a e => modEighth e (fun x =>
            { x with scrub := true, erase := erase, tearAt := s.dev.time.trick }) a) (modBody (fun b => { b with piBusy := true }) d)))))

/-- R324: in the trick after an accepted TEARDOWN the partition's gate closes, and its mover, flash and input queues and
its writer end. Three tricks after it the scrub starts: the partition's HBM and GDDR7 read as zeros under no key, its tiles'
slots, hand instructions and registers, its dictionary region and its positions are cleared. Once the scrub has taken its
tricks the eighths are free, their flash zones reset if the TEARDOWN asked for it, and PI_DONE is raised with code 0. -/
def Obligations.PartitionScrub : Prop :=
  ∀ (q : Eighth) (s : State),
    let es := partEighths s.dev q
    let x := getEighth s.dev q
    let gates := isPart s.dev q = true ∧ x.scrub = true ∧ x.gate = false ∧ x.tearAt + 1 ≤ s.dev.time.trick
    let scrubs := isPart s.dev q = true ∧ x.gate = true ∧ x.scrubbing = false ∧ x.tearAt + 3 ≤ s.dev.time.trick
    let frees := isPart s.dev q = true ∧ x.scrubbing = true ∧ x.tearAt + 3 + scrubTricks s.dev q ≤ s.dev.time.trick
    (gates →
      (Does (.partitionGateClose q) s (fun d =>
        let e := hlTeardown q ((partQueues s.dev q).foldl (fun a p => inTeardown p.1 p.2 (flTeardown p.1 p.2 (mvTeardown p.1 p.2 a))) d)
        (partEighths e q).foldl (fun a k => modEighth k (fun y => { y with gate := true }) a) e))
      ∧ ∃ s', exec (.partitionGateClose q) s = .next s' ∧ Rest s s' ∧ Eighths es (fun y => { y with gate := true }) s.dev s'.dev
        ∧ getWriter s'.dev q = none
        ∧ (∀ p, p ∈ partQueues s.dev q → getFlash s'.dev p.1 p.2 = none ∧ getMover s'.dev p.1 p.2 = none
            ∧ (getInq s'.dev p.1 p.2).en = false))
    ∧ (¬ gates → NoEffect (.partitionGateClose q) s)
    ∧ (scrubs →
      (Does (.scrubStart q) s (fun d => es.foldl (fun a e => modEighth e (fun y => { y with scrubbing := true }) a)
        (es.foldl (fun a e => scrubEighth e a) d)))
      ∧ ∃ s', exec (.scrubStart q) s = .next s' ∧ Rest s s' ∧ Eighths es (fun y => { y with scrubbing := true }) s.dev s'.dev
        ∧ (∀ e, e ∈ es → tget 0 s'.dev.mem.cur e = 0
          ∧ (∀ a, (hbmRange s.dev e).1 ≤ a → a < (hbmRange s.dev e).1 + (hbmRange s.dev e).2 → tget (0 : Byte) s'.dev.mem.cells a = 0)
          ∧ (∀ i a, i < 3 → (gddrRange s.dev (3 * e + i)).1 ≤ a → a < (gddrRange s.dev (3 * e + i)).1 + (gddrRange s.dev (3 * e + i)).2 →
              tget (0 : Byte) s'.dev.mem.cells a = 0)
          ∧ (∀ a, a < 8 → getPos s'.dev (8 * e + a) = none)
          ∧ (∀ t, t ∈ eighthTiles e → (getTile s'.dev t).slots = [] ∧ (getTile s'.dev t).imem = []
            ∧ ∀ h, h < 64 → (getHand s'.dev t h).g = [] ∧ (getHand s'.dev t h).w = [])))
    ∧ (¬ scrubs → NoEffect (.scrubStart q) s)
    ∧ (frees →
      (Does (.scrubEnd q) s (fun d => piDone 0 (es.foldl (fun a e => modEighth e (fun y =>
          { EighthSt.z with domain := y.domain, offAt := y.offAt, onWaits := y.onWaits }) a)
        (if x.erase then es.foldl (fun a e => eraseFlash e a) d else d))))
      ∧ ∃ s', exec (.scrubEnd q) s = .next s' ∧ Rest s s'
        ∧ Eighths es (fun y => { EighthSt.z with domain := y.domain, offAt := y.offAt, onWaits := y.onWaits }) s.dev s'.dev
        ∧ s'.dev.body.piCode = 0 ∧ s'.dev.body.piBusy = false ∧ Raised s' 3 0 0
        ∧ (x.erase = true → ∀ e, e ∈ es → ∀ i, i < pairSize s.dev e / Config.zoneSize → getZone s'.dev (2048 * e + i) = Zone.z))
    ∧ (¬ frees → NoEffect (.scrubEnd q) s)

/-- R331, R333, R335, R336: a transition of the life cycle that Table PI-7 has, asked for in a secured session by a signer who
may and with no partition set up, is fused and takes effect at the next reset; one with a false signer is counted. An unlock is
counted, and opens debug if the state, the signer and the partitions allow. An open debug port halts and resumes cores,
hands and tiles, a closed one nothing. R301, R332: over the host function a measurement request is answered with the digest of
what its index measures, the certificate where there is one, and a secured session lets keys for link encryption be set. A
SCRAPPED device attests its state alone. -/
def Obligations.LifeCycleDebugAndAttestation : Prop :=
  (∀ a b by_, (lcEdge a b = true ∧ lcSigned a b by_ = true) ↔ ∃ l, (a, b, l) ∈ lcTable ∧ by_ ∈ l)
  ∧ (∀ s : State,
      (∀ (into : LcState) (by_ : Signer) (owner : BitVec 384),
        let a := s.dev.sec.lc
        let c := Instr.lcTransitionRequest into ⟨by_, owner⟩
        let heard := s.dev.sec.session = true ∧ s.dev.sec.next = none ∧ lcEdge a into = true
        let may := noParts s.dev = true ∧ (a = .return_ → into = .provisioned → s.dev.sec.owners.length < 4)
        (¬ heard → DoesSec c s id)
        ∧ (heard → lcSigned a into by_ = false → DoesSec c s countUnlock)
        ∧ (heard → lcSigned a into by_ = true → ¬ may → DoesSec c s id)
        ∧ (heard → lcSigned a into by_ = true → may →
            DoesSec c s (fun d => { d with sec := { d.sec with next := some into, named := owner } })))
      ∧ (∀ by_ : Signer,
        let may := (s.dev.sec.lc = .provisioned ∧ by_ = .vendor) ∨ (s.dev.sec.lc = .production ∧ by_ = .owner ∧ noParts s.dev = true)
        (may → DoesSec (.debugUnlock by_) s (fun d => let e := countUnlock d; { e with sec := { e.sec with unlocked := true } }))
        ∧ (¬ may → DoesSec (.debugUnlock by_) s countUnlock))
      ∧ (debugOpen s.dev.sec = false → ∀ x, NoEffect (.debugHalt x) s ∧ NoEffect (.debugResume x) s)
      ∧ (debugOpen s.dev.sec = true →
        (∀ c, Does (.debugHalt (.core c)) s (modBody (fun b => { b with coreHalt := setAdd b.coreHalt c.val }))
          ∧ Does (.debugResume (.core c)) s (modBody (fun b => { b with coreHalt := setDel b.coreHalt c.val })))
        ∧ (∀ t, (Powered s → Does (.debugHalt (.tile t)) s (modBody (fun b => { b with tileHalt := setAdd b.tileHalt t.val })))
          ∧ (¬ Powered s → NoEffect (.debugHalt (.tile t)) s)
          ∧ Does (.debugResume (.tile t)) s (modBody (fun b => { b with tileHalt := setDel b.tileHalt t.val })))
        ∧ (∀ (t : Sys2Proof.Tile) (h : HandId),
            (Powered s → Does (.debugHalt (.hand t h)) s (modHand t h (fun y =>
              if y.state = .debug then y else { y with state := .debug, before := y.state })))
            ∧ (¬ Powered s → NoEffect (.debugHalt (.hand t h)) s)
            ∧ Does (.debugResume (.hand t h)) s (fun d => ownLand t h (modHand t h (fun y =>
                if y.state = .debug then { y with state := y.before, before := .idle } else y) d)))))
  ∧ (∀ s : State,
      let sec := s.dev.sec
      let gone := sec.lc = .scrapped
      let up := hostUp (fresh s.dev) = true
      let answers := fun (v : Option Dword) (d : Dev) => reply (match v with | some x => .value x | none => .unsupported) d
      (¬ up → ∀ x, DoesSec (.spdmRequest x) s id)
      ∧ (up →
        (∀ i : Fin 256, (gone → i ≠ 4 → DoesSec (.spdmRequest (.measurement i)) s (reply .unsupported))
          ∧ ((¬ gone ∨ i = 4) → DoesSec (.spdmRequest (.measurement i)) s (answers (measurement s.dev i))))
        ∧ (¬ gone → sec.cert = true → sec.secret = .fused → DoesSec (.spdmRequest .certificate) s (reply (.value (Config.digest 256 []))))
        ∧ ((gone ∨ sec.cert = false ∨ sec.secret ≠ .fused) → DoesSec (.spdmRequest .certificate) s (reply .unsupported))
        ∧ (gone → DoesSec (.spdmRequest .keyExchange) s (reply .unsupported))
        ∧ (¬ gone → DoesSec (.spdmRequest .keyExchange) s (fun d => { d with sec := { d.sec with session := true } }))
        ∧ DoesSec (.spdmRequest .endSession) s (fun d => { d with sec := { d.sec with session := false } })
        ∧ ((gone ∨ sec.session = false) → DoesSec (.spdmRequest .ideKeys) s (reply .unsupported))
        ∧ (¬ gone → sec.session = true → DoesSec (.spdmRequest .ideKeys) s (fun d => { d with sec := { d.sec with ide := true } }))))
  ∧ (∀ d : Dev,
      (∀ i, 1 ≤ i → i ≤ 3 → measurement d i = some ((d.sec.taken[i - 1]?).getD 0))
      ∧ measurement d 4 = some (Config.digest 4 [LcState.code d.sec.lc, b2n (debugOpen d.sec), d.sec.epoch])
      ∧ (∀ i, 16 ≤ i → i < 24 → isPart d (i - 16) = false → measurement d i = some 0)
      ∧ (∀ i, (i = 0 ∨ (5 < i ∧ i < 16) ∨ 24 ≤ i) → measurement d i = none))

/-- R376 to R379: a START of an activity leaves its code; with code 0 the activity runs and holds its token, and PCIE resets
the host link. An activity whose resource a partition owns is refused, and so is one whose token is held. An ABORT of an
activity that runs is noted, of another answered with code 7. A service token that verifies in a secured session puts its
bitmap into `BT_AUTH` and draws a new nonce, any other is counted. R381, R383, R385, R386: an activity that ends writes one
record for each result into its log, counts it, raises BT_REPAIR for a repair that it proposes and BT_RESTORE for what it
could not restore, releases its token and raises BT_DONE. An aborted one leaves the record of an abort. A CONNECTOR test asks
for a reset. -/
def Obligations.SelfTests : Prop :=
  (∀ (r : Req) (kind : Fin 16) (unit : Byte) (s : State),
      (MgmtWrite s r (regOff 10 0 0x40) →
        (∀ mode : Fin 4,
          let c := btStartCode s.dev kind unit.toNat mode
          let runs := modBt (fun b => { b with code := 0, acts := b.acts ++ [⟨kind, unit.toNat, mode, false⟩] })
          (c ≠ 0 → DoesAll (.btStart r kind unit mode) s (modBt (fun b => { b with code := c })))
          ∧ (c = 0 → kind.val ≠ 5 → DoesAll (.btStart r kind unit mode) s runs)
          ∧ (c = 0 → kind.val = 5 → DoesAll (.btStart r kind unit mode) s (fun d =>
              modHl (fun y => { y with perst := s.dev.body.hl.perst }) (hostResets (runs d))))
          ∧ ((btOwner s.dev kind unit.toNat).isSome = true → c ≠ 0)
          ∧ (s.dev.body.bt.acts.any (fun a => btToken a.kind a.unit == btToken kind unit.toNat) = true → c ≠ 0)
          ∧ (btDenied s.dev kind = true → c ≠ 0))
        ∧ (btUnits kind ≤ unit.toNat → Does (.btAbort r kind unit) s (modBt (fun b => { b with code := 5 })))
        ∧ (unit.toNat < btUnits kind → s.dev.body.bt.acts.any (fun a => a.kind == kind.val && a.unit == unit.toNat) = false →
            Does (.btAbort r kind unit) s (modBt (fun b => { b with code := 7 })))
        ∧ (unit.toNat < btUnits kind → s.dev.body.bt.acts.any (fun a => a.kind == kind.val && a.unit == unit.toNat) = true →
            Does (.btAbort r kind unit) s (modBt (fun b => { b with code := 0, acts := b.acts.map (fun a =>
              if a.kind = kind.val ∧ a.unit = unit.toNat then { a with aborting := true } else a) }))))
      ∧ (∀ (by_ : Signer) (serialOk : Bool) (nonce : Word) (kinds : BitVec 9),
        let ok := s.dev.sec.session = true ∧ serialOk = true ∧ nonce = s.dev.body.bt.nonce
          ∧ ((s.dev.sec.lc = .provisioned ∧ by_ = .vendor) ∨ (s.dev.sec.lc = .production ∧ by_ = .owner))
        (ok → Does (.serviceToken by_ serialOk nonce kinds) s (fun d =>
            modBt (fun b => { b with nonce := BitVec.ofNat 32 (draw d).1.toNat })
              (ctlSetN (regOff 10 0 0x48) (kinds.toNat &&& 0x1FE) (draw d).2)))
        ∧ (¬ ok → Does (.serviceToken by_ serialOk nonce kinds) s countUnlock)))
  ∧ (∀ (kind : Fin 16) (unit : Byte) (s : State),
      (Testing s kind unit.toNat false → ∀ l, l ≠ [] → Does (.testComplete kind unit l) s (btEnd kind unit.toNat l))
      ∧ (Testing s kind unit.toNat true → Does (.abortEffect kind unit) s (btEnd kind unit.toNat [abortRec]))
      ∧ (∀ x : TestRec, s.dev.body.setupWait = none → Testing s kind unit.toNat false →
        ∃ s', exec (.testComplete kind unit [x]) s = .next s' ∧ TestEnds s s' kind unit.toNat
          ∧ TestLogged s' s.dev.body.bt.resCnt kind unit.toNat x
          ∧ s'.dev.body.bt.resCnt = (s.dev.body.bt.resCnt + 1) % 2 ^ 32
          ∧ (x.repair.val ≠ 0 → Raised s' 10 0 1) ∧ (x.outcome.val = 4 → Raised s' 10 0 2)
          ∧ (kind.val = 7 → s'.dev.body.bt.needRst = true))
      ∧ (s.dev.body.setupWait = none → Testing s kind unit.toNat true →
        ∃ s', exec (.abortEffect kind unit) s = .next s' ∧ TestEnds s s' kind unit.toNat
          ∧ TestLogged s' s.dev.body.bt.resCnt kind unit.toNat abortRec
          ∧ s'.dev.body.bt.resCnt = (s.dev.body.bt.resCnt + 1) % 2 ^ 32)
      ∧ (¬ Testing s kind unit.toNat false → ∀ l, NoEffect (.testComplete kind unit l) s)
      ∧ NoEffect (.testComplete kind unit []) s
      ∧ (¬ Testing s kind unit.toNat true → NoEffect (.abortEffect kind unit) s))
  ∧ (∀ d : Dev, (d.body.setupWait = none → setupGoes d = d)
      ∧ (∀ w, d.body.setupWait = some w →
          ((cmdEighths w.shape w.q).any (eighthTested d) = true → setupGoes d = d)
          ∧ ((cmdEighths w.shape w.q).any (eighthTested d) = false →
              setupGoes d = setupDo w.q w.shape w.enc (modBody (fun b => { b with setupWait := none }) d))))

/-! ## Power, reset and start-up (R349 to R374, R417 to R421) -/

/-- R351, R353: the limiter keeps the last 16 samples. A sample above 2,000 W sets its duty to 8; a first average above
`PW_LIMIT` lowers it by one at once, each 2 µs more by one again, down to 8, and 32 µs below 0.97 of the limit raise it
by one, up to 16. The first lowering from 16 raises LIMIT_ON. A falling PS_ALERT_N raises PS_ALERT. With main power off no
sample counts. -/
def Obligations.Limiter : Prop :=
  ∀ s : State, Safety.DutyOk s →
    (Powered s → ∀ power vin : BitVec 16,
      let l := (power.toNat :: s.dev.power.samples).take 16
      let below := decide (100 * l.foldl (· + ·) 0 < 97 * (l.length * (10 * ctlNat s.dev (pwOff 0x48))))
      (DoesPower (.limiterSample power vin) s (fun d =>
        let e := averageStep (modPower (fun p => { p with samples := l, vin := vin.toNat }) d)
        if 20000 < power.toNat then setDuty 8 e else e))
      ∧ ∃ s', exec (.limiterSample power vin) s = .next s' ∧ RestPower s s' ∧ s'.dev.mem = s.dev.mem
        ∧ s'.dev.power.samples = l ∧ s'.dev.power.vin = vin.toNat ∧ s'.dev.power.tduty = s.dev.power.tduty
        ∧ (20000 < power.toNat → s'.dev.power.pduty = 8)
        ∧ (power.toNat ≤ 20000 → AboveLimit s l → s.dev.power.isOver = false → s'.dev.power.pduty = max 8 (s.dev.power.pduty - 1))
        ∧ (power.toNat ≤ 20000 → AboveLimit s l → s.dev.power.isOver = true → s'.dev.power.pduty = s.dev.power.pduty)
        ∧ (AboveLimit s l → s'.dev.power.isOver = true ∧ s'.dev.power.below = 0
            ∧ s'.dev.power.ovr = (if s.dev.power.isOver then s.dev.power.ovr + 1 else 0))
        ∧ (power.toNat ≤ 20000 → ¬ AboveLimit s l → s'.dev.power.pduty = s.dev.power.pduty)
        ∧ (¬ AboveLimit s l → s'.dev.power.isOver = false ∧ s'.dev.power.ovr = 0
            ∧ s'.dev.power.below = (if below then s.dev.power.below + 1 else 0))
        ∧ (s.dev.power.pduty = 16 → s'.dev.power.pduty < 16 → Raised s' 9 0 2))
    ∧ (Powered s → s.dev.power.isOver = true → 2 ≤ s.dev.power.ovr →
        (DoesPower .limiterDutyStep s (fun d => setDuty (s.dev.power.pduty - 1) (modPower (fun p => { p with ovr := 0 }) d)))
        ∧ ∃ s', exec .limiterDutyStep s = .next s' ∧ RestPower s s' ∧ s'.dev.mem = s.dev.mem
          ∧ s'.dev.power = { s.dev.power with pduty := max 8 (s.dev.power.pduty - 1), ovr := 0 }
          ∧ (s.dev.power.pduty = 16 → Raised s' 9 0 2))
    ∧ (Powered s → (s.dev.power.isOver = false ∨ s.dev.power.ovr < 2) → 33 ≤ s.dev.power.below → s.dev.power.pduty < 16 →
        DoesPower .limiterDutyStep s (modPower (fun p => { p with pduty := s.dev.power.pduty + 1, below := 1 })))
    ∧ (Powered s → (s.dev.power.isOver = false ∨ s.dev.power.ovr < 2) → (s.dev.power.below < 33 ∨ s.dev.power.pduty = 16) →
        DoesPower .limiterDutyStep s id)
    ∧ (¬ Powered s → (∀ power vin, DoesPower (.limiterSample power vin) s id) ∧ DoesPower .limiterDutyStep s id)
    ∧ Does .psAlert s (event 9 0 1)

/-- R355, R356: a temperature at WARN raises THERM_WARN once, one at GATE lowers the thermal duty by one, and one at 105 °C
also removes main power and starts the lockout. The duty falls again each 100 µs at GATE, down to 8, and rises after each
100 µs that is 5 °C cooler, up to 16. -/
def Obligations.ThermalLimits : Prop :=
  ∀ s : State, Safety.DutyOk s →
    let p := s.dev.power
    (Powered s → ∀ east west : List Byte,
      let t := hottestOf east west
      let i := Instr.dieTempSample east west
      let top := fun (l : List Byte) => l.foldl (fun a b => max a b.toNat) 0
      let evals := fun (d : Dev) => thermEval (modPower (fun p => { p with tempEast := top east, tempWest := top west }) d)
      (105 ≤ t → (DoesPower i s (fun d => mainFail 4 (evals d)))
        ∧ ∃ s', exec i s = .next s' ∧ RestPower s s' ∧ s'.dev.power.mainOn = false
          ∧ s'.dev.power.phase = 7 ∧ s'.dev.power.offCause = 4 ∧ s'.dev.power.lockout = true ∧ Raised s' 9 0 0 ∧ MemoryLost s')
      ∧ (t < 105 → (DoesPower i s (fun d => modPower (fun x => { x with
            hotFor := if p.gating && x.gating then x.hotFor + 1 else 0
            coolFor := if t + 5 ≤ gateAt s.dev then x.coolFor + 1 else 0 }) (evals d)))
        ∧ ∃ s', exec i s = .next s' ∧ RestPower s s' ∧ s'.dev.mem = s.dev.mem ∧ s'.dev.power.mainOn = true)
      ∧ ∃ s', exec i s = .next s' ∧ max s'.dev.power.tempEast s'.dev.power.tempWest = t ∧ s'.dev.power.pduty = p.pduty
          ∧ (warnAt s.dev ≤ t → p.warned = false → Raised s' 9 0 3 ∧ s'.dev.power.warned = true)
          ∧ (t + 5 ≤ warnAt s.dev → s'.dev.power.warned = false)
          ∧ (gateAt s.dev ≤ t → p.gating = false → s'.dev.power.tduty = max 8 (p.tduty - 1) ∧ s'.dev.power.gating = true
              ∧ (p.tduty = 16 → Raised s' 9 0 4))
          ∧ (gateAt s.dev ≤ t → p.gating = true → s'.dev.power.tduty = p.tduty)
          ∧ (t < gateAt s.dev → s'.dev.power.tduty = p.tduty ∧ s'.dev.power.gating = false))
    ∧ (Powered s → p.gating = true → 10 ≤ p.hotFor → (DoesPower .thermalDutyStep s lowerThermal)
        ∧ ∃ s', exec .thermalDutyStep s = .next s' ∧ RestPower s s' ∧ s'.dev.mem = s.dev.mem
          ∧ s'.dev.power = { p with tduty := max 8 (p.tduty - 1), hotFor := 0 } ∧ (p.tduty = 16 → Raised s' 9 0 4))
    ∧ (Powered s → (p.gating = false ∨ p.hotFor < 10) → 11 ≤ p.coolFor → p.tduty < 16 →
        DoesPower .thermalDutyStep s (modPower (fun x => { x with tduty := p.tduty + 1, coolFor := 1 })))
    ∧ (Powered s → (p.gating = false ∨ p.hotFor < 10) → (p.coolFor < 11 ∨ p.tduty = 16) → DoesPower .thermalDutyStep s id)
    ∧ (¬ Powered s → (∀ east west, DoesPower (.dieTempSample east west) s id) ∧ DoesPower .thermalDutyStep s id)

/-- R350, R351, R419: a loss of main power stops the blocks on it: its cause is recorded, MAIN_FAIL is raised, MOD_FAULT_N goes
low, HBM, GDDR7 and tile SRAM lose their data. A trip starts the lockout, a loss of the auxiliary supply ends it. With main
power off the commands of the blocks on main power have no effect. Ten seconds after a trip the lockout ends, and a reset that
waits for it goes on. -/
def Obligations.MainPower : Prop :=
  ∀ s : State,
    (∀ cause : Fin 6, Powered s → cause.val ≠ 0 →
      (DoesPower (.mainFail cause) s (fun d => event 9 0 0 (modFault true (memLost (modPower (fun p =>
        { p with mainOn := false, phase := 7, offCause := cause, operate := false, stageFault := cause
                 lockout := if cause.val = 4 then true else if cause.val = 3 then false else p.lockout }) d)))))
      ∧ ∃ s', exec (.mainFail cause) s = .next s' ∧ RestPower s s' ∧ Raised s' 9 0 0 ∧ MemoryLost s'
        ∧ s'.dev.power = { normPower s.dev.power with
            mainOn := false, phase := 7, offCause := cause, operate := false, stageFault := cause
            lockout := if cause.val = 4 then true else if cause.val = 3 then false else s.dev.power.lockout }
        ∧ s'.dev.body.board.modFault = true)
    ∧ (∀ cause : Fin 6, (¬ Powered s ∨ cause.val = 0) → DoesPower (.mainFail cause) s id)
    ∧ (s.dev.power.mainOn = false → ∀ c, onMain c = true → NoEffect c s)
    ∧ (∀ b : BootIn,
      (s.dev.power.held = false → (DoesAll (.thermLockoutEnd b) s (modPower (fun p => { p with lockout := false })))
        ∧ ∃ s', exec (.thermLockoutEnd b) s = .next s' ∧ s'.pending = s.pending ∧ s'.dev.mem = s.dev.mem ∧ s'.dev.time = normTime s.dev.time
          ∧ s'.dev.sec = s.dev.sec ∧ s'.dev.power = { normPower s.dev.power with lockout := false }
          ∧ s'.dev.body = { s.dev.body with replies := [] })
      ∧ (s.dev.power.held = true → (DoesAll (.thermLockoutEnd b) s (fun d => bringUp b (modPower (fun p => { p with lockout := false }) d)))
        ∧ ∃ s', exec (.thermLockoutEnd b) s = .next s' ∧ s'.pending = s.pending
          ∧ s'.dev.power.lockout = false ∧ s'.dev.power.held = false ∧ s'.dev.power.splitWhy = s.dev.power.splitWhy ∧ PowersUp s'))

/-- R27, R331, R333, R353, R363, R364, R367, R368, R370, R371: a COLD reset and `PW_CTRL.SYSRST` reset the whole device
and run the start-up. A MAIN reset brings main power back and keeps the life cycle; it is refused while main power is
on, and by the model's choice (log 69) in the lockout and in phase FIRMWARE, and while SYS_RST_N is low it is
widened to a SYSTEM reset. R353, R367, R369, R377: a HOST reset resets the
host link, sets the limiter's duty to 16, draws a new self-test nonce and ends a secured session, and nothing else: the count,
main power and which jobs run stay. -/
def Obligations.Resets : Prop :=
  (∀ (b : BootIn) (s : State),
      (DoesAll (.coldReset b) s (resetRun 0 b))
      ∧ (∃ s', exec (.coldReset b) s = .next s' ∧ WideReset 0 s s' ∧ (s.dev.body.board.rstLow = false → StartedUp b s'))
      ∧ (∀ r, MgmtWrite s r (pwOff 0x40) → (DoesAll (.sysrst r b) s (resetRun 1 b))
          ∧ (s.dev.body.board.rstLow = false → ∃ s', exec (.sysrst r b) s = .next s' ∧ WideReset 1 s s' ∧ StartedUp b s'))
      ∧ (∀ r, MgmtWrite s r (pwOff 0x40) →
          let refused := s.dev.power.mainOn = true ∨ s.dev.power.lockout = true ∨ s.dev.power.phase = 2
          (s.dev.body.board.rstLow = true → DoesAll (.main r b) s (resetAll 1))
          ∧ (s.dev.body.board.rstLow = false → refused → DoesAll (.main r b) s (refuse r (pageBase 9 0) (pwOff 0x40) cState true))
          ∧ (s.dev.body.board.rstLow = false → ¬ refused → (DoesAll (.main r b) s (mainReset b))
            ∧ ∃ s', exec (.main r b) s = .next s' ∧ s'.pending = s.pending ∧ s'.dev.power.lastRst = 2 ∧ s'.dev.power.pduty = 16
              ∧ s'.dev.time = ⟨0, 0, 0⟩ ∧ s'.dev.power.splitWhy = s.dev.power.splitWhy ∧ s'.dev.power.master = s.dev.power.master
              ∧ s'.dev.sec = { s.dev.sec with
                  session := false, ide := false
                  taken := if s.dev.power.splitWhy = 0 then s.dev.sec.taken.take 2 ++ [recordDigest s.dev] else s.dev.sec.taken }
              ∧ (∀ q, (getJob s'.dev q).loaded = false) ∧ MemoryLost s' ∧ PowersUp s' ∧ s'.dev.body.board.modFault = false)))
  ∧ (∀ (kind : Nat) (b : BootIn) (d : Dev),
      (d.body.board.rstLow = true → resetRun kind b d = resetAll kind d)
      ∧ (d.body.board.rstLow = false → resetRun kind b d = startUp b (resetAll kind d)))
  ∧ (∀ s : State, Powered s → (DoesAll .hostReset s (fun d =>
        let e := newNonce (modPower (fun p => { p with pduty := 16 }) (hlReset (abandonAll d)))
        { e with sec := { e.sec with session := false, ide := false } }))
      ∧ ∃ s', exec .hostReset s = .next s' ∧ s'.pending = s.pending ∧ s'.dev.time = normTime s.dev.time
        ∧ s'.dev.power = { normPower s.dev.power with pduty := 16 } ∧ s'.dev.sec = { s.dev.sec with session := false, ide := false }
        ∧ s'.dev.body.hl.rate = 0 ∧ s'.dev.body.hl.ready = s.dev.body.hl.ready ∧ s'.dev.body.hl.regions = []
        ∧ ctlNat s'.dev (regOff 10 0 0x48) = 0 ∧ (∀ q, jobRuns s'.dev q = jobRuns s.dev q))
  ∧ (∀ s : State, ¬ Powered s → DoesAll .hostReset s id)

/-- R417: SYS_RST_N held low for at least 10 µs causes a SYSTEM reset, and the start-up does not begin while it is low;
a shorter pulse is ignored. Step 1 begins when SYS_RST_N returns high: the start-up runs. A COLD reset,
`PW_CTRL.SYSRST`, or `PW_CTRL.MAIN`, which it widens, is taken while it is low, and its start-up waits for the release
too. -/
def Obligations.SysRstN : Prop :=
  ∀ (b : BootIn) (s : State),
    let waits := fun (s' : State) => s'.dev.body.board.rstLow = true ∧ s'.dev.power.phase = 0 ∧ s'.dev.power.mainOn = false
      ∧ s'.dev.body.board.modFault = s.dev.body.board.modFault
    (∀ us, 10 ≤ us → s.dev.body.board.rstLow = false →
      (DoesAll (.sysRstNLow us) s (fun d => resetAll 1 (modBody (fun b => { b with board := { b.board with rstLow := true } }) d)))
      ∧ ∃ s', exec (.sysRstNLow us) s = .next s' ∧ WideReset 1 s s' ∧ waits s')
    ∧ (∀ us, us < 10 → DoesAll (.sysRstNLow us) s id)
    ∧ (s.dev.body.board.rstLow = true →
      (∀ us, DoesAll (.sysRstNLow us) s id)
      ∧ (∃ s', exec (.coldReset b) s = .next s' ∧ WideReset 0 s s' ∧ waits s')
      ∧ (∀ r, MgmtWrite s r (pwOff 0x40) → ∀ i, i ∈ [Instr.sysrst r b, .main r b] →
          ∃ s', exec i s = .next s' ∧ WideReset 1 s s' ∧ waits s')
      ∧ (DoesAll (.sysRstNRelease b) s (fun d => startUp b (modBody (fun y => { y with board := { y.board with rstLow := false } }) d)))
      ∧ (s.dev.power.mainOn = false → ∃ s', exec (.sysRstNRelease b) s = .next s' ∧ s'.pending = s.pending
          ∧ s'.dev.body.board.rstLow = false ∧ s'.dev.sec = { s.dev.sec with taken := s'.dev.sec.taken } ∧ StartedUp b s'))
    ∧ (s.dev.body.board.rstLow = false → DoesAll (.sysRstNRelease b) s id)

/-- R372: in SPLIT the host, or the management bus, names the master by writing `PW_ELECT`. The write sets the election
override and starts a SYSTEM reset, in which the override replaces the straps; a half whose sideband does not reach the
other enters SPLIT again with reason BRIDGE. The override stands until a COLD reset: a SYSTEM and a MAIN reset keep it.
A write outside SPLIT has no effect and is logged in `ERR_LOG`. -/
def Obligations.ElectionInSplit : Prop :=
  ∀ (b : BootIn) (s : State), s.dev.body.board.rstLow = false →
    let elected := fun (v : Nat) (s' : State) => s'.pending = s.pending ∧ s'.dev.power.lastRst = 1 ∧ s'.dev.power.override = v % 4 ∧ StartedUp b s'
    (∀ (r : Req) (v : Word), Passes s r (pwOff 0x64) 4 true → (r = .host ∨ isMgmt (fresh s.dev) r = true) →
      (s.dev.power.phase = 6 → (v.toNat % 4 = 1 ∨ v.toNat % 4 = 2) → ∃ s', exec (.pwElect r v b) s = .next s' ∧ elected v.toNat s')
      ∧ (s.dev.power.phase = 6 → v.toNat % 4 ≠ 1 → v.toNat % 4 ≠ 2 → DoesAll (.pwElect r v b) s id)
      ∧ (s.dev.power.phase ≠ 6 → DoesAll (.pwElect r v b) s (refuse r (pageBase 9 0) (pwOff 0x64) cState true)))
    ∧ (∀ v : Byte,
      (s.dev.power.phase = 6 → (v.toNat % 4 = 1 ∨ v.toNat % 4 = 2) → ∃ s', exec (.smbusElectWrite v b) s = .next s' ∧ elected v.toNat s')
      ∧ (s.dev.power.phase = 6 → v.toNat % 4 ≠ 1 → v.toNat % 4 ≠ 2 → DoesAll (.smbusElectWrite v b) s id)
      ∧ (s.dev.power.phase ≠ 6 → DoesAll (.smbusElectWrite v b) s id))
    ∧ (∃ s', exec (.coldReset b) s = .next s' ∧ s'.dev.power.override = 0)
    ∧ (∀ r, MgmtWrite s r (pwOff 0x40) →
      (∃ s', exec (.sysrst r b) s = .next s' ∧ s'.dev.power.override = s.dev.power.override)
      ∧ (∃ s', exec (.main r b) s = .next s' ∧ s'.dev.power.override = s.dev.power.override))

/-- R333, R357, R421: a domain that is switched off gates, and three tricks later is off with its tiles' memories lost; one
that is switched on waits for its power and is then on. A write that would gate a partition's domain, or one being
scrubbed, answers STATE. The test access port takes BYPASS for any instruction but IDCODE and BYPASS while debug is
closed or a CONNECTOR test runs, and answers its identification register to IDCODE. -/
def Obligations.DomainsAndTap : Prop :=
  ∀ s : State,
    (∀ (r : Req) (q : Eighth), MgmtWrite s r (pwOff 0x60) →
      let c := ctlNat s.dev (pwOff 0x60) % 256
      let writes := fun (v : Nat) (d : Dev) => (List.range 8).foldl (fun e j => modEighth j (fun x =>
          if bitAt v j then
            (if x.domain = .on then { x with domain := .gating, offAt := s.dev.time.trick, onWaits := false } else { x with onWaits := false })
          else if x.domain = .on then x else { x with onWaits := true }) e) (ctlSetN (pwOff 0x60) v d)
      let held := fun (j : Nat) => let x := getEighth s.dev j;
        (bitAt c j = true ∨ j = q.val) ∧ x.domain = .on ∧ (x.used = true ∨ x.scrub = true ∨ x.scrubbing = true)
      ((∃ j, j < 8 ∧ held j) → Does (.pwDomainOff r q) s (refuse r (pageBase 9 0) (pwOff 0x60) cState true))
      ∧ ((∀ j, j < 8 → ¬ held j) → Does (.pwDomainOff r q) s (writes (c ||| 2 ^ q.val)))
      ∧ ((∀ j, j < 8 → j ≠ q.val → ¬ held j) → Does (.pwDomainOn r q) s (writes (if bitAt c q then c - 2 ^ q.val else c)))
      ∧ ((∀ j, j < 8 → j ≠ q.val → bitAt c j = true → (getEighth s.dev j).domain ≠ .on) →
        let x := getEighth s.dev q
        (x.domain = .on → x.used = false → x.scrub = false → x.scrubbing = false →
          ∃ s', exec (.pwDomainOff r q) s = .next s' ∧ Rest s s' ∧ s'.dev.mem = s.dev.mem
            ∧ (getEighth s'.dev q).domain = .gating ∧ (getEighth s'.dev q).offAt = s.dev.time.trick
            ∧ (∀ j, j ≠ q.val → (getEighth s'.dev j).domain = (getEighth s.dev j).domain)
            ∧ ctlNat s'.dev (pwOff 0x60) = c ||| 2 ^ q.val ∧ CtlBut [pwOff 0x60] s s')
        ∧ (x.domain ≠ .on → ∃ s', exec (.pwDomainOn r q) s = .next s' ∧ Rest s s' ∧ s'.dev.mem = s.dev.mem
            ∧ (getEighth s'.dev q).domain = x.domain ∧ (getEighth s'.dev q).onWaits = true
            ∧ bitAt (ctlNat s'.dev (pwOff 0x60)) q = false ∧ CtlBut [pwOff 0x60] s s')))
    ∧ (∀ q : Eighth, Powered s →
      let x := getEighth s.dev q
      let ends := fun (g : EighthSt → EighthSt) (d : Dev) =>
        event 9 0 6 ((eighthTiles q).foldl (fun e t => zeroTile t e) (modEighth q g d))
      (x.domain = .gating → x.offAt + 3 ≤ s.dev.time.trick → (Does (.domainDone q) s (ends (fun y => { y with domain := .off })))
        ∧ ∃ s', exec (.domainDone q) s = .next s' ∧ Rest s s'
          ∧ Eighths [q.val] (fun y => { y with domain := .off }) s.dev s'.dev ∧ Raised s' 9 0 6
          ∧ (∀ t, t ∈ eighthTiles q → (getTile s'.dev t).imem = []
            ∧ ∀ a, sramAddr t 0 ≤ a → a < sramAddr t 0 + Config.window → tget (0 : Byte) s'.dev.mem.cells a = 0))
      ∧ (x.domain = .off → x.onWaits = true → (Does (.domainDone q) s (ends (fun y => { y with domain := .on, onWaits := false })))
        ∧ ∃ s', exec (.domainDone q) s = .next s' ∧ Rest s s'
          ∧ Eighths [q.val] (fun y => { y with domain := .on, onWaits := false }) s.dev s'.dev ∧ Raised s' 9 0 6)
      ∧ ((x.domain = .on ∨ (x.domain = .gating ∧ s.dev.time.trick < x.offAt + 3) ∨ (x.domain = .off ∧ x.onWaits = false)) →
          NoEffect (.domainDone q) s))
    ∧ (∀ i : TapInstr,
      let connector := s.dev.body.bt.acts.any (fun a => a.kind == 7)
      let takes := fun (j : TapInstr) => Does (.tapInstruction i) s (fun d =>
        let e := modBody (fun b => { b with board := { b.board with tap := j } }) d
        if j = .idcode then reply (.value (Config.tapId.setWidth 64)) e else e)
      ((i = .idcode ∨ i = .bypass) → takes i)
      ∧ (i ≠ .idcode → (debugOpen s.dev.sec = false ∨ connector = true) → takes .bypass)
      ∧ (debugOpen s.dev.sec = true → connector = false → takes i))

/-! ## The whole block -/

/-- A step takes the command at the front of the queue and is that command's effect on the state with the rest of the
queue. With no command waiting the block idles (log 2): one core cycle passes, and at the last cycle of a trick nothing,
since the boundary is a command. -/
def Obligations.StepTakesTheFront : Prop :=
  (∀ (c : Instr) (l : List Instr) (s : State), step { s with pending := c :: l } = exec c { s with pending := l })
  ∧ (∀ s : State, s.pending = [] → Powered s → Safety.TimeOk s →
      ∃ s', step s = .next s' ∧ s'.pending = [] ∧ s'.dev.power = s.dev.power ∧ s'.dev.sec = s.dev.sec
        ∧ s'.dev.time.trick = s.dev.time.trick
        ∧ s'.dev.time.phase = (if s.dev.time.phase = 767 then 767 else s.dev.time.phase + 1))

/-- R20, R27, R331, R333, R353, R356, R367: at reset the count is 0, both duties are 16, the life cycle of a new part is
BLANK with debug open, no partition is set up, no deal is loaded, every hand is IDLE, every byte of memory reads as
zero, every link is DOWN and no command waits. The state meets the block's invariant. The values that the spec does not
state are the model's choice (logs 4 and 5). -/
def Obligations.ResetState : Prop :=
  let s := State.reset
  s.pending = [] ∧ s.dev.time = ⟨0, 0, 0⟩ ∧ s.dev.power.pduty = 16 ∧ s.dev.power.tduty = 16 ∧ s.dev.power.mainOn = false
  ∧ s.dev.sec.lc = .blank ∧ debugOpen s.dev.sec = true ∧ (∀ a, readByte s.dev a = 0)
  ∧ (∀ q, (getEighth s.dev q).used = false ∧ (getJob s.dev q).loaded = false)
  ∧ (∀ t h, (getHand s.dev t h).state = .idle ∧ ∀ n, gGet (getHand s.dev t h) n = 0)
  ∧ (∀ o, ctlGet s.dev o = regReset o)
  ∧ (∀ l, (getLink s.dev l).state = lkDown)
  ∧ Safety.Inv s

/-- No command ends in a fault or a refusal: in every state a step answers a next state, whatever commands wait. -/
def Obligations.EveryStepAnswers : Prop :=
 ∀ s : State, ∃ s', step s = .next s'

/-- Every step keeps the block's invariant, from every state that has it: the count stays inside its trick, both duties
stay from 8 to 16, and memory stays in its canonical form. -/
def Obligations.InvariantKept : Prop :=
 ∀ s s' : State, Safety.Inv s → step s = .next s' → Safety.Inv s'

/-- What only some commands may change. The waiting commands are changed by none; the count by a trick boundary, a
marker and a reset alone; power by a reset, a loss of main power, an election and the samples and steps of the two
limits; the life cycle, attestation and debug by their own requests and a reset. The commands that may are `mayReset`,
those that may perform a write of the power page or run a start-up, and the few named in `movesTime`, `movesPower` and
`movesLife`. -/
def Obligations.WhatOnlySomeChange : Prop :=
  ∀ (c : Instr) (s s' : State), Safety.Inv s → exec c s = .next s' →
    s'.pending = s.pending
    ∧ (movesTime c = false → s'.dev.time = s.dev.time)
    ∧ (movesPower c = false → s'.dev.power = s.dev.power)
    ∧ (movesLife c = false → s'.dev.sec = s.dev.sec)
end

