-- ==== Sys2Proof/Laws/Tables.lean ====
section
/-! SUPPORT. Laws of the tables of `Machine/Base.lean`: reading after writing, for every list, and the canonical form. -/

namespace Sys2Proof.Machine

variable {α : Type}

/-! ## Reading after writing -/

theorem tget_nil (d : α) (j : Nat) : tget d [] j = d := rfl

theorem tget_tput (d : α) (t : Tbl α) (i j : Nat) (x : α) :
    tget d (tput t i x) j = if j = i then x else tget d t j := by
  induction t with
  | nil => simp only [tput, tget]; split <;> split <;> simp_all
  | cons p r ih =>
    obtain ⟨k, v⟩ := p
    simp only [tput]
    split
    · simp only [tget]; split <;> split <;> (try split) <;> (try split) <;> first | rfl | omega
    · split
      · simp only [tget]; split <;> (try split) <;> (try split) <;> (try split) <;> first | rfl | omega
      · simp only [tget, ih]; split <;> (try split) <;> (try split) <;> first | rfl | omega

theorem tget_filter_above (d : α) (t : Tbl α) (i j : Nat) (h : i < j) :
    tget d (t.filter (fun p => decide (i < p.1))) j = tget d t j := by
  induction t with
  | nil => rfl
  | cons p r ih =>
    obtain ⟨k, v⟩ := p
    by_cases hk : i < k
    · simp [hk, tget, ih]
    · simp [hk, tget, ih]; split <;> (try split) <;> first | rfl | omega

theorem tget_filter_below (d : α) (t : Tbl α) (i j : Nat) (h : j ≤ i) :
    tget d (t.filter (fun p => decide (i < p.1))) j = d := by
  induction t with
  | nil => rfl
  | cons p r ih =>
    obtain ⟨k, v⟩ := p
    by_cases hk : i < k
    · simp [hk, tget]; intro; omega
    · simp [hk, ih]

theorem tget_tdel (d : α) (t : Tbl α) (i j : Nat) :
    tget d (tdel t i) j = if j = i then d else tget d t j := by
  induction t with
  | nil => simp [tdel, tget]
  | cons p r ih =>
    obtain ⟨k, v⟩ := p
    simp only [tdel]
    split
    · simp only [tget]; split <;> (try split) <;> (try split) <;> first | rfl | omega
    · split
      · rcases Nat.lt_or_ge i j with h | h
        · rw [tget_filter_above d r i j h]; simp only [tget]; split <;> (try split) <;> (try split) <;> first | rfl | omega
        · rw [tget_filter_below d r i j h]; simp only [tget]; split <;> (try split) <;> (try split) <;> first | rfl | omega
      · simp only [tget, ih]; split <;> (try split) <;> (try split) <;> first | rfl | omega

/-- Reading a table after a write, in every list. -/
theorem tget_tset [DecidableEq α] (d : α) (t : Tbl α) (i j : Nat) (x : α) :
    tget d (tset d t i x) j = if j = i then x else tget d t j := by
  unfold tset
  split
  · rw [tget_tdel]; split <;> simp_all
  · exact tget_tput d t i j x

@[simp] theorem tget_tset_same [DecidableEq α] (d : α) (t : Tbl α) (i : Nat) (x : α) : tget d (tset d t i x) i = x := by
  simp [tget_tset]

/-- Another key reads as before, under whatever default. -/
theorem tget_tset_other [DecidableEq α] (d e : α) (t : Tbl α) (i j : Nat) (x : α) (h : j ≠ i) :
    tget d (tset e t i x) j = tget d t j := by
  unfold tset
  split
  · rw [tget_tdel, if_neg h]
  · rw [tget_tput, if_neg h]

/-! ## The canonical form -/

theorem keysAbove_weaken (b c : Nat) (t : Tbl α) (h : keysAbove (some b) t = true) (hc : c ≤ b) :
    keysAbove (some c) t = true := by
  cases t with
  | nil => rfl
  | cons p r =>
    obtain ⟨k, v⟩ := p
    simp only [keysAbove, Bool.and_eq_true, decide_eq_true_eq] at h ⊢
    exact ⟨by omega, h.2⟩

theorem keysAbove_none (b : Nat) (t : Tbl α) (h : keysAbove (some b) t = true) : keysAbove none t = true := by
  cases t with
  | nil => rfl
  | cons p r => obtain ⟨k, v⟩ := p; simp only [keysAbove, Bool.and_eq_true] at h ⊢; exact h.2

theorem keysAbove_filter (f : Nat × α → Bool) (t : Tbl α) (b : Option Nat) (h : keysAbove b t = true) :
    keysAbove b (t.filter f) = true := by
  induction t generalizing b with
  | nil => exact h
  | cons p r ih =>
    obtain ⟨k, v⟩ := p
    have hr : keysAbove (some k) r = true := by
      cases b <;> simp only [keysAbove, Bool.and_eq_true] at h
      · exact h
      · exact h.2
    by_cases hf : f (k, v) = true
    · simp only [List.filter_cons, hf, if_true]
      cases b with
      | none => simpa only [keysAbove] using ih _ hr
      | some b => simp only [keysAbove, Bool.and_eq_true] at h ⊢; exact ⟨h.1, ih _ hr⟩
    · simp only [List.filter_cons, hf]
      have := ih _ hr
      cases b with
      | none => exact keysAbove_none k _ (by simpa using this)
      | some b =>
        simp only [keysAbove, Bool.and_eq_true, decide_eq_true_eq] at h
        exact keysAbove_weaken k b _ (by simpa using this) (by omega)

theorem keysAbove_tput (t : Tbl α) (i : Nat) (x : α) (b : Option Nat) (h : keysAbove b t = true)
    (hb : ∀ c, b = some c → c < i) : keysAbove b (tput t i x) = true := by
  induction t generalizing b with
  | nil => cases b <;> simp_all [tput, keysAbove]
  | cons p r ih =>
    obtain ⟨k, v⟩ := p
    have hr : keysAbove (some k) r = true := by
      cases b <;> simp only [keysAbove, Bool.and_eq_true] at h
      · exact h
      · exact h.2
    simp only [tput]
    split
    · cases b <;> simp_all [keysAbove]
    · split
      · next hk =>
        subst hk
        cases b <;> simp_all [keysAbove]
      · next h1 h2 =>
        have := ih (some k) hr (by intro c hc; cases hc; omega)
        cases b <;> simp_all [keysAbove]

theorem keysAbove_tdel (t : Tbl α) (i : Nat) (b : Option Nat) (h : keysAbove b t = true) :
    keysAbove b (tdel t i) = true := by
  induction t generalizing b with
  | nil => exact h
  | cons p r ih =>
    obtain ⟨k, v⟩ := p
    have hr : keysAbove (some k) r = true := by
      cases b <;> simp only [keysAbove, Bool.and_eq_true] at h
      · exact h
      · exact h.2
    simp only [tdel]
    split
    · exact h
    · split
      · have hf := keysAbove_filter (fun p => decide (i < p.1)) r _ hr
        cases b with
        | none => exact keysAbove_none k _ hf
        | some b =>
          simp only [keysAbove, Bool.and_eq_true, decide_eq_true_eq] at h
          exact keysAbove_weaken k b _ hf (by omega)
      · have := ih (some k) hr
        cases b <;> simp_all [keysAbove]

theorem tput_mem (t : Tbl α) (i : Nat) (x : α) (p : Nat × α) (h : p ∈ tput t i x) : p = (i, x) ∨ p ∈ t := by
  induction t with
  | nil => simp_all [tput]
  | cons q r ih =>
    obtain ⟨k, v⟩ := q
    simp only [tput] at h
    split at h
    · simpa using h
    · split at h
      · simp only [List.mem_cons] at h ⊢; rcases h with h | h <;> simp [h]
      · simp only [List.mem_cons] at h ⊢
        rcases h with h | h
        · simp [h]
        · rcases ih h with h | h <;> simp [h]

theorem tdel_mem (t : Tbl α) (i : Nat) (p : Nat × α) (h : p ∈ tdel t i) : p ∈ t := by
  induction t with
  | nil => simp [tdel] at h
  | cons q r ih =>
    obtain ⟨k, v⟩ := q
    simp only [tdel] at h
    split at h
    · exact h
    · split at h
      · exact List.mem_cons_of_mem _ (List.mem_filter.1 h).1
      · simp only [List.mem_cons] at h ⊢; rcases h with h | h
        · exact .inl h
        · exact .inr (ih h)

/-- A write keeps the canonical form. -/
theorem twf_tset [DecidableEq α] (d : α) (t : Tbl α) (i : Nat) (x : α) (h : twf d t = true) : twf d (tset d t i x) = true := by
  simp only [twf, Bool.and_eq_true, List.all_eq_true, decide_eq_true_eq] at h ⊢
  unfold tset
  split
  · exact ⟨keysAbove_tdel t i none h.1, fun p hp => h.2 p (tdel_mem t i p hp)⟩
  · next hx =>
    refine ⟨keysAbove_tput t i x none h.1 (by simp), fun p hp => ?_⟩
    rcases tput_mem t i x p hp with rfl | hp
    · exact hx
    · exact h.2 p hp

/-- Dropping entries keeps the canonical form. -/
theorem twf_filter [DecidableEq α] (d : α) (t : Tbl α) (f : Nat × α → Bool) (h : twf d t = true) :
    twf d (t.filter f) = true := by
  simp only [twf, Bool.and_eq_true, List.all_eq_true, decide_eq_true_eq] at h ⊢
  exact ⟨keysAbove_filter f t none h.1, fun p hp => h.2 p (List.mem_filter.1 hp).1⟩

end Sys2Proof.Machine
end

