-- ==== Sys2Proof/Laws/Memory.lean ====
section
/-! SUPPORT. Laws of memory: what the memory operations leave, byte by byte, and that they keep the canonical form. -/

namespace Sys2Proof.Machine

/-! ## Stored bytes -/

/-- The stored byte of an address after a write of bytes. -/
theorem tget_putBytes (c : List Host.Cell) (a : Nat) (bs : List Byte) (j : Nat) :
    tget (0 : Byte) (putBytes c a bs) j = if a ≤ j ∧ j < a + bs.length then bs.getD (j - a) 0 else tget 0 c j := by
  induction bs generalizing c a with
  | nil => simp [putBytes] <;> (intro h1 h2; omega)
  | cons b r ih =>
    simp only [putBytes, ih, putByte, tget_tset, List.length_cons]
    by_cases h : j = a
    · subst h
      rw [if_neg (by omega), if_pos rfl, if_pos (by omega)]; simp
    · by_cases h2 : a + 1 ≤ j ∧ j < a + 1 + r.length
      · have e : j - a = (j - (a + 1)) + 1 := by omega
        rw [if_pos h2, if_pos (by omega), e]; simp
      · rw [if_neg h2, if_neg h, if_neg (by omega)]

/-- Bytes outside the range written stand. -/
theorem tget_putBytes_other (c : List Host.Cell) (a : Nat) (bs : List Byte) (j : Nat) (h : j < a ∨ a + bs.length ≤ j) :
    tget (0 : Byte) (putBytes c a bs) j = tget 0 c j := by
  rw [tget_putBytes, if_neg (by omega)]

/-! ## The canonical form -/

theorem rising_cons (a : Nat) (l : List Nat) (h : rising (a :: l) = true) : rising l = true := by
  cases l with
  | nil => rfl
  | cons b r => simp only [rising, Bool.and_eq_true] at h; exact h.2

theorem rising_head (a : Nat) (l : List Nat) (h : rising (a :: l) = true) : ∀ x ∈ l, a < x := by
  induction l generalizing a with
  | nil => simp
  | cons b r ih =>
    simp only [rising, Bool.and_eq_true, decide_eq_true_eq] at h
    intro x hx
    simp only [List.mem_cons] at hx
    rcases hx with rfl | hx
    · exact h.1
    · have := ih b h.2 x hx; omega

theorem rising_of (a : Nat) (l : List Nat) (h : rising l = true) (ha : ∀ x ∈ l, a < x) : rising (a :: l) = true := by
  cases l with
  | nil => rfl
  | cons b r => simp only [rising, Bool.and_eq_true, decide_eq_true_eq]; exact ⟨ha b (by simp), h⟩

theorem rising_filter (f : Nat → Bool) (l : List Nat) (h : rising l = true) : rising (l.filter f) = true := by
  induction l with
  | nil => rfl
  | cons a r ih =>
    have hr := ih (rising_cons a r h)
    by_cases hf : f a = true
    · simp only [List.filter_cons, hf, if_true]
      exact rising_of a _ hr (fun x hx => rising_head a r h x (List.mem_filter.1 hx).1)
    · simpa [List.filter_cons, hf] using hr

theorem setAdd_mem (l : List Nat) (i x : Nat) (h : x ∈ setAdd l i) : x = i ∨ x ∈ l := by
  induction l with
  | nil => simp_all [setAdd]
  | cons k r ih =>
    simp only [setAdd] at h
    split at h
    · simpa using h
    · split at h
      · exact .inr h
      · simp only [List.mem_cons] at h ⊢
        rcases h with h | h
        · exact .inr (.inl h)
        · rcases ih h with h | h
          · exact .inl h
          · exact .inr (.inr h)

theorem rising_setAdd (l : List Nat) (i : Nat) (h : rising l = true) : rising (setAdd l i) = true := by
  induction l with
  | nil => rfl
  | cons k r ih =>
    simp only [setAdd]
    split
    · next hk => simp only [rising, Bool.and_eq_true, decide_eq_true_eq]; exact ⟨hk, h⟩
    · split
      · exact h
      · refine rising_of k _ (ih (rising_cons k r h)) (fun x hx => ?_)
        rcases setAdd_mem r i x hx with rfl | hx
        · omega
        · exact rising_head k r h x hx

theorem rising_setDel (l : List Nat) (i : Nat) (h : rising l = true) : rising (setDel l i) = true := rising_filter _ l h

theorem twf_putBytes (c : List Host.Cell) (a : Nat) (bs : List Byte) (h : twf (0 : Byte) c = true) :
    twf (0 : Byte) (putBytes c a bs) = true := by
  induction bs generalizing c a with
  | nil => exact h
  | cons b r ih => exact ih _ _ (twf_tset 0 c a b h)

/-- Every memory operation keeps the canonical form. -/
theorem applyOp_wf (m : Mem) (o : MemOp) (h : m.wf = true) : (applyOp m o).wf = true := by
  simp only [Mem.wf, Bool.and_eq_true] at h ⊢
  obtain ⟨⟨h1, h2⟩, h3⟩ := h
  cases o with
  | write a bs => exact ⟨⟨twf_putBytes m.cells a bs h1, h2⟩, h3⟩
  | poison w => exact ⟨⟨h1, h2⟩, rising_setAdd m.poison w h3⟩
  | unpoison w => exact ⟨⟨h1, h2⟩, rising_setDel m.poison w h3⟩
  | mend w => exact ⟨⟨h1, h2⟩, h3⟩
  | tag s e => exact ⟨⟨h1, twf_tset 0 m.tags s e h2⟩, h3⟩
  | clear lo n => exact ⟨⟨twf_filter 0 m.cells _ h1, twf_filter 0 m.tags _ h2⟩, rising_filter _ m.poison h3⟩
  | current q e => exact ⟨⟨h1, h2⟩, h3⟩
  | baseline q e => exact ⟨⟨h1, h2⟩, h3⟩

/-- Memory operations in order keep the canonical form. -/
theorem applyOps_wf (l : List MemOp) (m : Mem) (h : m.wf = true) : (applyOps m l).wf = true := by
  induction l generalizing m with
  | nil => exact h
  | cons o r ih => exact ih _ (applyOp_wf m o h)

theorem applyOps_append (l k : List MemOp) (m : Mem) : applyOps m (l ++ k) = applyOps (applyOps m l) k := by
  induction l generalizing m with
  | nil => rfl
  | cons o r ih => exact ih _

@[simp] theorem applyOps_nil (m : Mem) : applyOps m [] = m := rfl
@[simp] theorem applyOps_cons (m : Mem) (o : MemOp) (r : List MemOp) : applyOps m (o :: r) = applyOps (applyOp m o) r := rfl

end Sys2Proof.Machine
end

