-- ==== Sys2Proof/Laws/State.lean ====
section
/-! SUPPORT. The pieces of the state under each update: what an update leaves, field by field, and reading an entry
after writing one. -/

namespace Sys2Proof.Machine

/-! ## modBody -/

theorem modBody_body (f : Body → Body) (d : Dev) : (modBody f d).body = f d.body := rfl
@[simp] theorem modBody_time (f : Body → Body) (d : Dev) : (modBody f d).time = d.time := rfl
@[simp] theorem modBody_power (f : Body → Body) (d : Dev) : (modBody f d).power = d.power := rfl
@[simp] theorem modBody_sec (f : Body → Body) (d : Dev) : (modBody f d).sec = d.sec := rfl
@[simp] theorem modBody_mem (f : Body → Body) (d : Dev) : (modBody f d).mem = d.mem := rfl
@[simp] theorem modBody_log (f : Body → Body) (d : Dev) : (modBody f d).log = d.log := rfl

/-! ## reply -/

theorem reply_body (r : Reply) (d : Dev) : (reply r d).body = { d.body with replies := d.body.replies ++ [r] } := rfl
@[simp] theorem reply_time (r : Reply) (d : Dev) : (reply r d).time = d.time := rfl
@[simp] theorem reply_power (r : Reply) (d : Dev) : (reply r d).power = d.power := rfl
@[simp] theorem reply_sec (r : Reply) (d : Dev) : (reply r d).sec = d.sec := rfl
@[simp] theorem reply_mem (r : Reply) (d : Dev) : (reply r d).mem = d.mem := rfl
@[simp] theorem reply_log (r : Reply) (d : Dev) : (reply r d).log = d.log := rfl

/-! ## setTile -/

theorem setTile_body (t : Nat) (x : Tile) (d : Dev) : (setTile t x d).body = { d.body with tiles := tset Tile.z d.body.tiles t x } := rfl
@[simp] theorem setTile_time (t : Nat) (x : Tile) (d : Dev) : (setTile t x d).time = d.time := rfl
@[simp] theorem setTile_power (t : Nat) (x : Tile) (d : Dev) : (setTile t x d).power = d.power := rfl
@[simp] theorem setTile_sec (t : Nat) (x : Tile) (d : Dev) : (setTile t x d).sec = d.sec := rfl
@[simp] theorem setTile_mem (t : Nat) (x : Tile) (d : Dev) : (setTile t x d).mem = d.mem := rfl
@[simp] theorem setTile_log (t : Nat) (x : Tile) (d : Dev) : (setTile t x d).log = d.log := rfl

/-! ## setHand -/

theorem setHand_body (t h : Nat) (x : HandSt) (d : Dev) : (setHand t h x d).body = { d.body with hands := tset HandSt.z d.body.hands (handKey t h) x } := rfl
@[simp] theorem setHand_time (t h : Nat) (x : HandSt) (d : Dev) : (setHand t h x d).time = d.time := rfl
@[simp] theorem setHand_power (t h : Nat) (x : HandSt) (d : Dev) : (setHand t h x d).power = d.power := rfl
@[simp] theorem setHand_sec (t h : Nat) (x : HandSt) (d : Dev) : (setHand t h x d).sec = d.sec := rfl
@[simp] theorem setHand_mem (t h : Nat) (x : HandSt) (d : Dev) : (setHand t h x d).mem = d.mem := rfl
@[simp] theorem setHand_log (t h : Nat) (x : HandSt) (d : Dev) : (setHand t h x d).log = d.log := rfl

/-! ## setEighth -/

theorem setEighth_body (q : Nat) (x : EighthSt) (d : Dev) : (setEighth q x d).body = { d.body with eighths := tset EighthSt.z d.body.eighths q x } := rfl
@[simp] theorem setEighth_time (q : Nat) (x : EighthSt) (d : Dev) : (setEighth q x d).time = d.time := rfl
@[simp] theorem setEighth_power (q : Nat) (x : EighthSt) (d : Dev) : (setEighth q x d).power = d.power := rfl
@[simp] theorem setEighth_sec (q : Nat) (x : EighthSt) (d : Dev) : (setEighth q x d).sec = d.sec := rfl
@[simp] theorem setEighth_mem (q : Nat) (x : EighthSt) (d : Dev) : (setEighth q x d).mem = d.mem := rfl
@[simp] theorem setEighth_log (q : Nat) (x : EighthSt) (d : Dev) : (setEighth q x d).log = d.log := rfl

/-! ## setJob -/

theorem setJob_body (q : Nat) (x : Job) (d : Dev) : (setJob q x d).body = { d.body with jobs := tset Job.z d.body.jobs q x } := rfl
@[simp] theorem setJob_time (q : Nat) (x : Job) (d : Dev) : (setJob q x d).time = d.time := rfl
@[simp] theorem setJob_power (q : Nat) (x : Job) (d : Dev) : (setJob q x d).power = d.power := rfl
@[simp] theorem setJob_sec (q : Nat) (x : Job) (d : Dev) : (setJob q x d).sec = d.sec := rfl
@[simp] theorem setJob_mem (q : Nat) (x : Job) (d : Dev) : (setJob q x d).mem = d.mem := rfl
@[simp] theorem setJob_log (q : Nat) (x : Job) (d : Dev) : (setJob q x d).log = d.log := rfl

/-! ## modPort -/

theorem modPort_body (p : Nat) (f : PortSt → PortSt) (d : Dev) : (modPort p f d).body = { d.body with ports := tset PortSt.z d.body.ports p (f (getPort d p)) } := rfl
@[simp] theorem modPort_time (p : Nat) (f : PortSt → PortSt) (d : Dev) : (modPort p f d).time = d.time := rfl
@[simp] theorem modPort_power (p : Nat) (f : PortSt → PortSt) (d : Dev) : (modPort p f d).power = d.power := rfl
@[simp] theorem modPort_sec (p : Nat) (f : PortSt → PortSt) (d : Dev) : (modPort p f d).sec = d.sec := rfl
@[simp] theorem modPort_mem (p : Nat) (f : PortSt → PortSt) (d : Dev) : (modPort p f d).mem = d.mem := rfl
@[simp] theorem modPort_log (p : Nat) (f : PortSt → PortSt) (d : Dev) : (modPort p f d).log = d.log := rfl

/-! ## modLink -/

theorem modLink_body (l : Nat) (f : LinkSt → LinkSt) (d : Dev) : (modLink l f d).body = { d.body with links := tset LinkSt.z d.body.links l (f (getLink d l)) } := rfl
@[simp] theorem modLink_time (l : Nat) (f : LinkSt → LinkSt) (d : Dev) : (modLink l f d).time = d.time := rfl
@[simp] theorem modLink_power (l : Nat) (f : LinkSt → LinkSt) (d : Dev) : (modLink l f d).power = d.power := rfl
@[simp] theorem modLink_sec (l : Nat) (f : LinkSt → LinkSt) (d : Dev) : (modLink l f d).sec = d.sec := rfl
@[simp] theorem modLink_mem (l : Nat) (f : LinkSt → LinkSt) (d : Dev) : (modLink l f d).mem = d.mem := rfl
@[simp] theorem modLink_log (l : Nat) (f : LinkSt → LinkSt) (d : Dev) : (modLink l f d).log = d.log := rfl

/-! ## modPage -/

theorem modPage_body (b : Nat) (f : Page → Page) (d : Dev) : (modPage b f d).body = { d.body with pages := tset Page.z d.body.pages (b / 0x1000) (f (getPage d b)) } := rfl
@[simp] theorem modPage_time (b : Nat) (f : Page → Page) (d : Dev) : (modPage b f d).time = d.time := rfl
@[simp] theorem modPage_power (b : Nat) (f : Page → Page) (d : Dev) : (modPage b f d).power = d.power := rfl
@[simp] theorem modPage_sec (b : Nat) (f : Page → Page) (d : Dev) : (modPage b f d).sec = d.sec := rfl
@[simp] theorem modPage_mem (b : Nat) (f : Page → Page) (d : Dev) : (modPage b f d).mem = d.mem := rfl
@[simp] theorem modPage_log (b : Nat) (f : Page → Page) (d : Dev) : (modPage b f d).log = d.log := rfl

/-! ## modHl -/

theorem modHl_body (f : HlSt → HlSt) (d : Dev) : (modHl f d).body = { d.body with hl := f d.body.hl } := rfl
@[simp] theorem modHl_time (f : HlSt → HlSt) (d : Dev) : (modHl f d).time = d.time := rfl
@[simp] theorem modHl_power (f : HlSt → HlSt) (d : Dev) : (modHl f d).power = d.power := rfl
@[simp] theorem modHl_sec (f : HlSt → HlSt) (d : Dev) : (modHl f d).sec = d.sec := rfl
@[simp] theorem modHl_mem (f : HlSt → HlSt) (d : Dev) : (modHl f d).mem = d.mem := rfl
@[simp] theorem modHl_log (f : HlSt → HlSt) (d : Dev) : (modHl f d).log = d.log := rfl

/-! ## The fields of the body that an update leaves alone -/

@[simp] theorem reply_tb (r : Reply) (d : Dev) : (reply r d).body.tb = d.body.tb := rfl
@[simp] theorem reply_board (r : Reply) (d : Dev) : (reply r d).body.board = d.body.board := rfl
@[simp] theorem reply_pages (r : Reply) (d : Dev) : (reply r d).body.pages = d.body.pages := rfl
@[simp] theorem reply_ctl (r : Reply) (d : Dev) : (reply r d).body.ctl = d.body.ctl := rfl
@[simp] theorem reply_latches (r : Reply) (d : Dev) : (reply r d).body.latches = d.body.latches := rfl
@[simp] theorem reply_tiles (r : Reply) (d : Dev) : (reply r d).body.tiles = d.body.tiles := rfl
@[simp] theorem reply_hands (r : Reply) (d : Dev) : (reply r d).body.hands = d.body.hands := rfl
@[simp] theorem reply_eighths (r : Reply) (d : Dev) : (reply r d).body.eighths = d.body.eighths := rfl
@[simp] theorem reply_jobs (r : Reply) (d : Dev) : (reply r d).body.jobs = d.body.jobs := rfl
@[simp] theorem reply_setupWait (r : Reply) (d : Dev) : (reply r d).body.setupWait = d.body.setupWait := rfl
@[simp] theorem reply_ktag (r : Reply) (d : Dev) : (reply r d).body.ktag = d.body.ktag := rfl
@[simp] theorem reply_dlCode (r : Reply) (d : Dev) : (reply r d).body.dlCode = d.body.dlCode := rfl
@[simp] theorem reply_dlBusy (r : Reply) (d : Dev) : (reply r d).body.dlBusy = d.body.dlBusy := rfl
@[simp] theorem reply_dlEighth (r : Reply) (d : Dev) : (reply r d).body.dlEighth = d.body.dlEighth := rfl
@[simp] theorem reply_piCode (r : Reply) (d : Dev) : (reply r d).body.piCode = d.body.piCode := rfl
@[simp] theorem reply_piBusy (r : Reply) (d : Dev) : (reply r d).body.piBusy = d.body.piBusy := rfl
@[simp] theorem reply_chans (r : Reply) (d : Dev) : (reply r d).body.chans = d.body.chans := rfl
@[simp] theorem reply_stacks (r : Reply) (d : Dev) : (reply r d).body.hbmStacks = d.body.hbmStacks := rfl
@[simp] theorem reply_marked (r : Reply) (d : Dev) : (reply r d).body.marked = d.body.marked := rfl
@[simp] theorem reply_zones (r : Reply) (d : Dev) : (reply r d).body.zones = d.body.zones := rfl
@[simp] theorem reply_flash (r : Reply) (d : Dev) : (reply r d).body.flash = d.body.flash := rfl
@[simp] theorem reply_movers (r : Reply) (d : Dev) : (reply r d).body.movers = d.body.movers := rfl
@[simp] theorem reply_turns (r : Reply) (d : Dev) : (reply r d).body.turns = d.body.turns := rfl
@[simp] theorem reply_buckets (r : Reply) (d : Dev) : (reply r d).body.buckets = d.body.buckets := rfl
@[simp] theorem reply_wbs (r : Reply) (d : Dev) : (reply r d).body.wbs = d.body.wbs := rfl
@[simp] theorem reply_ports (r : Reply) (d : Dev) : (reply r d).body.ports = d.body.ports := rfl
@[simp] theorem reply_links (r : Reply) (d : Dev) : (reply r d).body.links = d.body.links := rfl
@[simp] theorem reply_seats (r : Reply) (d : Dev) : (reply r d).body.seats = d.body.seats := rfl
@[simp] theorem reply_tx (r : Reply) (d : Dev) : (reply r d).body.tx = d.body.tx := rfl
@[simp] theorem reply_tags (r : Reply) (d : Dev) : (reply r d).body.tags = d.body.tags := rfl
@[simp] theorem reply_serves (r : Reply) (d : Dev) : (reply r d).body.serves = d.body.serves := rfl
@[simp] theorem reply_order (r : Reply) (d : Dev) : (reply r d).body.order = d.body.order := rfl
@[simp] theorem reply_positions (r : Reply) (d : Dev) : (reply r d).body.positions = d.body.positions := rfl
@[simp] theorem reply_suits (r : Reply) (d : Dev) : (reply r d).body.suits = d.body.suits := rfl
@[simp] theorem reply_inqs (r : Reply) (d : Dev) : (reply r d).body.inqs = d.body.inqs := rfl
@[simp] theorem reply_dict (r : Reply) (d : Dev) : (reply r d).body.dict = d.body.dict := rfl
@[simp] theorem reply_hl (r : Reply) (d : Dev) : (reply r d).body.hl = d.body.hl := rfl
@[simp] theorem reply_ev (r : Reply) (d : Dev) : (reply r d).body.ev = d.body.ev := rfl
@[simp] theorem reply_bt (r : Reply) (d : Dev) : (reply r d).body.bt = d.body.bt := rfl
@[simp] theorem reply_coreHalt (r : Reply) (d : Dev) : (reply r d).body.coreHalt = d.body.coreHalt := rfl
@[simp] theorem reply_tileHalt (r : Reply) (d : Dev) : (reply r d).body.tileHalt = d.body.tileHalt := rfl
@[simp] theorem reply_free (r : Reply) (d : Dev) : (reply r d).body.free = d.body.free := rfl

@[simp] theorem setTile_tb (t : Nat) (x : Tile) (d : Dev) : (setTile t x d).body.tb = d.body.tb := rfl
@[simp] theorem setTile_board (t : Nat) (x : Tile) (d : Dev) : (setTile t x d).body.board = d.body.board := rfl
@[simp] theorem setTile_pages (t : Nat) (x : Tile) (d : Dev) : (setTile t x d).body.pages = d.body.pages := rfl
@[simp] theorem setTile_ctl (t : Nat) (x : Tile) (d : Dev) : (setTile t x d).body.ctl = d.body.ctl := rfl
@[simp] theorem setTile_latches (t : Nat) (x : Tile) (d : Dev) : (setTile t x d).body.latches = d.body.latches := rfl
@[simp] theorem setTile_replies (t : Nat) (x : Tile) (d : Dev) : (setTile t x d).body.replies = d.body.replies := rfl
@[simp] theorem setTile_hands (t : Nat) (x : Tile) (d : Dev) : (setTile t x d).body.hands = d.body.hands := rfl
@[simp] theorem setTile_eighths (t : Nat) (x : Tile) (d : Dev) : (setTile t x d).body.eighths = d.body.eighths := rfl
@[simp] theorem setTile_jobs (t : Nat) (x : Tile) (d : Dev) : (setTile t x d).body.jobs = d.body.jobs := rfl
@[simp] theorem setTile_setupWait (t : Nat) (x : Tile) (d : Dev) : (setTile t x d).body.setupWait = d.body.setupWait := rfl
@[simp] theorem setTile_ktag (t : Nat) (x : Tile) (d : Dev) : (setTile t x d).body.ktag = d.body.ktag := rfl
@[simp] theorem setTile_dlCode (t : Nat) (x : Tile) (d : Dev) : (setTile t x d).body.dlCode = d.body.dlCode := rfl
@[simp] theorem setTile_dlBusy (t : Nat) (x : Tile) (d : Dev) : (setTile t x d).body.dlBusy = d.body.dlBusy := rfl
@[simp] theorem setTile_dlEighth (t : Nat) (x : Tile) (d : Dev) : (setTile t x d).body.dlEighth = d.body.dlEighth := rfl
@[simp] theorem setTile_piCode (t : Nat) (x : Tile) (d : Dev) : (setTile t x d).body.piCode = d.body.piCode := rfl
@[simp] theorem setTile_piBusy (t : Nat) (x : Tile) (d : Dev) : (setTile t x d).body.piBusy = d.body.piBusy := rfl
@[simp] theorem setTile_chans (t : Nat) (x : Tile) (d : Dev) : (setTile t x d).body.chans = d.body.chans := rfl
@[simp] theorem setTile_stacks (t : Nat) (x : Tile) (d : Dev) : (setTile t x d).body.hbmStacks = d.body.hbmStacks := rfl
@[simp] theorem setTile_marked (t : Nat) (x : Tile) (d : Dev) : (setTile t x d).body.marked = d.body.marked := rfl
@[simp] theorem setTile_zones (t : Nat) (x : Tile) (d : Dev) : (setTile t x d).body.zones = d.body.zones := rfl
@[simp] theorem setTile_flash (t : Nat) (x : Tile) (d : Dev) : (setTile t x d).body.flash = d.body.flash := rfl
@[simp] theorem setTile_movers (t : Nat) (x : Tile) (d : Dev) : (setTile t x d).body.movers = d.body.movers := rfl
@[simp] theorem setTile_turns (t : Nat) (x : Tile) (d : Dev) : (setTile t x d).body.turns = d.body.turns := rfl
@[simp] theorem setTile_buckets (t : Nat) (x : Tile) (d : Dev) : (setTile t x d).body.buckets = d.body.buckets := rfl
@[simp] theorem setTile_wbs (t : Nat) (x : Tile) (d : Dev) : (setTile t x d).body.wbs = d.body.wbs := rfl
@[simp] theorem setTile_ports (t : Nat) (x : Tile) (d : Dev) : (setTile t x d).body.ports = d.body.ports := rfl
@[simp] theorem setTile_links (t : Nat) (x : Tile) (d : Dev) : (setTile t x d).body.links = d.body.links := rfl
@[simp] theorem setTile_seats (t : Nat) (x : Tile) (d : Dev) : (setTile t x d).body.seats = d.body.seats := rfl
@[simp] theorem setTile_tx (t : Nat) (x : Tile) (d : Dev) : (setTile t x d).body.tx = d.body.tx := rfl
@[simp] theorem setTile_tags (t : Nat) (x : Tile) (d : Dev) : (setTile t x d).body.tags = d.body.tags := rfl
@[simp] theorem setTile_serves (t : Nat) (x : Tile) (d : Dev) : (setTile t x d).body.serves = d.body.serves := rfl
@[simp] theorem setTile_order (t : Nat) (x : Tile) (d : Dev) : (setTile t x d).body.order = d.body.order := rfl
@[simp] theorem setTile_positions (t : Nat) (x : Tile) (d : Dev) : (setTile t x d).body.positions = d.body.positions := rfl
@[simp] theorem setTile_suits (t : Nat) (x : Tile) (d : Dev) : (setTile t x d).body.suits = d.body.suits := rfl
@[simp] theorem setTile_inqs (t : Nat) (x : Tile) (d : Dev) : (setTile t x d).body.inqs = d.body.inqs := rfl
@[simp] theorem setTile_dict (t : Nat) (x : Tile) (d : Dev) : (setTile t x d).body.dict = d.body.dict := rfl
@[simp] theorem setTile_hl (t : Nat) (x : Tile) (d : Dev) : (setTile t x d).body.hl = d.body.hl := rfl
@[simp] theorem setTile_ev (t : Nat) (x : Tile) (d : Dev) : (setTile t x d).body.ev = d.body.ev := rfl
@[simp] theorem setTile_bt (t : Nat) (x : Tile) (d : Dev) : (setTile t x d).body.bt = d.body.bt := rfl
@[simp] theorem setTile_coreHalt (t : Nat) (x : Tile) (d : Dev) : (setTile t x d).body.coreHalt = d.body.coreHalt := rfl
@[simp] theorem setTile_tileHalt (t : Nat) (x : Tile) (d : Dev) : (setTile t x d).body.tileHalt = d.body.tileHalt := rfl
@[simp] theorem setTile_free (t : Nat) (x : Tile) (d : Dev) : (setTile t x d).body.free = d.body.free := rfl

@[simp] theorem setHand_tb (t h : Nat) (x : HandSt) (d : Dev) : (setHand t h x d).body.tb = d.body.tb := rfl
@[simp] theorem setHand_board (t h : Nat) (x : HandSt) (d : Dev) : (setHand t h x d).body.board = d.body.board := rfl
@[simp] theorem setHand_pages (t h : Nat) (x : HandSt) (d : Dev) : (setHand t h x d).body.pages = d.body.pages := rfl
@[simp] theorem setHand_ctl (t h : Nat) (x : HandSt) (d : Dev) : (setHand t h x d).body.ctl = d.body.ctl := rfl
@[simp] theorem setHand_latches (t h : Nat) (x : HandSt) (d : Dev) : (setHand t h x d).body.latches = d.body.latches := rfl
@[simp] theorem setHand_replies (t h : Nat) (x : HandSt) (d : Dev) : (setHand t h x d).body.replies = d.body.replies := rfl
@[simp] theorem setHand_tiles (t h : Nat) (x : HandSt) (d : Dev) : (setHand t h x d).body.tiles = d.body.tiles := rfl
@[simp] theorem setHand_eighths (t h : Nat) (x : HandSt) (d : Dev) : (setHand t h x d).body.eighths = d.body.eighths := rfl
@[simp] theorem setHand_jobs (t h : Nat) (x : HandSt) (d : Dev) : (setHand t h x d).body.jobs = d.body.jobs := rfl
@[simp] theorem setHand_setupWait (t h : Nat) (x : HandSt) (d : Dev) : (setHand t h x d).body.setupWait = d.body.setupWait := rfl
@[simp] theorem setHand_ktag (t h : Nat) (x : HandSt) (d : Dev) : (setHand t h x d).body.ktag = d.body.ktag := rfl
@[simp] theorem setHand_dlCode (t h : Nat) (x : HandSt) (d : Dev) : (setHand t h x d).body.dlCode = d.body.dlCode := rfl
@[simp] theorem setHand_dlBusy (t h : Nat) (x : HandSt) (d : Dev) : (setHand t h x d).body.dlBusy = d.body.dlBusy := rfl
@[simp] theorem setHand_dlEighth (t h : Nat) (x : HandSt) (d : Dev) : (setHand t h x d).body.dlEighth = d.body.dlEighth := rfl
@[simp] theorem setHand_piCode (t h : Nat) (x : HandSt) (d : Dev) : (setHand t h x d).body.piCode = d.body.piCode := rfl
@[simp] theorem setHand_piBusy (t h : Nat) (x : HandSt) (d : Dev) : (setHand t h x d).body.piBusy = d.body.piBusy := rfl
@[simp] theorem setHand_chans (t h : Nat) (x : HandSt) (d : Dev) : (setHand t h x d).body.chans = d.body.chans := rfl
@[simp] theorem setHand_stacks (t h : Nat) (x : HandSt) (d : Dev) : (setHand t h x d).body.hbmStacks = d.body.hbmStacks := rfl
@[simp] theorem setHand_marked (t h : Nat) (x : HandSt) (d : Dev) : (setHand t h x d).body.marked = d.body.marked := rfl
@[simp] theorem setHand_zones (t h : Nat) (x : HandSt) (d : Dev) : (setHand t h x d).body.zones = d.body.zones := rfl
@[simp] theorem setHand_flash (t h : Nat) (x : HandSt) (d : Dev) : (setHand t h x d).body.flash = d.body.flash := rfl
@[simp] theorem setHand_movers (t h : Nat) (x : HandSt) (d : Dev) : (setHand t h x d).body.movers = d.body.movers := rfl
@[simp] theorem setHand_turns (t h : Nat) (x : HandSt) (d : Dev) : (setHand t h x d).body.turns = d.body.turns := rfl
@[simp] theorem setHand_buckets (t h : Nat) (x : HandSt) (d : Dev) : (setHand t h x d).body.buckets = d.body.buckets := rfl
@[simp] theorem setHand_wbs (t h : Nat) (x : HandSt) (d : Dev) : (setHand t h x d).body.wbs = d.body.wbs := rfl
@[simp] theorem setHand_ports (t h : Nat) (x : HandSt) (d : Dev) : (setHand t h x d).body.ports = d.body.ports := rfl
@[simp] theorem setHand_links (t h : Nat) (x : HandSt) (d : Dev) : (setHand t h x d).body.links = d.body.links := rfl
@[simp] theorem setHand_seats (t h : Nat) (x : HandSt) (d : Dev) : (setHand t h x d).body.seats = d.body.seats := rfl
@[simp] theorem setHand_tx (t h : Nat) (x : HandSt) (d : Dev) : (setHand t h x d).body.tx = d.body.tx := rfl
@[simp] theorem setHand_tags (t h : Nat) (x : HandSt) (d : Dev) : (setHand t h x d).body.tags = d.body.tags := rfl
@[simp] theorem setHand_serves (t h : Nat) (x : HandSt) (d : Dev) : (setHand t h x d).body.serves = d.body.serves := rfl
@[simp] theorem setHand_order (t h : Nat) (x : HandSt) (d : Dev) : (setHand t h x d).body.order = d.body.order := rfl
@[simp] theorem setHand_positions (t h : Nat) (x : HandSt) (d : Dev) : (setHand t h x d).body.positions = d.body.positions := rfl
@[simp] theorem setHand_suits (t h : Nat) (x : HandSt) (d : Dev) : (setHand t h x d).body.suits = d.body.suits := rfl
@[simp] theorem setHand_inqs (t h : Nat) (x : HandSt) (d : Dev) : (setHand t h x d).body.inqs = d.body.inqs := rfl
@[simp] theorem setHand_dict (t h : Nat) (x : HandSt) (d : Dev) : (setHand t h x d).body.dict = d.body.dict := rfl
@[simp] theorem setHand_hl (t h : Nat) (x : HandSt) (d : Dev) : (setHand t h x d).body.hl = d.body.hl := rfl
@[simp] theorem setHand_ev (t h : Nat) (x : HandSt) (d : Dev) : (setHand t h x d).body.ev = d.body.ev := rfl
@[simp] theorem setHand_bt (t h : Nat) (x : HandSt) (d : Dev) : (setHand t h x d).body.bt = d.body.bt := rfl
@[simp] theorem setHand_coreHalt (t h : Nat) (x : HandSt) (d : Dev) : (setHand t h x d).body.coreHalt = d.body.coreHalt := rfl
@[simp] theorem setHand_tileHalt (t h : Nat) (x : HandSt) (d : Dev) : (setHand t h x d).body.tileHalt = d.body.tileHalt := rfl
@[simp] theorem setHand_free (t h : Nat) (x : HandSt) (d : Dev) : (setHand t h x d).body.free = d.body.free := rfl

@[simp] theorem setEighth_tb (q : Nat) (x : EighthSt) (d : Dev) : (setEighth q x d).body.tb = d.body.tb := rfl
@[simp] theorem setEighth_board (q : Nat) (x : EighthSt) (d : Dev) : (setEighth q x d).body.board = d.body.board := rfl
@[simp] theorem setEighth_pages (q : Nat) (x : EighthSt) (d : Dev) : (setEighth q x d).body.pages = d.body.pages := rfl
@[simp] theorem setEighth_ctl (q : Nat) (x : EighthSt) (d : Dev) : (setEighth q x d).body.ctl = d.body.ctl := rfl
@[simp] theorem setEighth_latches (q : Nat) (x : EighthSt) (d : Dev) : (setEighth q x d).body.latches = d.body.latches := rfl
@[simp] theorem setEighth_replies (q : Nat) (x : EighthSt) (d : Dev) : (setEighth q x d).body.replies = d.body.replies := rfl
@[simp] theorem setEighth_tiles (q : Nat) (x : EighthSt) (d : Dev) : (setEighth q x d).body.tiles = d.body.tiles := rfl
@[simp] theorem setEighth_hands (q : Nat) (x : EighthSt) (d : Dev) : (setEighth q x d).body.hands = d.body.hands := rfl
@[simp] theorem setEighth_jobs (q : Nat) (x : EighthSt) (d : Dev) : (setEighth q x d).body.jobs = d.body.jobs := rfl
@[simp] theorem setEighth_setupWait (q : Nat) (x : EighthSt) (d : Dev) : (setEighth q x d).body.setupWait = d.body.setupWait := rfl
@[simp] theorem setEighth_ktag (q : Nat) (x : EighthSt) (d : Dev) : (setEighth q x d).body.ktag = d.body.ktag := rfl
@[simp] theorem setEighth_dlCode (q : Nat) (x : EighthSt) (d : Dev) : (setEighth q x d).body.dlCode = d.body.dlCode := rfl
@[simp] theorem setEighth_dlBusy (q : Nat) (x : EighthSt) (d : Dev) : (setEighth q x d).body.dlBusy = d.body.dlBusy := rfl
@[simp] theorem setEighth_dlEighth (q : Nat) (x : EighthSt) (d : Dev) : (setEighth q x d).body.dlEighth = d.body.dlEighth := rfl
@[simp] theorem setEighth_piCode (q : Nat) (x : EighthSt) (d : Dev) : (setEighth q x d).body.piCode = d.body.piCode := rfl
@[simp] theorem setEighth_piBusy (q : Nat) (x : EighthSt) (d : Dev) : (setEighth q x d).body.piBusy = d.body.piBusy := rfl
@[simp] theorem setEighth_chans (q : Nat) (x : EighthSt) (d : Dev) : (setEighth q x d).body.chans = d.body.chans := rfl
@[simp] theorem setEighth_stacks (q : Nat) (x : EighthSt) (d : Dev) : (setEighth q x d).body.hbmStacks = d.body.hbmStacks := rfl
@[simp] theorem setEighth_marked (q : Nat) (x : EighthSt) (d : Dev) : (setEighth q x d).body.marked = d.body.marked := rfl
@[simp] theorem setEighth_zones (q : Nat) (x : EighthSt) (d : Dev) : (setEighth q x d).body.zones = d.body.zones := rfl
@[simp] theorem setEighth_flash (q : Nat) (x : EighthSt) (d : Dev) : (setEighth q x d).body.flash = d.body.flash := rfl
@[simp] theorem setEighth_movers (q : Nat) (x : EighthSt) (d : Dev) : (setEighth q x d).body.movers = d.body.movers := rfl
@[simp] theorem setEighth_turns (q : Nat) (x : EighthSt) (d : Dev) : (setEighth q x d).body.turns = d.body.turns := rfl
@[simp] theorem setEighth_buckets (q : Nat) (x : EighthSt) (d : Dev) : (setEighth q x d).body.buckets = d.body.buckets := rfl
@[simp] theorem setEighth_wbs (q : Nat) (x : EighthSt) (d : Dev) : (setEighth q x d).body.wbs = d.body.wbs := rfl
@[simp] theorem setEighth_ports (q : Nat) (x : EighthSt) (d : Dev) : (setEighth q x d).body.ports = d.body.ports := rfl
@[simp] theorem setEighth_links (q : Nat) (x : EighthSt) (d : Dev) : (setEighth q x d).body.links = d.body.links := rfl
@[simp] theorem setEighth_seats (q : Nat) (x : EighthSt) (d : Dev) : (setEighth q x d).body.seats = d.body.seats := rfl
@[simp] theorem setEighth_tx (q : Nat) (x : EighthSt) (d : Dev) : (setEighth q x d).body.tx = d.body.tx := rfl
@[simp] theorem setEighth_tags (q : Nat) (x : EighthSt) (d : Dev) : (setEighth q x d).body.tags = d.body.tags := rfl
@[simp] theorem setEighth_serves (q : Nat) (x : EighthSt) (d : Dev) : (setEighth q x d).body.serves = d.body.serves := rfl
@[simp] theorem setEighth_order (q : Nat) (x : EighthSt) (d : Dev) : (setEighth q x d).body.order = d.body.order := rfl
@[simp] theorem setEighth_positions (q : Nat) (x : EighthSt) (d : Dev) : (setEighth q x d).body.positions = d.body.positions := rfl
@[simp] theorem setEighth_suits (q : Nat) (x : EighthSt) (d : Dev) : (setEighth q x d).body.suits = d.body.suits := rfl
@[simp] theorem setEighth_inqs (q : Nat) (x : EighthSt) (d : Dev) : (setEighth q x d).body.inqs = d.body.inqs := rfl
@[simp] theorem setEighth_dict (q : Nat) (x : EighthSt) (d : Dev) : (setEighth q x d).body.dict = d.body.dict := rfl
@[simp] theorem setEighth_hl (q : Nat) (x : EighthSt) (d : Dev) : (setEighth q x d).body.hl = d.body.hl := rfl
@[simp] theorem setEighth_ev (q : Nat) (x : EighthSt) (d : Dev) : (setEighth q x d).body.ev = d.body.ev := rfl
@[simp] theorem setEighth_bt (q : Nat) (x : EighthSt) (d : Dev) : (setEighth q x d).body.bt = d.body.bt := rfl
@[simp] theorem setEighth_coreHalt (q : Nat) (x : EighthSt) (d : Dev) : (setEighth q x d).body.coreHalt = d.body.coreHalt := rfl
@[simp] theorem setEighth_tileHalt (q : Nat) (x : EighthSt) (d : Dev) : (setEighth q x d).body.tileHalt = d.body.tileHalt := rfl
@[simp] theorem setEighth_free (q : Nat) (x : EighthSt) (d : Dev) : (setEighth q x d).body.free = d.body.free := rfl

@[simp] theorem setJob_tb (q : Nat) (x : Job) (d : Dev) : (setJob q x d).body.tb = d.body.tb := rfl
@[simp] theorem setJob_board (q : Nat) (x : Job) (d : Dev) : (setJob q x d).body.board = d.body.board := rfl
@[simp] theorem setJob_pages (q : Nat) (x : Job) (d : Dev) : (setJob q x d).body.pages = d.body.pages := rfl
@[simp] theorem setJob_ctl (q : Nat) (x : Job) (d : Dev) : (setJob q x d).body.ctl = d.body.ctl := rfl
@[simp] theorem setJob_latches (q : Nat) (x : Job) (d : Dev) : (setJob q x d).body.latches = d.body.latches := rfl
@[simp] theorem setJob_replies (q : Nat) (x : Job) (d : Dev) : (setJob q x d).body.replies = d.body.replies := rfl
@[simp] theorem setJob_tiles (q : Nat) (x : Job) (d : Dev) : (setJob q x d).body.tiles = d.body.tiles := rfl
@[simp] theorem setJob_hands (q : Nat) (x : Job) (d : Dev) : (setJob q x d).body.hands = d.body.hands := rfl
@[simp] theorem setJob_eighths (q : Nat) (x : Job) (d : Dev) : (setJob q x d).body.eighths = d.body.eighths := rfl
@[simp] theorem setJob_setupWait (q : Nat) (x : Job) (d : Dev) : (setJob q x d).body.setupWait = d.body.setupWait := rfl
@[simp] theorem setJob_ktag (q : Nat) (x : Job) (d : Dev) : (setJob q x d).body.ktag = d.body.ktag := rfl
@[simp] theorem setJob_dlCode (q : Nat) (x : Job) (d : Dev) : (setJob q x d).body.dlCode = d.body.dlCode := rfl
@[simp] theorem setJob_dlBusy (q : Nat) (x : Job) (d : Dev) : (setJob q x d).body.dlBusy = d.body.dlBusy := rfl
@[simp] theorem setJob_dlEighth (q : Nat) (x : Job) (d : Dev) : (setJob q x d).body.dlEighth = d.body.dlEighth := rfl
@[simp] theorem setJob_piCode (q : Nat) (x : Job) (d : Dev) : (setJob q x d).body.piCode = d.body.piCode := rfl
@[simp] theorem setJob_piBusy (q : Nat) (x : Job) (d : Dev) : (setJob q x d).body.piBusy = d.body.piBusy := rfl
@[simp] theorem setJob_chans (q : Nat) (x : Job) (d : Dev) : (setJob q x d).body.chans = d.body.chans := rfl
@[simp] theorem setJob_stacks (q : Nat) (x : Job) (d : Dev) : (setJob q x d).body.hbmStacks = d.body.hbmStacks := rfl
@[simp] theorem setJob_marked (q : Nat) (x : Job) (d : Dev) : (setJob q x d).body.marked = d.body.marked := rfl
@[simp] theorem setJob_zones (q : Nat) (x : Job) (d : Dev) : (setJob q x d).body.zones = d.body.zones := rfl
@[simp] theorem setJob_flash (q : Nat) (x : Job) (d : Dev) : (setJob q x d).body.flash = d.body.flash := rfl
@[simp] theorem setJob_movers (q : Nat) (x : Job) (d : Dev) : (setJob q x d).body.movers = d.body.movers := rfl
@[simp] theorem setJob_turns (q : Nat) (x : Job) (d : Dev) : (setJob q x d).body.turns = d.body.turns := rfl
@[simp] theorem setJob_buckets (q : Nat) (x : Job) (d : Dev) : (setJob q x d).body.buckets = d.body.buckets := rfl
@[simp] theorem setJob_wbs (q : Nat) (x : Job) (d : Dev) : (setJob q x d).body.wbs = d.body.wbs := rfl
@[simp] theorem setJob_ports (q : Nat) (x : Job) (d : Dev) : (setJob q x d).body.ports = d.body.ports := rfl
@[simp] theorem setJob_links (q : Nat) (x : Job) (d : Dev) : (setJob q x d).body.links = d.body.links := rfl
@[simp] theorem setJob_seats (q : Nat) (x : Job) (d : Dev) : (setJob q x d).body.seats = d.body.seats := rfl
@[simp] theorem setJob_tx (q : Nat) (x : Job) (d : Dev) : (setJob q x d).body.tx = d.body.tx := rfl
@[simp] theorem setJob_tags (q : Nat) (x : Job) (d : Dev) : (setJob q x d).body.tags = d.body.tags := rfl
@[simp] theorem setJob_serves (q : Nat) (x : Job) (d : Dev) : (setJob q x d).body.serves = d.body.serves := rfl
@[simp] theorem setJob_order (q : Nat) (x : Job) (d : Dev) : (setJob q x d).body.order = d.body.order := rfl
@[simp] theorem setJob_positions (q : Nat) (x : Job) (d : Dev) : (setJob q x d).body.positions = d.body.positions := rfl
@[simp] theorem setJob_suits (q : Nat) (x : Job) (d : Dev) : (setJob q x d).body.suits = d.body.suits := rfl
@[simp] theorem setJob_inqs (q : Nat) (x : Job) (d : Dev) : (setJob q x d).body.inqs = d.body.inqs := rfl
@[simp] theorem setJob_dict (q : Nat) (x : Job) (d : Dev) : (setJob q x d).body.dict = d.body.dict := rfl
@[simp] theorem setJob_hl (q : Nat) (x : Job) (d : Dev) : (setJob q x d).body.hl = d.body.hl := rfl
@[simp] theorem setJob_ev (q : Nat) (x : Job) (d : Dev) : (setJob q x d).body.ev = d.body.ev := rfl
@[simp] theorem setJob_bt (q : Nat) (x : Job) (d : Dev) : (setJob q x d).body.bt = d.body.bt := rfl
@[simp] theorem setJob_coreHalt (q : Nat) (x : Job) (d : Dev) : (setJob q x d).body.coreHalt = d.body.coreHalt := rfl
@[simp] theorem setJob_tileHalt (q : Nat) (x : Job) (d : Dev) : (setJob q x d).body.tileHalt = d.body.tileHalt := rfl
@[simp] theorem setJob_free (q : Nat) (x : Job) (d : Dev) : (setJob q x d).body.free = d.body.free := rfl

@[simp] theorem modPort_tb (p : Nat) (f : PortSt → PortSt) (d : Dev) : (modPort p f d).body.tb = d.body.tb := rfl
@[simp] theorem modPort_board (p : Nat) (f : PortSt → PortSt) (d : Dev) : (modPort p f d).body.board = d.body.board := rfl
@[simp] theorem modPort_pages (p : Nat) (f : PortSt → PortSt) (d : Dev) : (modPort p f d).body.pages = d.body.pages := rfl
@[simp] theorem modPort_ctl (p : Nat) (f : PortSt → PortSt) (d : Dev) : (modPort p f d).body.ctl = d.body.ctl := rfl
@[simp] theorem modPort_latches (p : Nat) (f : PortSt → PortSt) (d : Dev) : (modPort p f d).body.latches = d.body.latches := rfl
@[simp] theorem modPort_replies (p : Nat) (f : PortSt → PortSt) (d : Dev) : (modPort p f d).body.replies = d.body.replies := rfl
@[simp] theorem modPort_tiles (p : Nat) (f : PortSt → PortSt) (d : Dev) : (modPort p f d).body.tiles = d.body.tiles := rfl
@[simp] theorem modPort_hands (p : Nat) (f : PortSt → PortSt) (d : Dev) : (modPort p f d).body.hands = d.body.hands := rfl
@[simp] theorem modPort_eighths (p : Nat) (f : PortSt → PortSt) (d : Dev) : (modPort p f d).body.eighths = d.body.eighths := rfl
@[simp] theorem modPort_jobs (p : Nat) (f : PortSt → PortSt) (d : Dev) : (modPort p f d).body.jobs = d.body.jobs := rfl
@[simp] theorem modPort_setupWait (p : Nat) (f : PortSt → PortSt) (d : Dev) : (modPort p f d).body.setupWait = d.body.setupWait := rfl
@[simp] theorem modPort_ktag (p : Nat) (f : PortSt → PortSt) (d : Dev) : (modPort p f d).body.ktag = d.body.ktag := rfl
@[simp] theorem modPort_dlCode (p : Nat) (f : PortSt → PortSt) (d : Dev) : (modPort p f d).body.dlCode = d.body.dlCode := rfl
@[simp] theorem modPort_dlBusy (p : Nat) (f : PortSt → PortSt) (d : Dev) : (modPort p f d).body.dlBusy = d.body.dlBusy := rfl
@[simp] theorem modPort_dlEighth (p : Nat) (f : PortSt → PortSt) (d : Dev) : (modPort p f d).body.dlEighth = d.body.dlEighth := rfl
@[simp] theorem modPort_piCode (p : Nat) (f : PortSt → PortSt) (d : Dev) : (modPort p f d).body.piCode = d.body.piCode := rfl
@[simp] theorem modPort_piBusy (p : Nat) (f : PortSt → PortSt) (d : Dev) : (modPort p f d).body.piBusy = d.body.piBusy := rfl
@[simp] theorem modPort_chans (p : Nat) (f : PortSt → PortSt) (d : Dev) : (modPort p f d).body.chans = d.body.chans := rfl
@[simp] theorem modPort_stacks (p : Nat) (f : PortSt → PortSt) (d : Dev) : (modPort p f d).body.hbmStacks = d.body.hbmStacks := rfl
@[simp] theorem modPort_marked (p : Nat) (f : PortSt → PortSt) (d : Dev) : (modPort p f d).body.marked = d.body.marked := rfl
@[simp] theorem modPort_zones (p : Nat) (f : PortSt → PortSt) (d : Dev) : (modPort p f d).body.zones = d.body.zones := rfl
@[simp] theorem modPort_flash (p : Nat) (f : PortSt → PortSt) (d : Dev) : (modPort p f d).body.flash = d.body.flash := rfl
@[simp] theorem modPort_movers (p : Nat) (f : PortSt → PortSt) (d : Dev) : (modPort p f d).body.movers = d.body.movers := rfl
@[simp] theorem modPort_turns (p : Nat) (f : PortSt → PortSt) (d : Dev) : (modPort p f d).body.turns = d.body.turns := rfl
@[simp] theorem modPort_buckets (p : Nat) (f : PortSt → PortSt) (d : Dev) : (modPort p f d).body.buckets = d.body.buckets := rfl
@[simp] theorem modPort_wbs (p : Nat) (f : PortSt → PortSt) (d : Dev) : (modPort p f d).body.wbs = d.body.wbs := rfl
@[simp] theorem modPort_links (p : Nat) (f : PortSt → PortSt) (d : Dev) : (modPort p f d).body.links = d.body.links := rfl
@[simp] theorem modPort_seats (p : Nat) (f : PortSt → PortSt) (d : Dev) : (modPort p f d).body.seats = d.body.seats := rfl
@[simp] theorem modPort_tx (p : Nat) (f : PortSt → PortSt) (d : Dev) : (modPort p f d).body.tx = d.body.tx := rfl
@[simp] theorem modPort_tags (p : Nat) (f : PortSt → PortSt) (d : Dev) : (modPort p f d).body.tags = d.body.tags := rfl
@[simp] theorem modPort_serves (p : Nat) (f : PortSt → PortSt) (d : Dev) : (modPort p f d).body.serves = d.body.serves := rfl
@[simp] theorem modPort_order (p : Nat) (f : PortSt → PortSt) (d : Dev) : (modPort p f d).body.order = d.body.order := rfl
@[simp] theorem modPort_positions (p : Nat) (f : PortSt → PortSt) (d : Dev) : (modPort p f d).body.positions = d.body.positions := rfl
@[simp] theorem modPort_suits (p : Nat) (f : PortSt → PortSt) (d : Dev) : (modPort p f d).body.suits = d.body.suits := rfl
@[simp] theorem modPort_inqs (p : Nat) (f : PortSt → PortSt) (d : Dev) : (modPort p f d).body.inqs = d.body.inqs := rfl
@[simp] theorem modPort_dict (p : Nat) (f : PortSt → PortSt) (d : Dev) : (modPort p f d).body.dict = d.body.dict := rfl
@[simp] theorem modPort_hl (p : Nat) (f : PortSt → PortSt) (d : Dev) : (modPort p f d).body.hl = d.body.hl := rfl
@[simp] theorem modPort_ev (p : Nat) (f : PortSt → PortSt) (d : Dev) : (modPort p f d).body.ev = d.body.ev := rfl
@[simp] theorem modPort_bt (p : Nat) (f : PortSt → PortSt) (d : Dev) : (modPort p f d).body.bt = d.body.bt := rfl
@[simp] theorem modPort_coreHalt (p : Nat) (f : PortSt → PortSt) (d : Dev) : (modPort p f d).body.coreHalt = d.body.coreHalt := rfl
@[simp] theorem modPort_tileHalt (p : Nat) (f : PortSt → PortSt) (d : Dev) : (modPort p f d).body.tileHalt = d.body.tileHalt := rfl
@[simp] theorem modPort_free (p : Nat) (f : PortSt → PortSt) (d : Dev) : (modPort p f d).body.free = d.body.free := rfl

@[simp] theorem modLink_tb (l : Nat) (f : LinkSt → LinkSt) (d : Dev) : (modLink l f d).body.tb = d.body.tb := rfl
@[simp] theorem modLink_board (l : Nat) (f : LinkSt → LinkSt) (d : Dev) : (modLink l f d).body.board = d.body.board := rfl
@[simp] theorem modLink_pages (l : Nat) (f : LinkSt → LinkSt) (d : Dev) : (modLink l f d).body.pages = d.body.pages := rfl
@[simp] theorem modLink_ctl (l : Nat) (f : LinkSt → LinkSt) (d : Dev) : (modLink l f d).body.ctl = d.body.ctl := rfl
@[simp] theorem modLink_latches (l : Nat) (f : LinkSt → LinkSt) (d : Dev) : (modLink l f d).body.latches = d.body.latches := rfl
@[simp] theorem modLink_replies (l : Nat) (f : LinkSt → LinkSt) (d : Dev) : (modLink l f d).body.replies = d.body.replies := rfl
@[simp] theorem modLink_tiles (l : Nat) (f : LinkSt → LinkSt) (d : Dev) : (modLink l f d).body.tiles = d.body.tiles := rfl
@[simp] theorem modLink_hands (l : Nat) (f : LinkSt → LinkSt) (d : Dev) : (modLink l f d).body.hands = d.body.hands := rfl
@[simp] theorem modLink_eighths (l : Nat) (f : LinkSt → LinkSt) (d : Dev) : (modLink l f d).body.eighths = d.body.eighths := rfl
@[simp] theorem modLink_jobs (l : Nat) (f : LinkSt → LinkSt) (d : Dev) : (modLink l f d).body.jobs = d.body.jobs := rfl
@[simp] theorem modLink_setupWait (l : Nat) (f : LinkSt → LinkSt) (d : Dev) : (modLink l f d).body.setupWait = d.body.setupWait := rfl
@[simp] theorem modLink_ktag (l : Nat) (f : LinkSt → LinkSt) (d : Dev) : (modLink l f d).body.ktag = d.body.ktag := rfl
@[simp] theorem modLink_dlCode (l : Nat) (f : LinkSt → LinkSt) (d : Dev) : (modLink l f d).body.dlCode = d.body.dlCode := rfl
@[simp] theorem modLink_dlBusy (l : Nat) (f : LinkSt → LinkSt) (d : Dev) : (modLink l f d).body.dlBusy = d.body.dlBusy := rfl
@[simp] theorem modLink_dlEighth (l : Nat) (f : LinkSt → LinkSt) (d : Dev) : (modLink l f d).body.dlEighth = d.body.dlEighth := rfl
@[simp] theorem modLink_piCode (l : Nat) (f : LinkSt → LinkSt) (d : Dev) : (modLink l f d).body.piCode = d.body.piCode := rfl
@[simp] theorem modLink_piBusy (l : Nat) (f : LinkSt → LinkSt) (d : Dev) : (modLink l f d).body.piBusy = d.body.piBusy := rfl
@[simp] theorem modLink_chans (l : Nat) (f : LinkSt → LinkSt) (d : Dev) : (modLink l f d).body.chans = d.body.chans := rfl
@[simp] theorem modLink_stacks (l : Nat) (f : LinkSt → LinkSt) (d : Dev) : (modLink l f d).body.hbmStacks = d.body.hbmStacks := rfl
@[simp] theorem modLink_marked (l : Nat) (f : LinkSt → LinkSt) (d : Dev) : (modLink l f d).body.marked = d.body.marked := rfl
@[simp] theorem modLink_zones (l : Nat) (f : LinkSt → LinkSt) (d : Dev) : (modLink l f d).body.zones = d.body.zones := rfl
@[simp] theorem modLink_flash (l : Nat) (f : LinkSt → LinkSt) (d : Dev) : (modLink l f d).body.flash = d.body.flash := rfl
@[simp] theorem modLink_movers (l : Nat) (f : LinkSt → LinkSt) (d : Dev) : (modLink l f d).body.movers = d.body.movers := rfl
@[simp] theorem modLink_turns (l : Nat) (f : LinkSt → LinkSt) (d : Dev) : (modLink l f d).body.turns = d.body.turns := rfl
@[simp] theorem modLink_buckets (l : Nat) (f : LinkSt → LinkSt) (d : Dev) : (modLink l f d).body.buckets = d.body.buckets := rfl
@[simp] theorem modLink_wbs (l : Nat) (f : LinkSt → LinkSt) (d : Dev) : (modLink l f d).body.wbs = d.body.wbs := rfl
@[simp] theorem modLink_ports (l : Nat) (f : LinkSt → LinkSt) (d : Dev) : (modLink l f d).body.ports = d.body.ports := rfl
@[simp] theorem modLink_seats (l : Nat) (f : LinkSt → LinkSt) (d : Dev) : (modLink l f d).body.seats = d.body.seats := rfl
@[simp] theorem modLink_tx (l : Nat) (f : LinkSt → LinkSt) (d : Dev) : (modLink l f d).body.tx = d.body.tx := rfl
@[simp] theorem modLink_tags (l : Nat) (f : LinkSt → LinkSt) (d : Dev) : (modLink l f d).body.tags = d.body.tags := rfl
@[simp] theorem modLink_serves (l : Nat) (f : LinkSt → LinkSt) (d : Dev) : (modLink l f d).body.serves = d.body.serves := rfl
@[simp] theorem modLink_order (l : Nat) (f : LinkSt → LinkSt) (d : Dev) : (modLink l f d).body.order = d.body.order := rfl
@[simp] theorem modLink_positions (l : Nat) (f : LinkSt → LinkSt) (d : Dev) : (modLink l f d).body.positions = d.body.positions := rfl
@[simp] theorem modLink_suits (l : Nat) (f : LinkSt → LinkSt) (d : Dev) : (modLink l f d).body.suits = d.body.suits := rfl
@[simp] theorem modLink_inqs (l : Nat) (f : LinkSt → LinkSt) (d : Dev) : (modLink l f d).body.inqs = d.body.inqs := rfl
@[simp] theorem modLink_dict (l : Nat) (f : LinkSt → LinkSt) (d : Dev) : (modLink l f d).body.dict = d.body.dict := rfl
@[simp] theorem modLink_hl (l : Nat) (f : LinkSt → LinkSt) (d : Dev) : (modLink l f d).body.hl = d.body.hl := rfl
@[simp] theorem modLink_ev (l : Nat) (f : LinkSt → LinkSt) (d : Dev) : (modLink l f d).body.ev = d.body.ev := rfl
@[simp] theorem modLink_bt (l : Nat) (f : LinkSt → LinkSt) (d : Dev) : (modLink l f d).body.bt = d.body.bt := rfl
@[simp] theorem modLink_coreHalt (l : Nat) (f : LinkSt → LinkSt) (d : Dev) : (modLink l f d).body.coreHalt = d.body.coreHalt := rfl
@[simp] theorem modLink_tileHalt (l : Nat) (f : LinkSt → LinkSt) (d : Dev) : (modLink l f d).body.tileHalt = d.body.tileHalt := rfl
@[simp] theorem modLink_free (l : Nat) (f : LinkSt → LinkSt) (d : Dev) : (modLink l f d).body.free = d.body.free := rfl

@[simp] theorem modPage_tb (b : Nat) (f : Page → Page) (d : Dev) : (modPage b f d).body.tb = d.body.tb := rfl
@[simp] theorem modPage_board (b : Nat) (f : Page → Page) (d : Dev) : (modPage b f d).body.board = d.body.board := rfl
@[simp] theorem modPage_ctl (b : Nat) (f : Page → Page) (d : Dev) : (modPage b f d).body.ctl = d.body.ctl := rfl
@[simp] theorem modPage_latches (b : Nat) (f : Page → Page) (d : Dev) : (modPage b f d).body.latches = d.body.latches := rfl
@[simp] theorem modPage_replies (b : Nat) (f : Page → Page) (d : Dev) : (modPage b f d).body.replies = d.body.replies := rfl
@[simp] theorem modPage_tiles (b : Nat) (f : Page → Page) (d : Dev) : (modPage b f d).body.tiles = d.body.tiles := rfl
@[simp] theorem modPage_hands (b : Nat) (f : Page → Page) (d : Dev) : (modPage b f d).body.hands = d.body.hands := rfl
@[simp] theorem modPage_eighths (b : Nat) (f : Page → Page) (d : Dev) : (modPage b f d).body.eighths = d.body.eighths := rfl
@[simp] theorem modPage_jobs (b : Nat) (f : Page → Page) (d : Dev) : (modPage b f d).body.jobs = d.body.jobs := rfl
@[simp] theorem modPage_setupWait (b : Nat) (f : Page → Page) (d : Dev) : (modPage b f d).body.setupWait = d.body.setupWait := rfl
@[simp] theorem modPage_ktag (b : Nat) (f : Page → Page) (d : Dev) : (modPage b f d).body.ktag = d.body.ktag := rfl
@[simp] theorem modPage_dlCode (b : Nat) (f : Page → Page) (d : Dev) : (modPage b f d).body.dlCode = d.body.dlCode := rfl
@[simp] theorem modPage_dlBusy (b : Nat) (f : Page → Page) (d : Dev) : (modPage b f d).body.dlBusy = d.body.dlBusy := rfl
@[simp] theorem modPage_dlEighth (b : Nat) (f : Page → Page) (d : Dev) : (modPage b f d).body.dlEighth = d.body.dlEighth := rfl
@[simp] theorem modPage_piCode (b : Nat) (f : Page → Page) (d : Dev) : (modPage b f d).body.piCode = d.body.piCode := rfl
@[simp] theorem modPage_piBusy (b : Nat) (f : Page → Page) (d : Dev) : (modPage b f d).body.piBusy = d.body.piBusy := rfl
@[simp] theorem modPage_chans (b : Nat) (f : Page → Page) (d : Dev) : (modPage b f d).body.chans = d.body.chans := rfl
@[simp] theorem modPage_stacks (b : Nat) (f : Page → Page) (d : Dev) : (modPage b f d).body.hbmStacks = d.body.hbmStacks := rfl
@[simp] theorem modPage_marked (b : Nat) (f : Page → Page) (d : Dev) : (modPage b f d).body.marked = d.body.marked := rfl
@[simp] theorem modPage_zones (b : Nat) (f : Page → Page) (d : Dev) : (modPage b f d).body.zones = d.body.zones := rfl
@[simp] theorem modPage_flash (b : Nat) (f : Page → Page) (d : Dev) : (modPage b f d).body.flash = d.body.flash := rfl
@[simp] theorem modPage_movers (b : Nat) (f : Page → Page) (d : Dev) : (modPage b f d).body.movers = d.body.movers := rfl
@[simp] theorem modPage_turns (b : Nat) (f : Page → Page) (d : Dev) : (modPage b f d).body.turns = d.body.turns := rfl
@[simp] theorem modPage_buckets (b : Nat) (f : Page → Page) (d : Dev) : (modPage b f d).body.buckets = d.body.buckets := rfl
@[simp] theorem modPage_wbs (b : Nat) (f : Page → Page) (d : Dev) : (modPage b f d).body.wbs = d.body.wbs := rfl
@[simp] theorem modPage_ports (b : Nat) (f : Page → Page) (d : Dev) : (modPage b f d).body.ports = d.body.ports := rfl
@[simp] theorem modPage_links (b : Nat) (f : Page → Page) (d : Dev) : (modPage b f d).body.links = d.body.links := rfl
@[simp] theorem modPage_seats (b : Nat) (f : Page → Page) (d : Dev) : (modPage b f d).body.seats = d.body.seats := rfl
@[simp] theorem modPage_tx (b : Nat) (f : Page → Page) (d : Dev) : (modPage b f d).body.tx = d.body.tx := rfl
@[simp] theorem modPage_tags (b : Nat) (f : Page → Page) (d : Dev) : (modPage b f d).body.tags = d.body.tags := rfl
@[simp] theorem modPage_serves (b : Nat) (f : Page → Page) (d : Dev) : (modPage b f d).body.serves = d.body.serves := rfl
@[simp] theorem modPage_order (b : Nat) (f : Page → Page) (d : Dev) : (modPage b f d).body.order = d.body.order := rfl
@[simp] theorem modPage_positions (b : Nat) (f : Page → Page) (d : Dev) : (modPage b f d).body.positions = d.body.positions := rfl
@[simp] theorem modPage_suits (b : Nat) (f : Page → Page) (d : Dev) : (modPage b f d).body.suits = d.body.suits := rfl
@[simp] theorem modPage_inqs (b : Nat) (f : Page → Page) (d : Dev) : (modPage b f d).body.inqs = d.body.inqs := rfl
@[simp] theorem modPage_dict (b : Nat) (f : Page → Page) (d : Dev) : (modPage b f d).body.dict = d.body.dict := rfl
@[simp] theorem modPage_hl (b : Nat) (f : Page → Page) (d : Dev) : (modPage b f d).body.hl = d.body.hl := rfl
@[simp] theorem modPage_ev (b : Nat) (f : Page → Page) (d : Dev) : (modPage b f d).body.ev = d.body.ev := rfl
@[simp] theorem modPage_bt (b : Nat) (f : Page → Page) (d : Dev) : (modPage b f d).body.bt = d.body.bt := rfl
@[simp] theorem modPage_coreHalt (b : Nat) (f : Page → Page) (d : Dev) : (modPage b f d).body.coreHalt = d.body.coreHalt := rfl
@[simp] theorem modPage_tileHalt (b : Nat) (f : Page → Page) (d : Dev) : (modPage b f d).body.tileHalt = d.body.tileHalt := rfl
@[simp] theorem modPage_free (b : Nat) (f : Page → Page) (d : Dev) : (modPage b f d).body.free = d.body.free := rfl

@[simp] theorem modHl_tb (f : HlSt → HlSt) (d : Dev) : (modHl f d).body.tb = d.body.tb := rfl
@[simp] theorem modHl_board (f : HlSt → HlSt) (d : Dev) : (modHl f d).body.board = d.body.board := rfl
@[simp] theorem modHl_pages (f : HlSt → HlSt) (d : Dev) : (modHl f d).body.pages = d.body.pages := rfl
@[simp] theorem modHl_ctl (f : HlSt → HlSt) (d : Dev) : (modHl f d).body.ctl = d.body.ctl := rfl
@[simp] theorem modHl_latches (f : HlSt → HlSt) (d : Dev) : (modHl f d).body.latches = d.body.latches := rfl
@[simp] theorem modHl_replies (f : HlSt → HlSt) (d : Dev) : (modHl f d).body.replies = d.body.replies := rfl
@[simp] theorem modHl_tiles (f : HlSt → HlSt) (d : Dev) : (modHl f d).body.tiles = d.body.tiles := rfl
@[simp] theorem modHl_hands (f : HlSt → HlSt) (d : Dev) : (modHl f d).body.hands = d.body.hands := rfl
@[simp] theorem modHl_eighths (f : HlSt → HlSt) (d : Dev) : (modHl f d).body.eighths = d.body.eighths := rfl
@[simp] theorem modHl_jobs (f : HlSt → HlSt) (d : Dev) : (modHl f d).body.jobs = d.body.jobs := rfl
@[simp] theorem modHl_setupWait (f : HlSt → HlSt) (d : Dev) : (modHl f d).body.setupWait = d.body.setupWait := rfl
@[simp] theorem modHl_ktag (f : HlSt → HlSt) (d : Dev) : (modHl f d).body.ktag = d.body.ktag := rfl
@[simp] theorem modHl_dlCode (f : HlSt → HlSt) (d : Dev) : (modHl f d).body.dlCode = d.body.dlCode := rfl
@[simp] theorem modHl_dlBusy (f : HlSt → HlSt) (d : Dev) : (modHl f d).body.dlBusy = d.body.dlBusy := rfl
@[simp] theorem modHl_dlEighth (f : HlSt → HlSt) (d : Dev) : (modHl f d).body.dlEighth = d.body.dlEighth := rfl
@[simp] theorem modHl_piCode (f : HlSt → HlSt) (d : Dev) : (modHl f d).body.piCode = d.body.piCode := rfl
@[simp] theorem modHl_piBusy (f : HlSt → HlSt) (d : Dev) : (modHl f d).body.piBusy = d.body.piBusy := rfl
@[simp] theorem modHl_chans (f : HlSt → HlSt) (d : Dev) : (modHl f d).body.chans = d.body.chans := rfl
@[simp] theorem modHl_stacks (f : HlSt → HlSt) (d : Dev) : (modHl f d).body.hbmStacks = d.body.hbmStacks := rfl
@[simp] theorem modHl_marked (f : HlSt → HlSt) (d : Dev) : (modHl f d).body.marked = d.body.marked := rfl
@[simp] theorem modHl_zones (f : HlSt → HlSt) (d : Dev) : (modHl f d).body.zones = d.body.zones := rfl
@[simp] theorem modHl_flash (f : HlSt → HlSt) (d : Dev) : (modHl f d).body.flash = d.body.flash := rfl
@[simp] theorem modHl_movers (f : HlSt → HlSt) (d : Dev) : (modHl f d).body.movers = d.body.movers := rfl
@[simp] theorem modHl_turns (f : HlSt → HlSt) (d : Dev) : (modHl f d).body.turns = d.body.turns := rfl
@[simp] theorem modHl_buckets (f : HlSt → HlSt) (d : Dev) : (modHl f d).body.buckets = d.body.buckets := rfl
@[simp] theorem modHl_wbs (f : HlSt → HlSt) (d : Dev) : (modHl f d).body.wbs = d.body.wbs := rfl
@[simp] theorem modHl_ports (f : HlSt → HlSt) (d : Dev) : (modHl f d).body.ports = d.body.ports := rfl
@[simp] theorem modHl_links (f : HlSt → HlSt) (d : Dev) : (modHl f d).body.links = d.body.links := rfl
@[simp] theorem modHl_seats (f : HlSt → HlSt) (d : Dev) : (modHl f d).body.seats = d.body.seats := rfl
@[simp] theorem modHl_tx (f : HlSt → HlSt) (d : Dev) : (modHl f d).body.tx = d.body.tx := rfl
@[simp] theorem modHl_tags (f : HlSt → HlSt) (d : Dev) : (modHl f d).body.tags = d.body.tags := rfl
@[simp] theorem modHl_serves (f : HlSt → HlSt) (d : Dev) : (modHl f d).body.serves = d.body.serves := rfl
@[simp] theorem modHl_order (f : HlSt → HlSt) (d : Dev) : (modHl f d).body.order = d.body.order := rfl
@[simp] theorem modHl_positions (f : HlSt → HlSt) (d : Dev) : (modHl f d).body.positions = d.body.positions := rfl
@[simp] theorem modHl_suits (f : HlSt → HlSt) (d : Dev) : (modHl f d).body.suits = d.body.suits := rfl
@[simp] theorem modHl_inqs (f : HlSt → HlSt) (d : Dev) : (modHl f d).body.inqs = d.body.inqs := rfl
@[simp] theorem modHl_dict (f : HlSt → HlSt) (d : Dev) : (modHl f d).body.dict = d.body.dict := rfl
@[simp] theorem modHl_ev (f : HlSt → HlSt) (d : Dev) : (modHl f d).body.ev = d.body.ev := rfl
@[simp] theorem modHl_bt (f : HlSt → HlSt) (d : Dev) : (modHl f d).body.bt = d.body.bt := rfl
@[simp] theorem modHl_coreHalt (f : HlSt → HlSt) (d : Dev) : (modHl f d).body.coreHalt = d.body.coreHalt := rfl
@[simp] theorem modHl_tileHalt (f : HlSt → HlSt) (d : Dev) : (modHl f d).body.tileHalt = d.body.tileHalt := rfl
@[simp] theorem modHl_free (f : HlSt → HlSt) (d : Dev) : (modHl f d).body.free = d.body.free := rfl

/-! ## Reading an entry after writing one -/

theorem getTile_setTile (t u : Nat) (x : Tile) (d : Dev) :
    getTile (setTile t x d) u = if u = t then x else getTile d u := by
  simp [getTile, setTile_body, tget_tset]
@[simp] theorem getTile_setTile_same (t : Nat) (x : Tile) (d : Dev) : getTile (setTile t x d) t = x := by
  simp [getTile_setTile]
theorem getTile_setTile_other (t u : Nat) (x : Tile) (d : Dev) (h : u ≠ t) : getTile (setTile t x d) u = getTile d u := by
  simp [getTile_setTile, h]
@[simp] theorem getTile_modTile_same (t : Nat) (f : Tile → Tile) (d : Dev) : getTile (modTile t f d) t = f (getTile d t) := by
  simp [modTile]

theorem getEighth_setEighth (t u : Nat) (x : EighthSt) (d : Dev) :
    getEighth (setEighth t x d) u = if u = t then x else getEighth d u := by
  simp [getEighth, setEighth_body, tget_tset]
@[simp] theorem getEighth_setEighth_same (t : Nat) (x : EighthSt) (d : Dev) : getEighth (setEighth t x d) t = x := by
  simp [getEighth_setEighth]
theorem getEighth_setEighth_other (t u : Nat) (x : EighthSt) (d : Dev) (h : u ≠ t) : getEighth (setEighth t x d) u = getEighth d u := by
  simp [getEighth_setEighth, h]
@[simp] theorem getEighth_modEighth_same (t : Nat) (f : EighthSt → EighthSt) (d : Dev) : getEighth (modEighth t f d) t = f (getEighth d t) := by
  simp [modEighth]

theorem getJob_setJob (t u : Nat) (x : Job) (d : Dev) :
    getJob (setJob t x d) u = if u = t then x else getJob d u := by
  simp [getJob, setJob_body, tget_tset]
@[simp] theorem getJob_setJob_same (t : Nat) (x : Job) (d : Dev) : getJob (setJob t x d) t = x := by
  simp [getJob_setJob]
theorem getJob_setJob_other (t u : Nat) (x : Job) (d : Dev) (h : u ≠ t) : getJob (setJob t x d) u = getJob d u := by
  simp [getJob_setJob, h]
@[simp] theorem getJob_modJob_same (t : Nat) (f : Job → Job) (d : Dev) : getJob (modJob t f d) t = f (getJob d t) := by
  simp [modJob]

theorem handKey_inj (t h u k : Nat) (hh : h < 64) (hk : k < 64) : handKey t h = handKey u k ↔ t = u ∧ h = k := by
  unfold handKey; omega

theorem getHand_setHand_same (t h : Nat) (x : HandSt) (d : Dev) : getHand (setHand t h x d) t h = x := by
  simp [getHand, setHand_body]

theorem getHand_setHand_other (t h u k : Nat) (x : HandSt) (d : Dev) (hk : handKey u k ≠ handKey t h) :
    getHand (setHand t h x d) u k = getHand d u k := by
  simp [getHand, setHand_body, tget_tset, hk]

theorem getHand_modHand_same (t h : Nat) (f : HandSt → HandSt) (d : Dev) : getHand (modHand t h f d) t h = f (getHand d t h) :=
  getHand_setHand_same _ _ _ _

theorem getHand_modHand_other (t h u k : Nat) (f : HandSt → HandSt) (d : Dev) (hk : handKey u k ≠ handKey t h) :
    getHand (modHand t h f d) u k = getHand d u k :=
  getHand_setHand_other _ _ _ _ _ _ hk

@[simp] theorem getMe_modMe_same (t : Nat) (f : MeSt → MeSt) (d : Dev) : getMe (modMe t f d) t = f (getMe d t) := by
  simp [getMe, modMe, setMe]
@[simp] theorem getSf_modSf_same (t : Nat) (f : SfSt → SfSt) (d : Dev) : getSf (modSf t f d) t = f (getSf d t) := by
  simp [getSf, modSf, setSf]
@[simp] theorem getSt_modSt_same (t : Nat) (f : StSt → StSt) (d : Dev) : getSt (modSt t f d) t = f (getSt d t) := by
  simp [getSt, modSt, setSt]

@[simp] theorem getPort_modPort_same (p : Nat) (f : PortSt → PortSt) (d : Dev) : getPort (modPort p f d) p = f (getPort d p) := by
  simp [getPort, modPort_body]
@[simp] theorem getLink_modLink_same (l : Nat) (f : LinkSt → LinkSt) (d : Dev) : getLink (modLink l f d) l = f (getLink d l) := by
  simp [getLink, modLink_body]
@[simp] theorem getPage_modPage_same (b : Nat) (f : Page → Page) (d : Dev) : getPage (modPage b f d) b = f (getPage d b) := by
  simp [getPage, modPage_body]

/-! ## A command's start -/

@[simp] theorem fresh_time (d : Dev) : (fresh d).time = d.time := rfl
@[simp] theorem fresh_power (d : Dev) : (fresh d).power = d.power := rfl
@[simp] theorem fresh_sec (d : Dev) : (fresh d).sec = d.sec := rfl
@[simp] theorem fresh_mem (d : Dev) : (fresh d).mem = d.mem := rfl
@[simp] theorem fresh_log (d : Dev) : (fresh d).log = [] := rfl
@[simp] theorem fresh_replies (d : Dev) : (fresh d).body.replies = [] := rfl

@[simp] theorem fresh_tb (d : Dev) : (fresh d).body.tb = d.body.tb := rfl
@[simp] theorem fresh_board (d : Dev) : (fresh d).body.board = d.body.board := rfl
@[simp] theorem fresh_pages (d : Dev) : (fresh d).body.pages = d.body.pages := rfl
@[simp] theorem fresh_ctl (d : Dev) : (fresh d).body.ctl = d.body.ctl := rfl
@[simp] theorem fresh_latches (d : Dev) : (fresh d).body.latches = d.body.latches := rfl
@[simp] theorem fresh_tiles (d : Dev) : (fresh d).body.tiles = d.body.tiles := rfl
@[simp] theorem fresh_hands (d : Dev) : (fresh d).body.hands = d.body.hands := rfl
@[simp] theorem fresh_eighths (d : Dev) : (fresh d).body.eighths = d.body.eighths := rfl
@[simp] theorem fresh_jobs (d : Dev) : (fresh d).body.jobs = d.body.jobs := rfl
@[simp] theorem fresh_setupWait (d : Dev) : (fresh d).body.setupWait = d.body.setupWait := rfl
@[simp] theorem fresh_ktag (d : Dev) : (fresh d).body.ktag = d.body.ktag := rfl
@[simp] theorem fresh_dlCode (d : Dev) : (fresh d).body.dlCode = d.body.dlCode := rfl
@[simp] theorem fresh_dlBusy (d : Dev) : (fresh d).body.dlBusy = d.body.dlBusy := rfl
@[simp] theorem fresh_dlEighth (d : Dev) : (fresh d).body.dlEighth = d.body.dlEighth := rfl
@[simp] theorem fresh_piCode (d : Dev) : (fresh d).body.piCode = d.body.piCode := rfl
@[simp] theorem fresh_piBusy (d : Dev) : (fresh d).body.piBusy = d.body.piBusy := rfl
@[simp] theorem fresh_chans (d : Dev) : (fresh d).body.chans = d.body.chans := rfl
@[simp] theorem fresh_stacks (d : Dev) : (fresh d).body.hbmStacks = d.body.hbmStacks := rfl
@[simp] theorem fresh_marked (d : Dev) : (fresh d).body.marked = d.body.marked := rfl
@[simp] theorem fresh_zones (d : Dev) : (fresh d).body.zones = d.body.zones := rfl
@[simp] theorem fresh_flash (d : Dev) : (fresh d).body.flash = d.body.flash := rfl
@[simp] theorem fresh_movers (d : Dev) : (fresh d).body.movers = d.body.movers := rfl
@[simp] theorem fresh_turns (d : Dev) : (fresh d).body.turns = d.body.turns := rfl
@[simp] theorem fresh_buckets (d : Dev) : (fresh d).body.buckets = d.body.buckets := rfl
@[simp] theorem fresh_wbs (d : Dev) : (fresh d).body.wbs = d.body.wbs := rfl
@[simp] theorem fresh_ports (d : Dev) : (fresh d).body.ports = d.body.ports := rfl
@[simp] theorem fresh_links (d : Dev) : (fresh d).body.links = d.body.links := rfl
@[simp] theorem fresh_seats (d : Dev) : (fresh d).body.seats = d.body.seats := rfl
@[simp] theorem fresh_tx (d : Dev) : (fresh d).body.tx = d.body.tx := rfl
@[simp] theorem fresh_tags (d : Dev) : (fresh d).body.tags = d.body.tags := rfl
@[simp] theorem fresh_serves (d : Dev) : (fresh d).body.serves = d.body.serves := rfl
@[simp] theorem fresh_order (d : Dev) : (fresh d).body.order = d.body.order := rfl
@[simp] theorem fresh_positions (d : Dev) : (fresh d).body.positions = d.body.positions := rfl
@[simp] theorem fresh_suits (d : Dev) : (fresh d).body.suits = d.body.suits := rfl
@[simp] theorem fresh_inqs (d : Dev) : (fresh d).body.inqs = d.body.inqs := rfl
@[simp] theorem fresh_dict (d : Dev) : (fresh d).body.dict = d.body.dict := rfl
@[simp] theorem fresh_hl (d : Dev) : (fresh d).body.hl = d.body.hl := rfl
@[simp] theorem fresh_ev (d : Dev) : (fresh d).body.ev = d.body.ev := rfl
@[simp] theorem fresh_bt (d : Dev) : (fresh d).body.bt = d.body.bt := rfl
@[simp] theorem fresh_coreHalt (d : Dev) : (fresh d).body.coreHalt = d.body.coreHalt := rfl
@[simp] theorem fresh_tileHalt (d : Dev) : (fresh d).body.tileHalt = d.body.tileHalt := rfl
@[simp] theorem fresh_free (d : Dev) : (fresh d).body.free = d.body.free := rfl
@[simp] theorem fresh_getTile (d : Dev) (i : Nat) : getTile (fresh d) i = getTile d i := rfl
@[simp] theorem fresh_getMe (d : Dev) (i : Nat) : getMe (fresh d) i = getMe d i := rfl
@[simp] theorem fresh_getSf (d : Dev) (i : Nat) : getSf (fresh d) i = getSf d i := rfl
@[simp] theorem fresh_getSt (d : Dev) (i : Nat) : getSt (fresh d) i = getSt d i := rfl
@[simp] theorem fresh_getEighth (d : Dev) (i : Nat) : getEighth (fresh d) i = getEighth d i := rfl
@[simp] theorem fresh_getJob (d : Dev) (i : Nat) : getJob (fresh d) i = getJob d i := rfl
@[simp] theorem fresh_getPort (d : Dev) (i : Nat) : getPort (fresh d) i = getPort d i := rfl
@[simp] theorem fresh_getLink (d : Dev) (i : Nat) : getLink (fresh d) i = getLink d i := rfl
@[simp] theorem fresh_getPage (d : Dev) (i : Nat) : getPage (fresh d) i = getPage d i := rfl
@[simp] theorem fresh_getHand (d : Dev) (t h : Nat) : getHand (fresh d) t h = getHand d t h := rfl

end Sys2Proof.Machine
end

