-- ==== Sys2Proof/Laws/Control.lean ====
section
/-! SUPPORT. Control space's stored words, commits and steps: what a write of a word leaves, and what a command of each
kind can change. -/

namespace Sys2Proof.Machine

/-! ## Stored words of control space -/

theorem ctlSet_body (o : Nat) (v : Word) (d : Dev) :
    (ctlSet o v d).body = { d.body with ctl := tset (regReset o) d.body.ctl (o / 4) v } := rfl

@[simp] theorem ctlGet_ctlSet_same (o : Nat) (v : Word) (d : Dev) : ctlGet (ctlSet o v d) o = v := by
  simp [ctlGet, ctlSet_body]

theorem ctlGet_ctlSet_other (o p : Nat) (v : Word) (d : Dev) (h : p / 4 ≠ o / 4) : ctlGet (ctlSet o v d) p = ctlGet d p := by
  simp only [ctlGet, ctlSet_body]; exact tget_tset_other _ _ _ _ _ _ h

@[simp] theorem ctlNat_ctlSetN_same (o v : Nat) (d : Dev) : ctlNat (ctlSetN o v d) o = v % 2 ^ 32 := by
  simp [ctlNat, ctlSetN]

@[simp] theorem ctlPair_ctlSetPair (o v : Nat) (d : Dev) : ctlPair (ctlSetPair o v d) o = v % 2 ^ 64 := by
  simp only [ctlPair, ctlNat, ctlSetPair, ctlSetN, ctlGet_ctlSet_same]
  rw [ctlGet_ctlSet_other _ _ _ _ (by omega), ctlGet_ctlSet_same]
  simp only [BitVec.toNat_ofNat]
  omega

theorem ctlGet_ctlSetPair_other (o p v : Nat) (d : Dev) (h : p / 4 ≠ o / 4) (h2 : p / 4 ≠ (o + 4) / 4) :
    ctlGet (ctlSetPair o v d) p = ctlGet d p := by
  simp only [ctlSetPair, ctlSetN]
  rw [ctlGet_ctlSet_other _ _ _ _ h2, ctlGet_ctlSet_other _ _ _ _ h]

@[simp] theorem getTile_ctlSetPair (o v : Nat) (d : Dev) (t : Nat) : getTile (ctlSetPair o v d) t = getTile d t := rfl
@[simp] theorem getHand_ctlSetPair (o v : Nat) (d : Dev) (t h : Nat) : getHand (ctlSetPair o v d) t h = getHand d t h := rfl
@[simp] theorem getTile_ctlSet (o : Nat) (v : Word) (d : Dev) (t : Nat) : getTile (ctlSet o v d) t = getTile d t := rfl
@[simp] theorem getHand_ctlSet (o : Nat) (v : Word) (d : Dev) (t h : Nat) : getHand (ctlSet o v d) t h = getHand d t h := rfl
@[simp] theorem getTile_modHand (u h t : Nat) (f : HandSt → HandSt) (d : Dev) : getTile (modHand u h f d) t = getTile d t := rfl
@[simp] theorem getHand_modTile (u t h : Nat) (f : Tile → Tile) (d : Dev) : getHand (modTile u f d) t h = getHand d t h := rfl
@[simp] theorem ctlGet_modHand (u h o : Nat) (f : HandSt → HandSt) (d : Dev) : ctlGet (modHand u h f d) o = ctlGet d o := rfl
@[simp] theorem ctlGet_modTile (u o : Nat) (f : Tile → Tile) (d : Dev) : ctlGet (modTile u f d) o = ctlGet d o := rfl

/-! ## Commits: what a command of each kind can change -/

theorem run_eq (f : Dev → Dev) (s : State) : run f s = .next (commitBody s (f (fresh s.dev))) := rfl

/-- A block on main power runs its effect while main power is on. -/
theorem runMain_on (f : Dev → Dev) (s : State) (h : s.dev.power.mainOn = true) :
    runMain f s = .next (commitBody s (f (fresh s.dev))) := by
  have : (fresh s.dev).power.mainOn = true := h
  simp only [runMain, run, this, if_true]

/-- With main power off it changes nothing. -/
theorem runMain_off (f : Dev → Dev) (s : State) (h : s.dev.power.mainOn = false) :
    runMain f s = .next (commitBody s (fresh s.dev)) := by
  simp [runMain, run, h]

@[simp] theorem commitBody_pending (s : State) (e : Dev) : (commitBody s e).pending = s.pending := rfl
@[simp] theorem commitBody_time (s : State) (e : Dev) : (commitBody s e).dev.time = s.dev.time := rfl
@[simp] theorem commitBody_power (s : State) (e : Dev) : (commitBody s e).dev.power = s.dev.power := rfl
@[simp] theorem commitBody_sec (s : State) (e : Dev) : (commitBody s e).dev.sec = s.dev.sec := rfl
@[simp] theorem commitBody_body (s : State) (e : Dev) : (commitBody s e).dev.body = e.body := rfl
@[simp] theorem commitBody_mem (s : State) (e : Dev) : (commitBody s e).dev.mem = applyOps s.dev.mem e.log := rfl
@[simp] theorem commitBody_log (s : State) (e : Dev) : (commitBody s e).dev.log = e.log := rfl

theorem commitBody_wf (s : State) (e : Dev) (h : s.dev.mem.wf = true) : (commitBody s e).dev.mem.wf = true := applyOps_wf _ _ h
theorem commitTime_wf (s : State) (e : Dev) (h : s.dev.mem.wf = true) : (commitTime s e).dev.mem.wf = true := applyOps_wf _ _ h
theorem commitPower_wf (s : State) (e : Dev) (h : s.dev.mem.wf = true) : (commitPower s e).dev.mem.wf = true := applyOps_wf _ _ h
theorem commitSec_wf (s : State) (e : Dev) (h : s.dev.mem.wf = true) : (commitSec s e).dev.mem.wf = true := applyOps_wf _ _ h
theorem commitAll_wf (s : State) (e : Dev) (h : s.dev.mem.wf = true) : (commitAll s e).dev.mem.wf = true := applyOps_wf _ _ h

theorem clampDuty_range (n : Nat) : 8 ≤ clampDuty n ∧ clampDuty n ≤ 16 := by unfold clampDuty; omega

/-! ## A step -/

/-- The command at the front of the queue runs on the rest. -/
theorem step_cons (s : State) (c : Instr) (rest : List Instr) (h : s.pending = c :: rest) :
    step s = exec c { s with pending := rest } := by
  simp [step, h]

/-- With nothing waiting the block idles. -/
theorem step_nil (s : State) (h : s.pending = []) : step s = idle s := by
  simp [step, h]

end Sys2Proof.Machine
end

