-- ==== Sys2Proof/Laws/Hands.lean ====
section
/-! SUPPORT. What the issue of a hand's instruction does (R113, R115): one law per piece of the state. -/

namespace Sys2Proof.Machine

theorem noteIssue_hand (t h : Nat) (d : Dev) :
    getHand (noteIssue t h d) t h = { getHand d t h with lastIssue := some (now d), pc := (getHand d t h).pc + 4 } := by
  simp only [noteIssue, ctlPairAdd, getHand_ctlSetPair]
  rw [getHand_modHand_same]
  rfl

theorem noteIssue_other_hand (t h u k : Nat) (d : Dev) (hk : handKey u k ≠ handKey t h) :
    getHand (noteIssue t h d) u k = getHand d u k := by
  simp only [noteIssue, ctlPairAdd, getHand_ctlSetPair]
  rw [getHand_modHand_other _ _ _ _ _ _ hk]
  rfl

theorem noteIssue_tile (t h : Nat) (d : Dev) :
    getTile (noteIssue t h d) t = { getTile d t with port := h, looked := some (now d) } := by
  simp only [noteIssue, ctlPairAdd, getTile_ctlSetPair, getTile_modHand, getTile_modTile_same]

theorem noteIssue_other_tile (t h u : Nat) (d : Dev) (hu : u ≠ t) : getTile (noteIssue t h d) u = getTile d u := by
  simp only [noteIssue, ctlPairAdd, getTile_ctlSetPair, getTile_modHand, modTile]
  exact getTile_setTile_other _ _ _ _ hu

theorem noteIssue_count (t h : Nat) (d : Dev) :
    ctlPair (noteIssue t h d) (regOff 18 t 0x50) = (ctlPair d (regOff 18 t 0x50) + 1) % 2 ^ 64 := by
  simp only [noteIssue, ctlPairAdd, ctlPair_ctlSetPair]
  have : ∀ e : Dev, ctlPair (modHand t h (fun x => { x with lastIssue := some (now d), pc := x.pc + 4 }) e) (regOff 18 t 0x50)
      = ctlPair e (regOff 18 t 0x50) := fun _ => rfl
  rw [this]
  have : ∀ f : Tile → Tile, ctlPair (modTile t f d) (regOff 18 t 0x50) = ctlPair d (regOff 18 t 0x50) := fun _ => rfl
  rw [this]
  omega

theorem noteIssue_ctl (t h o : Nat) (d : Dev) (h1 : o / 4 ≠ regOff 18 t 0x50 / 4) (h2 : o / 4 ≠ regOff 18 t 0x54 / 4) :
    ctlGet (noteIssue t h d) o = ctlGet d o := by
  simp only [noteIssue, ctlPairAdd]
  rw [ctlGet_ctlSetPair_other _ _ _ _ h1 (by simpa [regOff, Nat.add_assoc] using h2)]
  rfl

theorem ctlPairAdd_body (o : Nat) (d : Dev) :
    (ctlPairAdd o d).body = { d.body with ctl := (ctlPairAdd o d).body.ctl } := by
  unfold ctlPairAdd; generalize (ctlPair d o + 1) % 2 ^ 64 = n; rfl
theorem ctlPairAdd_dev (o : Nat) (d : Dev) : ctlPairAdd o d = { d with body := (ctlPairAdd o d).body } := by
  unfold ctlPairAdd; generalize (ctlPair d o + 1) % 2 ^ 64 = n; rfl

/-- The issue leaves all else in the body, and everything outside it. -/
theorem noteIssue_body (t h : Nat) (d : Dev) :
    (noteIssue t h d).body = { d.body with tiles := (noteIssue t h d).body.tiles, hands := (noteIssue t h d).body.hands
                                           ctl := (noteIssue t h d).body.ctl } := by
  simp only [noteIssue]
  generalize hx : modHand t h _ _ = x
  have e : x.body = { d.body with tiles := x.body.tiles, hands := x.body.hands } := by rw [← hx]; rfl
  generalize regOff 18 t 0x50 = o
  have k := ctlPairAdd_body o x
  generalize ctlPairAdd o x = y at k ⊢
  rw [k, e]
theorem noteIssue_dev (t h : Nat) (d : Dev) : noteIssue t h d = { d with body := (noteIssue t h d).body } := by
  simp only [noteIssue]
  generalize hx : modHand t h _ _ = x
  have e : x = { d with body := x.body } := by rw [← hx]; rfl
  generalize regOff 18 t 0x50 = o
  have k := ctlPairAdd_dev o x
  generalize ctlPairAdd o x = y at k ⊢
  rw [k, e]
@[simp] theorem noteIssue_log (t h : Nat) (d : Dev) : (noteIssue t h d).log = d.log := by rw [noteIssue_dev]
@[simp] theorem noteIssue_mem (t h : Nat) (d : Dev) : (noteIssue t h d).mem = d.mem := by rw [noteIssue_dev]
@[simp] theorem noteIssue_time (t h : Nat) (d : Dev) : (noteIssue t h d).time = d.time := by rw [noteIssue_dev]
@[simp] theorem noteIssue_power (t h : Nat) (d : Dev) : (noteIssue t h d).power = d.power := by rw [noteIssue_dev]

@[simp] theorem noteIssue_pc (t h : Nat) (d : Dev) : (getHand (noteIssue t h d) t h).pc = (getHand d t h).pc + 4 := by
  rw [noteIssue_hand]

/-! ## What an issue does not move -/

theorem pageBase_tile (t : Nat) : 0x200000 ≤ pageBase 18 t := by
  show 0x200000 ≤ 0x1000000 + 0x80000 * t + 0x1000 * (18 - 16); omega

theorem noteIssue_low (t h o : Nat) (d : Dev) (ho : o < 0x100000) : ctlGet (noteIssue t h d) o = ctlGet d o := by
  have := pageBase_tile t
  apply noteIssue_ctl <;> simp only [regOff] <;> omega

/-- Two devices that agree on all but tiles, hands, answers and control space's words of tile pages. -/
structure SameView (d e : Dev) : Prop where
  time : e.time = d.time
  power : e.power = d.power
  sec : e.sec = d.sec
  mem : e.mem = d.mem
  body : e.body = { d.body with tiles := e.body.tiles, hands := e.body.hands, ctl := e.body.ctl, replies := e.body.replies }
  low : ∀ o, o < 0x100000 → ctlGet e o = ctlGet d o

theorem noteIssue_view (t h : Nat) (d : Dev) : SameView d (noteIssue t h (fresh d)) where
  time := by rw [noteIssue_time]; rfl
  power := by rw [noteIssue_power]; rfl
  sec := by rw [noteIssue_dev]; rfl
  mem := by rw [noteIssue_mem]; rfl
  body := by
    have k := noteIssue_body t h (fresh d)
    generalize noteIssue t h (fresh d) = e at *
    rw [k]; rfl
  low := fun o ho => by rw [noteIssue_low _ _ _ _ ho]; rfl

theorem SameView.board {d e : Dev} (v : SameView d e) : e.body.board = d.body.board := by rw [v.body]
theorem SameView.zones {d e : Dev} (v : SameView d e) : e.body.zones = d.body.zones := by rw [v.body]
theorem SameView.eighths {d e : Dev} (v : SameView d e) : e.body.eighths = d.body.eighths := by rw [v.body]
theorem SameView.jobs {d e : Dev} (v : SameView d e) : e.body.jobs = d.body.jobs := by rw [v.body]

theorem SameView.seats {d e : Dev} (v : SameView d e) : e.body.seats = d.body.seats := by rw [v.body]

theorem SameView.low' {d e : Dev} (v : SameView d e) (o : Nat) (ho : o < 0x100000) : ctlNat e o = ctlNat d o := by
  simp only [ctlNat, v.low o ho]

theorem SameView.myDev {d e : Dev} (v : SameView d e) : myDev e = myDev d := by
  have b : regOff 7 0 0 = 0x7000 := rfl
  have lo : ∀ n, n < 0x1000 → ctlNat e (regOff 7 0 n) = ctlNat d (regOff 7 0 n) := by
    intro n hn
    have : regOff 7 0 n = 0x7000 + n := rfl
    exact v.low' _ (by omega)
  have m : ∀ p, seatWord e p = seatWord d p := by intro p; simp only [seatWord, v.seats]
  simp only [Machine.myDev, devNumber, lo 0x40 (by omega), lo 0x44 (by omega), lo 0x48 (by omega), m]

theorem SameView.homeOf {d e : Dev} (v : SameView d e) (a : Nat) : homeOf e a = homeOf d a := by
  have h1 : stackSize e = stackSize d := by funext s; simp only [stackSize, hbmMask, v.board]
  have h2 : gddrSize e = gddrSize d := by funext s; simp only [gddrSize, v.board]
  have h3 : pairSize e = pairSize d := by funext s; simp only [pairSize, v.board]
  simp only [Machine.homeOf, h1, h2, h3]

theorem SameView.readByte {d e : Dev} (v : SameView d e) (a : Nat) : readByte e a = readByte d a := by
  simp only [Machine.readByte, v.homeOf, v.mem, v.zones, epochs]; rfl
theorem SameView.readBytes {d e : Dev} (v : SameView d e) (a n : Nat) : readBytes e a n = readBytes d a n := by
  simp only [Machine.readBytes, v.readByte]
theorem SameView.readNat {d e : Dev} (v : SameView d e) (a n : Nat) : readNat e a n = readNat d a n := by
  simp only [Machine.readNat, v.readBytes]
theorem SameView.badBytes {d e : Dev} (v : SameView d e) (a n : Nat) : badBytes e a n = badBytes d a n := by
  simp only [Machine.badBytes, wordPoison, v.mem, v.homeOf]
theorem SameView.ownSram {d e : Dev} (v : SameView d e) (t a : Nat) : ownSram e t a = ownSram d t a := by
  simp only [Machine.ownSram, v.myDev]
theorem SameView.ownWindow {d e : Dev} (v : SameView d e) (t a : Nat) : ownWindow e t a = ownWindow d t a := by
  simp only [Machine.ownWindow, v.myDev]
theorem SameView.tilePart {d e : Dev} (v : SameView d e) (t : Nat) : tilePart e t = tilePart d t := by
  simp only [Machine.tilePart, ownerOf, getEighth, v.eighths]; rfl
theorem SameView.getJob {d e : Dev} (v : SameView d e) (q : Nat) : getJob e q = getJob d q := by
  simp only [Machine.getJob, v.jobs]
theorem SameView.bellOf {d e : Dev} (v : SameView d e) (t n : Nat) : bellOf e t n = bellOf d t n := by
  simp only [Machine.bellOf, v.tilePart, v.getJob]

/-- An issue leaves every tile's slots. -/
theorem noteIssue_slot (t h a b : Nat) (d : Dev) : getSlot (noteIssue t h d) a b = getSlot d a b := by
  have e : (getTile (noteIssue t h d) a).slots = (getTile d a).slots := by
    by_cases x : a = t
    · subst x; rw [noteIssue_tile]
    · rw [noteIssue_other_tile _ _ _ _ x]
  simp only [getSlot, e]

theorem noteIssue_slotOk (t h u a b : Nat) (d : Dev) : slotOk (noteIssue t h (fresh d)) u a b = slotOk d u a b := by
  have v := noteIssue_view t h d
  have e : getSlot (noteIssue t h (fresh d)) a b = getSlot d a b := by rw [noteIssue_slot]; rfl
  simp only [slotOk, v.tilePart, v.getJob, e]

/-- An instruction that may be issued runs its effect on the issued hand; one that may not changes nothing. -/
theorem issue_on (t h : Nat) (k : Nat → Dev → Dev) (d : Dev) (hm : mayIssue d t h = true) :
    issue t h k d = k (getHand d t h).pc.toNat (noteIssue t h d) := by
  simp [issue, hm]

theorem issue_off (t h : Nat) (k : Nat → Dev → Dev) (d : Dev) (hm : mayIssue d t h = false) : issue t h k d = d := by
  simp [issue, hm]

/-! ## Events and fault records -/

theorem raise_ctl (n o : Nat) (d : Dev) : ctlGet (raise n d) o = ctlGet d o := by
  unfold raise; split <;> rfl
theorem event_ctl (k i b o : Nat) (d : Dev) : ctlGet (event k i b d) o = ctlGet d o := by
  unfold event
  dsimp only
  split
  · rfl
  · split
    · rw [raise_ctl]; rfl
    · rfl
theorem event_hand (k i b u v : Nat) (d : Dev) : getHand (event k i b d) u v = getHand d u v := by
  unfold event raise
  dsimp only
  split
  · rfl
  · split
    · split <;> rfl
    · rfl

theorem raise_page (n b : Nat) (d : Dev) : getPage (raise n d) b = getPage d b := by
  unfold raise; split <;> rfl
theorem event_raw (k i b : Nat) (hb : b < 32) (d : Dev) : bitAt (getPage (event k i b d) (pageBase k i)).raw.toNat b = true := by
  have h : bitAt (getPage (modPage (pageBase k i) (fun p => { p with raw := p.raw ||| BitVec.ofNat 32 (2 ^ b) }) d) (pageBase k i)).raw.toNat b = true := by
    rw [getPage_modPage_same]
    have e : (2 ^ b % 2 ^ 32).testBit b = true := by
      rw [Nat.mod_eq_of_lt (Nat.pow_lt_pow_right (by omega) hb), Nat.testBit_two_pow_self]
    simp only [bitAt, BitVec.toNat_or, BitVec.toNat_ofNat, Nat.testBit_or, e, Bool.or_true]
  unfold event
  dsimp only
  split
  · exact h
  · split
    · rw [raise_page]; exact h
    · exact h

/-- What a fault's record leaves in the tile's log, its count and its event (R138). -/
theorem faultRecord_facts (t h code addr : Nat) (imp : Bool) (pc : Nat) (d : Dev) (hc : code < 256) (hh : h < 64) (hp : pc < 2 ^ 16) :
    let n := ctlNat d (regOff 18 t 0x48)
    let o := regOff 18 t (0x400 + 16 * (n % 16))
    let e := faultRecord t h code addr imp pc d
    ctlNat e o = code + 256 * h + 2 ^ 14 * b2n imp + 2 ^ 16 * pc ∧ ctlNat e (o + 4) = d.time.trick % 2 ^ 32
    ∧ ctlPair e (o + 8) = addr % 2 ^ 64 ∧ ctlNat e (regOff 18 t 0x48) = (n + 1) % 2 ^ 32
    ∧ bitAt (getPage e (pageBase 18 t)).raw.toNat 0 = true := by
  intro n o e
  have b0 : pageBase 18 t = 4 * (0x400000 + 0x20000 * t + 0x400 * (18 - 16)) := by
    show 0x1000000 + 0x80000 * t + 0x1000 * (18 - 16) = _; omega
  have ho : o = pageBase 18 t + (0x400 + 16 * (n % 16)) := rfl
  have hr : regOff 18 t 0x48 = pageBase 18 t + 0x48 := rfl
  have hi : b2n imp ≤ 1 := by cases imp <;> simp [b2n]
  have he : e = event 18 t 0 (ctlSetN (regOff 18 t 0x48) ((n + 1) % 2 ^ 32) (ctlSetPair (o + 8) (addr % 2 ^ 64)
      (ctlSetN (o + 4) (d.time.trick % 2 ^ 32) (ctlSetN o (code % 256 + 256 * h + 2 ^ 14 * b2n imp + 2 ^ 16 * (pc % 2 ^ 16)) d)))) := rfl
  have ev : ∀ q (x : Dev), ctlNat (event 18 t 0 x) q = ctlNat x q := fun q x => by simp only [ctlNat, event_ctl]
  have oth : ∀ q r v (x : Dev), q / 4 ≠ r / 4 → ctlNat (ctlSetN r v x) q = ctlNat x q := fun q r v x hq => by
    simp only [ctlNat, ctlSetN, ctlGet_ctlSet_other _ _ _ _ hq]
  have oth2 : ∀ q r v (x : Dev), q / 4 ≠ r / 4 → q / 4 ≠ (r + 4) / 4 → ctlNat (ctlSetPair r v x) q = ctlNat x q := fun q r v x h1 h2 => by
    simp only [ctlNat, ctlGet_ctlSetPair_other _ _ _ _ h1 h2]
  have e5 : bitAt (getPage e (pageBase 18 t)).raw.toNat 0 = true := by rw [he]; exact event_raw _ _ _ (by omega) _
  refine ⟨?_, ?_, ?_, ?_, e5⟩ <;> clear e5 <;> rw [he] <;> clear he e <;> (try clear e)
  all_goals generalize pageBase 18 t = B at *
  all_goals generalize 0x400000 + 0x20000 * t + 0x400 * (18 - 16) = C at *
  · rw [ev, oth _ _ _ _ (by omega), oth2 _ _ _ _ (by omega) (by omega), oth _ _ _ _ (by omega), ctlNat_ctlSetN_same]
    omega
  · rw [ev, oth _ _ _ _ (by omega), oth2 _ _ _ _ (by omega) (by omega), ctlNat_ctlSetN_same]; omega
  · simp only [ctlPair, ev]
    rw [oth _ _ _ _ (by omega), oth _ _ _ _ (by omega)]
    have := ctlPair_ctlSetPair (o + 8) (addr % 2 ^ 64) (ctlSetN (o + 4) (d.time.trick % 2 ^ 32) (ctlSetN o (code % 256 + 256 * h + 2 ^ 14 * b2n imp + 2 ^ 16 * (pc % 2 ^ 16)) d))
    simp only [ctlPair] at this
    omega
  · rw [ev, ctlNat_ctlSetN_same]; omega

theorem event_body (k i b : Nat) (d : Dev) :
    (event k i b d).body = { d.body with pages := (event k i b d).body.pages, ev := (event k i b d).body.ev } := by
  unfold event raise
  dsimp only
  split
  · rfl
  · split
    · split <;> rfl
    · rfl
theorem event_dev (k i b : Nat) (d : Dev) : event k i b d = { d with body := (event k i b d).body } := by
  unfold event raise
  dsimp only
  split
  · rfl
  · split
    · split <;> rfl
    · rfl
theorem faultRecord_hand (t h code addr : Nat) (imp : Bool) (pc : Nat) (d : Dev) (u v : Nat) :
    getHand (faultRecord t h code addr imp pc d) u v = getHand d u v := by
  simp only [faultRecord, event_hand, ctlSetN, getHand_ctlSet, getHand_ctlSetPair]
@[simp] theorem faultRecord_log (t h code addr : Nat) (imp : Bool) (pc : Nat) (d : Dev) :
    (faultRecord t h code addr imp pc d).log = d.log := by
  have k : ∀ o v (x : Dev), (ctlSetN o v x).log = x.log := fun _ _ _ => rfl
  have e : ∀ x : Dev, (event 18 t 0 x).log = x.log := fun x => by rw [event_dev]
  simp only [faultRecord, ctlSetPair, k, e]
theorem handFault_hand (t h code addr pc : Nat) (d : Dev) :
    getHand (handFault t h code addr pc d) t h = { getHand d t h with state := .faulted, wait := .none, miss := none } := by
  simp only [handFault, faultRecord_hand, getHand_modHand_same]

end Sys2Proof.Machine
end

