-- ==== Sys2Proof/Tests/Slice0.lean ====
section
/-! SUPPORT. Tests: the well-formedness checks, single steps against values worked out from the spec's text, and for every
statement a state and operands that meet its hypotheses, clause by clause. -/

set_option Elab.async false
set_option maxRecDepth 20000
set_option exponentiation.threshold 1024

namespace Sys2Proof.Tests

open Sys2Proof Sys2Proof.Machine Sys2Proof.Claims

/-! ## Small states -/

/-- Main power on, phase READY. -/
def on : State :=
  { State.reset with dev := { State.reset.dev with power := { State.reset.dev.power with mainOn := true, phase := 5 } } }

/-- A state with its device changed. -/
def withDev (f : Dev → Dev) (s : State) : State := { s with dev := f s.dev }
def withBody (f : Body → Body) : State → State := withDev (modBody f)
/-- A count. -/
def atTime (trick phase : Nat) : State → State := withDev (fun d => { d with time := ⟨trick, phase, 768 * trick + phase⟩ })
/-- Hand h of tile t as given. -/
def withHand (t h : Nat) (x : HandSt) : State → State := withDev (modHand t h (fun _ => x))
def withTile (t : Nat) (f : Machine.Tile → Machine.Tile) : State → State := withDev (modTile t f)
/-- The partition of a shape on its lowest eighth, with no encryption. -/
def withPart (q shape : Nat) : State → State :=
  withDev (fun d => (cmdEighths shape q).foldl (fun a e => modEighth e (fun x =>
    { x with used := true, shape := shape, lowest := q, msw := decide (2 ≤ shape) }) a) d)
def withJob (q : Nat) (x : Job) : State → State := withDev (setJob q x)
/-- The programs of a tile: the matrix engine path and the vector unit, the special function path, the stock. A word whose
deal trick lies one ahead (DELTA 1) stops a path there. -/
def withProgs (t : Nat) (me sf : Tbl (BitVec 256)) (st : Tbl (BitVec 512)) : State → State :=
  withTile t (fun x => { x with
    me := { x.me with run := true, prog := { x.me.prog with words := me, seen := me } }
    sf := { x.sf with prog := { x.sf.prog with words := sf, seen := sf } }
    st := { x.st with prog := { x.st.prog with words := st, seen := st } } })
/-- Every path of an eighth's tiles stands at a step of deal trick 1. -/
def withRest (q : Nat) (s : State) : State :=
  (eighthTiles q).foldl (fun a t => withProgs t [(0, 0x10000)] [(0, 0x10000)] [(0, 0x100000000)] a) s
/-- A job that runs. -/
def runsJob : Job := { Job.z with loaded := true, started := true }
/-- Bytes at a local offset. -/
def withBytes (a : Nat) (bs : List Byte) : State → State :=
  withDev (fun d => { d with mem := { d.mem with cells := putBytes d.mem.cells a bs } })
def withCtl (off v : Nat) : State → State := withDev (ctlSetN off v)

/-- The state that a command leaves. -/
def after (c : Instr) (s : State) : State :=
  match exec c s with
  | .next t => t
  | _ => State.reset

/-- A hand that is READY with values in its registers. -/
def ready (g : Tbl Dword) : HandSt := { HandSt.z with state := .ready, g := g }
/-- Hand 5 of tile 3 READY, with values in its registers. -/
def hand (g : Tbl Dword) : State := withHand 3 5 (ready g) on
/-- The first byte of tile 3's SRAM. -/
def sram3 : Nat := sramAddr 3 0

/-! ## Well-formed commands: an ill-formed term for each check -/

def pkt (kind : Byte) (n : Nat) : Packet := ⟨kind, 0, 0, 0, 0, 0, 0, 0, List.replicate n 0⟩
/-- The open channel of link 0 of port 0. -/
def openIn : Arrival := ⟨0, 0, none, 0, 0, []⟩
theorem test_wf_refuses_latching : WellFormed.ok (.latchingLowRead .host 0x10) = false := by decide
theorem test_wf_refuses_plain_low : WellFormed.ok (.plainPairLowWrite .host 0x10 0) = false := by decide
theorem test_wf_refuses_plain_high : WellFormed.ok (.plainPairHighWrite .host 0x10 0) = false := by decide
theorem test_wf_refuses_rc : WellFormed.ok (.rcRead .host 0x10) = false := by decide
theorem test_wf_refuses_quiet : WellFormed.ok (.quietRead 0x42) = false := by decide
theorem test_wf_refuses_lock :
    WellFormed.ok (.seqLockRead .host 0x24) = false ∧ WellFormed.ok (.seqLockRelease .host 0x24) = false
    ∧ WellFormed.ok (.lockTimeout 0x24) = false ∧ WellFormed.ok (.dbgForce 0x24) = false := by decide
theorem test_wf_refuses_irq :
    WellFormed.ok (.irqStatClear .host 0x14 0) = false ∧ WellFormed.ok (.irqMaskWrite .host 0x18 0) = false
    ∧ WellFormed.ok (.blockEvent 0x14 0) = false := by decide
theorem test_wf_refuses_packet :
    WellFormed.ok (.write openIn (pkt 1 257)) = false ∧ WellFormed.ok (.read openIn (pkt 1 0)) = false
    ∧ WellFormed.ok (.data openIn (pkt 4 0)) = false ∧ WellFormed.ok (.atomic openIn (pkt 3 0)) = false
    ∧ WellFormed.ok (.completion openIn (pkt 6 0)) = false
    ∧ WellFormed.ok (.collective openIn (pkt 5 0)) = false := by decide
theorem test_wf_refuses_codeword :
    WellFormed.ok (.codewordUncorrectable 0 ⟨0, 1, []⟩) = false ∧ WellFormed.ok (.codewordUncorrectable 0 ⟨0, 5, [1, 2, 3, 4]⟩) = false := by
  decide
theorem test_wf_refuses_host_length :
    WellFormed.ok (.hostWindowAccess 0 2 (some [0])) = false ∧ WellFormed.ok (.bar4Access 0 0 none) = false
    ∧ WellFormed.ok (.hostCxlMemAccess 0 4097 none) = false
    ∧ WellFormed.ok (.bar4Access 0 513 (some (List.replicate 513 0))) = false := by decide
theorem test_wf_refuses_slots : WellFormed.ok (.hlCqTailWrite .host 0 0 [.write 0xFFF [0]]) = false := by decide
theorem test_wf_refuses_records : WellFormed.ok (.testComplete 1 0 (List.replicate 65 abortRec)) = false := by decide
theorem test_wf_refuses_host_bytes :
    WellFormed.ok (.tokenise 0 0 ⟨[(2 ^ 64, [])], []⟩) = false ∧ WellFormed.ok (.image 0 0 ⟨[(2 ^ 64, [])], []⟩) = false := by
  decide
theorem test_wf_takes_the_rest : WellFormed.ok .trefValid = true ∧ WellFormed.ok (.write openIn (pkt 1 256)) = true
    ∧ WellFormed.ok (.write openIn (pkt 7 256)) = true := by decide

/-! ## Hands: single steps (R112 to R139) -/

theorem test_alu_add_wraps :
    gGet (getHand (after (.alu 3 5 .add 1 2 3 0) (hand [(2, 0xFFFFFFFFFFFFFFFF), (3, 2)])).dev 3 5) 1 = 1 := by decide
theorem test_g0_takes_no_value :
    gGet (getHand (after (.alu 3 5 .add 0 2 3 0) (hand [(2, 1), (3, 2)])).dev 3 5) 0 = 0 := by decide
theorem test_alui_sign_extends :
    gGet (getHand (after (.alui 3 5 .add 1 0 0x3FFF) (hand [])).dev 3 5) 1 = 0xFFFFFFFFFFFFFFFF := by decide
theorem test_hid_fields : gGet (getHand (after (.hid 3 5 1) (hand [])).dev 3 5) 1 = 0x305 := by decide
theorem test_trick_and_phase :
    gGet (getHand (after (.trick 3 5 1) (atTime 9 47 (hand []))).dev 3 5) 1 = 9
    ∧ gGet (getHand (after (.phase 3 5 1) (atTime 9 47 (hand []))).dev 3 5) 1 = 47 := by decide
theorem test_jal_links_and_jumps :
    let x := getHand (after (.jal 3 5 1 (BitVec.ofInt 23 (-1))) (hand [])).dev 3 5
    gGet x 1 = 4 ∧ x.pc = 0xFFFC := by decide
theorem test_br_taken : (getHand (after (.br 3 5 .ltu 1 2 3) (hand [(1, 1), (2, 2)])).dev 3 5).pc = 12 := by decide
theorem test_br_signed : (getHand (after (.br 3 5 .lt 1 2 3) (hand [(1, 1), (2, 0x8000000000000000)])).dev 3 5).pc = 4 := by
  decide
theorem test_halt : (getHand (after (.halt 3 5) (hand [])).dev 3 5).state = .halted := by decide
theorem test_trap_records :
    let s := after (.trap 3 5 1) (hand [(1, 0x77)])
    (getHand s.dev 3 5).state = .faulted ∧ ctlNat s.dev (regOff 18 3 0x400) = 11 + 256 * 5
    ∧ ctlPair s.dev (regOff 18 3 0x408) = 0x77 := by decide
/-- Tile 3 after its SRAM's ports have served in a cycle that is 3 modulo 4. -/
def served (s : State) : Dev := sramCycle 3 { s.dev with time := { s.dev.time with phase := 3 } }
theorem test_sram_waits_for_its_cycle :
    let s := after (.ld 3 5 0 false 1 2 0) (hand [(2, BitVec.ofNat 64 sram3)])
    (getTile (sramCycle 3 s.dev) 3).sramq.length = 1 ∧ (getHand s.dev 3 5).state = .ready ∧ eligible s.dev (getHand s.dev 3 5) = false := by
  decide
theorem test_ld_sign_extends :
    gGet (getHand (served (after (.ld 3 5 0 true 1 2 1) (withBytes (sram3 + 8) [0, 0x80] (hand [(2, BitVec.ofNat 64 (sram3 + 8))])))) 3 5) 1
      = 0xFFFFFFFFFFFFFF80 := by decide
theorem test_st_little_endian :
    readBytes (served (after (.st 3 5 1 1 2 0) (hand [(1, 0x11223344), (2, BitVec.ofNat 64 sram3)]))) sram3 4 = [0x44, 0x33, 0, 0] := by
  decide
theorem test_atom_add_returns_old :
    let d := served (after (.atom 3 5 .add true false false 1 2 3 0)
      (withBytes sram3 [7] (hand [(2, BitVec.ofNat 64 sram3), (3, 5)])))
    gGet (getHand d 3 5) 1 = 7 ∧ readBytes d sram3 1 = [12] := by decide
theorem test_own_vector_round_trip :
    wGet (getHand (served (after (.vld 3 5 4 2 0) (withBytes sram3 [1, 2] (hand [(2, BitVec.ofNat 64 sram3)])))) 3 5) 4 = 0x0201 := by
  decide
theorem test_misaligned_load_faults :
    (getHand (after (.ld 3 5 3 false 1 2 1) (hand [(2, BitVec.ofNat 64 sram3)])).dev 3 5).state = .faulted := by decide
theorem test_issue_counts : issueCount (after (.handNop 3 5) (hand [])).dev 3 = 1 := by decide
theorem test_port_looks_once_in_a_cycle :
    (getHand (after (.handNop 3 5) (after (.handNop 3 5) (hand []))).dev 3 5).pc = 4 := by decide

/-- A tile that names slots 1 (HOLD), 2 (COUNT policy 2) for the loaded partition of eighth 0. -/
def slots : State :=
  withTile 3 (fun x => { x with slots := [(1, ⟨true, 0, false, 0, none⟩), (2, ⟨true, 2, true, 9, none⟩), (3, ⟨true, 0, true, 9, none⟩)] })
    (withJob 0 { runsJob with deal := { Deal.z with doorbells := [(1, ⟨true, 0, 3⟩)] } } (withPart 0 0 (hand [(1, 3), (2, 1), (3, 2), (4, 3), (5, 1), (6, 5)])))

theorem test_slotw_fills : getSlot (settleSlots 3 (after (.slotw 3 5 1 2 6) slots).dev) 3 1 = ⟨true, 0, true, 5, none⟩ := by decide
theorem test_slotw_waits_on_full : (getHand (after (.slotw 3 5 1 4 6) slots).dev 3 5).state = .slotwait := by decide
theorem test_ring_counts :
    (tget StClass.z (getSt (after (.ring 3 5 5 6) slots).dev 3).classes 0).db = 5 := by decide

/-! ## Hands: the statements' hypotheses are met -/

theorem witness_registerInstructions : MayIssue (hand []) 3 5 := by unfold MayIssue; decide
theorem witness_branch_both : Holds .geu (reg (hand []) 3 5 1) (reg (hand []) 3 5 2)
    ∧ ¬ Holds .ne (reg (hand []) 3 5 1) (reg (hand []) 3 5 2) := by simp only [Holds]; decide
theorem witness_jalr_last : MayIssue (hand [(1, 0xFFFC)]) 3 5 ∧ (reg (hand [(1, 0xFFFC)]) 3 5 1 + (0#14).signExtend 64).toNat < 0x10000
    ∧ (reg (hand [(1, 0xFFFC)]) 3 5 1 + (0#14).signExtend 64).toNat % 4 = 0 := by unfold MayIssue; decide
theorem witness_jalr_faults : MayIssue (hand [(1, 0x10000)]) 3 5 ∧ 0x10000 ≤ (reg (hand [(1, 0x10000)]) 3 5 1 + (0#14).signExtend 64).toNat
    ∧ (reg (hand [(1, 2)]) 3 5 1 + (0#14).signExtend 64).toNat % 4 ≠ 0 := by unfold MayIssue; decide
theorem witness_waitt_both : (reg (atTime 4 0 (hand [(1, 4)])) 3 5 1).toNat ≤ (atTime 4 0 (hand [(1, 4)])).dev.time.trick
    ∧ (hand [(1, 1)]).dev.time.trick < (reg (hand [(1, 1)]) 3 5 1).toNat := by decide
theorem witness_slots : MayIssue slots 3 5 ∧ slotOk slots.dev 3 3 1 = true ∧ slotOk slots.dev 3 3 2 = true ∧ slotOk slots.dev 3 3 3 = true
    ∧ slotOk slots.dev 3 3 4 = false ∧ slotOk slots.dev 3 3 0 = false ∧ slotOk slots.dev 3 144 1 = false := by
  unfold MayIssue; decide
theorem witness_slotw : (reg slots 3 5 1).toNat = 3 ∧ Settled slots 3 5 ∧ SlotTakesNow (getSlot slots.dev 3 2)
    ∧ SlotTakesNow (getSlot slots.dev 3 1) ∧ SlotIsTaken (getSlot slots.dev 3 3) := by
  unfold Settled SlotTakesNow SlotIsTaken; decide
theorem witness_ring : (bellOf slots.dev 3 (reg slots 3 5 5).toNat).named = true ∧ (bellOf slots.dev 3 (reg slots 3 5 4).toNat).named = false := by
  decide

/-- Hand 5 of tile 3 with the addresses of the first and last bytes of its SRAM in registers 2 and 3. -/
def edges : State := withBytes sram3 [1] (hand [(1, 1), (2, BitVec.ofNat 64 sram3), (3, BitVec.ofNat 64 (sram3 + 0x2FFFF8)), (4, BitVec.ofNat 64 (sram3 + 0x2FFFC0))])
theorem witness_ownSram : MayIssue edges 3 5 ∧ Settled edges 3 5 ∧ OwnAccess edges 3 (reg edges 3 5 2).toNat 8
    ∧ OwnAccess edges 3 (reg edges 3 5 3).toNat 8 ∧ OwnAccess edges 3 (reg edges 3 5 3).toNat 1
    ∧ OwnAccess edges 3 (reg edges 3 5 4 + reg edges 3 5 0).toNat 64 := by
  unfold MayIssue Settled OwnAccess; decide
theorem witness_sramAsks : OwnAt edges 3 (reg edges 3 5 3).toNat 8 ∧ OwnAt edges 3 (reg edges 3 5 3).toNat 1
    ∧ OwnAt edges 3 (reg edges 3 5 4 + reg edges 3 5 0).toNat 64 := by unfold OwnAt; decide
theorem witness_sramServed :
    let d (k : MissKind) := (withHand 3 5 { HandSt.z with state := .ready, miss := some ⟨k, sram3, .read 8, false, .pending, 0, 0⟩ } on).dev
    AwaitsSram (d (.load 1 8 true)) 3 5 (.load 1 8 true) ∧ AwaitsSram (d (.vector 1)) 3 5 (.vector 1) ∧ AwaitsSram (d .store) 3 5 .store
    ∧ badBytes (d (.vector 1)) sram3 64 = [] := by
  refine ⟨⟨by decide, _, rfl, rfl, rfl⟩, ⟨by decide, _, rfl, rfl, rfl⟩, ⟨by decide, _, rfl, rfl, rfl⟩, by decide⟩
theorem witness_slotSettles : (getSlot (after (.slotw 3 5 1 2 6) slots).dev 3 1).next = some 5 := by decide
theorem witness_wait_both : readNat edges.dev (gOff (reg edges 3 5 2).toNat) 8 = (reg edges 3 5 1).toNat
    ∧ readNat edges.dev (gOff (reg edges 3 5 3).toNat) 8 ≠ (reg edges 3 5 1).toNat := by decide

/-- Hand 5 of tile 3 before a JAL g1, 4 (word 0x00000817: class 7, destination 1, offset 4), or another word. -/
def fetches (w : Word) : State := withTile 3 (fun x => { x with imem := [(0, w)] }) (hand [])
theorem test_jal_word : decodeHand 3 5 0x00000817 = some (.jal 3 5 1 4) := by rfl
theorem witness_handIssue : mayIssue (fetches 0x817).dev 3 5 = true
    ∧ (decodeHand 3 5 (imemWord (fetches 0x817).dev 3 (getHand (fetches 0x817).dev 3 5).pc.toNat)) = some (.jal 3 5 1 4) := ⟨by decide, by rfl⟩
theorem witness_handIssue_illegal : mayIssue (fetches 0xF).dev 3 5 = true
    ∧ (decodeHand 3 5 (imemWord (fetches 0xF).dev 3 (getHand (fetches 0xF).dev 3 5).pc.toNat)) = none := ⟨by decide, by rfl⟩
theorem witness_port_stalled :
    let s := withHand 3 5 { HandSt.z with state := .stalled } on
    portFree s.dev 3 = true ∧ portStop s.dev 3 = some 5 ∧ (getHand s.dev 3 5).state = .stalled := by decide
theorem witness_port_idle : portStop on.dev 3 = none ∧ portFree (after (.handNop 3 5) (hand [])).dev 3 = false := by decide
theorem witness_start : isMgmt (fresh on.dev) (.core 0) = true
    ∧ gate (fresh on.dev) (.core 0) (regOff 18 3 0x44) 4 true = .page ⟨18, 3, pageBase 18 3⟩ 0x44
    ∧ (getHand on.dev 3 5).state = .idle := by decide
def posting : HandSt := { ready [] with posted := [⟨1, sram3, .write [0] [], some 0⟩] }
theorem witness_stop : (getHand (hand []).dev 3 5).posted = [] ∧ (getHand (withHand 3 5 posting on).dev 3 5).posted ≠ []
    ∧ (getHand (withHand 3 5 { posting with state := .stopping } on).dev 3 5).state = .stopping := by decide

/-- Hand 5 of tile 3 as it waits for an access. -/
def missing (k : MissKind) (res : AccessRes) (hold : Nat) : State :=
  withJob 0 { runsJob with deal := { Deal.z with doorbells := [(1, ⟨true, 0, 3⟩)] } } (withPart 0 0
    (withHand 3 5 { HandSt.z with state := .stalled, miss := some ⟨k, 0, .read 8, false, res, hold, 0xFFFC⟩ } on))
theorem witness_missReturn :
    (getHand (missing (.load 1 8 false) (.data 7 false) 0).dev 3 5).state = .stalled
    ∧ ((getHand (missing (.load 1 8 false) (.data 7 false) 0).dev 3 5).miss).map (fun m => (m.kind, m.res, m.hold))
        = some (.load 1 8 false, .data 7 false, 0)
    ∧ ((getHand (missing (.vector 1) (.data 7 false) 0).dev 3 5).miss).map (fun m => m.kind) = some (.vector 1)
    ∧ ((getHand (missing (.load 1 8 false) (.error 255) 0).dev 3 5).miss).map (fun m => (m.res, m.pc)) = some (.error 255, 0xFFFC) := by
  decide
theorem witness_mttEntryFree :
    let s := missing (.ring 1 7) .pending 3
    (getHand s.dev 3 5).state = .stalled ∧ ((getHand s.dev 3 5).miss).map (fun m => (m.kind, m.hold, m.ordered)) = some (.ring 1 7, 3, false)
    ∧ (bellOf s.dev 3 1).named = true ∧ (getHand s.dev 3 5).posted = [] := by decide
theorem witness_posted :
    let p := fun (c : Nat) => withHand 3 5 { posting with posted := [⟨1, sram3, .write [0] [], some c⟩] } on
    ((getHand (p 0).dev 3 5).posted.find? (fun p => p.id == 1 && p.res == some 0)).isSome = true
    ∧ ((getHand (p 255).dev 3 5).posted.find? (fun p => p.id == 1)).map (fun p => p.res) = some (some 255)
    ∧ (getHand (p 255).dev 3 5).state = .ready := by decide
theorem witness_wakes :
    let s := withBytes sram3 [1] (withHand 3 5 { HandSt.z with state := .waiting, wait := .word sram3 2 } on)
    let u := fun (v : Dword) => withHand 3 5 { HandSt.z with state := .waiting, wait := .trick v } on
    let w := fun (n : Nat) => withHand 3 5 { HandSt.z with state := .slotwait, wait := .slot 3 n 7 } slots
    ((getHand s.dev 3 5).wait = .word sram3 2 ∧ badBytes s.dev (gOff sram3) 8 = [] ∧ readNat s.dev (gOff sram3) 8 ≠ 2)
    ∧ ((getHand (u 0).dev 3 5).wait = .trick 0 ∧ (0 : Nat) ≤ (u 0).dev.time.trick ∧ (u 1).dev.time.trick < 1)
    ∧ ((getHand (w 2).dev 3 5).wait = .slot 3 2 7 ∧ SlotTakesNow (getSlot (w 2).dev 3 2) ∧ SlotTakesNow (getSlot (w 1).dev 3 1)
      ∧ SlotIsTaken (getSlot (w 3).dev 3 3)) := by unfold SlotTakesNow SlotIsTaken; decide
theorem witness_aluValues : (63 : Dword).toNat < 64 ∧ (1 : Dword) ≠ 0 ∧ BitVec.intMin 64 ≠ (1 : Dword) := by decide
theorem witness_formats : (0x7BFF : Nat) < 2 ^ bf16.width ∧ (bf16.decode 0x7BFF).isNan = false := by decide

/-! ## Time (R20 to R30, R39 to R42) -/

/-- A device whose parent port is 2, with a trained link there. -/
def child : State :=
  withBody (fun b => { b with tb := { b.tb with parent := 2 }, links := [(8, { LinkSt.z with state := 2 })] }) (atTime 70000 5 on)

theorem test_boundary_advances_a_job :
    let s := after (.trickBoundary []) (withRest 0 (withJob 0 runsJob (withPart 0 0 (atTime 9 767 on))))
    s.dev.time.trick = 10 ∧ s.dev.time.phase = 0 ∧ (getJob s.dev 0).cursor = 1 ∧ (getJob s.dev 0).slip = 0 := by decide +kernel
theorem test_boundary_slips_a_late_job :
    let s := after (.trickBoundary [(0, 3)]) (withRest 0 (withJob 0 runsJob (withPart 0 0 (atTime 9 767 on))))
    (getJob s.dev 0).cursor = 0 ∧ (getJob s.dev 0).slip = 1 ∧ (getJob s.dev 0).lateCnt = 1 ∧ (getJob s.dev 0).why = 1 := by decide +kernel
theorem test_marker_sets_the_count :
    (after (.trickMarker 2 0 0x20000 1 3 false 0) child).dev.time.trick = 0x20000 := by decide
theorem test_marker_error_takes_the_delay :
    let s := withBody (fun b => { b with tb := { b.tb with delays := [(8, ⟨400, 0, 0, 0, none⟩)] } }) child
    (after (.trickMarker 2 0 0 1 3 false 450) s).dev.body.tb.offset = 250 := by decide
theorem test_round_trip_measured :
    (tget DelaySt.z (after (.roundTripMeasure 2 0 7) (after (.timestamp 2 0 ⟨1, 1000⟩ 1400) child)).dev.body.tb.delays 8).roundTrip = 400 := by decide
theorem test_silence_counts_from_the_trick_after :
    let s := after (.trickBoundary []) (withBody (fun b => { b with tb := { b.tb with heard := [2], running := true } }) (atTime 9 767 on))
    tget 0 s.dev.body.tb.silent 2 = 0 ∧ tget 0 s.dev.body.tb.silent 3 = 1 := by decide +kernel
theorem test_markers_regenerated :
    let s := after (.trickBoundary []) (withBody (fun b => { b with
      tb := { b.tb with parent := 2, hops := 3, dealer := 5, running := true }
      links := [(8, { LinkSt.z with state := 2 }), (12, { LinkSt.z with state := 2 })] }) (atTime 9 767 on))
    tget Marker.z s.dev.body.tb.sent 12 = some ⟨10, none, 5, 4, true⟩ ∧ tget Marker.z s.dev.body.tb.sent 8 = none := by decide +kernel
theorem test_tod_latches :
    let s := after .todPpsEdge (atTime 9 47 on)
    s.dev.body.tb.todTrick = 9 ∧ s.dev.body.tb.todPhase = 47 := by decide

theorem witness_trickBoundary :
    let s := withRest 0 (withJob 0 runsJob (withPart 0 0 (atTime 9 767 on)))
    let e := trickEnd (fresh s.dev)
    Powered s ∧ checked e 0 = true ∧ partLate e 0 [] = [] ∧ partLate e 0 [3] ≠ [] ∧ checked e 7 = false := by
  unfold Powered; decide +kernel
theorem witness_marker : Powered child ∧ portUp child.dev 2 = true ∧ child.dev.body.tb.sourcing = false
    ∧ child.dev.body.tb.parent = (2 : Port).val ∧ anyRuns child.dev = false := by unfold Powered; decide
/-- As `child`, with a job that runs. -/
def childRuns : State := withJob 7 runsJob (withPart 7 0 child)
theorem witness_marker_runs : portUp childRuns.dev 2 = true ∧ anyRuns childRuns.dev = true ∧ jobRuns childRuns.dev 7 = true
    ∧ (getJob childRuns.dev 7).why = 0 ∧ (4464#16).toNat = childRuns.dev.time.trick % 65536 ∧ (32000 : Int).natAbs ≤ 32000
    ∧ 32000 < (-32001 : Int).natAbs ∧ childRuns.dev.time.phase < 768 := by decide
theorem witness_parentLost :
    let s := withBody (fun b => { b with tb := { b.tb with silent := [(2, 16)] } }) child
    let u := withBody (fun b => { b with links := [(8, { LinkSt.z with state := 2 }), (20, { LinkSt.z with state := 2 })]
                                         tb := { b.tb with markers := [(5, some ⟨1, none, 4, 2, true⟩)] } }) s
    s.dev.body.tb.parent < 6 ∧ 16 ≤ tget 0 s.dev.body.tb.silent s.dev.body.tb.parent ∧ bestPort s.dev = none
    ∧ 16 ≤ tget 0 u.dev.body.tb.silent u.dev.body.tb.parent ∧ bestPort u.dev = some (5, ⟨1, none, 4, 2, true⟩) := by decide
theorem witness_startSourcing :
    let s := withBody (fun b => { b with tb := { b.tb with tref := true, locked := true, silent := (List.range 6).map (fun p => (p, 32)) } }) on
    s.dev.body.tb.tref = true ∧ s.dev.body.tb.locked = true ∧ s.dev.body.tb.sourcing = false
    ∧ (∀ p, p < 6 → 32 ≤ tget 0 s.dev.body.tb.silent p) := by decide
theorem witness_linkMeasures : (getLink child.dev (4 * 2 + 0)).state = 2 ∧ (tget DelaySt.z child.dev.body.tb.delays 8).arrived = none
    ∧ (tget DelaySt.z (after (.timestamp 2 0 ⟨5, 6⟩ 7) child).dev.body.tb.delays 8).arrived = some 7 := by decide
theorem witness_tod : on.dev.body.board.todLast = none
    ∧ (let s := withBody (fun b => { b with board := { b.board with todLast := some 0 } }) (atTime 1953 96 on)
       0 + 1500000 ≤ now s.dev) := by decide

/-! ## Registers, locks and events (R338 to R348, R388 to R402) -/

/-- Sets the mask bits of a page's interrupt. -/
def withPage (base : Nat) (f : Page → Page) : State → State := withDev (modPage base f)

theorem test_time_latches_together :
    let s := after (.latchingLowRead (.core 0) 0x40) (atTime 0x100000002 47 on)
    s.dev.body.replies = [.value 2] ∧ latchOf s.dev (.core 0) 0x44 = some 1 ∧ latchOf s.dev (.core 0) 0x48 = some 47 := by decide
theorem test_lock_first_core_takes :
    let s := after (.seqLockRead (.core 2) 0x2020) on
    (getPage s.dev 0x2000).held = true ∧ (getPage s.dev 0x2000).owner = 2 ∧ (getPage s.dev 0x2000).expect = 4 := by decide
theorem test_event_reaches_the_highest :
    let s := withDev (fun d => modSrc 7 (fun x => { x with state := .pending, tgt := 1, masked := false })
      (modSrc 9 (fun x => { x with state := .pending, tgt := 1, masked := false }) { d with body := { d.body with ev := { d.body.ev with en := [(0, true)] } } })) on
    (getSrc (after .eventSelect s).dev 9).state = .delivered ∧ (getSrc (after .eventSelect s).dev 7).state = .pending := by decide
theorem test_event_count_stops_at_255 :
    (getSrc (after (.eventRaise 32) (withDev (modSrc 32 (fun x => { x with cnt := 255 })) on)).dev 32).cnt = 255 := by decide

theorem witness_latchingLow : Reaches on (.core 0) 0x40 false ⟨1, 0, 0⟩ 0x40
    ∧ (regAt 1 0x40).map (fun x => (x.acc, x.reg)) = some (.latchLo, .tbNowLo) := by unfold Reaches Goes; decide
theorem witness_rc : Reaches on (.core 0) 0xA01C false ⟨10, 0, 0xA000⟩ 0x1C := by unfold Reaches Goes; decide
theorem witness_rc_register : Reaches on (.core 0) 0x210 false ⟨1, 0, 0⟩ 0x210 ∧ (regAt 1 0x210).map (fun x => x.acc) = some .rc := by
  unfold Reaches Goes; decide
theorem witness_quiet : Reaches on .debug 0x40 false ⟨1, 0, 0⟩ 0x40
    ∧ debugOpen (withDev (fun d => { d with sec := { d.sec with lc := .production } }) on).dev.sec = false := by
  unfold Reaches Goes; decide
theorem witness_plainPair :
    (Reaches on (.core 0) 0x1040 true ⟨2, 0, 0x1000⟩ 0x40 ∧ (regAt 2 0x40).map (fun x => x.acc) = some (.plainLo 0xFFFFFFFF)
      ∧ (regAt 2 0x40).map (fun x => (mayWrite (fresh on.dev) (.core 0) x.reg, writeCause (fresh on.dev) ⟨2, 0, 0x1000⟩ x 7)) = some (true, 0))
    ∧ (let s := withPage 0x1000 (fun p => { p with staged := [⟨0x1040, 0, 7⟩] }) on
       Reaches s (.core 0) 0x1044 true ⟨2, 0, 0x1000⟩ 0x44 ∧ (regAt 2 0x44).map (fun x => x.acc) = some (.plainHi 0xFFFFFFFF)
       ∧ (getPage s.dev 0x1000).staged.find? (fun z => z.off == 0x1000 + 0x44 - 4) = some ⟨0x1040, 0, 7⟩) := by
  unfold Reaches Goes; decide
theorem witness_stored_register :
    Reaches on (.core 0) 0x3400 true ⟨4, 0, 0x3000⟩ 0x400
    ∧ (regAt 4 0x400).map (fun x => (x.acc, x.reg, mayWrite (fresh on.dev) (.core 0) x.reg, writeCause (fresh on.dev) ⟨4, 0, 0x3000⟩ x 0xFFFFFFFF))
        = some (.rw 0xFFFF7FFF, .grantRange, true, 0) := by unfold Reaches Goes; decide
theorem witness_quietMemory :
    let s := withPart 0 0 on
    debugOpen s.dev.sec = true ∧ Powered s ∧ (∃ o, homeRange s.dev sram3 8 = .sram 3 o)
    ∧ (∀ e, (homeOf s.dev sram3).eighth = some e → gated s.dev e = false ∧ (getEighth s.dev e).domain ≠ .off)
    ∧ (homeOf s.dev sram3).eighth.isSome = true ∧ unitWaits s.dev sram3 8 = false := by
  refine ⟨rfl, rfl, ⟨_, rfl⟩, fun e h => ?_, by decide, by decide⟩
  obtain rfl : 0 = e := Option.some.inj h
  decide
theorem witness_queueRate : Reaches on (.core 0) (BitVec.ofNat _ (regOff 13 0 0x88)) true ⟨13, 0, pageBase 13 0⟩ 0x88
    ∧ (regAt 13 0x88).map (fun x => (x.reg == .flQcfg, mayWrite (fresh on.dev) (.core 0) x.reg, writeCause (fresh on.dev) ⟨13, 0, pageBase 13 0⟩ x 0xC1))
        = some (true, true, 0) := by unfold Reaches Goes; decide
theorem witness_halted :
    coreHalted (fresh (withBody (fun b => { b with coreHalt := [1] }) on).dev) (.core 1) = true := by decide
theorem witness_denied :
    gate (fresh (withPage 0x2000 (fun p => { p with expect := 1 }) on).dev) (.core 0) 0x2044 4 true = .denied 0x2000 11 := by
  decide
theorem witness_lock :
    let s := withPage 0x2000 (fun p => { p with held := true, owner := 2, expect := 4, timer := 0, lockmax := 0 }) on
    ctlAt 0x2020 = .page ⟨3, 0, 0x2000⟩ 0x20
    ∧ (Reaches on (.core 2) 0x2020 false ⟨3, 0, 0x2000⟩ 0x20 ∧ (getPage on.dev 0x2000).held = false)
    ∧ (Reaches s (.core 2) 0x2020 true ⟨3, 0, 0x2000⟩ 0x20 ∧ Reaches s (.core 2) 0x2020 false ⟨3, 0, 0x2000⟩ 0x20
      ∧ (getPage s.dev 0x2000).held = true ∧ (getPage s.dev 0x2000).owner = (2 : Core).val ∧ (getPage s.dev 0x2000).waiters = []
      ∧ (getPage s.dev 0x2000).owner ∉ s.dev.body.coreHalt ∧ debugOpen s.dev.sec = true
      ∧ (getPage s.dev 0x2000).lockmax * Config.usCycles ≤ (getPage s.dev 0x2000).timer) := by unfold Reaches Goes; decide
theorem witness_irq :
    Reaches on (.core 0) 0x2018 true ⟨3, 0, 0x2000⟩ 0x18 ∧ Reaches on (.core 0) 0x2014 true ⟨3, 0, 0x2000⟩ 0x14
    ∧ isMgmt (fresh on.dev) (.core 0) = true ∧ (0x2000 : Nat) = pageBase 3 0 ∧ eventSource 3 0 (0 : Fin 32) = some 1
    ∧ eventSource 3 0 (31 : Fin 32) = none ∧ bitAt (getPage on.dev 0x2000).mask.toNat 0 = false
    ∧ bitAt (getPage (withPage 0x2000 (fun p => { p with mask := 1 }) on).dev 0x2000).mask.toNat 0 = true := by
  unfold Reaches Goes; decide

/-- Source n in a state, aimed at target 2. -/
def withSrc (n : Nat) (st : SrcState) (reached : Bool) : State → State :=
  withDev (modSrc n (fun x => { x with state := st, tgt := 4, masked := false, owner := 2, reached := reached }))
theorem witness_events :
    sourceReserved (511 : Fin 512) = false ∧ sourceReserved (495 : Fin 512) = true
    ∧ (let s := withBody (fun b => { b with ev := { b.ev with en := [(2, true)] } }) (withSrc 9 .pending false on)
       deliverable s.dev = some 9
       ∧ ((List.range 4).map (fun i => (s.dev.body.ev.prev + 1 + i) % 4)).find? (evEligible s.dev (getSrc s.dev 9)) = some 2)
    ∧ (getSrc (withSrc 511 .delivered false on).dev (511 : Fin 512)).state = .delivered
    ∧ (let s := withDev (modSrc 3 (fun x => { x with state := .pending, tgt := 0, masked := false })) on
       srcsDown.find? (fun n => (getSrc s.dev n).state == .pending && (getSrc s.dev n).tgt == 0 && !(getSrc s.dev n).masked) = some 3)
    ∧ alertLow on.dev = false := by
  decide
theorem witness_eventRegisters :
    gate (fresh on.dev) (.core 0) (0x5800 + 4 * (511 : Fin 512).val) 4 true = .page ⟨5, 0, 0x5000⟩ (0x800 + 4 * (511 : Fin 512).val)
    ∧ (getSrc (withSrc 511 .delivered true on).dev 511).state = .delivered ∧ (getSrc (withSrc 511 .delivered true on).dev 511).reached = true := by
  decide
theorem witness_targetDisabled :
    MgmtWrite on (.core 0) (evOff (0x80 + 0x10 * (3 : Core).val)) ∧ MgmtWrite on (.core 0) (evOff (0x88 + 0x10 * (2 : Core).val))
    ∧ MgmtWrite on (.core 0) (evOff (0x800 + 4 * (511 : Fin 512).val))
    ∧ (getSrc (withSrc 9 .delivered false on).dev 9).owner = (2 : Core).val
    ∧ ((getSrc (withSrc 9 .inService false on).dev 9).state = .inService ∧ tgtEn (withSrc 9 .inService false on).dev 2 = false) :=
  ⟨⟨⟨rfl, _, _, rfl⟩, rfl⟩, ⟨⟨rfl, _, _, rfl⟩, rfl⟩, ⟨⟨rfl, _, _, rfl⟩, rfl⟩, by decide, by decide⟩
theorem witness_claim :
    Passes (withSrc 9 .delivered true on) (.core 2) (evOff (0x84 + 0x10 * (2 : Core).val)) 4 false
    ∧ (getSrc (withSrc 9 .delivered true on).dev 9).reached = true ∧ (getSrc (withSrc 9 .delivered true on).dev 9).owner = (2 : Core).val
    ∧ (∀ m, m < 512 → 9 < m → (getSrc (withSrc 9 .delivered true on).dev m).state ≠ .delivered)
    ∧ (∀ m, m < 512 → (getSrc on.dev m).state ≠ .delivered) :=
  ⟨⟨rfl, _, _, rfl⟩, by decide, by decide, by decide, by decide⟩
theorem witness_quietClaim :
    Reaches on .debug (0x50A4 : CtlOff) false ⟨5, 0, 0x5000⟩ (0x84 + 0x10 * (2 : Core).val)
    ∧ (0x50A4 : CtlOff).toNat = evOff (0x84 + 0x10 * (2 : Core).val) := by unfold Reaches Goes; decide
theorem witness_claim_then_mask :
    MgmtWrite (after (.evClaim (.core 2) 2) (withSrc 9 .delivered true on)) (.core 0) (evOff (0x800 + 4 * (9 : Fin 512).val)) :=
  ⟨⟨rfl, _, _, rfl⟩, rfl⟩
theorem witness_complete :
    (getSrc (withSrc 9 .inService false on).dev ((9 : Word).toNat % 512)).state = .inService
    ∧ (getSrc on.dev ((9 : Word).toNat % 512)).state ≠ .inService ∧ sourceReserved (32 : Fin 512) = false := by decide
theorem witness_raise_then_complete :
    MgmtWrite (after (.eventRaise 32) (withSrc 32 .inService false on)) (.core 2) (evOff (0x88 + 0x10 * (2 : Core).val)) :=
  ⟨⟨rfl, _, _, rfl⟩, rfl⟩
theorem test_complete_rearms :
    (getSrc (after (.evComplete (.core 2) 2 32) (after (.eventRaise 32) (withSrc 32 .inService false on))).dev 32).state = .pending := by
  decide
theorem test_block_event_raises_its_source :
    (getSrc (after (.blockEvent 0x2010 0) on).dev 1).state = .pending := by decide
theorem test_staged_pair_takes_both_words :
    ctlPair (after (.plainPairHighWrite (.core 0) 0x1044 5) (after (.plainPairLowWrite (.core 0) 0x1040 7) on)).dev 0x1040 = 7 + 2 ^ 32 * 5 := by
  decide

/-! ## Deals (R31 to R37, R43, R406, R407) -/

/-- The smallest image: header, claim, the energy of one deal trick; its CRC-32 as given. -/
def imageBytes (check : Nat) : List Byte :=
  leBytes 4 0x35444C4A ++ leBytes 2 5 ++ leBytes 2 0x80 ++ leBytes 4 256 ++ leBytes 4 check ++ leBytes 8 0 ++ leBytes 4 0 ++ leBytes 4 1
    ++ [1, 1, 1, 0] ++ leBytes 4 0 ++ leBytes 4 0x80 ++ leBytes 4 64 ++ List.replicate 24 0 ++ leBytes 4 0xC0 ++ leBytes 4 2
    ++ List.replicate 16 0 ++ List.replicate 32 0 ++ List.replicate 64 0 ++ [1, 0] ++ List.replicate 62 0
def withImage (check : Nat) : State := withBytes Config.hbmBase (imageBytes check) (withPart 0 0 on)

theorem test_image_accepted : loadCode (withImage 1009561096).dev 0 Config.hbmBase 2048 = 0 := by decide +kernel
theorem test_image_early_start : loadCode (withImage 1009561096).dev 0 Config.hbmBase 2047 ≠ 0 := by decide +kernel
theorem test_image_bad_check : loadCode (withImage 1).dev 0 Config.hbmBase 2048 = 3 := by decide +kernel

theorem witness_load : Powered (withImage 0) ∧ MgmtWrite (withImage 0) (.core 0) (dlOff 0x50) ∧ (withImage 0).dev.body.dlBusy = false
    ∧ dlPart (withImage 0).dev 0 = true ∧ (getJob (withImage 0).dev 0).loaded = false := ⟨rfl, ⟨⟨rfl, _, _, rfl⟩, rfl⟩, rfl, rfl, rfl⟩
theorem witness_unload : MgmtWrite (withJob 0 runsJob (withPart 0 0 on)) (.core 0) (dlOff 0x50)
    ∧ (getJob (withJob 0 runsJob (withPart 0 0 on)).dev 0).loaded = true := ⟨⟨⟨rfl, _, _, rfl⟩, rfl⟩, rfl⟩
theorem witness_dealBoundaries :
    let a := withJob 7 { Job.z with loaded := true, startTrick := 9 } (withPart 7 0 (atTime 9 0 on))
    let b := withJob 7 { runsJob with why := 1, whyAt := 8 } (withPart 7 0 (atTime 9 0 on))
    let c := withJob 7 { runsJob with unloading := 9 } (withPart 7 0 (atTime 9 0 on))
    (a.dev.time.phase = 0 ∧ (getJob a.dev 7).loaded = true ∧ (getJob a.dev 7).started = false
      ∧ (getJob a.dev 7).startTrick ≤ a.dev.time.trick ∧ (getJob a.dev 7).unloading = 0)
    ∧ (jobRuns b.dev 7 = true ∧ (getJob b.dev 7).why ≠ 0 ∧ (getJob b.dev 7).whyAt < b.dev.time.trick ∧ (getJob b.dev 7).unloading = 0)
    ∧ ((getJob c.dev 7).loaded = true ∧ (getJob c.dev 7).unloading ≠ 0 ∧ (getJob c.dev 7).unloading ≤ c.dev.time.trick) := by decide

/-! ## The paths of a tile (R44 to R111) -/

/-- Tile 3 before a step of its matrix engine path, special function path or stock, in cycle 0 of a running job's trick. -/
def before (me sf : Nat) (st : Nat) : State :=
  withProgs 3 [(0, BitVec.ofNat 256 me), (1, 0x10000)] [(0, BitVec.ofNat 256 sf), (1, 0x10000)] [(0, BitVec.ofNat 512 st), (1, 0x100000000)]
    (withJob 0 runsJob (withPart 0 0 on))
/-- The step or descriptor at index 0. -/
def first (w : Nat) : Found := ⟨⟨0, 0, 0⟩, w, 0, 0⟩
/-- Tile 3 with its planes. -/
def withPlanes (a b : Option Plane) : State → State := withTile 3 (fun x => { x with me := { x.me with active := a, shadow := b } })
/-- Tile 3 with slot 1, named and full, of a value. -/
def withSlot (v : Dword) : State → State := withTile 3 (fun x => { x with slots := [(1, ⟨true, 0, true, v, none⟩)] })
def fp16 : Plane := ⟨1, 128, []⟩

/-- Step words: BF16 operands (formats 1), ASTRIDE 16, ROWS in bits 146:136. -/
def wShift (src : Nat) : Nat := 1 + 2 ^ 32 + 2 ^ 36 + src * 2 ^ 48
def wCompute (rows : Nat) (flip : Bool) : Nat := 2 + 2 ^ 32 + 2 ^ 36 + rows * 2 ^ 136 + 2 ^ 147 * b2n flip + 16 * 2 ^ 154
def wVec (op rows : Nat) : Nat := op + rows * 2 ^ 136
def wSf (op rows nelem nseed : Nat) : Nat := op + 0x1000 * 2 ^ 70 + 0x2000 * 2 ^ 92 + rows * 2 ^ 136 + nelem * 2 ^ 147 + nseed * 2 ^ 192

theorem witness_bankWrite_running :
    (bankPut .me 1 0 [1] 4 (getTile (before 3 0 0).dev 3)).isSome = true ∧ bankPut .me 0 0 [1] 4 (getTile (before 3 0 0).dev 3) = none := by decide
theorem witness_bankWrite :
    let off : CtlOff := BitVec.ofNat _ (tileBlock 0 + 0x18000)
    ctlAt off.toNat = .array (bankOf .me 0 1 0) ∧ gate (fresh on.dev) (.core 0) off.toNat 4 true = .array (bankOf .me 0 1 0) := by decide
theorem witness_programVisible :
    let s := withTile 3 (fun x => { x with
      me := { x.me with prog := { x.me.prog with waits := [⟨0, [1], false, 4⟩] } }
      sf := { x.sf with prog := { x.sf.prog with waits := [⟨0, [1], false, 4⟩] } }
      st := { x.st with prog := { x.st.prog with waits := [⟨0, [1], false, 4⟩] } } }) (atTime 5 0 on)
    (getMe s.dev 3).prog.waits = [] ++ ⟨0, [1], false, 4⟩ :: [] ∧ 4 < s.dev.time.trick
    ∧ (getSf s.dev 3).prog.pend = true ∧ (getSt s.dev 3).prog.pend = true := by decide

/-- A due step of the matrix engine path. -/
theorem meDue_of (w op : Nat) (s : State) (h1 : Powered s) (h2 : gatedCycle s.dev = false)
    (h3 : meNext s.dev 3 (op != 0) = some (0, 0, first w)) (h4 : meBad w = false) (h5 : swOp w = op) (h6 : swPslot w = 0)
    (h7 : meWait s.dev 3 0 w = none) : MeDue s 3 op (first w) := ⟨h1, h2, 0, 0, h3, h4, h5, Or.inr h6, h7⟩
theorem witness_shift : MeDue (before (wShift 0x78000) 0 0) 3 1 (first (wShift 0x78000))
    ∧ pairOf (swWfmt (wShift 0x78000)) (swAfmt (wShift 0x78000)) = some 6 ∧ swSrc (wShift 0x78000) % 64 = 0
    ∧ 0x80000 * (getMe (before (wShift 0x78000) 0 0).dev 3).front ≤ swSrc (wShift 0x78000)
    ∧ swSrc (wShift 0x78000) + pairSet 6 ≤ 0x80000 * (getMe (before (wShift 0x78000) 0 0).dev 3).front + 0x80000 :=
  ⟨meDue_of _ _ _ rfl (by decide) (by decide) (by decide) (by decide) (by decide) (by decide), by decide, by decide, by decide, by decide⟩
theorem witness_swap : MeDue (before 3 0 0) 3 3 (first 3) :=
  meDue_of _ _ _ rfl (by decide) (by decide) (by decide) (by decide) (by decide) (by decide)
theorem witness_mePswap : MeDue (before (4 + 2 ^ 194) 0 0) 3 4 (first (4 + 2 ^ 194)) ∧ swFills (4 + 2 ^ 194) ≤ 1 :=
  ⟨meDue_of _ _ _ rfl (by decide) (by decide) (by decide) (by decide) (by decide) (by decide), by decide⟩
theorem witness_waitflag : MeDue (before (5 + 0x2FFFF8 * 2 ^ 92) 0 0) 3 5 (first (5 + 0x2FFFF8 * 2 ^ 92))
    ∧ FlagReadable (before (5 + 0x2FFFF8 * 2 ^ 92) 0 0).dev 3 (swAux1 (5 + 0x2FFFF8 * 2 ^ 92)) := by
  refine ⟨meDue_of _ _ _ rfl (by decide) (by decide) (by decide) (by decide) (by decide) (by decide), ?_⟩
  unfold FlagReadable; decide
theorem witness_meNop : MeDue (before 0 0 0) 3 0 (first 0) :=
  meDue_of _ _ _ rfl (by decide) (by decide) (by decide) (by decide) (by decide) (by decide)
theorem witness_shiftDone :
    let x : ShiftRun := ⟨⟨0, 0, 0⟩, 1, 6, 0, 0, 128, [], [], false⟩
    let s := withTile 3 (fun y => { y with me := { y.me with shift := some x } }) (atTime 0 127 on)
    Powered s ∧ gatedCycle s.dev = false ∧ (getMe s.dev 3).shift = some x ∧ (copyRows (fresh s.dev) 3 (now s.dev) x).bad = false
    ∧ (copyRows (fresh s.dev) 3 (now s.dev) x).start + 127 ≤ now s.dev := ⟨rfl, by decide, by decide, by decide, by decide⟩
theorem witness_meBad : meNext (before 0x4001 0 0).dev 3 true = some (0, 0, first 0x4001) ∧ meBad 0x4001 = true
    ∧ gatedCycle (before 0x4001 0 0).dev = false := by decide
theorem witness_sfBad : sfNext (before 0 0x4001 0).dev 3 false = some (0, 0, first 0x4001) ∧ sfBad 0x4001 = true
    ∧ sfFree (before 0 0x4001 0).dev 3 = true := by decide
theorem witness_forceRst : MgmtWrite on (.core 0) (regOff 16 3 0x40) := ⟨⟨rfl, _, _, rfl⟩, rfl⟩

theorem computeFits_one : ComputeFits (withPlanes (some fp16) none (before (wCompute 1024 false) 0 0)).dev 3 (wCompute 1024 false) 6 fp16 := by
  unfold ComputeFits SlotsNamed; decide
theorem witness_compute : MeDue (withPlanes (some fp16) none (before (wCompute 1024 false) 0 0)) 3 2 (first (wCompute 1024 false)) :=
  meDue_of _ _ _ rfl (by decide) (by decide) (by decide) (by decide) (by decide) (by decide)
theorem witness_compute_flip : MeDue (withPlanes none (some fp16) (before (wCompute 1 true) 0 0)) 3 2 (first (wCompute 1 true))
    ∧ ComputeFits (withPlanes none (some fp16) (before (wCompute 1 true) 0 0)).dev 3 (wCompute 1 true) 6 fp16 := by
  refine ⟨meDue_of _ _ _ rfl (by decide) (by decide) (by decide) (by decide) (by decide) (by decide), ?_⟩
  unfold ComputeFits SlotsNamed; decide
/-- A COMPUTE whose PSLOT is slot 1. -/
def wSlot : Nat := wCompute 1 false + 2 ^ 186
theorem witness_compute_empty :
    let s := withSlot 0 (before wSlot 0 0)
    MeDue s 3 2 (first wSlot) ∧ SlotsNamed s.dev 3 wSlot ∧ swPslot wSlot ≠ 0 ∧ stepRows s.dev 3 (swPslot wSlot) (swRows wSlot) = 0 := by
  refine ⟨⟨rfl, by decide, 0, 0, by decide, by decide, by decide, Or.inl rfl, by decide⟩, ?_, by decide, by decide⟩
  unfold SlotsNamed; decide
/-- A run of one row whose results have been written. -/
def ended (w : Nat) : StepRun := ⟨⟨0, 0, 0⟩, ⟨w, 6, 0, 0, 0, 0, 0, 0, [], false, fp16⟩, 0, 0, [], 0, none, true⟩
theorem witness_computeDone :
    let s := withTile 3 (fun y => { y with me := { y.me with computes := [ended (wCompute 1 false)] } }) (atTime 3 0 on)
    let r := rowsUpTo (fresh s.dev) 3 (now s.dev) (ended (wCompute 1 false))
    Powered s ∧ gatedCycle s.dev = false ∧ (getMe s.dev 3).computes = [ended (wCompute 1 false)] ∧ endCycle r ≤ now s.dev
    ∧ r.fault = none := ⟨rfl, by decide, by decide, by decide, by decide⟩
theorem witness_vectors (op : Nat) (h : op = 8 ∨ op = 9 ∨ op = 10 ∨ op = 11 ∨ op = 12 ∨ op = 13 ∨ op = 14 ∨ op = 15) :
    VecDue (before (wVec op 1) 0 0) 3 op (first (wVec op 1)) ∧ inSram (vecExtents (wVec op 1) 1) = true
    ∧ stepRows (before (wVec op 1) 0 0).dev 3 (swPslot (wVec op 1)) (swRows (wVec op 1)) = 1 := by
  rcases h with rfl | rfl | rfl | rfl | rfl | rfl | rfl | rfl <;> exact ⟨⟨rfl, by decide, by decide, 0, 0, by decide, by decide, by decide, by decide, by decide, by decide⟩, by decide, by decide⟩
theorem witness_vector_empty :
    let w := wVec 8 1 + 2 ^ 186
    let s := withSlot 0 (before w 0 0)
    VecDue s 3 8 (first w) ∧ swPslot w ≠ 0 ∧ stepRows s.dev 3 (swPslot w) (swRows w) = 0 :=
  ⟨⟨rfl, by decide, by decide, 0, 0, by decide, by decide, by decide, by decide, by decide, by decide⟩, by decide, by decide⟩
theorem witness_vectorDone :
    let s := withTile 3 (fun y => { y with me := { y.me with vec := some (ended (wVec 8 0)) } }) (atTime 3 0 on)
    let r := rowsUpTo (fresh s.dev) 3 (now s.dev) (ended (wVec 8 0))
    Powered s ∧ gatedCycle s.dev = false ∧ (getMe s.dev 3).vec = some (ended (wVec 8 0)) ∧ endCycle r ≤ now s.dev
    ∧ r.fault = none := ⟨rfl, by decide, by decide, by decide, by decide⟩
theorem witness_vectorRows : swWfmt (wVec 10 1) = 0 ∧ swOfmt (wVec 10 1) = 0 ∧ swOp (wVec 8 1) = 8 ∧ swOp (wVec 9 1) = 9
    ∧ swOp (wVec 10 1) = 10 ∧ (63 : Nat) < 64 ∧ (List.replicate 256 (0 : Byte)).length = 256 := by decide

/-- Table 0 (one interval, SIGN 0) and micro-program 0 (END alone) in the special function data. -/
def sfData : State → State := withTile 3 (fun x => { x with sf := { x.sf with data := [(0, BitVec.ofNat 32 (127 + 127 * 256 + 2 ^ 21)), (0x4008, 4)] } })
theorem sfDue_of (w op : Nat) (s : State) (h1 : Powered s) (h2 : gatedCycle s.dev = false) (h3 : sfFree s.dev 3 = true)
    (h4 : sfNext s.dev 3 false = some (0, 0, first w)) (h5 : sfBad w = false) (h6 : swOp w = op) (h7 : sfWait s.dev 3 0 w = none) :
    SfDue s 3 op (first w) := ⟨h1, h2, h3, 0, 0, h4, h5, h6, h7⟩
theorem witness_specialFunctions (op : Nat) (h : op = 1 ∨ op = 2 ∨ op = 3 ∨ op = 4 ∨ op = 5 ∨ op = 6) :
    SfDue (sfData (before 0 (wSf op 1 1 1) 0)) 3 op (first (wSf op 1 1 1)) ∧ SfFits (sfData (before 0 (wSf op 1 1 1) 0)).dev 3 (wSf op 1 1 1) := by
  unfold SfFits
  rcases h with rfl | rfl | rfl | rfl | rfl | rfl <;> exact ⟨sfDue_of _ _ _ rfl (by decide) (by decide) (by decide) (by decide) (by decide) (by decide), by decide⟩
theorem witness_sf_empty :
    let w := wSf 6 1 1 0 + 2 ^ 199
    let s := withSlot 0 (before 0 w 0)
    SfDue s 3 6 (first w) ∧ slotUnnamed s.dev 3 (sfPslot w) = false ∧ sfPslot w ≠ 0 ∧ stepRows s.dev 3 (sfPslot w) (swRows w) = 0 :=
  ⟨sfDue_of _ _ _ rfl (by decide) (by decide) (by decide) (by decide) (by decide) (by decide), by decide, by decide, by decide⟩
theorem witness_sf_rest :
    SfDue (before 0 0 0) 3 0 (first 0) ∧ SfDue (before 0 8 0) 3 8 (first 8) ∧ sfValue 8 ≤ 1 ∧ sfValue (8 + 2 ^ 207) ≤ 1
    ∧ SfDue (before 0 (7 + 8 * 2 ^ 92) 0) 3 7 (first (7 + 8 * 2 ^ 92)) ∧ FlagReadable (before 0 (7 + 8 * 2 ^ 92) 0).dev 3 (swAux1 (7 + 8 * 2 ^ 92)) := by
  refine ⟨sfDue_of _ _ _ rfl (by decide) (by decide) (by decide) (by decide) (by decide) (by decide),
    sfDue_of _ _ _ rfl (by decide) (by decide) (by decide) (by decide) (by decide) (by decide), by decide, by decide,
    sfDue_of _ _ _ rfl (by decide) (by decide) (by decide) (by decide) (by decide) (by decide), ?_⟩
  unfold FlagReadable; decide
theorem witness_sfDone :
    let s := withTile 3 (fun y => { y with sf := { y.sf with running := some ⟨⟨0, 0, 0⟩, [], [], 2, false, none⟩ } }) (atTime 0 2 on)
    Powered s ∧ gatedCycle s.dev = false ∧ ((getSf s.dev 3).running).map (fun r => (r.endAt, r.fault)) = some (2, none)
    ∧ 2 ≤ now s.dev := ⟨rfl, by decide, by decide, by decide⟩

theorem test_swap_exchanges_banks :
    let s := after (.swap 3) (before 3 0 0)
    (getMe s.dev 3).front = 1 ∧ (getMe s.dev 3).pc = 1 ∧ (getMe s.dev 3).steps = 1 := by decide
theorem test_flip_needs_a_plane : (getMe (after (.compute 3) (before (wCompute 1 true) 0 0)).dev 3).faulted = true := by decide

/-! ## The stock (R140 to R164) -/

/-- A request of a COPY, in a stage. -/
def req0 (st : ReqStage) : StReq := ⟨5, 0, ⟨0, 0, 0⟩, 0, false, .copy 0 64, sram3, 64, 0, [], [], st, 0, none⟩
/-- Class 0 of tile 3's stock with a rate, and the state `before` of a descriptor. -/
def stocked (w : Nat) : State :=
  withTile 3 (fun x => { x with st := { x.st with classes := [(0, { StClass.z with rate := 2, depth := 8, tokens := 8 })] } }) (before 0 0 w)
/-- A descriptor of one row of 64 bytes from HBM into tile 3's SRAM. -/
def wDesc (kind tail : Nat) : Nat :=
  kind + sram3 * 2 ^ 128 + 64 * 2 ^ 192 + 2 ^ 224 + tail * 2 ^ 384
/-- The kind-specific bytes of an EDGE, of a GATHER and of a REFILL of the stock's own bank. -/
def edgeTail : Nat := 1 + 64 * 2 ^ 16 + 0xFFFF * 2 ^ 48
def gatherTail : Nat := 12 * 2 ^ 64
def wRefill : Nat := 5 + 64 * 2 ^ 192 + 2 ^ 224 + 2 * 2 ^ 384
/-- A FLAG or a WAITF of the flag at an HBM offset. -/
def wFlag (kind faddr : Nat) : Nat := kind + 9 * 2 ^ 240 + faddr * 2 ^ 320

theorem stDue_of (w kind : Nat) (s : State) (h1 : Powered s) (h2 : entriesFull s.dev 3 = false)
    (h3 : stNext s.dev 3 (kind != 0) = some (0, 0, first w)) (h4 : dsKind w = kind) (h5 : descUnnamed s.dev 3 w = false)
    (h6 : descSlotWaits s.dev 3 w = false) (h7 : descBad s.dev 3 w (descArgs s.dev 3 w) = false)
    (h8 : descMisaligned w (descArgs s.dev 3 w) = false) : StDue s 3 kind (first w) :=
  ⟨h1, h2, 0, 0, h3, h4, h5, h6, h7, h8⟩

theorem witness_descriptors :
    StDue (stocked (wDesc 1 0)) 3 1 (first (wDesc 1 0)) ∧ StDue (stocked (wDesc 2 edgeTail)) 3 2 (first (wDesc 2 edgeTail))
    ∧ StDue (stocked (wDesc 3 gatherTail)) 3 3 (first (wDesc 3 gatherTail)) ∧ StDue (stocked wRefill) 3 5 (first wRefill) := by
  refine ⟨?_, ?_, ?_, ?_⟩ <;>
    exact stDue_of _ _ _ rfl (by decide) (by decide) (by decide) (by decide) (by decide) (by decide) (by decide)
theorem witness_stockRest :
    StDue (stocked 0) 3 0 (first 0) ∧ StDue (stocked 6) 3 6 (first 6) ∧ StDue (stocked (6 + 2 ^ 384)) 3 6 (first (6 + 2 ^ 384))
    ∧ dsTarget (6 + 2 ^ 384) = 1 ∧ dsTarget 6 ≠ 1 ∧ (getSt (stocked 6).dev 3).prog.pend = false
    ∧ (descArgs (stocked 6).dev 3 6).empty = false := by
  refine ⟨?_, ?_, ?_, by decide, by decide, by decide, by decide⟩ <;>
    exact stDue_of _ _ _ rfl (by decide) (by decide) (by decide) (by decide) (by decide) (by decide) (by decide)
theorem witness_pswap_waits :
    let s := withTile 3 (fun x => { x with st := { x.st with prog := { x.st.prog with waits := [⟨0, [], false, 0⟩] } } }) (stocked 6)
    StDue s 3 6 (first 6) ∧ dsTarget 6 ≠ 1 ∧ (getSt s.dev 3).prog.pend = true :=
  ⟨stDue_of _ _ _ rfl (by decide) (by decide) (by decide) (by decide) (by decide) (by decide) (by decide), by decide, by decide⟩
theorem witness_flag :
    StDue (stocked (wFlag 4 0)) 3 4 (first (wFlag 4 0)) ∧ StDue (stocked (wFlag 4 64)) 3 4 (first (wFlag 4 64))
    ∧ dsFaddr (wFlag 4 64) ≠ 0 ∧ tilePart (stocked (wFlag 4 64)).dev 3 = some 0
    ∧ blocksClash (stocked (wFlag 4 64)).dev 3 0 64 8 = false ∧ reqsUsed (getSt (stocked (wFlag 4 64)).dev 3) = 0
    ∧ checkGlobal (stocked (wFlag 4 64)).dev 0 64 8 permW = (true, .ok)
    ∧ homeOf (stocked (wFlag 4 64)).dev (gOff 64) = .hbm 0 0 := by
  refine ⟨?_, ?_, by decide, by decide, by decide, by decide, by decide, by decide⟩ <;>
    exact stDue_of _ _ _ rfl (by decide) (by decide) (by decide) (by decide) (by decide) (by decide) (by decide)
/-- A FLAG whose block an earlier write of the stock is writing, and one whose address is not mapped. -/
theorem witness_flag_waits :
    let s := withTile 3 (fun x => { x with st := { x.st with nextId := 6, reqs := [{ req0 .writing with dst := 64 }] } }) (stocked (wFlag 4 64))
    StDue s 3 4 (first (wFlag 4 64)) ∧ blocksClash s.dev 3 6 64 8 = true :=
  ⟨stDue_of _ _ _ rfl (by decide) (by decide) (by decide) (by decide) (by decide) (by decide) (by decide), by decide⟩
theorem witness_flag_refused :
    let s := stocked (wFlag 4 0x005FFFFFFFC0)
    StDue s 3 4 (first (wFlag 4 0x005FFFFFFFC0)) ∧ (checkGlobal s.dev 0 0x005FFFFFFFC0 8 permW).2 ≠ .ok
    ∧ blocksClash s.dev 3 0 0x005FFFFFFFC0 8 = false :=
  ⟨stDue_of _ _ _ rfl (by decide) (by decide) (by decide) (by decide) (by decide) (by decide) (by decide), by decide, by decide⟩
/-- A PSWAP and a WAITF whose doorbell count is 0. -/
theorem witness_empty :
    let a := 6 + 2 ^ 18
    let b := wFlag 7 64 + 2 ^ 18
    (StDue (stocked a) 3 6 (first a) ∧ (descArgs (stocked a).dev 3 a).empty = true)
    ∧ (StDue (stocked b) 3 7 (first b) ∧ (descArgs (stocked b).dev 3 b).empty = true) := by
  refine ⟨⟨?_, by decide⟩, ?_, by decide⟩ <;>
    exact stDue_of _ _ _ rfl (by decide) (by decide) (by decide) (by decide) (by decide) (by decide) (by decide)
theorem witness_waitf :
    let s := stocked (wFlag 7 64)
    StDue s 3 7 (first (wFlag 7 64)) ∧ stNext s.dev 3 true = some (0, 0, first (wFlag 7 64))
    ∧ gDev 64 = myDev s.dev ∧ tierOf 64 ≠ 3 ∧ (checkGlobal s.dev 0 64 8 permR).2 = .ok
    ∧ readNat s.dev (gOff 64) 8 % 2 ^ 16 ≠ 9 ∧ readNat (withBytes 64 [9] s).dev (gOff 64) 8 = 9 :=
  ⟨stDue_of _ _ _ rfl (by decide) (by decide) (by decide) (by decide) (by decide) (by decide) (by decide),
    by decide, by decide, by decide, by decide, by decide, by decide⟩
theorem witness_stockFaults :
    let a := stocked (wDesc 1 0 + 2 ^ 48)
    let b := stocked (wDesc 1 1)
    let c := stocked (wDesc 1 0 + 2 ^ 64)
    (stNext a.dev 3 true = some (0, 0, first (wDesc 1 0 + 2 ^ 48)) ∧ descUnnamed a.dev 3 (wDesc 1 0 + 2 ^ 48) = true
      ∧ entriesFull a.dev 3 = false ∧ dsKind (wDesc 1 0 + 2 ^ 48) = 1)
    ∧ (stNext b.dev 3 true = some (0, 0, first (wDesc 1 1)) ∧ descUnnamed b.dev 3 (wDesc 1 1) = false
      ∧ descSlotWaits b.dev 3 (wDesc 1 1) = false ∧ descBad b.dev 3 (wDesc 1 1) (descArgs b.dev 3 (wDesc 1 1)) = true)
    ∧ (stNext c.dev 3 true = some (0, 0, first (wDesc 1 0 + 2 ^ 64))
      ∧ descBad c.dev 3 (wDesc 1 0 + 2 ^ 64) (descArgs c.dev 3 (wDesc 1 0 + 2 ^ 64)) = false
      ∧ descMisaligned (wDesc 1 0 + 2 ^ 64) (descArgs c.dev 3 (wDesc 1 0 + 2 ^ 64)) = true) := by decide

/-- A transfer of a COPY. -/
def xfer0 : Transfer := ⟨0, ⟨0, 0, 0⟩, 1, 0, false, 0, sram3, 64, 1, 0, 0, 0, 0, 0, 0, 0, 0, [], 0, false, false⟩
/-- The stock with one transfer and requests. -/
def busy (y : Transfer) (rs : List StReq) : State :=
  withTile 3 (fun x => { x with st := { x.st with xfers := [y], reqs := rs, owners := [(0, 0)] } }) (stocked 0)

theorem witness_stockRequest :
    let s := busy xfer0 []
    let x := getSt s.dev 3
    s.dev.time.phase / 48 = 0 ∧ tget ownerZ x.owners 0 = 0 ∧ x.wheld = [] ∧ x.reqs = [] ∧ x.lastReq = none ∧ classHead x 0 = some xfer0
    ∧ xfer0.held = false ∧ sfOverlap s.dev 3 xfer0 = false ∧ (nextReq xfer0).map (fun n => (n.dst % 2 ^ 64, n.len, n.list)) = some (sram3, 64, none)
    ∧ blocksClash s.dev 3 0 sram3 64 = false ∧ 1 ≤ (tget StClass.z x.classes 0).tokens ∧ x.reqs.length < 224
    ∧ x.refilled ≠ some (now s.dev) ∧ s.dev.time.phase % 48 = 0 ∧ xfer0.pos < xfer0.rowbytes := by decide
/-- A request into a block that request 5 is writing, and one whose source a special function step writes. -/
theorem witness_stockHolds :
    (let s := withTile 3 (fun x => { x with st := { x.st with nextId := 6 } }) (busy xfer0 [req0 .writing])
     sfOverlap s.dev 3 xfer0 = false ∧ blocksClash s.dev 3 6 sram3 64 = true ∧ (nextReq xfer0).map (fun n => n.list) = some none)
    ∧ (let y := { xfer0 with src := sram3 }
       let s := withTile 3 (fun x => { x with sf := { x.sf with running := some ⟨⟨0, 0, 0⟩, [], [(0, 64)], 2, false, none⟩ } }) (busy y [])
       classHead (getSt s.dev 3) 0 = some y ∧ y.held = false ∧ sfOverlap s.dev 3 y = true) := by decide
theorem witness_stockComplete :
    (reqOf (busy xfer0 [req0 .done]).dev 3 5).map (fun r => (r.xfer != waitfXfer, r.stage)) = some (true, .done)
    ∧ (reqOf (busy xfer0 [req0 .gotData]).dev 3 5).map (fun r => (r.stage, r.list, r.poison)) = some (.gotData, none, [])
    ∧ (let y := { xfer0 with row := 1 }
       let z := { y with faddr := 64 }
       ((getSt (busy y []).dev 3).xfers.find? (fun u => u.id == 0) = some y ∧ allIssued y = true
         ∧ (getSt (busy y []).dev 3).reqs.any (fun r => r.xfer == 0) = false)
       ∧ (z.faddr ≠ 0 ∧ allIssued z = true ∧ z.flagged = false ∧ blocksClash (busy z []).dev 3 0 64 8 = false ∧ tilePart (busy z []).dev 3 = some 0
         ∧ checkGlobal (busy z []).dev 0 64 8 permW = (true, .ok) ∧ homeOf (busy z []).dev (gOff 64) = .hbm 0 0))
    ∧ fillBank (busy xfer0 []).dev 3 sram3 = some 0 ∧ fillBank (busy xfer0 []).dev 3 (sram3 + 0x80000) = some 1
    ∧ (getSf (busy xfer0 []).dev 3).running = none := by decide
theorem witness_writeHold :
    (let s := withTile 3 (fun x => { x with st := { x.st with wheld := [0] } }) (busy xfer0 [])
     (getSt s.dev 3).wheld = [0] ∧ (getSt s.dev 3).reqs = []
     ∧ (nextReq xfer0).map (fun n => blocksClash s.dev 3 0 (n.dst % 2 ^ 64) n.len) = some false)
    ∧ (let r := { req0 .held with dst := 64, flag := true }
       let s := busy xfer0 [r]
       (getSt s.dev 3).reqs.filter (fun z => z.stage == .held) = [r] ∧ reqOf s.dev 3 5 = some r
       ∧ blocksClash s.dev 3 5 r.dst 8 = false ∧ reqsUsed (getSt s.dev 3) < 224 ∧ (getSt s.dev 3).wheld = []) := by decide

theorem test_copy_opens_a_transfer :
    (getSt (after (.copy 3) (stocked (wDesc 1 0))).dev 3).xfers.map (fun y => (y.src, y.dst, y.rows)) = [(0, sram3, 1)] := by decide
theorem test_flag_holds_tag_and_index :
    (getSt (after (.flag 3) (stocked (wFlag 4 64 + 5 * 2 ^ 20))).dev 3).reqs.map (fun r => (r.dst, leNat (gathered r), r.stage))
      = [(64, 9 + 5 * 2 ^ 16, .writing)] := by decide
theorem test_request_takes_a_token :
    let s := after (.stockRequestIssue 3 0) (busy xfer0 [])
    (tget StClass.z (getSt s.dev 3).classes 0).tokens = 7 ∧ (getSt s.dev 3).reqs.map (fun r => (r.dst, r.len)) = [(sram3, 64)] := by decide
theorem test_refill_stops_at_the_depth :
    (tget StClass.z (getSt (after (.tokenRefill 3) (stocked 0)).dev 3).classes 0).tokens = 8 := by decide

/-! ## Rings, the mover, channels and flash (R166 to R210, R316) -/

/-- Queue 0 of half 0: a ring at HBM offset 0x1000 of one command, enabled. -/
def ring (r : RingRegs) (cfg : Nat) (cmd : List Byte) : State :=
  withBytes 0x1000 cmd (withCtl r.qbase 0x1000 (withCtl r.cfg cfg (withCtl r.tail 1 (withPart 0 0 (atTime 100 0 on)))))
/-- The mover with PSHIFT 12 and RATE 1, four pages described at 0x4000 with frames from 0x100000; page 0 as given, the others FREE;
an OUTBOUND entry for the first MiB of the host region, writes for swapping. -/
def mover (page0 : List Byte) (cmd : List Byte) : State :=
  withBody (fun b => { b with hl := { b.hl with regions := [(0, some ⟨2, 0, 0, 0x40000000, 0x100000, 3, none⟩)] } })
    (withBytes 0x4000 page0 (withCtl (regOff 14 0 0x88) 0x4000 (withCtl (regOff 14 0 0x90) 0x100000 (withCtl (regOff 14 0 0xA8) 4
      (ring (mvRing 0 0) (1 + 24 + 64) cmd)))))
/-- A mover command: operation, page, argument, fill, layer, host offset. -/
def mvc (op page arg hoff : Nat) : List Byte :=
  leBytes 4 op ++ leBytes 4 page ++ leBytes 4 arg ++ leBytes 4 0 ++ leBytes 8 (Config.hostBase + hoff) ++ leBytes 8 0
def resident : List Byte := leBytes 4 1 ++ leBytes 2 1

theorem witness_tail : Powered on ∧ Passes on (.core 0) (mvRing 0 0).tail 4 true ∧ Passes on (.core 0) (flRing 1 2).tail 4 true
    ∧ Passes on (.core 0) (wrRing 3).tail 4 true ∧ (256 + 2 ^ 32 - ctlNat on.dev (mvRing 0 0).head) % 2 ^ 32 ≤ 256
    ∧ 256 < (257 + 2 ^ 32 - ctlNat on.dev (mvRing 0 0).head) % 2 ^ 32 :=
  ⟨rfl, ⟨rfl, _, _, rfl⟩, ⟨rfl, _, _, rfl⟩, ⟨rfl, _, _, rfl⟩, by decide, by decide⟩
theorem witness_mover_bad : (mvFront (mover resident (mvc 1 4 0 0)).dev 0 0).map (fun a => mvBad (mover resident (mvc 1 4 0 0)).dev 0 0 a.2.1 a.2.2) = some true := by decide
theorem witness_mover_state (op page : Nat) (h : (op, page) ∈ [(1, 1), (2, 0), (3, 1)]) :
    let s := mover resident (mvc op page 2 0)
    mvTurn s.dev 0 0 = true
    ∧ (mvFront s.dev 0 0).map (fun a => (mvBad s.dev 0 0 a.2.1 a.2.2, mvState s.dev 0 0 a.2.2, a.2.2.op)) = some (false, false, op) := by
  simp only [List.mem_cons, Prod.mk.injEq, List.not_mem_nil, or_false] at h
  rcases h with ⟨rfl, rfl⟩ | ⟨rfl, rfl⟩ | ⟨rfl, rfl⟩ <;> decide
/-- The run of a mover command. -/
def mvRun (op page arg hoff : Nat) : MoverRun := mvCmd (mvc op page arg hoff) 0x1000
theorem witness_mover_starts (op page arg : Nat) (h : (op, page, arg) ∈ [(1, 0, 0), (2, 1, 0), (3, 0, 2)]) :
    let s := mover (resident ++ leBytes 10 0 ++ leBytes 16 0 ++ resident) (mvc op page arg 0x2000)
    mvFront s.dev 0 0 = some (0, mvc op page arg 0x2000, mvRun op page arg 0x2000) ∧ (mvRun op page arg 0x2000).op = op
    ∧ mvBad s.dev 0 0 (mvc op page arg 0x2000) (mvRun op page arg 0x2000) = false ∧ mvState s.dev 0 0 (mvRun op page arg 0x2000) = true
    ∧ mvTurn s.dev 0 0 = true ∧ mvWaits s.dev 0 0 (mvRun op page arg 0x2000) = false ∧ pdtStatus s.dev 0 0 0 page = 1
    ∧ pdtStatus s.dev 0 0 0 arg = 1 := by
  simp only [List.mem_cons, Prod.mk.injEq, List.not_mem_nil, or_false] at h
  rcases h with ⟨rfl, rfl, rfl⟩ | ⟨rfl, rfl, rfl⟩ | ⟨rfl, rfl, rfl⟩ <;> decide
theorem witness_mover_out :
    let s := mover resident (mvc 1 0 0 0x2000)
    let e := setHostPg 0 0 0 (Config.hostBase + 0x2000) (setPageState 0 0 0 2 (fresh s.dev))
    (mvHost e 0 0 0 { mvRun 1 0 0 0x2000 with begun := true } 4096 (some 1)).1 = 0 ∧ frameStatus e 0 0 0 0 = 1 := by decide +kernel
theorem witness_mover_in :
    let s := mover (leBytes 16 0) (mvc 2 1 0 0x2000)
    let e := setPageState 0 0 1 4 (fresh s.dev)
    (mvHost e 0 0 0 { mvRun 2 1 0 0x2000 with begun := true } 4096 none).1 = 0
    ∧ checkGlobal e 0 (frameAddr e 0 0 1) 4096 permW = (true, .ok) := by decide +kernel
theorem witness_mover_copy :
    let s := mover (resident ++ leBytes 10 0 ++ leBytes 16 0 ++ resident) (mvc 3 0 2 0)
    frameStatus s.dev 0 0 0 0 = 1 ∧ checkGlobal s.dev 0 (frameAddr s.dev 0 0 2) 4096 permW = (true, .ok) := by decide +kernel
/-- A SWAP_OUT and a SWAP_IN that the host has stalled after 64 bytes. -/
theorem witness_mover_resumes (op : Nat) (h : op = 1 ∨ op = 2) :
    let x := { mvRun op 0 0 0x2000 with begun := true, at_ := 64 }
    let s := withDev (setMover 0 0 (some x)) (mover resident [])
    getMover s.dev 0 0 = some x ∧ x.status = 0 ∧ mvTurn s.dev 0 0 = true ∧ mvWaits s.dev 0 0 x = false ∧ queuePart s.dev 0 0 ≠ none
    ∧ (mvHost (fresh s.dev) 0 0 0 x 4096 (if op = 1 then some 1 else none)).1 = 0 ∧ frameStatus (fresh s.dev) 0 0 0 0 = 1
    ∧ checkGlobal (fresh s.dev) 0 (frameAddr (fresh s.dev) 0 0 0) 4096 permW = (true, .ok) := by
  rcases h with rfl | rfl <;> decide +kernel
theorem witness_ringEnds :
    let s := withDev (fun d => setFlash 0 0 (some ⟨1, 1, 0, 0, 0, 1, 0x1000, 1⟩) (setMover 0 0 (some { mvRun 1 0 0 0 with status := 1 }) d)) on
    (getMover s.dev 0 0).map (fun x => (x.status, x.begun, mvWaits s.dev 0 0 x, unitWaits s.dev (gOff x.slot) 32)) = some (1, false, false, false)
    ∧ (getFlash s.dev 0 0).map (fun x => (x.status, unitWaits s.dev (gOff x.slot) 32)) = some (1, false)
    ∧ getMover on.dev 0 0 = none ∧ getFlash on.dev 0 0 = none
    ∧ (mvRing 0 0).head % 4 = 0 ∧ (mvRing 0 0).fails = (mvRing 0 0).head + 4 := by decide
theorem witness_swapOutEnd (n : Nat) (h : n = 0 ∨ n = 1 ∨ n = 2) :
    let s := mover (leBytes 4 2 ++ leBytes 2 n) []
    pdState (pdtGet s.dev 0 0 0) = 2 ∧ pdRef (pdtGet s.dev 0 0 0) = n ∧ pdState (pdtGet s.dev 0 0 1) ≠ 2 := by
  rcases h with rfl | rfl | rfl <;> decide

/-- Channel 5 of the first stack with requests. -/
def chan5 (q : List ChanReq) (trump : Nat) : State := withDev (modChan 5 (fun y => { y with q := q, trump := trump })) on
def creq (a : Nat) (tr : Bool) : ChanReq := ⟨.other, tr, a, 0, .read 64⟩
theorem witness_channel :
    nextOut (getChan (chan5 [creq 0 false, creq 64 true] 64).dev 5) = some (1, true)
    ∧ nextOut (getChan (chan5 [creq 0 false, creq 64 true] 63).dev 5) = some (0, false)
    ∧ nextOut (getChan (chan5 [creq 0 false, creq 0 true] 64).dev 5) = some (0, false)
    ∧ chanTested on.dev 5 = false ∧ (chan5 [creq 0 false] 0).dev.body.chans.length = 1 ∧ (getChan on.dev 5).q = [] ∧ on.dev.time.phase % 48 = 0 ∧ (getChan on.dev 5).gained = none
    ∧ (48 : Nat) % 48 = 0 ∧ (47 : Nat) % 48 ≠ 0 := by decide
theorem witness_stack :
    let s := withDev (modStack 2 (fun x => { x with throttle := 2 })) (atTime 1024 0 on)
    let u := withDev (modChan 64 (fun y => { y with count := 4096 })) (atTime 1024 0 on)
    (s.dev.time.trick % 1024 = 0 ∧ s.dev.time.phase = 0 ∧ (getStack s.dev 2).throttle = 2 ∧ (getStack u.dev 2).counted = false)
    ∧ (let f := fun (d : Dev) => (liveOf d 2).map (fun c => (getChan d (32 * 2 + c)).count)
       (4096 ≤ (f u.dev).foldl (· + ·) 0 ∧ 4 * (f u.dev).foldl (· + ·) 0 < (f u.dev).foldl max 0 * (liveOf u.dev 2).length)
       ∧ (f s.dev).foldl (· + ·) 0 = 0) := by decide
theorem witness_writeback :
    let j := { runsJob with deal := { Deal.z with windows := [⟨0x10000, 0x20000, 1, true, 0⟩], points := [⟨0, 0, 7, 0⟩], prologue := 1, dbase := 0x8000 } }
    let s := withJob 0 j (withPart 0 0 (atTime 100 0 on))
    let u := withBytes 0x8000 [1] (withJob 0 { j with deal := { j.deal with wbrate := 64 } } (withPart 0 0 (atTime 100 0 on)))
    let v := withBody (fun b => { b with wbs := [(0, ⟨[], [⟨0, 0, 0, []⟩]⟩)] }) s
    (getWb s.dev 0).owed = [] ∧ (getWb s.dev 0).runs = [] ∧ walkWaits s.dev 0 ⟨0x10000, 0x20000, 1, true, 0⟩ = false
    ∧ dirtyBlocks s.dev 0 ⟨0x10000, 0x20000, 1, true, 0⟩ = [] ∧ (getWb v.dev 0).runs.any (fun r => r.window == 0) = true
    ∧ dirtyBlocks u.dev 0 ⟨0x10000, 0x20000, 1, true, 0⟩ = [(0, 0x10000)] ∧ bucketOpen u.dev (wbBucket 0) 64 = true
    ∧ walkWaits u.dev 0 ⟨0x10000, 0x20000, 1, true, 0⟩ = false ∧ jobRuns u.dev 0 = true
    ∧ jobRuns s.dev 0 = true ∧ recursAt j.deal 0 j.cursor = true ∧ tget 0 (getJob s.dev 0).fired 0 ≠ j.cursor + 1
    ∧ recursAt j.deal 0 1 = false ∧ jobRuns on.dev 0 = false ∧ (∀ i, i < 16 → isDirty s.dev 0 (gOff 0x10000 + 4096 * i) = false) := by decide

/-- A flash command: operation, units, offset. -/
def flc (op len off : Nat) : List Byte := leBytes 4 op ++ leBytes 4 len ++ leBytes 8 0x100000 ++ leBytes 8 off ++ leBytes 8 0
def flRun (op len off : Nat) : FlashRun := flCmd (flc op len off) 0x1000
theorem witness_flash (op len off st : Nat) (h : (op, len, off, st) ∈ [(1, 1, 0, 0), (2, 1, 0, 0), (1, 1, 65536, 3), (2, 1, 240 * 0x40000000 * 2, 7)]) :
    let s := ring (flRing 0 0) 1 (flc op len off)
    flFront s.dev 0 0 = some (flc op len off, flRun op len off) ∧ (flRun op len off).op = op
    ∧ flRefusal s.dev 0 0 (flc op len off) (flRun op len off) = st := by
  simp only [List.mem_cons, Prod.mk.injEq, List.not_mem_nil, or_false] at h
  rcases h with ⟨rfl, rfl, rfl, rfl⟩ | ⟨rfl, rfl, rfl, rfl⟩ | ⟨rfl, rfl, rfl, rfl⟩ | ⟨rfl, rfl, rfl, rfl⟩ <;> decide
theorem witness_flash_zone :
    let s := ring (flRing 0 0) 1 (flc 2 1 0)
    flZone s.dev (flAddr (flRun 2 1 0)) = some (0, 0, 0) ∧ (getZone s.dev 0).state ≠ .offline
    ∧ flashTested s.dev 0 = false ∧ flashTested s.dev 1 = false
    ∧ (getZone (withDev (setZone 0 ⟨0, .offline⟩) s).dev 0).state = .offline := by decide
theorem witness_flashUnit :
    let x : FlashRun := ⟨1, 2, 0x100000, 0, 0, 1, 0x1000, 0⟩
    let s := withDev (setFlash 0 0 (some x)) (ring (flRing 0 0) (1 + 2 * 64) [])
    let src := x.src + 65536 * x.units
    turnOf s.dev 2 (flReady s.dev 0) = some 0 ∧ flZone s.dev (flNext x) = some (0, 0, 65536) ∧ unitWaits s.dev (gOff src) 65536 = false
    ∧ checkGlobal s.dev ((queuePart s.dev 0 0).getD 0) src 65536 permR = (true, .ok) ∧ (homeRange s.dev (gOff src) 65536).kind = 1
    ∧ (unitRead (gOff src) 65536 (takeTokens (flBucket 0 0) 64 65536 (fresh s.dev))).2.1 = []
    ∧ (let u := withDev (fun d => { d with mem := { d.mem with poison := [gOff src / 8] } }) s
       (unitRead (gOff src) 65536 (takeTokens (flBucket 0 0) 64 65536 (fresh u.dev))).2.1 ≠ []) := by decide +kernel

/-! ## Links and the router (R213 to R239) -/

/-- Link 0 of port 2 as given, in a system of two devices along X, Y and Z each. -/
def linked (x : LinkSt) : State :=
  withBody (fun b => { b with links := [(8, x)] }) (withCtl (regOff 7 0 0x40) (2 + 16 + 128) (withCtl (lkOff 2 0x40) 4 (atTime 4096 0 on)))
def up : LinkSt := { LinkSt.z with state := 2, width := 1, gen := 1, lanes := 255 }
/-- What training finds: the given lanes, and the neighbour of port 2 in its place. -/
def train (pass : Byte) (dev : DevNum) : TrainIn := ⟨pass, pass, 2, 7, dev, 3, 0, 1, 1, 1, 1, false⟩
/-- Port 4's position ahead is FAILED, in the table as written and in force. -/
def failed : State := withBody (fun b => { b with seats := [(1, 0x20)] }) <| withCtl (regOff 7 0 0x84) 0x20 (withCtl (regOff 7 0 0x40) (1 + 2 + 16 + 128) (atTime 4096 0 on))

theorem witness_train :
    let s := linked { LinkSt.z with state := 1 }
    let f := withBody (fun b => { b with links := [(16, { LinkSt.z with state := 1 })] }) failed
    portOff s.dev 2 = false ∧ (getLink s.dev (lkKey 2 0)).state = 1
    ∧ (neighbour (takeSeats 2 (fresh s.dev)) 2 0).isSome = true ∧ (devNumber (takeSeats 2 (fresh s.dev))).isSome = true
    ∧ lkSelect (bits (ctlNat s.dev (lkOff 2 0x40)) 2 1) (getLink s.dev (lkKey 2 0)) (trainLanes s.dev 2 0 (train 7 32)) = none
    ∧ lkSelect (bits (ctlNat s.dev (lkOff 2 0x40)) 2 1) (getLink s.dev (lkKey 2 0)) (trainLanes s.dev 2 0 (train 255 32)) = some (2, 1)
    ∧ lkSelect (bits (ctlNat s.dev (lkOff 2 0x40)) 2 1) (getLink s.dev (lkKey 2 0)) (trainLanes s.dev 2 0 (train 63 32)) = some (2, 2)
    ∧ lkSelect 2 { LinkSt.z with maxWidth := 3 } (train 255 32) = some (2, 3)
    ∧ miswired (takeSeats 2 (fresh s.dev)) 2 0 (train 255 32) = false ∧ miswired (takeSeats 2 (fresh s.dev)) 2 0 (train 255 33) = true
    ∧ neighbour (takeSeats 4 (fresh f.dev)) 4 0 = none ∧ (getLink f.dev (lkKey 4 0)).state = 1 ∧ portOff f.dev 4 = false
    ∧ (getLink on.dev (lkKey 2 1)).state ≠ 2 ∧ (getLink (linked LinkSt.z).dev (lkKey 2 0)).state = 0 := by decide
theorem witness_linkChanges :
    widthOf 2 (255 &&& laneKeep (linked up).dev 2 0).toNat = some 2 ∧ widthOf 2 (7 &&& laneKeep (linked up).dev 2 0).toNat = none
    ∧ (getLink (linked up).dev (lkKey 2 0)).state = 2 ∧ (getLink (linked up).dev (lkKey 2 0)).asked = none
    ∧ (getLink (linked { up with asked := some (false, 2) }).dev (lkKey 2 0)).asked = some (false, 2)
    ∧ (linked up).dev.time.phase = 0 ∧ (getLink (linked { up with agreed := some (true, 1) }).dev (lkKey 2 0)).agreed = some (true, 1)
    ∧ (getLink (linked { up with agreed := some (false, 2) }).dev (lkKey 2 0)).agreed = some (false, 2)
    ∧ (let x := getLink (linked { up with state := 3, changeAt := 2048 }).dev (lkKey 2 0)
       x.state = 3 ∧ x.changeAt + 2048 ≤ (linked up).dev.time.trick)
    ∧ (let x := getLink (linked { up with unc := 17, window := 4 }).dev (lkKey 2 0)
       x.state = 2 ∧ x.window = (linked up).dev.time.trick / 1024 ∧ 16 < x.unc ∧ x.raised ≠ x.window + 1) := by decide
/-- Port 2 in a state of powering down since trick 4093. -/
def downing (st : Nat) (gate : Bool) : State := withDev (modPort 2 (fun y => { y with state := st, offTrick := 4093, gate := gate })) (linked up)
theorem witness_portPower :
    PctrlMay (linked up) (.core 0) 2 ∧ portHeld (linked up).dev 2 = false ∧ (getPort (linked up).dev 2).state = 0
    ∧ portHeld (withCtl (planOff 2 0 0) 2 (linked up)).dev 2 = true ∧ PctrlMay (withCtl (planOff 2 0 0) 2 (linked up)) (.core 0) 2
    ∧ (getPort (downing 3 false).dev 2).state = 3 ∧ (getPort (downing 3 false).dev 2).gate = false
    ∧ (getPort (downing 3 true).dev 2).offTrick + 3 ≤ (downing 3 true).dev.time.trick
    ∧ (getPort (downing 4 true).dev 2).state = 4 ∧ PctrlMay (downing 4 true) (.core 0) 2 :=
  ⟨⟨rfl, ⟨⟨rfl, _, _, rfl⟩, rfl⟩⟩, by decide, by decide, by decide, ⟨rfl, ⟨⟨rfl, _, _, rfl⟩, rfl⟩⟩, by decide, by decide, by decide, by decide,
    ⟨rfl, ⟨⟨rfl, _, _, rfl⟩, rfl⟩⟩⟩
/-- The plan gives play 0 of link 0 of port 2 to a TRANSIT entry. -/
def planned : State := withCtl (planOff 2 0 0) 2 (linked up)
def out (st : Stream) (port n : Nat) : TxPkt := ⟨st, port, none, 1, 0, 0, 6, 0, .write, pkt 1 n⟩
/-- The skip link of port 4, to pass by its FAILED position. -/
def skips : State := withCtl (planOff 4 3 0) 3 (withBody (fun b => { b with links := [(19, up)] }) failed)
theorem witness_linkSlots :
    (planned.dev.time.phase / 48 = 0 ∧ (getLink planned.dev (lkKey 2 0)).sentAt ≠ some (playNow planned.dev)
      ∧ (getLink planned.dev (lkKey 2 0)).state = 2 ∧ bypassed planned.dev 2 = false ∧ portOff planned.dev 2 = false
      ∧ (getLink planned.dev (lkKey 2 0)).peerGate = false ∧ slotStream planned.dev 2 0 0 = some (.transit 2 0 0))
    ∧ (bypassed skips.dev 4 = true ∧ (getLink skips.dev (lkKey 4 3)).state = 2
      ∧ planKind (planWord skips.dev 4 3 (skips.dev.time.phase / 48)) = 3 ∧ (getLink skips.dev (lkKey 4 3)).peerGate = false
      ∧ (getLink skips.dev (lkKey 4 3)).sentAt ≠ some (playNow skips.dev))
    ∧ (let s := withCtl (planOff 4 0 0) 2 skips
       bypassed s.dev 4 = true ∧ slotStream s.dev 4 0 0 = some (.transit 4 0 0) ∧ portOff s.dev 4 = false)
    ∧ (∀ n, n = 8 ∨ n = 256 →
       let s := withDev (modPort 2 (fun y => { y with openq := [out .opened 2 n] })) planned
       (getPort s.dev 2).openq = [out .opened 2 n] ∧ openAgain s.dev 2 = none ∧ openLink s.dev 2 none = some 0
       ∧ (getPort s.dev 2).credits ≠ 0)
    ∧ ((out .opened 2 8).rest ≤ 256 ∧ 256 < (out .opened 2 256).rest)
    ∧ (let s := withBody (fun b => { b with links := [(8, { up with again := [⟨1, 4095, .opened, []⟩] })] }) planned
       openAgain s.dev 2 = some 0)
    ∧ (let s := withDev (modPort 3 (fun y => { y with openq := [out .opened 3 8] })) planned
       (getPort s.dev 3).openq = [out .opened 3 8] ∧ portDown s.dev 3 = true
       ∧ waitsSince s.dev 3 (out .opened 3 8) + 4096 ≤ s.dev.time.trick ∧ openAgain planned.dev 3 = none ∧ (getPort planned.dev 3).openq = [])
    ∧ (3 < 4 ∧ 0 < 4 ∧ (3 : Nat) ≠ 0) := by
  refine ⟨by decide, by decide, by decide, ?_, by decide, by decide, by decide, by decide⟩
  rintro n (rfl | rfl) <;> decide
/-- A link whose peer has closed its gate; a port with no credits left. -/
theorem witness_slotsClosed :
    (getLink (withBody (fun b => { b with links := [(8, { up with peerGate := true })] }) planned).dev (lkKey 2 0)).peerGate = true
    ∧ (getPort (withDev (modPort 2 (fun y => { y with credits := 0 })) planned).dev 2).credits = 0 := by decide
/-- Device 0 with a link on port 2, on which a packet arrives. -/
def port2 : Arrival := ⟨2, 0, none, 0, 0, []⟩
def remote (dst n : Nat) : Packet := { pkt 1 n with src := 3, tag := 9, dst := BitVec.ofNat 64 dst }
theorem witness_arrives :
    Arrives child port2 (remote 0x1000 8) ∧ ForMe child port2 (remote 0x1000 8)
    ∧ (∀ o, homeOf (taken port2 (remote 0x1000 8) (fresh child.dev)) 0x1000 ≠ .ctl o) ∧ ¬ ForMe child port2 (remote (2 ^ 49) 8)
    ∧ Arrives child port2 { remote 0x1000 0 with arg := 257 } := by
  unfold Arrives ForMe Powered
  exact ⟨by decide, by decide, (fun o h => by have : homeOf (taken port2 (remote 0x1000 8) (fresh child.dev)) 0x1000 = .hbm 0 0 := by decide
                                              rw [this] at h; cases h), by decide, by decide⟩
/-- A grant of partition 0's first 64 KiB of HBM, to devices 0 to 7, for reads, writes and atomic operations. -/
def granting : State :=
  withCtl (grantOff 0 0 0) (2 ^ 31 + 7 * 65536) (withCtl (grantOff 0 0 1) 15 (withCtl (grantOff 0 0 4) 0xFFFF (withPart 0 0 child)))
theorem witness_remote_checks :
    let c := taken port2 (remote 0x1000 8) (fresh child.dev)
    let g := taken port2 (remote 0x1000 8) (fresh granting.dev)
    checkLocal c none 3 0x1000 8 permR ≠ .ok ∧ checkLocal g none 3 0x1000 8 permR = .ok
    ∧ checkLocal g none 3 0x1000 8 permW = .ok ∧ checkLocal g none 3 0x1000 8 permA = .ok
    ∧ (MemReq.read 0).len = 0 ∧ homeOf g 0x01F000001000 = .ctl 0x1000 ∧ checkLocal g none 3 0x01F000001000 8 permR ≠ .ok
    ∧ (let a : Packet := { remote 0x1000 16 with payload := [0, 8] ++ List.replicate 14 0 }
       leAt a.payload 1 1 ∈ [4, 8] ∧ a.dst.toNat % leAt a.payload 1 1 = 0 ∧ (atomOf (leAt a.payload 0 1)).isSome = true) := by decide
theorem witness_granted_arrives : Arrives granting port2 (remote 0x1000 8) ∧ ForMe granting port2 (remote 0x1000 8) := by
  unfold Arrives ForMe Powered; decide
theorem witness_answers :
    let s := withBody (fun b => { b with tags := [(9, some .other)] }) child
    tget none (taken port2 (remote 0x1000 8) (fresh s.dev)).body.tags (remote 0x1000 8).tag.toNat = some .other ∧ (remote 0x1000 8).tag.toNat ≠ 0 ∧ (remote 0x1000 8).status.toNat ≠ 3
    ∧ (getLink s.dev (lkKey 2 0)).state = 2 := by decide
theorem witness_transit :
    let s := withCtl (planOff 3 0 5) (2 + 2 * 32) (linked up)
    transitOf (noted port2 (fresh s.dev)) 2 0 5 = some (3, 0, 5) ∧ transitOf (noted port2 (fresh s.dev)) 2 0 6 = none := by decide
theorem witness_closed :
    let s := withDev (modPort 2 (fun y => { y with gate := true })) (linked up)
    (getLink s.dev (lkKey 2 0)).state = 2 ∧ (getPort (noted port2 (fresh s.dev)) 2).gate = true ∧ (getLink on.dev (lkKey 2 0)).state ≠ 2
    ∧ (let u := withBody (fun b => { b with links := [(8, { up with lost := [(0, 2)] })] }) on
       tget 0 (getLink (noted port2 (fresh u.dev)) (lkKey 2 0)).lost 0 ≠ 0)
    ∧ (pkt 7 8).kind.toNat = 7
    ∧ { remote 0x1000 8 with rsv := 1 }.rsv ≠ 0 := by decide
theorem witness_routerWrites :
    let off : CtlOff := BitVec.ofNat _ (planOff 2 0 0)
    let s := withJob 0 runsJob on
    (routerMask off.toNat).isSome = true ∧ routerMay on.dev off.toNat 2 = true ∧ anyDeal on.dev = false ∧ anyDeal s.dev = true
    ∧ routerMay s.dev off.toNat 5 = true ∧ routerMay s.dev off.toNat 1 = false := by decide
theorem witness_routerWrites_may : MgmtWrite on (.core 0) (planOff 2 0 0) ∧ MgmtWrite (withJob 0 runsJob on) (.core 0) (planOff 2 0 0) :=
  ⟨⟨⟨rfl, _, _, rfl⟩, rfl⟩, ⟨⟨rfl, _, _, rfl⟩, rfl⟩⟩

theorem test_link_trains_at_width_8 :
    let x := getLink (after (.linkTrain 2 0 (train 255 32)) (linked { LinkSt.z with state := 1 })).dev 8
    x.state = 2 ∧ x.gen = 1 ∧ x.width = 1 ∧ x.lanes = 255 := by decide
theorem test_colliding_requests_take_the_smaller_width :
    (getLink (after (.width 2 0 3) (linked { up with asked := some (true, 1) })).dev 8).agreed = some (true, 3) := by decide
theorem test_remote_write_lands :
    readNat (after (.channelDequeue 0 [.clean]) (after (.write port2 { remote 0 8 with payload := leBytes 8 77 }) granting)).dev 0 8 = 77 := by decide
theorem test_refused_read_answered_with_a_status :
    let s := after (.read port2 { remote 0x1000 0 with arg := 8 }) child
    ((List.range 6).flatMap (fun p => (getPort s.dev p).openq)).map (fun x => (x.kind, x.pkt.status, x.pkt.tag)) = [(.completion, 2, 9)] := by decide

/-! ## Collective operations (R240 to R265) -/

/-- A suit of one member, this device's partition 0, on position 2, with one start point. -/
def suit3 : Suit := ⟨3, [0], 0, 2, 0, 1, 64, 0, 0, [⟨0, 0, 5⟩], 4, 1, 0x1000⟩
def suitJob (x : Suit) : Job := { runsJob with deal := { Deal.z with suits := [x], prologue := 1, runaddr := 0x8000 } }
/-- A running job with a suit, its run-time state, and a descriptor at its queue's first place. -/
def suited (x : Suit) (u : SuitRun) (desc : List Byte) : State :=
  withBody (fun b => { b with suits := [(3, u)] }) (withBytes 0x1000 desc (withJob 0 (suitJob x) (withPart 0 0 child)))
/-- A descriptor of one row of 4 bytes, or of one block. -/
def coBytes64 (op len rowbytes : Nat) : List Byte :=
  leBytes 4 op ++ leBytes 4 len ++ leBytes 4 1 ++ leBytes 4 rowbytes ++ leBytes 8 0x6000 ++ leBytes 8 0x2000 ++ leBytes 8 0x3000 ++ leBytes 8 0x4000
    ++ List.replicate 16 0
/-- A request of 64 bytes waits for a channel. -/
def queuedAt (a : Nat) : State → State := withDev (modChan 0 (fun y => { y with q := [creq a false] }))
/-- Nothing comes from other devices or the host. -/
def noFar : FarIn := ⟨0, [], []⟩
def waits : SuitRun := { SuitRun.z with waiting := [5], db := 1 }

theorem witness_startPoint :
    let s := suited suit3 SuitRun.z []
    (suitOf s.dev 0 3 = some suit3 ∧ suit3.starts[0]? = some ⟨0, 0, 5⟩ ∧ jobRuns s.dev 0 = true
      ∧ recursAt (getJob s.dev 0).deal 0 (getJob s.dev 0).cursor = true ∧ 48 * 0 ≤ s.dev.time.phase
      ∧ (getSuit s.dev 0 3).failed = false ∧ tget 0 (getJob s.dev 0).fired (startKey 3 0) ≠ (getJob s.dev 0).cursor + 1) := by decide
theorem witness_collectiveStart (db : Nat) (h : db ∈ [0, 1, 1025]) :
    let s := suited suit3 { waits with db := db } (coBytes64 5 1 4)
    ownerOf s.dev (2 / 8) = some 0 ∧ jobRuns s.dev 0 = true ∧ getPos s.dev 2 = none ∧ waitingSuit s.dev 0 2 = some suit3
    ∧ (getSuit s.dev 0 3).failed = false ∧ (getSuit s.dev 0 3).db = db ∧ suit3.policy % 2 = 0
    ∧ (let l := coBytes64 5 1 4
       readBytes s.dev (gOff 0x1000) 64 = l
       ∧ firstBad [coStartStatus s.dev noFar 0 suit3 l (coDescOf l), coFarStatus s.dev noFar (coStartReads s.dev noFar 0 suit3 0x1000 l (coDescOf l))] = 0
       ∧ coReady s.dev noFar (coStartReads s.dev noFar 0 suit3 0x1000 l (coDescOf l)) = true
       ∧ coReady (queuedAt 0x1000 s).dev noFar (coStartReads (queuedAt 0x1000 s).dev noFar 0 suit3 0x1000 l (coDescOf l)) = false) := by
  simp only [List.mem_cons, List.not_mem_nil, or_false] at h
  rcases h with rfl | rfl | rfl <;> decide
theorem witness_collectiveStart_none :
    (let s := suited suit3 { waits with failed := true } []
     waitingSuit s.dev 0 2 = some suit3 ∧ (getSuit s.dev 0 3).failed = true)
    ∧ waitingSuit (suited suit3 SuitRun.z []).dev 0 2 = none := by decide
theorem witness_collectiveStart_zero :
    waitingSuit (suited { suit3 with policy := 1 } { waits with db := 0 } []).dev 0 2 = some { suit3 with policy := 1 } := by decide

/-- An operation on position 2. -/
def coOp (op len rowbytes phase : Nat) (rx : List CoRx) : CoRun :=
  ⟨0, 3, 0x1000, coDescOf (coBytes64 op len rowbytes), false, 5, phase, 0, 0, rx, 0, 0, false, 1, [], 0⟩
def operating (r : CoRun) : State := withBody (fun b => { b with positions := [(2, some r)] }) (suited suit3 SuitRun.z (coBytes64 r.desc.op r.desc.len r.desc.rowbytes))
/-- The preamble, counts, sums and row that rank 0 sent. -/
def heard0 (op len rowbytes : Nat) : CoRx := ⟨0, 0, 0, 0, coPreamble suit3 0 (coDescOf (coBytes64 op len rowbytes)) false, 0⟩
def counts0 : CoRx := ⟨0, 1, 0, 0, leBytes 4 1, 0⟩
def sums0 : CoRx := ⟨0, 3, 0, 0, List.replicate 128 0, 0⟩
def row0 : CoRx := ⟨0, 7, 0, 0, [1, 2, 3, 4], 0⟩

theorem witness_combining (op : Nat) (h : op = 1 ∨ op = 2 ∨ op = 3) :
    CoGoes (operating (coOp op 32 0 1 [])) 2 op (coOp op 32 0 1 []) suit3
    ∧ (0 ∈ ranksOf suit3 ∧ coHeard (coOp op 32 0 1 []) 0 = false)
    ∧ (let r := coOp op 32 0 1 [heard0 op 32 0, ⟨0, 2, 0, 0, [0], 0⟩]
       let s := operating r
       CoGoes s 2 op r suit3 ∧ (ranksOf suit3).all (coHeard r) = true ∧ coAll r (groupOf suit3 0) 2 (coChunkEnd suit3 r.desc 0) = true
       ∧ firstBad [coReadStatus s.dev noFar 0 r.desc, coFarStatus s.dev noFar (coLists suit3 r.desc ++ coChunkReads s.dev noFar r.desc 0 1)] = 0
       ∧ coReady s.dev noFar (coLists suit3 r.desc ++ coChunkReads s.dev noFar r.desc 0 1) = true
       ∧ coReady (queuedAt 0x6000 s).dev noFar (coLists suit3 r.desc ++ coChunkReads s.dev noFar r.desc 0 1) = false
       ∧ coReadStatus s.dev noFar 0 { r.desc with src := Config.gddrBase + 0x1000000000 } ≠ 0)
    ∧ CoGoes (operating (coOp op 32 0 2 [sums0])) 2 op (coOp op 32 0 2 [sums0]) suit3
    ∧ coSum (coOp op 32 0 2 [sums0]).desc = true
    ∧ coAll (coOp op 32 0 2 [sums0]) (groupOf suit3 0) 3 (128 * coChunkEnd suit3 (coOp op 32 0 2 [sums0]).desc 0) = true
    ∧ (∀ k, k ∈ leadersOf suit3 → k ∈ groupOf suit3 0) ∧ coBlocks (coOp op 32 0 2 [sums0]).desc ≤ coChunkEnd suit3 (coOp op 32 0 2 [sums0]).desc 0
    ∧ (let r := coOp op 32 0 2 [sums0]
       let s := operating r
       coDstStatus s.dev 0 suit3 r.desc 0 = 0 ∧ coDstStatus s.dev 0 suit3 { r.desc with dst := Config.gddrBase + 0x1000000000 } 0 ≠ 0
       ∧ (coOwnBlocks suit3 r.desc 0 0 1).any (fun b => putWaits s.dev (coBlockAddr suit3 r.desc 0 b) (coResultSize r.desc)) = false
       ∧ (coOwnBlocks suit3 r.desc 0 0 1).any (fun b => putWaits (queuedAt 0x2000 s).dev (coBlockAddr suit3 r.desc 0 b) (coResultSize r.desc)) = true) := by
  unfold CoGoes Powered
  rcases h with rfl | rfl | rfl <;> decide +kernel
/-- A suit of two members on two devices, whose level-1 groups differ; and a MAX in place of a SUM. -/
def suitFar : Suit := { suit3 with members := [0, 256 * 2 + 0] }
theorem witness_combining_far :
    let r := coOp 1 32 0 2 [sums0]
    let u := { coOp 1 32 0 3 [⟨1, 4, 0, 0, [0], 0⟩] with sub := 0 }
    let v := { coOp 1 32 0 3 [⟨1, 5, 0, 0, List.replicate 64 0, 0⟩] with sub := 1 }
    (leadersOf suitFar).filter (fun k => !(groupOf suitFar 0).contains k) = [1]
    ∧ coAll r (groupOf suitFar 0) 3 (128 * coChunkEnd suitFar r.desc 0) = true
    ∧ coChunkEnd suitFar u.desc 0 ≤ (coBytes u 1 4).length ∧ 64 * coChunkEnd suitFar v.desc 0 ≤ (coBytes v 1 5).length
    ∧ coSum { r.desc with fmt := 4 } = false := by decide
theorem witness_orderFree :
    let r := coOp 1 32 0 2 [sums0, heard0 1 32 0]
    let r' := coOp 1 32 0 2 [heard0 1 32 0, sums0]
    r' = { r with rx := r'.rx } ∧ coFrom r 0 3 = coFrom r' 0 3 ∧ coFrom r 0 0 = coFrom r' 0 0 := by decide
theorem witness_collectiveNop :
    coAt (operating (coOp 0 1 0 1 [heard0 0 1 0])).dev 2 = some (coOp 0 1 0 1 [heard0 0 1 0], suit3)
    ∧ jobRuns (operating (coOp 0 1 0 1 [])).dev 0 = true ∧ coHeard (coOp 0 1 0 1 [heard0 0 1 0]) 0 = true ∧ coHeard (coOp 0 1 0 1 []) 0 = false := by decide
theorem witness_rowWaits (op : Nat) (h : op = 4 ∨ op = 5 ∨ op = 6 ∨ op = 7 ∨ op = 8 ∨ op = 9 ∨ op = 10) :
    let r := coOp op 1 4 1 []
    let u := coOp op 1 4 2 [heard0 op 1 4, counts0]
    (CoRuns (operating r) 2 op r suit3 ∧ 0 ∈ coSources suit3 r.desc 0 ∧ coHeard r 0 = false)
    ∧ CoRuns (operating u) 2 op u suit3
    ∧ (∃ y, y ∈ coRowsIn (operating u).dev noFar u suit3 0 ∧ coRowHere u y.rank y.row = false) := by
  unfold CoRuns CoGoes Powered
  rcases h with rfl | rfl | rfl | rfl | rfl | rfl | rfl <;> exact ⟨by decide, by decide, ⟨0, 0, 0⟩, by decide, by decide⟩
/-- A GATHERV whose empty member of rank 1 does not know its parameters. -/
theorem witness_rowTells :
    let r := coOp 6 1 4 1 [⟨1, 0, 0, 0, coPreamble suitFar 1 coDescZ true, 0⟩]
    let s := withBody (fun b => { b with positions := [(2, some r)] }) (suited suitFar SuitRun.z [])
    CoGoes s 2 6 r suitFar ∧ untold s.dev r suitFar = [1] := by
  unfold CoGoes Powered; decide
theorem witness_rowSends (op : Nat) (h : op = 4 ∨ op = 5 ∨ op = 6 ∨ op = 7 ∨ op = 8 ∨ op = 9 ∨ op = 10) :
    let r := coOp op 1 4 1 [heard0 op 1 4, counts0]
    let s := operating r
    coHeard r 0 = true ∧ coAll r (coSources suit3 r.desc 0) 1 (4 * coExchangeN suit3 r.desc) = true ∧ r.empty = false
    ∧ coRowReadStatus s.dev noFar 0 suit3 r.desc (coRowsOut s.dev noFar suit3 r.desc 0) = 0
    ∧ coRowReadStatus s.dev noFar 0 suit3 { r.desc with auxa := Config.gddrBase + 0x1000000000, src := Config.gddrBase + 0x1000000000 }
        (coRowsOut s.dev noFar suit3 r.desc 0) ≠ 0
    ∧ coReady s.dev noFar (coRowReads suit3 r.desc (coRowsOut s.dev noFar suit3 r.desc 0)) = true
    ∧ coReady (queuedAt 0x3000 (queuedAt 0x6000 s)).dev noFar [(0x3000, 4)] = false := by
  rcases h with rfl | rfl | rfl | rfl | rfl | rfl | rfl <;> decide +kernel
theorem witness_rowWrites (op : Nat) (h : op = 4 ∨ op = 5 ∨ op = 6 ∨ op = 7 ∨ op = 8 ∨ op = 9 ∨ op = 10) :
    let r := coOp op 1 4 2 [heard0 op 1 4, counts0, row0]
    let s := operating r
    let rows := coRowsIn s.dev noFar r suit3 0
    (∀ y, y ∈ rows → coRowHere r y.rank y.row = true) ∧ rows ≠ []
    ∧ coWriteStatus s.dev 0 r.desc (coRowsKept r.desc rows) (coSideWrites r suit3 0 rows) = 0
    ∧ coWriteStatus s.dev 0 { r.desc with dst := Config.gddrBase + 0x1000000000 } (coRowsKept r.desc rows) [] ≠ 0
    ∧ (coRowWrites r (coSideWrites r suit3 0 rows) (coRowsKept r.desc rows)).any (fun p => putWaits s.dev p.1 p.2.1.length) = false
    ∧ (coRowWrites r (coSideWrites r suit3 0 rows) (coRowsKept r.desc rows)).any (fun p => putWaits (queuedAt 0x2000 s).dev p.1 p.2.1.length) = true := by
  rcases h with rfl | rfl | rfl | rfl | rfl | rfl | rfl <;> decide +kernel
theorem witness_collectivePacket :
    let k : Nat → Packet := fun g => { remote 0x1000 4 with src := 0, arg := BitVec.ofNat 64 g }
    let s := suited suit3 SuitRun.z []
    (Arrives s port2 (k (2 ^ 62)) ∧ ForMe s port2 (k (2 ^ 62))) ∧ suitParts s.dev 3 0 0 = [0] ∧ suitOf s.dev 0 3 = some suit3
    ∧ (Arrives s port2 { k 3 with status := 1, tag := 0 } ∧ ForMe s port2 { k 3 with status := 1, tag := 0 })
    ∧ memEighth (getAt 0 suit3.members 0) = 0 ∧ (coOp 5 1 4 1 []).done = false
    ∧ (getSuit s.dev 0 3).failed = false ∧ getPos s.dev 2 = none
    ∧ getPos (operating (coOp 5 1 4 1 [])).dev 2 = some (coOp 5 1 4 1 []) ∧ coEarly suit3 0 SuitRun.z (some (coOp 5 1 4 1 [])) counts0 = false
    ∧ coUnlearned (coOp 5 1 4 1 []) = false := by
  unfold Arrives ForMe Powered; decide
theorem witness_collectiveEnds (st : Nat) (h : st = 1 ∨ st = 2) :
    let r := { coOp 5 1 4 4 [] with done := true, status := st }
    getPos (operating r).dev 2 = some r ∧ r.done = true ∧ r.out = 0 ∧ jobRuns (operating r).dev 0 = true
    ∧ getPos (operating { coOp 5 1 4 4 [] with out := 1, done := true, status := 1 }).dev 2 ≠ none := by
  rcases h with rfl | rfl <;> decide

theorem test_start_takes_a_count :
    let s := after (.collectiveStart ⟨2, noFar⟩) (suited suit3 waits (coBytes64 5 1 4))
    (getSuit s.dev 0 3).db = 0 ∧ (getSuit s.dev 0 3).started = 1 ∧ (getPos s.dev 2).map (fun r => (r.desc.op, r.index)) = some (5, 5) := by decide +kernel
theorem test_allgather_writes_its_row :
    readNat (after (.allgather ⟨2, noFar⟩) (operating (coOp 5 1 4 2 [heard0 5 1 4, row0]))).dev 0x2000 4 = 0x04030201 := by decide +kernel
theorem test_failed_operation_stops_its_suit :
    let s := after (.collectiveComplete 2) (operating { coOp 5 1 4 4 [] with done := true, status := 2 })
    (getSuit s.dev 0 3).failed = true ∧ (getJob s.dev 0).why = 5 := by decide

/-! ## The input engine (R285 to R298) -/

/-- Queue 0 of half 0 as given, in the partition of the first eighth with a job, its commands at 0x1000. -/
def inputs (x : InQ) (j : Job) (cmd : List Byte) : State :=
  withDev (modInq 0 0 (fun _ => x)) (withBytes 0x1000 cmd (withCtl (inOff 0 0 0) 0x1000 (withCtl (inOff 0 0 8) 0x181 (withJob 0 j (withPart 0 0 (atTime 100 0 on))))))
def tokCmd (op nsamp : Nat) : List Byte :=
  leBytes 8 op ++ leBytes 8 0 ++ leBytes 8 0 ++ leBytes 8 0x2000 ++ leBytes 8 0x3000 ++ leBytes 4 nsamp ++ leBytes 4 2 ++ leBytes 4 4 ++ leBytes 4 9
    ++ leBytes 8 0x4000
def imgBytes (fmt : Nat) : List Byte :=
  leBytes 8 2 ++ leBytes 8 0 ++ leBytes 8 0 ++ leBytes 8 0x2000 ++ leBytes 8 0x3000 ++ leBytes 2 1 ++ leBytes 2 1 ++ leBytes 2 14 ++ leBytes 2 14
    ++ leBytes 8 fmt ++ leBytes 8 0x4000
def inRunOf (op : Nat) : InRun := ⟨0x1000, op, 0, 0, 0, 0, 0, false, 0⟩
def enabled : InQ := { InQ.z with en := true, dict := 2, db := 1 }

theorem witness_inputStart :
    let s := inputs enabled Job.z (tokCmd 1 0)
    let x := getInq s.dev 0 0
    x.en = true ∧ x.ovr = false ∧ x.run = none ∧ x.db ≠ 0 ∧ inSlotFree s.dev 0 0 = true
    ∧ inSlotFree (queuedAt 0x1000 s).dev 0 0 = false := by decide
theorem witness_inputDeadline :
    let r := { inRunOf 1 with deadline := 3 }
    let s := inputs { enabled with run := some r } { runsJob with cursor := 3 } []
    let u := inputs { enabled with run := some r } { runsJob with cursor := 2 } []
    (getInq s.dev 0 0).run = some r ∧ s.dev.time.phase < 48 ∧ r.deadline ≤ (getJob s.dev 0).cursor ∧ bitAt r.flags 1 = false
    ∧ r.deadline ≠ 0 ∧ (getJob s.dev 0).loaded = true ∧ (getJob s.dev 0).started = true ∧ ownerOf s.dev 0 = some 0
    ∧ (getJob u.dev 0).cursor < r.deadline := by decide
theorem witness_inputComplete (st : Nat) (h : st = 1 ∨ st = 2) :
    let r := { inRunOf 1 with done := true, status := st }
    (getInq (inputs { enabled with run := some r } Job.z []).dev 0 0).run = some r ∧ r.done = true := by
  rcases h with rfl | rfl <;> decide
theorem witness_inQcfg :
    let s := inputs InQ.z Job.z []
    let u := inputs { enabled with run := some (inRunOf 1) } Job.z []
    (MgmtWrite s (.core 0) (inOff 0 0 8) ∧ bits (0x181#32).toNat 7 1 ≤ 96 ∧ 96 < bits (0x1C3#32).toNat 7 1 ∧ (0x181#32).toNat.testBit 0 = true ∧ (getInq s.dev 0 0).en = false
      ∧ bits (0x181#32).toNat 9 8 ≠ 0 ∧ bits (0x81#32).toNat 9 8 = 0)
    ∧ (MgmtWrite u (.core 0) (inOff 0 0 8) ∧ (0x180#32).toNat.testBit 0 = false ∧ (getInq u.dev 0 0).en = true
      ∧ (0x180#32).toNat % 2 ^ 10 / 2 = inCfg u.dev 0 0 / 2 ∧ (0x100#32).toNat % 2 ^ 10 / 2 ≠ inCfg u.dev 0 0 / 2) :=
  ⟨⟨⟨⟨rfl, _, _, rfl⟩, rfl⟩, by decide, by decide, by decide, by decide, by decide, by decide⟩,
    ⟨⟨⟨rfl, _, _, rfl⟩, rfl⟩, by decide, by decide, by decide, by decide⟩⟩
/-- A dictionary of one entry, the two bytes 97 and 98, of token 7, with byte tokens from 256. -/
def dictOf : Tbl Word := [(0, 0x54444C4A), (1, 1), (2, 256), (3, 44), (8, 0x01000028), (9, 7), (10, 0x6261)]
theorem witness_dictionary :
    let s := withBody (fun b => { b with dict := dictOf }) (inputs { enabled with dict := 1 } Job.z [])
    (getInq s.dev 0 0).dict = 1 ∧ dictCheck s.dev 0 0 = 0 ∧ dictCheck (inputs { enabled with dict := 1 } Job.z []).dev 0 0 ≠ 0 := by decide
/-- A command in progress. -/
def inputting (x : InQ) (op : Nat) (cmd : List Byte) : State := inputs { x with run := some (inRunOf op) } Job.z cmd
/-- No bytes of the host. -/
def noHost : HostBytes := ⟨[], []⟩
/-- A TOKENISE of one sample, the two bytes of an entry of the list at 0x3000. -/
def tokSampled : State := withBytes 0x3000 (leBytes 8 0x5000 ++ leBytes 4 2) (inputting enabled 1 (tokCmd 1 1))
theorem witness_tokenise :
    let s := inputting enabled 1 (tokCmd 1 0)
    let st := fun (s : State) => inFirst [inFlagStatus s.dev 0 0 0, inWriteStatus s.dev 0 0 0x2000 32, inWriteStatus s.dev 0 0 0x4000 8]
    inRun s.dev 0 0 1 = some (inRunOf 1, tokCmd 1 0) ∧ inTurn s.dev 4 0 0 1 = true ∧ inRun s.dev 0 0 2 = none
    ∧ tokBad s.dev 0 0 (tokCmd 1 0) = false ∧ tokBad s.dev 0 0 (tokCmd 1 3) = true ∧ (getInq s.dev 0 0).dict = 2
    ∧ (getInq (inputting { enabled with dict := 3 } 1 (tokCmd 1 0)).dev 0 0).dict ≠ 2
    ∧ st s = 1 ∧ st (queuedAt 0x2000 s) = 0 ∧ inFlagStatus s.dev 0 0 4 = 2 := by decide
theorem witness_tokenise_sample :
    let s := tokSampled
    let e := tokEntry s.dev 0 0 noHost 0x3000 0
    inRun s.dev 0 0 1 = some (inRunOf 1, tokCmd 1 1) ∧ inTurn s.dev 4 0 0 1 = true ∧ tokBad s.dev 0 0 (tokCmd 1 1) = false
    ∧ e = (1, 0x5000, 2) ∧ (inRead s.dev 0 0 noHost 0x5000 2).1 = 1
    ∧ (tokEntry (queuedAt 0x3000 s).dev 0 0 noHost 0x3000 0).1 = 0 ∧ (inRead (queuedAt 0x5000 s).dev 0 0 noHost 0x5000 2).1 = 0
    ∧ (tokEntry (withBytes 0x300C [1] s).dev 0 0 noHost 0x3000 0).1 = 2
    ∧ (inRead s.dev 0 0 noHost Config.flashBase 2).1 = 2
    ∧ leAt (tokCmd 1 1) 40 4 ≤ (inRunOf 1).next + 1 ∧ (inRunOf 1).next + 1 < leAt (tokCmd 1 2) 40 4 := by decide
theorem witness_image :
    let s := inputting enabled 2 (imgBytes 0)
    let par := leBytes 64 0 ++ leBytes 12 0 ++ leBytes 4 1 ++ leBytes 48 0
    inRun s.dev 0 0 2 = some (inRunOf 2, imgBytes 0) ∧ inTurn s.dev 6 0 0 2 = true ∧ inRun s.dev 0 0 1 = none
    ∧ imgBad s.dev 0 0 (imgBytes 0) = false ∧ imgBad s.dev 0 0 (imgBytes 3) = true
    ∧ (inRead s.dev 0 0 noHost 0x4000 128).1 = 1 ∧ (inRead (queuedAt 0x4000 s).dev 0 0 noHost 0x4000 128).1 = 0
    ∧ (inRead s.dev 0 0 noHost Config.flashBase 128).1 = 2
    ∧ imgParBad (imgCmd (imgBytes 0) par) = false ∧ imgParBad (imgCmd (imgBytes 0) []) = true
    ∧ imgMesh (imgCmd (imgBytes 0) par) = 0
    ∧ (inRead s.dev 0 0 noHost 0x3000 1).1 = 1 ∧ inWriteStatus s.dev 0 0 0x2000 (14 * 14 * 2) = 1
    ∧ inWriteStatus (queuedAt 0x2000 s).dev 0 0 0x2000 (14 * 14 * 2) = 0 ∧ inWriteStatus s.dev 0 0 Config.flashBase 8 = 2 := by decide

theorem test_longest_entry : longest [([97], 1), ([97, 98], 7), ([98], 3)] [97, 98, 99] = some (2, 7) := by decide
theorem test_tokens_of_a_sample : tokens [([97, 98], 7)] 256 5 [97, 98, 97, 0] = [7, 353, 256] := by decide
theorem test_disable_abandons :
    ((getInq (after (.inQcfgDisable (.core 0) 0 0 0x180) (inputs { enabled with run := some (inRunOf 1) } Job.z [])).dev 0 0).run).map
      (fun r => (r.status, r.done)) = some (6, true) := by decide

/-! ## The host link (R299 to R320) -/

/-- The host link up with CXL, its function ready, partition 0 named by the window and the HDM range, an OUTBOUND entry and an
INBOUND one. -/
def hosted : State :=
  withBody (fun b => { b with hl := { b.hl with
      rate := 5, width := 3, proto := 1, perst := true, ready := true
      regions := [(0, some ⟨2, 0, 0, 0x40000000, 0x100000, 5, none⟩), (1, some ⟨1, 0, 0, 0, 0x10000, 7, none⟩)] } })
    (withCtl (hlOff 0x4C) 8 (withCtl (hlOff 0x60) 8 (withPart 0 0 (atTime 100 0 on))))
def withHl (f : HlSt → HlSt) : State → State := withBody (fun b => { b with hl := f b.hl })
/-- A command of queue 0 in its first slot: operation, length, device offset, host offset, region number, kind, use. -/
def hostCmd (op len doff hoff region kind use : Nat) : List Byte :=
  leBytes 4 op ++ leBytes 4 len ++ leBytes 8 doff ++ leBytes 8 hoff ++ leBytes 8 0x50000000 ++ leBytes 2 region ++ leBytes 1 kind ++ leBytes 1 use
    ++ leBytes 28 0 ++ List.replicate 448 0
def commanded (cmd : List Byte) : State := withCtl (cqTail 0) 1 (withHl (fun y => { y with slots := [(0, cmd)] }) hosted)
/-- A command in progress, of which n bytes or pages are done. -/
def running (cmd : List Byte) (n : Nat) : State := withHl (fun y => { y with runs := [(0, some ⟨0, 0, n⟩)] }) (commanded cmd)

theorem witness_hostLink :
    let s := withHl (fun y => { y with perst := true }) (withBody (fun b => { b with board := { b.board with hostItem := 0x7E } }) on)
    (s.dev.body.hl.perst = true ∧ s.dev.body.bt.acts.any (fun a => a.kind == 5) = false ∧ min 5 (bits (hostItem s.dev) 2 0) ≠ 0 ∧ min 3 (bits (hostItem s.dev) 4 3) ≠ 0)
    ∧ min 0 (bits (hostItem s.dev) 2 0) = 0 ∧ hosted.dev.body.hl.rate ≠ 0 ∧ hosted.dev.body.hl.ready = true
    ∧ (withHl (fun y => { y with ready := false }) hosted).dev.body.hl.ready = false ∧ hosted.dev.power.phase ≠ 6 := by decide
theorem witness_winBase : Passes hosted (.core 0) (hlOff 0x50) 8 true := ⟨rfl, _, _, rfl⟩
theorem witness_window (off : BitVec 36) (h : off = 0 ∨ off = BitVec.ofNat 36 (2 ^ 36 - 8)) :
    hostUp (fresh hosted.dev) = true ∧ 0 < accessLen 8 none ∧ namedPart hosted.dev (hlOff 0x4C) = some 0
    ∧ off.toNat + accessLen 8 none ≤ 2 ^ 36
    ∧ ownedRange hosted.dev 0 (ctlPair hosted.dev (hlOff 0x50) + off.toNat) 8 permR = decide (off = 0)
    ∧ winUsed hosted.dev + (granules 256 9 0 8).length ≤ 256
    ∧ 256 < winUsed (withHl (fun y => { y with windows := [(0, some ⟨none, 0, 65536, false, (List.range 256).map (fun k => (k, 1)), [], []⟩)] }) hosted).dev
        + (granules 256 9 0 8).length := by
  rcases h with rfl | rfl <;> decide
theorem witness_window_refused : namedPart on.dev (hlOff 0x4C) = none ∧ 2 ^ 36 < (BitVec.ofNat 36 (2 ^ 36 - 4)).toNat + accessLen 8 none := by decide
theorem witness_bar4 :
    (inboundEntry hosted.dev 0x1000 8).map (fun x => (x.1, x.2.doff + (0x1000 - x.2.hoff), bitAt x.2.use 0)) = some (1, 0x1000, true)
    ∧ checkLocal hosted.dev (ownerOf hosted.dev (1 / 512)) (myDev hosted.dev) 0x1000 8 permR = .ok
    ∧ inboundEntry hosted.dev 0x10000 8 = none := by decide
theorem witness_hdm :
    hosted.dev.body.hl.proto ≠ 0 ∧ inHdm hosted.dev 0x1000 = true ∧ inHdm hosted.dev (0x1000 + 8 - 1) = true
    ∧ checkLocal hosted.dev (namedPart hosted.dev (hlOff 0x60)) (myDev hosted.dev) 0x1000 8 permW = .ok
    ∧ inHdm hosted.dev (2 ^ 36 - 8) = false
    ∧ (blocksOf 0x1000 8).any (flipping (autoFlip 0x1000 8 (fresh hosted.dev))) = false
    ∧ (let s := queuedAt 0x1000 hosted
       (blocksOf 0x1000 8).any (flipping (autoFlip 0x1000 8 (fresh s.dev))) = true) := by decide
theorem witness_bias (p : Nat) (h : p = 1 ∨ p = 2) :
    let s := withHl (fun y => { y with bias := [1], proto := p }) hosted
    hostBias s.dev 0x1000 = true ∧ inHdm s.dev 0x1000 = true ∧ flipping s.dev 0x1000 = false ∧ s.dev.body.hl.proto = p ∧ hostBias s.dev 0x2000 = false := by
  rcases h with rfl | rfl <;> decide
theorem witness_cqTail : Powered hosted ∧ Passes hosted .host (cqTail 0) 4 true
    ∧ (32 + 2 ^ 32 - ctlNat hosted.dev (cqHead 0)) % 2 ^ 32 ≤ 32 ∧ 32 < (33 + 2 ^ 32 - ctlNat hosted.dev (cqHead 0)) % 2 ^ 32 :=
  ⟨rfl, ⟨rfl, _, _, rfl⟩, by decide, by decide⟩
/-- The host writes a command slot before the tail. -/
theorem witness_cqTail_bar0 :
    let e := bar0Access (.write 0x100000 [1]) (fresh hosted.dev)
    hostUp (fresh hosted.dev) = true ∧ coreHalted e .host = false ∧ (∃ p o, gate e .host (cqTail 0) 4 true = .page p o)
    ∧ bar0Mapped 0x100000 1 = true ∧ bar0Mapped 0xF00000 1 = false := ⟨by decide, by decide, ⟨_, _, rfl⟩, by decide, by decide⟩
theorem witness_hostNext (op len doff kind use : Nat)
    (h : (op, len, doff, kind, use) ∈ [(0, 0, 0, 0, 0), (1, 8, 0x1000, 0, 0), (1, 3, 0, 0, 0), (2, 64, 0x1000, 0, 0), (2, 8, 0, 0, 0), (3, 4096, 0x1000, 1, 7),
      (4, 0, 0, 0, 0), (5, 4096, 0x1000, 1, 0), (5, 8, 0, 1, 0)]) :
    HostNext (commanded (hostCmd op len doff 0 1 kind use)) 0 0 0 (hostCmdOf (hostCmd op len doff 0 1 kind use))
    ∧ (hostCmdOf (hostCmd op len doff 0 1 kind use)).op = op ∧ (hostCmdOf (hostCmd op len doff 0 1 kind use)).len = len := by
  unfold HostNext HostFront Powered
  simp only [List.mem_cons, Prod.mk.injEq, List.not_mem_nil, or_false] at h
  rcases h with ⟨rfl, rfl, rfl, rfl, rfl⟩ | ⟨rfl, rfl, rfl, rfl, rfl⟩ | ⟨rfl, rfl, rfl, rfl, rfl⟩ | ⟨rfl, rfl, rfl, rfl, rfl⟩
    | ⟨rfl, rfl, rfl, rfl, rfl⟩ | ⟨rfl, rfl, rfl, rfl, rfl⟩ | ⟨rfl, rfl, rfl, rfl, rfl⟩ | ⟨rfl, rfl, rfl, rfl, rfl⟩ | ⟨rfl, rfl, rfl, rfl, rfl⟩ <;> decide +kernel
theorem witness_hostRefused :
    let s := commanded (hostCmd 9 0 0 0 0 0 0)
    HostFront s 0 0 (hostCmdOf (hostCmd 9 0 0 0 0 0 0)) ∧ cmdStatus s.dev (some 0) (slotBytes512 s.dev 0 0) (hostCmdOf (hostCmd 9 0 0 0 0 0 0)) = 2
    ∧ (let u := withHl (fun y => { y with fences := [(0, [(1, 1)])], windows := [(0, some ⟨none, 0, 4, true, [(0, 1)], [], []⟩)], winNext := 1 }) s
       getRun u.dev 0 = none ∧ fenced u.dev 0 = true) ∧ ctlNat hosted.dev (cqTail 0) = ctlNat hosted.dev (cqHead 0) := by
  unfold HostFront Powered; decide +kernel
theorem witness_hostCopies :
    cmdWriteStatus hosted.dev 0 0x1000 8 = 0 ∧ cmdWriteStatus hosted.dev 0 Config.hostBase 8 ≠ 0
    ∧ unitWaits hosted.dev 0x1000 64 = false ∧ unitWaits (queuedAt 0x1000 hosted).dev 0x1000 64 = true
    ∧ (hostRange hosted.dev (.command 0) (some 0) 0x2000 64 none).1 = 0 ∧ (hostRange hosted.dev (.command 0) (some 0) 0x200000 64 none).1 ≠ 0 := by decide
theorem witness_hostResumes :
    (let s := running (hostCmd 2 64 0x1000 0x2000 0 0 0) 16
     getRun s.dev 0 = some ⟨0, 0, 16⟩ ∧ (hostCmdOf (slotBytes512 s.dev 0 0)).op = 2 ∧ ownerOf s.dev 0 = some 0 ∧ tearing s.dev 0 = false
     ∧ tearing (withDev (modEighth 0 (fun x => { x with scrub := true })) s).dev 0 = true
     ∧ ownerOf (withDev (modEighth 0 (fun x => { x with used := false })) s).dev 0 = none)
    ∧ (∀ n, n = 1 ∨ n = 2 → let s := running (hostCmd 4 0 0 0 n 0 0) 0
       (hostCmdOf (slotBytes512 s.dev 0 0)).op = 4 ∧ (tget none s.dev.body.hl.regions n).isSome = decide (n = 1))
    ∧ (let s := running (hostCmd 5 8192 0x1000 0 0 1 0) 1
       (hostCmdOf (slotBytes512 s.dev 0 0)).op = 5 ∧ ownerOf s.dev 0 = some 0) := by
  refine ⟨by decide +kernel, ?_, by decide +kernel⟩
  rintro n (rfl | rfl) <;> decide +kernel
theorem witness_register :
    let c := hostCmdOf (hostCmd 3 4096 0x1000 0x20000 2 1 7)
    registerBad hosted.dev 0 c = false ∧ c.kind = 1 ∧ c.doff < 2 ^ 49 ∧ ownedRange hosted.dev 0 c.doff c.len permR = true
    ∧ (homeOf hosted.dev c.doff).kind = 1 ∧ registerBad hosted.dev 0 (hostCmdOf (hostCmd 3 4096 0x1000 0x20000 1 1 7)) = true
    ∧ (hostCmdOf (hostCmd 3 4096 0 0x20000 2 1 7)).kind = 1 ∧ ownedRange hosted.dev 0 Config.hostBase 4096 permR = false := by decide
theorem witness_unregister :
    ownRegion hosted.dev 0 0 = true ∧ tget none hosted.dev.body.hl.regions 0 ≠ none ∧ tget none hosted.dev.body.hl.regions 2 = none
    ∧ tget none (freeEntry 0 hosted.dev).body.hl.regions 0 = none
    ∧ (let s := withHl (fun y => { y with posted := [⟨.other, (0x40000000, 0), [0]⟩] }) hosted
       tget none (freeEntry 0 s.dev).body.hl.regions 0 ≠ none) := by decide
theorem witness_biasPages :
    inHdm hosted.dev (2 ^ 36 - 4096) = false ∧ inHdm hosted.dev 0x1000 = true
    ∧ checkLocal hosted.dev (some 0) (myDev hosted.dev) 0x1000 4096 permW = .ok
    ∧ checkLocal hosted.dev (some 1) (myDev hosted.dev) 0x1000 4096 permW ≠ .ok
    ∧ flipping hosted.dev 0x1000 = false ∧ hostBias hosted.dev 0x1000 = false ∧ pageInFlight (queuedAt 0x1000 hosted).dev 0x1000 = true
    ∧ hostBias (withHl (fun y => { y with bias := [1] }) hosted).dev 0x1000 = true ∧ hosted.dev.body.hl.proto ≠ 2 := by decide
theorem witness_msix : msixMasked hosted.dev 3 = true
    ∧ msixMasked (withHl (fun y => { y with msixTab := [(60, 0)] }) hosted).dev 3 = false := by decide
theorem witness_hostComplete (st : Nat) (h : st = 1 ∨ st = 2) :
    let s := withHl (fun y => { y with runs := [(0, some ⟨0, st, 0⟩)] }) (commanded (hostCmd 0x10000 0 0 0 0 0 0))
    getRun s.dev 0 = some ⟨0, st, 0⟩ ∧ bitAt (leAt (slotBytes512 s.dev 0 0) 2 1) 0 = true := by
  rcases h with rfl | rfl <;> decide
/-- Hand 5 of tile 3 waits for a load from the host region. -/
def hostLoads (n : Nat) : State :=
  withHand 3 5 { HandSt.z with state := .stalled, miss := some ⟨.load 1 8 false, Config.hostBase + n, .read 8, false, .pending, 0, 0⟩ } hosted
theorem witness_hostLoad :
    handHostLoad (hostLoads 0x2000).dev 3 5 = some (0x2000, 8) ∧ handHostLoad hosted.dev 3 5 = none
    ∧ (hostAdmits (hostLoads 0x2000).dev (.hand 3 5) (tilePart (hostLoads 0x2000).dev 3) 0 0x2000 8 none).1 = 0
    ∧ handHostLoad (hostLoads 0x200000).dev 3 5 = some (0x200000, 8)
    ∧ (hostAdmits (hostLoads 0x200000).dev (.hand 3 5) (tilePart (hostLoads 0x200000).dev 3) 0 0x200000 8 none).1 ≠ 0 := by decide
/-- Two posted stores of hand 5 of tile 3 to the same bytes of the host region; writes that wait for credit. -/
theorem witness_hostStore :
    let st := fun (n : Nat) => (⟨n, Config.hostBase + 0x2000, .write [7] [], none⟩ : Posted)
    let s := withHand 3 5 { ready [] with posted := [st 1, st 2] } hosted
    let w := withHl (fun y => { y with posted := [⟨.post 3 5 1, (0x40002000, 0), [7]⟩, ⟨.writeBack 0 0x1000, (0, 0), []⟩] }) s
    (getHand s.dev 3 5).posted.find? (fun y => y.id == 1 && y.res.isNone) = some (st 1)
    ∧ storeWaits s.dev (getHand s.dev 3 5).posted (st 1) = false ∧ storeWaits s.dev (getHand s.dev 3 5).posted (st 2) = true
    ∧ hostOffOf s.dev (st 1).addr = some 0x2000 ∧ (hostAdmits s.dev (.post 3 5 1) (some 0) 0 0x2000 1 (some 0)).1 = 0
    ∧ (hostAdmits s.dev (.post 3 5 1) (some 0) 0 0x200000 1 (some 0)).1 ≠ 0
    ∧ w.dev.body.hl.posted.any (fun x => x.who == .post 3 5 1) = true ∧ w.dev.body.hl.posted.any (fun x => sameRequester x.who (.post 3 5 2)) = true
    ∧ s.dev.body.hl.posted = [] ∧ w.dev.body.hl.posted.any (fun x => x.who == .writeBack 0 0x1000) = true ∧ handHostLoad w.dev 3 5 = none := by decide
/-- A stock request to the host region in a stage, and requests of other devices. -/
theorem witness_hostRequests (st : ReqStage) (h : st = .reading ∨ st = .writing) :
    let r := { req0 st with addr := Config.hostBase + 0x2000 }
    let s := withTile 3 (fun x => { x with st := { x.st with reqs := [r] } }) hosted
    reqOf s.dev 3 5 = some r ∧ hostOffOf s.dev r.addr = some 0x2000 ∧ r.stage = st ∧ (∀ z, z ∈ (getSt s.dev 3).reqs → z.id = 5 → z = r)
    ∧ (getSt s.dev 3).reqs.find? (fun z => z.id == 5 && (hostOffOf s.dev z.addr).isSome) = some r := by
  rcases h with rfl | rfl <;> refine ⟨by decide, by decide, rfl, ?_, by decide⟩ <;> intro z hz _ <;>
    exact List.mem_singleton.mp hz
theorem witness_hostServes (k : PKind) :
    let z : Serve := ⟨3, 9, k, none, Config.hostBase + 0x2000, 8, 1, [], [], 0⟩
    let s := withBody (fun b => { b with serves := [(0, some z)] }) hosted
    tget none s.dev.body.serves 0 = some z ∧ homeOf s.dev z.addr = .host 0x2000 := by cases k <;> decide
/-- The first command of the snapshot writer's queue 0, enabled, of an operation, 64 bytes from 0x3000. -/
def wrc (op src hoff : Nat) : List Byte := leBytes 4 op ++ leBytes 4 64 ++ leBytes 8 src ++ leBytes 8 hoff ++ leBytes 8 0
def writing (op use hoff : Nat) : State :=
  withHl (fun y => { y with regions := [(0, some ⟨2, 0, 0, 0x40000000, 0x100000, use, none⟩)] })
    (withBytes 0x1000 (wrc op 0x3000 hoff) (withCtl (wrRing 0).qbase 0x1000 (withCtl (wrRing 0).cfg 3 (withCtl (wrRing 0).tail 1 hosted))))
theorem witness_writer (op : Nat) (h : op = 1 ∨ op = 2) :
    let s := writing op (2 * (op + 1)) 0x2000
    let x := wrCmd (ringCmd s.dev 0x1000) 0x1000
    getWriter s.dev 0 = none ∧ ownerOf s.dev 0 = some 0 ∧ ringNext s.dev 0 (wrRing 0) = some 0x1000
    ∧ wrBad (ringCmd s.dev 0x1000) x = false ∧ x.op = op ∧ writerWaits s.dev x = false ∧ bucketOpen s.dev (wrBucket 0) (wrRate s.dev 0) = true
    ∧ writerWaits (queuedAt 0x3000 s).dev x = true
    ∧ (hostRange s.dev (.writer 0) (some 0) 0x2000 64 (some (op + 1))).1 = 0 ∧ (hostRange s.dev (.writer 0) (some 0) 0x200000 64 (some (op + 1))).1 ≠ 0
    ∧ gDev 0x3000 = myDev s.dev ∧ ownedRange s.dev 0 (gOff 0x3000) 64 permR = true ∧ (homeOf s.dev (gOff 0x3000)).kind = 1
    ∧ poisoned s.dev (gOff 0x3000) 64 = false ∧ ringNext hosted.dev 0 (wrRing 0) = none := by
  rcases h with rfl | rfl <;> decide
theorem witness_writer_bad :
    let s := writing 3 7 0x2000
    ringNext s.dev 0 (wrRing 0) = some 0x1000 ∧ wrBad (ringCmd s.dev 0x1000) (wrCmd (ringCmd s.dev 0x1000) 0x1000) = true := by decide
theorem witness_deadlines :
    let s := withHl (fun y => { y with writers := [(0, some ⟨1, 64, 0x3000, 0x2000, 0, 0x1000, 0, 8⟩)], runs := [(0, some ⟨0, 0, 0⟩)] })
      (withDev (setMover 0 0 (some (mvRun 1 0 0 0))) (commanded (hostCmd 2 64 0x1000 0x2000 0 0 0)))
    (getMover s.dev 0 0).map (fun m => m.status) = some 0 ∧ (getWriter s.dev 0).map (fun w => (w.op, w.status, writerWaits s.dev w)) = some (1, 0, false)
    ∧ (getRun s.dev 0).map (fun r => (r.status, (hostCmdOf (slotBytes512 s.dev 0 r.slot)).op)) = some (0, 2)
    ∧ (let u := withHl (fun y => { y with writers := [(0, some ⟨1, 64, 0x3000, 0x2000, 0, 0x1000, 1, 64⟩)] }) hosted
       (getWriter u.dev 0).map (fun w => (w.status, unitWaits u.dev (gOff w.slot) 32)) = some (1, false)) := by decide

theorem test_window_write :
    let s := after (.hostWindowAccess 0x1000 0 (some (leBytes 4 77))) hosted
    readNat (after (.channelDequeue 16 [.clean]) s).dev 0x1000 4 = 77 := by decide
theorem test_copy_in :
    let s := after (.copyIn 0 (.data (leBytes 64 77))) (commanded (hostCmd 2 64 0x1000 0x2000 0 0 0))
    readNat s.dev 0x1000 4 = 77 ∧ getRun s.dev 0 = some ⟨0, 1, 64⟩ := by decide +kernel
theorem test_snapshot_sends :
    (after (.snapshot 0 .taken) (writing 1 4 0x2000)).dev.body.hl.sent.map (fun w => (w.at_, w.bytes.length)) = [((0x40002000, 0), 64)] := by decide

/-! ## Partitions, life cycle, debug and self-test (R321 to R337, R375 to R387) -/

def withSec (f : SecSt → SecSt) : State → State := withDev (fun d => { d with sec := f d.sec })
/-- The eighth of partition 0 as its teardown goes on, in trick 10,000,000. -/
def tears (scrub gate scrubbing erase : Bool) : State :=
  withDev (modEighth 0 (fun x => { x with scrub := scrub, gate := gate, scrubbing := scrubbing, erase := erase, tearAt := 5 }))
    (atTime 10000000 0 (withPart 0 0 on))
/-- A running activity. -/
def testing (kind unit : Nat) (ab : Bool) : State := withBody (fun b => { b with bt := { b.bt with acts := [⟨kind, unit, 0, ab⟩] } }) on

theorem witness_partReady : PartReady on (.core 0) ∧ PartReady (withPart 0 0 on) (.core 0) := ⟨⟨⟨⟨rfl, _, _, rfl⟩, rfl⟩, rfl, rfl⟩, ⟨⟨⟨rfl, _, _, rfl⟩, rfl⟩, rfl, rfl⟩⟩
theorem witness_partRefused :
    MgmtWrite (withBody (fun b => { b with piBusy := true }) on) (.core 0) (piOff 0x44)
    ∧ MgmtWrite (withBody (fun b => { b with bt := { b.bt with needRst := true } }) on) (.core 0) (piOff 0x44)
    ∧ (withDev (fun d => { d with power := { d.power with phase := 6 } }) on).dev.power.phase ≠ 5 :=
  ⟨⟨⟨rfl, _, _, rfl⟩, rfl⟩, ⟨⟨rfl, _, _, rfl⟩, rfl⟩, by decide⟩
theorem witness_setup :
    let busy := fun (d : Dev) (es : List Nat) => es.any (fun e => let x := getEighth d e; x.used || x.scrubbing || x.scrub)
    (on.dev.body.bt.needRst = false ∧ shapeFits 1 3 = false ∧ shapeFits 1 2 = true ∧ busy on.dev (cmdEighths 1 2) = false
      ∧ on.dev.sec.lc ≠ .scrapped ∧ (cmdEighths 1 2).any (eighthTested on.dev) = false)
    ∧ busy (withPart 0 0 on).dev (cmdEighths 3 0) = true ∧ shapeFits 3 0 = true
    ∧ (withSec (fun x => { x with lc := .scrapped }) on).dev.sec.lc = .scrapped
    ∧ (cmdEighths 1 2).any (eighthTested (testing 2 3 false).dev) = true := by decide
theorem witness_teardown :
    isPart on.dev 0 = false ∧ isPart (withPart 0 0 on).dev 0 = true ∧ (getJob (withPart 0 0 on).dev 0).loaded = false
    ∧ handsRun (withPart 0 0 on).dev 0 = false ∧ handsRun (withHand 3 5 (ready []) (withPart 0 0 on)).dev 0 = true
    ∧ (getJob (withJob 0 runsJob (withPart 0 0 on)).dev 0).loaded = true := by decide +kernel
theorem witness_scrub :
    (isPart (tears true false false false).dev 0 = true ∧ (getEighth (tears true false false false).dev 0).scrub = true
      ∧ (getEighth (tears true false false false).dev 0).gate = false ∧ isPart on.dev 0 = false ∧ (getEighth (tears true false false false).dev 0).tearAt + 1 ≤ 10000000)
    ∧ (isPart (tears true true false false).dev 0 = true ∧ (getEighth (tears true true false false).dev 0).scrubbing = false
      ∧ (getEighth (tears true true false false).dev 0).gate = true ∧ (getEighth (tears true true false false).dev 0).tearAt + 3 ≤ 10000000)
    ∧ (isPart (tears true true true true).dev 0 = true ∧ (getEighth (tears true true true true).dev 0).scrubbing = true
      ∧ (getEighth (tears true true true true).dev 0).tearAt + 3 + scrubTricks (tears true true true true).dev 0
          ≤ (tears true true true true).dev.time.trick) := by decide
theorem witness_lifeCycle :
    lcEdge .blank .provisioned = true ∧ lcEdge .blank .production = false ∧ lcSigned .blank .provisioned .vendor = true
    ∧ lcSigned .blank .provisioned .owner = false ∧ on.dev.sec.next = none ∧ noParts on.dev = true
    ∧ (withSec (fun x => { x with session := true }) on).dev.sec.session = true
    ∧ (let s := withSec (fun x => { x with lc := .return_, owners := [(1, true), (2, true), (3, true)] }) on
       lcEdge s.dev.sec.lc .provisioned = true ∧ s.dev.sec.owners.length < 4)
    ∧ noParts (withPart 0 0 (withSec (fun x => { x with session := true }) on)).dev = false := by decide
theorem witness_unlock :
    let s := withSec (fun x => { x with lc := .production }) on
    s.dev.sec.lc = .production ∧ noParts s.dev = true ∧ noParts (withPart 0 0 s).dev = false
    ∧ (withSec (fun x => { x with lc := .provisioned }) on).dev.sec.lc = .provisioned
    ∧ debugOpen s.dev.sec = false ∧ debugOpen on.dev.sec = true ∧ (getHand on.dev 3 5).state ≠ .debug
    ∧ (getHand (withHand 3 5 { HandSt.z with state := .debug } on).dev 3 5).state = .debug := by decide
theorem witness_attestation :
    (withSec (fun x => { x with lc := .scrapped }) on).dev.sec.lc = .scrapped ∧ on.dev.sec.lc ≠ .scrapped ∧ hostUp (fresh on.dev) = false
    ∧ hostUp (fresh hosted.dev) = true ∧ (withSec (fun x => { x with cert := true, secret := .fused, session := true }) hosted).dev.sec.secret = .fused
    ∧ hosted.dev.sec.cert = false ∧ hosted.dev.sec.session = false ∧ isPart hosted.dev 1 = false := by decide
theorem witness_btStart (kind unit mode code : Nat)
    (h : (kind, unit, mode, code) ∈ [(2, 3, 0, 0), (5, 0, 0, 0), (2, 0, 0, 2), (9, 0, 0, 5), (2, 4, 0, 3)]) :
    btStartCode (withBody (fun b => { b with bt := { b.bt with acts := [⟨2, 4, 0, false⟩] } }) (withPart 0 0 on)).dev kind unit mode = code := by
  simp only [List.mem_cons, Prod.mk.injEq, List.not_mem_nil, or_false] at h
  rcases h with ⟨rfl, rfl, rfl, rfl⟩ | ⟨rfl, rfl, rfl, rfl⟩ | ⟨rfl, rfl, rfl, rfl⟩ | ⟨rfl, rfl, rfl, rfl⟩ | ⟨rfl, rfl, rfl, rfl⟩ <;> decide
theorem witness_btOwners :
    (btOwner (withPart 0 0 on).dev 2 0).isSome = true ∧ (3 < btUnits 2 ∧ btUnits 9 ≤ 0)
    ∧ btDenied (withSec (fun x => { x with lc := .production }) on).dev 2 = true
    ∧ (testing 2 3 false).dev.body.bt.acts.any (fun a => btToken a.kind a.unit == btToken 2 3) = true
    ∧ (testing 2 3 false).dev.body.bt.acts.any (fun a => a.kind == 2 && a.unit == 3) = true
    ∧ on.dev.body.bt.acts.any (fun a => a.kind == 2 && a.unit == 3) = false := by decide
theorem witness_btWrite : MgmtWrite on (.core 0) (regOff 10 0 0x40) := ⟨⟨rfl, _, _, rfl⟩, rfl⟩
theorem witness_serviceToken :
    let s := withSec (fun x => { x with lc := .provisioned, session := true }) on
    s.dev.sec.session = true ∧ s.dev.sec.lc = .provisioned ∧ (0 : Word) = s.dev.body.bt.nonce := by decide
theorem witness_testEnds : on.dev.body.setupWait = none ∧ Testing (testing 2 3 false) 2 3 false ∧ Testing (testing 2 3 true) 2 3 true
    ∧ (let s := withBody (fun b => { b with setupWait := some ⟨3, 0, false⟩ }) (testing 2 3 false)
       s.dev.body.setupWait = some ⟨3, 0, false⟩ ∧ (cmdEighths 0 3).any (eighthTested s.dev) = true ∧ (cmdEighths 0 3).any (eighthTested on.dev) = false)
    ∧ ¬ Testing on 2 3 false ∧ ¬ Testing on 2 3 true ∧ (testing 7 0 false).dev.body.setupWait = none ∧ Testing (testing 7 0 false) 7 0 false := by
  unfold Testing; decide

theorem test_setup_makes_a_half :
    let s := after (.setup (.core 0) 4 2 false) on
    (List.range 8).map (fun e => (getEighth s.dev e).used) = [false, false, false, false, true, true, true, true] := by decide +kernel
theorem test_teardown_of_no_partition : (after (.teardown (.core 0) 0 false) on).dev.body.piCode = 3 := by decide
theorem test_production_counts_an_owner :
    let s := after (.lcTransitionRequest .production ⟨.vendor, 7⟩) (withSec (fun x => { x with lc := .provisioned, session := true }) on)
    (sampleLife s.dev).sec.owners = [(7, false)] := by decide
theorem test_abort_of_a_resting_test : (after (.btAbort (.core 0) 2 3) on).dev.body.bt.code = 7 := by decide

/-! ## Power, reset and start-up (R349 to R374, R417 to R421) -/

def withPower (f : PowerSt → PowerSt) : State → State := withDev (fun d => { d with power := f d.power })
/-- Inputs of a start-up: both halves' claims, a working sideband, and whether the Emfen images verify. -/
def boot (east west side emfen : Bool) : BootIn := ⟨east, west, 0, side, false, emfen, emfen⟩

theorem witness_limiter :
    Powered on ∧ Safety.DutyOk on
    ∧ (let l := (20000 :: (withPower (fun p => { p with samples := List.replicate 16 19000 }) on).dev.power.samples).take 16
       l.length = 16)
    ∧ AboveLimit (withCtl (pwOff 0x48) 1000 on) [20000] ∧ ¬ AboveLimit (withCtl (pwOff 0x48) 2000 on) [20000]
    ∧ (let s := withPower (fun p => { p with isOver := true, ovr := 2 }) on
       Safety.DutyOk s ∧ s.dev.power.isOver = true ∧ 2 ≤ s.dev.power.ovr)
    ∧ (let s := withPower (fun p => { p with below := 33, pduty := 15 }) on
       Safety.DutyOk s ∧ s.dev.power.isOver = false ∧ 33 ≤ s.dev.power.below ∧ s.dev.power.pduty < 16)
    ∧ on.dev.power.below < 33 ∧ State.reset.dev.power.mainOn = false ∧ Safety.DutyOk State.reset := by
  unfold Powered Safety.DutyOk AboveLimit; decide
theorem witness_thermal :
    hottestOf [104] [20, 90] = 104 ∧ hottestOf [] [105] = 105 ∧ warnAt on.dev ≤ 104 ∧ gateAt on.dev ≤ 104 ∧ 20 + 5 ≤ warnAt on.dev
    ∧ on.dev.power.warned = false ∧ on.dev.power.gating = false
    ∧ (let s := withPower (fun p => { p with gating := true, hotFor := 10 }) on
       Safety.DutyOk s ∧ s.dev.power.gating = true ∧ 10 ≤ s.dev.power.hotFor)
    ∧ (let s := withPower (fun p => { p with coolFor := 11, tduty := 12 }) on
       Safety.DutyOk s ∧ s.dev.power.gating = false ∧ 11 ≤ s.dev.power.coolFor ∧ s.dev.power.tduty < 16)
    ∧ on.dev.power.coolFor < 11 ∧ (warnAt (withCtl (pwOff 0x58) 0x645F on).dev = 95 ∧ gateAt (withCtl (pwOff 0x58) 0x645F on).dev = 100) := by
  unfold Safety.DutyOk; decide
theorem witness_mainPower :
    (4 : Fin 6).val ≠ 0 ∧ State.reset.dev.power.mainOn = false ∧ onMain (.copy 0) = true
    ∧ (0 : Fin 6).val = 0 ∧ on.dev.power.held = false ∧ (withPower (fun p => { p with held := true, lockout := true, mainOn := false, phase := 3 }) on).dev.power.held = true := by decide
theorem witness_resets :
    MgmtWrite on (.core 0) (pwOff 0x40) ∧ on.dev.body.board.rstLow = false ∧ on.dev.power.mainOn = true
    ∧ MgmtWrite (withPower (fun p => { p with mainOn := false, phase := 7 }) on) (.core 0) (pwOff 0x40)
    ∧ (withPower (fun p => { p with mainOn := false, phase := 7 }) on).dev.power.lockout = false
    ∧ (withPower (fun p => { p with mainOn := false, phase := 7 }) on).dev.body.board.rstLow = false :=
  ⟨⟨⟨rfl, _, _, rfl⟩, rfl⟩, rfl, rfl, ⟨⟨rfl, _, _, rfl⟩, rfl⟩, rfl, rfl⟩
theorem witness_sysRst :
    let s := withPower (fun p => { p with mainOn := false, phase := 0 }) (withBody (fun b => { b with board := { b.board with rstLow := true } }) on)
    10 ≤ 10 ∧ on.dev.body.board.rstLow = false ∧ s.dev.body.board.rstLow = true ∧ s.dev.power.mainOn = false ∧ MgmtWrite s (.core 0) (pwOff 0x40) :=
  ⟨by decide, rfl, rfl, rfl, ⟨⟨rfl, _, _, rfl⟩, rfl⟩⟩
/-- SPLIT, with the host link up. -/
def split : State := withPower (fun p => { p with phase := 6, splitWhy := 1 }) hosted
theorem witness_elect :
    split.dev.body.board.rstLow = false ∧ Passes split .host (pwOff 0x64) 4 true ∧ split.dev.power.phase = 6
    ∧ (1#32).toNat % 4 = 1 ∧ (3#32).toNat % 4 ≠ 1 ∧ (3#32).toNat % 4 ≠ 2
    ∧ Passes on (.core 0) (pwOff 0x64) 4 true ∧ isMgmt (fresh on.dev) (.core 0) = true ∧ on.dev.power.phase ≠ 6
    ∧ MgmtWrite split (.core 0) (pwOff 0x40) :=
  ⟨rfl, ⟨rfl, _, _, rfl⟩, rfl, by decide, by decide, by decide, ⟨rfl, _, _, rfl⟩, rfl, by decide, ⟨⟨rfl, _, _, rfl⟩, rfl⟩⟩
theorem witness_domains :
    MgmtWrite on (.core 0) (pwOff 0x60) ∧ (∀ j, j < 8 → j ≠ 3 → bitAt (ctlNat on.dev (pwOff 0x60) % 256) j = true → (getEighth on.dev j).domain ≠ .on)
    ∧ (getEighth on.dev 3).domain = .on ∧ (getEighth on.dev 3).used = false ∧ (getEighth (withPart 3 0 on).dev 3).used = true
    ∧ (let s := withDev (modEighth 3 (fun y => { y with domain := .gating, offAt := 5 })) (atTime 8 0 on)
       (getEighth s.dev 3).domain = .gating ∧ (getEighth s.dev 3).offAt + 3 ≤ s.dev.time.trick)
    ∧ (let s := withDev (modEighth 3 (fun y => { y with domain := .off, onWaits := true })) on
       (getEighth s.dev 3).domain = .off ∧ (getEighth s.dev 3).onWaits = true) :=
  ⟨⟨⟨rfl, _, _, rfl⟩, rfl⟩, by decide, by decide, by decide, by decide, by decide, by decide⟩
theorem witness_tap :
    debugOpen on.dev.sec = true ∧ on.dev.body.bt.acts.any (fun a => a.kind == 7) = false
    ∧ (testing 7 0 false).dev.body.bt.acts.any (fun a => a.kind == 7) = true := by decide

theorem test_first_average_above_the_limit_lowers_at_once :
    (after (.limiterSample 15000 0) (withCtl (pwOff 0x48) 1000 on)).dev.power.pduty = 15 := by decide
theorem test_trip_at_105 :
    let s := after (.dieTempSample [105] []) on
    s.dev.power.mainOn = false ∧ s.dev.power.offCause = 4 ∧ s.dev.power.lockout = true := by decide +kernel
theorem test_equal_claims_split :
    let s := after (.coldReset (boot true true true true)) State.reset
    s.dev.power.phase = 6 ∧ s.dev.power.splitWhy = 1 := by decide +kernel
theorem test_start_up_reaches_ready :
    let s := after (.coldReset (boot false true true true)) State.reset
    s.dev.power.phase = 5 ∧ s.dev.power.master = 1 ∧ s.dev.power.mainOn = true := by decide +kernel

/-! ## The machine -/

theorem witness_step : (withDev id { on with pending := [.psAlert] }).pending = [.psAlert] := by decide
theorem test_step_takes_the_front :
    (match step { State.reset with pending := [.trefValid, .psAlert] } with
      | .next t => t.pending
      | _ => []) = [.psAlert] := by decide +kernel
theorem test_idle_counts_a_cycle :
    (match step on with
      | .next t => t.dev.time.phase
      | _ => 0) = 1 := by decide +kernel

/-- The block's invariant, at reset and with main power on; the state that a shift leaves. -/
theorem witness_inv : Safety.Inv State.reset ∧ Safety.Inv on ∧ Safety.TimeOk on ∧ on.pending = [] ∧ Powered on := by
  unfold Safety.Inv Safety.TimeOk Safety.DutyOk Safety.MemOk Powered; decide
theorem witness_answers_next : (match exec (.swap 3) (before 3 0 0) with | .next _ => true | _ => false) = true := by decide

end Sys2Proof.Tests
end

/-! # Trick markers and the dealer (R23 to R29)

The rules about events and about the updates of the time base, then what a marker on the parent port does. -/

namespace Sys2Proof.Machine

open Sys2Proof.Claims

/-! ## Events (R402) -/

/-- Of the pages, an event writes the IRQ_RAW bit of its own alone. -/
theorem getPage_event (k i b c : Nat) (d : Dev) :
    getPage (event k i b d) c =
      getPage (modPage (pageBase k i) (fun p => { p with raw := p.raw ||| BitVec.ofNat 32 (2 ^ b) }) d) c := by
  unfold event
  dsimp only
  split
  · rfl
  · split
    · rw [raise_page]
    · rfl

/-- The IRQ_RAW bits of a page after an event there: the event's own bit is set, every other stands. -/
theorem bitAt_raw_event (k i b n : Nat) (hb : b < 32) (d : Dev) :
    bitAt (getPage (event k i b d) (pageBase k i)).raw.toNat n
      = (bitAt (getPage d (pageBase k i)).raw.toNat n || decide (b = n)) := by
  have hmod : 2 ^ b % 2 ^ 32 = 2 ^ b := Nat.mod_eq_of_lt (Nat.pow_lt_pow_right (by omega) hb)
  rw [getPage_event, getPage_modPage_same]
  simp only [bitAt, BitVec.toNat_or, BitVec.toNat_ofNat, hmod, Nat.testBit_or, Nat.testBit_two_pow]

@[simp] theorem event_time (k i b : Nat) (d : Dev) : (event k i b d).time = d.time := by rw [event_dev]
@[simp] theorem event_log (k i b : Nat) (d : Dev) : (event k i b d).log = d.log := by rw [event_dev]
@[simp] theorem event_tb (k i b : Nat) (d : Dev) : (event k i b d).body.tb = d.body.tb := by rw [event_body]
@[simp] theorem event_jobs (k i b : Nat) (d : Dev) : (event k i b d).body.jobs = d.body.jobs := by rw [event_body]

/-! ## The time base -/

@[simp] theorem modTb_time (f : TbSt → TbSt) (d : Dev) : (modTb f d).time = d.time := rfl
@[simp] theorem modTb_log (f : TbSt → TbSt) (d : Dev) : (modTb f d).log = d.log := rfl
@[simp] theorem modTb_tb (f : TbSt → TbSt) (d : Dev) : (modTb f d).body.tb = f d.body.tb := rfl
@[simp] theorem modTb_jobs (f : TbSt → TbSt) (d : Dev) : (modTb f d).body.jobs = d.body.jobs := rfl
@[simp] theorem getPage_modTb (f : TbSt → TbSt) (d : Dev) (b : Nat) : getPage (modTb f d) b = getPage d b := rfl

/-- Whether a deal runs is read from the jobs alone. -/
theorem anyRuns_congr {d e : Dev} (h : e.body.jobs = d.body.jobs) : anyRuns e = anyRuns d := by
  simp only [anyRuns, jobRuns, getJob, h]

/-- A count inside its trick is committed as it stands (R20). -/
theorem normTime_of_lt (t : TimeSt) (h : t.phase < 768) : normTime t = t := by
  simp only [normTime, Nat.mod_eq_of_lt h]

/-! ## A recorded dealer (R29) -/

@[simp] theorem setDealer_time (n : Nat) (d : Dev) : (setDealer n d).time = d.time := by
  unfold setDealer; split <;> simp
@[simp] theorem setDealer_log (n : Nat) (d : Dev) : (setDealer n d).log = d.log := by
  unfold setDealer; split <;> simp
@[simp] theorem setDealer_jobs (n : Nat) (d : Dev) : (setDealer n d).body.jobs = d.body.jobs := by
  unfold setDealer; split <;> simp

/-- Of the time base only the dealer number is written. -/
@[simp] theorem setDealer_tb (n : Nat) (d : Dev) : (setDealer n d).body.tb = { d.body.tb with dealer := n } := by
  unfold setDealer
  split
  · next h => rw [← h]
  · simp

/-- DEALER_CHANGE is set after a number is recorded if it was set before or the number is another; the page's other bits
stand. -/
theorem bitAt_raw_setDealer (n b : Nat) (d : Dev) :
    bitAt (getPage (setDealer n d) (pageBase 1 0)).raw.toNat b
      = (bitAt (getPage d (pageBase 1 0)).raw.toNat b || decide (d.body.tb.dealer ≠ n ∧ b = 0)) := by
  unfold setDealer
  split
  · next h => simp [h]
  · next h => rw [bitAt_raw_event _ _ _ _ (by omega)]; simp [h, eq_comm]

/-! ## The halt of running jobs (R42) -/

/-- A halt cause is noted in a job; all else stands. -/
theorem haltFor_dev (q why : Nat) (d : Dev) :
    haltFor q why d = { d with body := { d.body with jobs := (haltFor q why d).body.jobs } } := by
  unfold haltFor
  dsimp only
  split <;> rfl

/-- A halt cause noted in several jobs leaves all but the jobs. -/
theorem foldl_haltFor_dev (why : Nat) (l : List Nat) (d : Dev) :
    l.foldl (fun e q => haltFor q why e) d
      = { d with body := { d.body with jobs := (l.foldl (fun e q => haltFor q why e) d).body.jobs } } := by
  induction l generalizing d with
  | nil => rfl
  | cons q l ih => rw [List.foldl_cons, ih, haltFor_dev]

/-! ## A marker of the parent port (R24, R26, R29) -/

/-- What every marker of the parent port brings: its hop count, the phase error and the dealer. -/
def takeMarker (m : Marker) (err : Int) (d : Dev) : Dev :=
  setDealer m.dealer (modTb (fun x => { x with hops := m.hops, offset := err }) d)

/-- TIME_LOST: the event, and the halt of every running job (R26). -/
def loseTime (d : Dev) : Dev := (List.range 8).foldl (fun e q => haltFor q 2 e) (event 1 0 1 d)

@[simp] theorem takeMarker_time (m : Marker) (err : Int) (d : Dev) : (takeMarker m err d).time = d.time := by
  simp [takeMarker]
@[simp] theorem takeMarker_log (m : Marker) (err : Int) (d : Dev) : (takeMarker m err d).log = d.log := by
  simp [takeMarker]
@[simp] theorem takeMarker_jobs (m : Marker) (err : Int) (d : Dev) : (takeMarker m err d).body.jobs = d.body.jobs := by
  simp [takeMarker]
@[simp] theorem takeMarker_tb (m : Marker) (err : Int) (d : Dev) :
    (takeMarker m err d).body.tb = { d.body.tb with hops := m.hops, offset := err, dealer := m.dealer } := by
  simp [takeMarker]
theorem bitAt_raw_takeMarker (m : Marker) (err : Int) (d : Dev) (b : Nat) :
    bitAt (getPage (takeMarker m err d) (pageBase 1 0)).raw.toNat b
      = (bitAt (getPage d (pageBase 1 0)).raw.toNat b || decide (d.body.tb.dealer ≠ m.dealer ∧ b = 0)) := by
  rw [takeMarker, bitAt_raw_setDealer, getPage_modTb, modTb_tb]

@[simp] theorem loseTime_log (d : Dev) : (loseTime d).log = d.log := by
  rw [loseTime, foldl_haltFor_dev]; simp only [event_log]
@[simp] theorem loseTime_tb (d : Dev) : (loseTime d).body.tb = d.body.tb := by
  rw [loseTime, foldl_haltFor_dev]; simp only [event_tb]
theorem bitAt_raw_loseTime (d : Dev) (b : Nat) :
    bitAt (getPage (loseTime d) (pageBase 1 0)).raw.toNat b
      = (bitAt (getPage d (pageBase 1 0)).raw.toNat b || decide (1 = b)) := by
  rw [← bitAt_raw_event 1 0 1 b (by omega) d, loseTime, foldl_haltFor_dev]
  simp only [getPage]

/-- With a deal running the marker is taken, and it is checked for a lost time (R26). -/
theorem followParent_running (m : Marker) (err : Int) (d : Dev) (hr : anyRuns d = true) :
    followParent m err d =
      if timeLost (takeMarker m err d) m.low16 err then loseTime (takeMarker m err d) else takeMarker m err d := by
  have : anyRuns (takeMarker m err d) = true := (anyRuns_congr (takeMarker_jobs m err d)).trans hr
  exact if_pos this

/-- With none running the marker is taken, and the count follows a full trick number (R26). -/
theorem followParent_idle (m : Marker) (err : Int) (d : Dev) (hr : anyRuns d = false) :
    followParent m err d =
      match m.full with
      | some n => { takeMarker m err d with time := { d.time with trick := n } }
      | none => takeMarker m err d := by
  have : ¬ anyRuns (takeMarker m err d) = true := by rw [anyRuns_congr (takeMarker_jobs m err d), hr]; simp
  rw [← takeMarker_time m err d]
  exact if_neg this

/-- A marker of the parent port is taken; beyond that it can only cost the time or set the trick. -/
theorem followParent_cases (m : Marker) (err : Int) (d : Dev) :
    followParent m err d = takeMarker m err d
    ∨ followParent m err d = loseTime (takeMarker m err d)
    ∨ ∃ t, followParent m err d = { takeMarker m err d with time := t } := by
  cases hr : anyRuns d with
  | true =>
    rw [followParent_running m err d hr]
    split
    · exact .inr (.inl rfl)
    · exact .inl rfl
  | false =>
    rw [followParent_idle m err d hr]
    split
    · exact .inr (.inr ⟨_, rfl⟩)
    · exact .inl rfl

theorem followParent_log (m : Marker) (err : Int) (d : Dev) : (followParent m err d).log = d.log := by
  obtain h | h | ⟨t, h⟩ := followParent_cases m err d <;> rw [h] <;> simp

/-- The time base after a marker of the parent port. -/
theorem followParent_tb (m : Marker) (err : Int) (d : Dev) :
    (followParent m err d).body.tb = { d.body.tb with hops := m.hops, offset := err, dealer := m.dealer } := by
  obtain h | h | ⟨t, h⟩ := followParent_cases m err d <;> rw [h] <;> simp

/-- DEALER_CHANGE is set after a marker of the parent port if it was set before or the marker names another dealer. -/
theorem followParent_dealerChange (m : Marker) (err : Int) (d : Dev) :
    bitAt (getPage (followParent m err d) (pageBase 1 0)).raw.toNat 0
      = (bitAt (getPage d (pageBase 1 0)).raw.toNat 0 || decide (d.body.tb.dealer ≠ m.dealer)) := by
  obtain h | h | ⟨t, h⟩ := followParent_cases m err d
  · simp [h, bitAt_raw_takeMarker]
  · simp [h, bitAt_raw_loseTime, bitAt_raw_takeMarker]
  · have hp : getPage (followParent m err d) (pageBase 1 0) = getPage (takeMarker m err d) (pageBase 1 0) := by rw [h]; rfl
    simp [hp, bitAt_raw_takeMarker]

/-- A marker in time for a running deal is taken, and that is all. -/
theorem followParent_inTime (m : Marker) (err : Int) (d : Dev) (hr : anyRuns d = true)
    (hlow : m.low16 = d.time.trick % 65536) (herr : err.natAbs ≤ 32000) :
    followParent m err d = takeMarker m err d := by
  have hlost : timeLost (takeMarker m err d) m.low16 err = false := by simp [timeLost, hlow, herr]
  simp [followParent_running m err d hr, hlost]

/-! ## The row TRICK_MARKER -/

/-- What a port keeps of a marker, whichever port it is (R24, R28). -/
def keepMarker (p : Nat) (m : Marker) : Dev → Dev :=
  modTb (fun x => { x with
    markers := tset Marker.z x.markers p (some m), silent := tset 0 x.silent p 0, heard := setAdd x.heard p })

@[simp] theorem getPage_keepMarker (p : Nat) (m : Marker) (d : Dev) (b : Nat) :
    getPage (keepMarker p m d) b = getPage d b := rfl
@[simp] theorem keepMarker_dealer (p : Nat) (m : Marker) (d : Dev) :
    (keepMarker p m d).body.tb.dealer = d.body.tb.dealer := rfl

/-- On a device that does not source markers, a marker of the trained parent port is kept and followed. -/
theorem marker_parent (p : Nat) (m : Marker) (arrival : Int) (d : Dev) (hup : portUp d p = true)
    (hsrc : d.body.tb.sourcing = false) (hpar : d.body.tb.parent = p) (hp : p ≠ 7) :
    marker p m arrival d = followParent m (phaseError d p arrival) (keepMarker p m d) := by
  have hphase : phaseError (keepMarker p m d) p arrival = phaseError d p arrival := rfl
  simp only [keepMarker] at hphase ⊢
  simp [marker, hup, hsrc, hpar, hp, hphase]

/-- The marker that the operands of TRICK_MARKER name: every 1024th carries the full trick number (R26). -/
def markerOf (low : BitVec 16) (full : Dword) (dealer : DevNum) (hops : Fin 64) (running : Bool) : Marker :=
  ⟨low.toNat, if low.toNat % 1024 = 0 then some full.toNat else none, dealer.val, hops.val, running⟩

/-- On main power, TRICK_MARKER at the parent port has the marker kept and followed. -/
theorem exec_trickMarker_parent (s : State) (p : Port) (low : BitVec 16) (full : Dword) (dealer : DevNum) (hops : Fin 64)
    (running : Bool) (arrival : Int) (hon : Powered s) (hup : portUp s.dev p = true)
    (hsrc : s.dev.body.tb.sourcing = false) (hpar : s.dev.body.tb.parent = p.val) :
    exec (.trickMarker p low full dealer hops running arrival) s =
      .next (commitTime s (followParent (markerOf low full dealer hops running) (phaseError s.dev p arrival)
        (keepMarker p.val (markerOf low full dealer hops running) (fresh s.dev)))) := by
  have hmark := marker_parent p.val (markerOf low full dealer hops running) arrival (fresh s.dev) hup hsrc hpar (by omega)
  have hpow : (fresh s.dev).power.mainOn = true := hon
  have hphase : phaseError (fresh s.dev) p arrival = phaseError s.dev p arrival := rfl
  rw [hphase] at hmark
  rw [← hmark]
  show runTime _ s = _
  simp only [runTime, hpow, if_true]
  rfl

/-- DEALER_CHANGE is set after a marker is kept, followed and committed if it was set before or the marker names another
dealer. -/
theorem raised_commitTime_followParent (s : State) (p : Nat) (m : Marker) (err : Int) :
    Raised (commitTime s (followParent m err (keepMarker p m (fresh s.dev)))) 1 0 0
      ↔ Raised s 1 0 0 ∨ s.dev.body.tb.dealer ≠ m.dealer := by
  have h := followParent_dealerChange m err (keepMarker p m (fresh s.dev))
  rw [getPage_keepMarker, keepMarker_dealer] at h
  exact (Bool.eq_iff_iff.mp h).trans ((Bool.or_eq_true_iff ..).trans (or_congr Iff.rfl decide_eq_true_iff))

/-- In time for a running deal, a marker that is kept, followed and committed moves neither the count nor a job. -/
theorem commitTime_followParent_inTime (s : State) (p : Nat) (m : Marker) (err : Int) (hr : anyRuns s.dev = true)
    (hlow : m.low16 = s.dev.time.trick % 65536) (herr : err.natAbs ≤ 32000) (htime : Safety.TimeOk s) :
    (commitTime s (followParent m err (keepMarker p m (fresh s.dev)))).dev.time = s.dev.time
    ∧ ∀ q, getJob (commitTime s (followParent m err (keepMarker p m (fresh s.dev)))).dev q = getJob s.dev q := by
  rw [followParent_inTime m err (keepMarker p m (fresh s.dev)) hr hlow herr]
  constructor
  · exact (congrArg normTime (takeMarker_time m err _)).trans (normTime_of_lt s.dev.time htime)
  · exact fun q => congrArg (fun jobs => tget Job.z jobs q) (takeMarker_jobs m err _)

/-- Settles O10: the marker is followed, so its dealer is recorded and raised when it is another; in time for a running deal
it is only taken, which moves neither the count nor a job. -/
theorem dealerChange : Obligations.DealerChange := by
  intro s p low full dealer hops running arrival hon hup hsrc hpar
  have hexec := exec_trickMarker_parent s p low full dealer hops running arrival hon hup hsrc hpar
  have hraised := raised_commitTime_followParent s p.val (markerOf low full dealer hops running) (phaseError s.dev p arrival)
  refine ⟨_, hexec, rfl, ?mem, ?dealer, ?raised, ?same, ?inTime⟩
  case mem => exact congrArg (applyOps s.dev.mem) (followParent_log _ _ _)
  case dealer => exact congrArg TbSt.dealer (followParent_tb _ _ _)
  case raised => exact fun hne => hraised.mpr (.inr (Ne.symm hne))
  case same => exact fun heq => hraised.trans (or_iff_left (fun hne => hne heq.symm))
  case inTime =>
    intro hr hlow hin htime
    obtain ⟨hcount, hjobs⟩ := commitTime_followParent_inTime s p.val (markerOf low full dealer hops running)
      (phaseError s.dev p arrival) hr hlow hin htime
    exact ⟨hcount, rfl, rfl, hjobs⟩

end Sys2Proof.Machine

/-! # The event controller: targets, claims and completions (R342, R343, R345, R346)

What an access that passes its checks does, what an update of one or of all sources leaves, what each row of the event
controller does where it completes, and the two statements about targets and claims. -/

namespace Sys2Proof.Machine

open Sys2Proof.Claims

/-! ## Accesses that pass the checks (Table MP-3, R424) -/

/-- An access that passes the checks has its effect. -/
theorem access_of_passes {s : State} {r : Req} {off size : Nat} {write : Bool} (h : Passes s r off size write) (v : Nat)
    (eff : Dev → Dev) : access r off size write v eff (fresh s.dev) = eff (fresh s.dev) := by
  obtain ⟨hgo, p, o, hgate⟩ := h
  have hgo : coreHalted (fresh s.dev) r = false := hgo
  simp [access, hgo, hgate]

/-- A word write of the management complex that passes the checks has its effect. -/
theorem access_of_mgmtWrite {s : State} {r : Req} {off : Nat} (h : MgmtWrite s r off) (v base o : Nat) (eff : Dev → Dev) :
    access r off 4 true v (mgmtOnly r base o eff) (fresh s.dev) = eff (fresh s.dev) := by
  obtain ⟨hpass, hmgmt⟩ := h
  rw [access_of_passes hpass, mgmtOnly, if_pos hmgmt]

/-- A quiet read of a word of a page answers with the word (R334). -/
theorem quietRead_of_reaches {s : State} {off : CtlOff} {a : BitVec 49} {p : PageAt} {o : Nat}
    (h : Reaches s .debug off false p o) (ha : a.toNat = Config.ctlBase + off.toNat) :
    quietRead a.toNat (fresh s.dev) =
      reply (.value ((readWord .debug p o true (fresh s.dev)).1.setWidth 64)) (readWord .debug p o true (fresh s.dev)).2 := by
  obtain ⟨hgo, hat, hgate⟩ := h
  have hctl : Config.ctlBase ≤ a.toNat ∧ a.toNat < Config.flashBase := by
    have := off.isLt
    simp only [ha, Config.ctlBase, Config.flashBase]
    omega
  rw [quietRead, if_pos hctl, ha, Nat.add_sub_cancel_left, readAccess, access_of_passes ⟨hgo, p, o, hgate⟩, readAt, hat]

/-! ## Sources under an update -/

theorem getSrc_modSrc (n m : Nat) (f : Source → Source) (d : Dev) :
    getSrc (modSrc n f d) m = if m = n then f (getSrc d n) else getSrc d m := tget_tset ..
@[simp] theorem getSrc_modSrc_same (n : Nat) (f : Source → Source) (d : Dev) : getSrc (modSrc n f d) n = f (getSrc d n) :=
  tget_tset_same ..
theorem getSrc_modSrc_other (n m : Nat) (f : Source → Source) (d : Dev) (h : m ≠ n) : getSrc (modSrc n f d) m = getSrc d m :=
  tget_tset_other _ _ _ _ _ _ h
@[simp] theorem getSrc_reply (x : Reply) (d : Dev) (n : Nat) : getSrc (reply x d) n = getSrc d n := rfl
@[simp] theorem getSrc_fresh (d : Dev) (n : Nat) : getSrc (fresh d) n = getSrc d n := rfl
@[simp] theorem getSrc_commitBody (s : State) (e : Dev) (n : Nat) : getSrc (commitBody s e).dev n = getSrc e n := rfl
@[simp] theorem tgtEn_commitBody (s : State) (e : Dev) (t : Nat) : tgtEn (commitBody s e).dev t = tgtEn e t := rfl

/-- An event at a source that is not reserved is noted in that source (R340). -/
theorem raise_of_not_reserved {n : Nat} (h : sourceReserved n = false) (d : Dev) : raise n d = modSrc n Source.hit d := by
  simp only [raise, h, Bool.false_eq_true, if_false]
  rfl

/-! ## All sources at once -/

theorem forN_succ {σ : Type} (k : Nat) (f : Nat → σ → σ) (x : σ) : forN (k + 1) f x = f k (forN k f x) := by
  simp [forN, List.range_succ]

/-- Change every source below k. -/
def modSrcsBelow (k : Nat) (f : Source → Source) (d : Dev) : Dev := forN k (fun n e => modSrc n f e) d

theorem modSrcsBelow_succ (k : Nat) (f : Source → Source) (d : Dev) :
    modSrcsBelow (k + 1) f d = modSrc k f (modSrcsBelow k f d) := forN_succ ..

theorem getSrc_modSrcsBelow (k m : Nat) (f : Source → Source) (d : Dev) :
    getSrc (modSrcsBelow k f d) m = if m < k then f (getSrc d m) else getSrc d m := by
  induction k with
  | zero => rfl
  | succ k ih =>
    rw [modSrcsBelow_succ]
    by_cases hm : m = k
    · subst hm
      rw [getSrc_modSrc_same, ih, if_neg (by omega), if_pos (by omega)]
    · have hlt : m < k + 1 ↔ m < k := by omega
      rw [getSrc_modSrc_other _ _ _ _ hm, ih]
      simp only [hlt]

/-- Of the device only the sources change. -/
theorem modSrcsBelow_dev (k : Nat) (f : Source → Source) (d : Dev) :
    modSrcsBelow k f d = { d with body := { d.body with ev := { d.body.ev with srcs := (modSrcsBelow k f d).body.ev.srcs } } } := by
  induction k with
  | zero => rfl
  | succ k ih => rw [modSrcsBelow_succ, ih]; rfl

/-! ## A write of `EV_TCTL[t]` (R343) -/

/-- A source after EN of target t is cleared: delivered there and unclaimed, it is pending again. -/
def giveBack (t : Nat) (x : Source) : Source :=
  if x.state = .delivered ∧ x.owner = t then { x with state := .pending, reached := false } else x

theorem giveBack_of_delivered {t : Nat} {x : Source} (hs : x.state = .delivered) (ho : x.owner = t) :
    giveBack t x = { x with state := .pending, reached := false } := if_pos ⟨hs, ho⟩
theorem giveBack_of_other {t : Nat} {x : Source} (h : x.state ≠ .delivered ∨ x.owner ≠ t) : giveBack t x = x :=
  if_neg fun ⟨hstate, howner⟩ => h.elim (· hstate) (· howner)

/-- EN of a target is written. -/
def setEn (t : Nat) (en : Bool) : Dev → Dev := modBody (fun b => { b with ev := { b.ev with en := tset false b.ev.en t en } })

/-- What a write of `EV_TCTL[t]` does to the device. -/
def setTarget (t : Nat) (en : Bool) (d : Dev) : Dev :=
  if en then setEn t en d else modSrcsBelow 512 (giveBack t) (setEn t en d)

theorem getSrc_setTarget (t : Nat) (en : Bool) (d : Dev) {n : Nat} (hn : n < 512) :
    getSrc (setTarget t en d) n = if en then getSrc d n else giveBack t (getSrc d n) := by
  cases en with
  | true => rfl
  | false =>
    rw [setTarget, if_neg Bool.false_ne_true, getSrc_modSrcsBelow, if_pos hn]
    rfl

/-- Of the device the sources and the enabled targets change, and of these only the target's own bit. -/
theorem setTarget_dev (t : Nat) (en : Bool) (d : Dev) :
    setTarget t en d = { d with body := { d.body with
      ev := { d.body.ev with srcs := (setTarget t en d).body.ev.srcs, en := tset false d.body.ev.en t en } } } := by
  cases en with
  | true => rfl
  | false =>
    rw [setTarget, if_neg Bool.false_ne_true]
    generalize 512 = k
    exact modSrcsBelow_dev ..

theorem tgtEn_setTarget (t u : Nat) (en : Bool) (d : Dev) :
    tgtEn (setTarget t en d) u = if u = t then en else tgtEn d u := by
  rw [setTarget_dev]
  exact tget_tset ..

theorem does_evTctlWrite {s : State} {r : Req} {t : Core} {v : Word} (h : MgmtWrite s r (evOff (0x80 + 0x10 * t.val))) :
    Does (.evTctlWrite r t v) s (setTarget t.val (v.toNat.testBit 0)) :=
  congrArg (fun e => Host.Outcome.next (commitBody s e)) (access_of_mgmtWrite h ..)

/-! ## A write of `EV_SRC[n]` (R342) -/

/-- A source after a write of its register: masked once it has arrived and before it is claimed, it is pending again. -/
def srcWritten (v : Nat) (x : Source) : Source :=
  let y := { x with tgt := v % 16, masked := v.testBit 4 }
  if y.masked ∧ y.state = .delivered ∧ y.reached then { y with state := .pending, reached := false } else y

/-- A source that stays unmasked, or that has no arrived and unclaimed delivery, takes TGT and MASKED alone. -/
theorem srcWritten_of_kept {v : Nat} {x : Source} (h : x.state ≠ .delivered ∨ x.reached = false ∨ v.testBit 4 = false) :
    srcWritten v x = { x with tgt := v % 16, masked := v.testBit 4 } := by
  refine if_neg ?_
  rintro ⟨hmasked, hstate, hreached⟩
  simp_all

theorem does_evSrcWrite {s : State} {r : Req} {n : Fin 512} {v : Word} (h : MgmtWrite s r (evOff (0x800 + 4 * n.val))) :
    Does (.evSrcWrite r n v) s (modSrc n (srcWritten v.toNat)) :=
  congrArg (fun e => Host.Outcome.next (commitBody s e)) (access_of_mgmtWrite h ..)

/-! ## A write of `EV_COMPLETE[t]` (R346) -/

/-- A completed source: idle, or pending when an event has re-armed it. -/
def completed (y : Source) : Source := { y with state := (if y.rearm then .pending else .idle), rearm := false }

/-- The effect of a completion that passes the checks, before it is known whose the source is. -/
theorem exec_evComplete {s : State} {r : Req} {t : Core} {v : Word} (h : MgmtWrite s r (evOff (0x88 + 0x10 * t.val))) :
    exec (.evComplete r t v) s = .next (commitBody s
      (if (getSrc s.dev (v.toNat % 512)).state = .inService ∧ (getSrc s.dev (v.toNat % 512)).owner = t.val
        then modSrc (v.toNat % 512) completed (fresh s.dev)
        else logError (pageBase 5 0) cState (Req.code r) (evOff (0x88 + 0x10 * t.val)) true (fresh s.dev))) :=
  congrArg (fun e => Host.Outcome.next (commitBody s e)) (access_of_mgmtWrite h ..)

theorem does_evComplete_inService {s : State} {r : Req} {t : Core} {v : Word}
    (h : MgmtWrite s r (evOff (0x88 + 0x10 * t.val))) (hstate : (getSrc s.dev (v.toNat % 512)).state = .inService)
    (howner : (getSrc s.dev (v.toNat % 512)).owner = t.val) :
    Does (.evComplete r t v) s (modSrc (v.toNat % 512) completed) := by
  rw [Does, exec_evComplete h, if_pos ⟨hstate, howner⟩]

theorem does_evComplete_other {s : State} {r : Req} {t : Core} {v : Word}
    (h : MgmtWrite s r (evOff (0x88 + 0x10 * t.val)))
    (hother : (getSrc s.dev (v.toNat % 512)).state ≠ .inService ∨ (getSrc s.dev (v.toNat % 512)).owner ≠ t.val) :
    Does (.evComplete r t v) s (logError (pageBase 5 0) cState (Req.code r) (evOff (0x88 + 0x10 * t.val)) true) := by
  rw [Does, exec_evComplete h, if_neg fun ⟨hstate, howner⟩ => hother.elim (· hstate) (· howner)]

/-- An event at a source in service re-arms it: its completion then leaves it pending (R346). -/
theorem completed_hit_state {x : Source} (h : x.state = .inService) : (completed x.hit).state = .pending := by
  simp [completed, Source.hit, h]

/-- A source taken for a target stays taken when an event hits it. -/
theorem hit_state_of_inService {x : Source} (h : x.state = .inService) : x.hit.state = .inService := by
  simp [Source.hit, h]

/-! ## A read of `EV_CLAIM[t]` (R345) -/

/-- A claimed source. -/
def claimed (x : Source) : Source := { x with state := .inService, reached := false }

/-- Source n has reached target t and is unclaimed. -/
def Unclaimed (d : Dev) (t n : Nat) : Prop :=
  n < 512 ∧ (getSrc d n).state = .delivered ∧ (getSrc d n).reached = true ∧ (getSrc d n).owner = t

/-- A search from the highest source down finds n when n qualifies and no higher one does. -/
theorem find_srcsDown_eq_some {p : Nat → Bool} {n : Nat} (hn : n < 512) (hp : p n = true)
    (hmax : ∀ m, n < m → m < 512 → p m = false) : srcsDown.find? p = some n := by
  have hfirst : (List.range 512).find? (p ∘ fun i => 511 - i) = some (511 - n) := by
    refine List.find?_range_eq_some.mpr ⟨?_, by simp; omega, fun j hj => ?_⟩
    · rwa [Function.comp_apply, show 511 - (511 - n) = n by omega]
    · rw [Function.comp_apply, hmax (511 - j) (by omega) (by omega)]; rfl
  rw [srcsDown, List.find?_map, hfirst, Option.map_some, show 511 - (511 - n) = n by omega]

theorem mem_srcsDown {n : Nat} : n ∈ srcsDown ↔ n < 512 := by
  simp only [srcsDown, List.mem_map, List.mem_range]
  exact ⟨by omega, fun h => ⟨511 - n, by omega, by omega⟩⟩

theorem claimable_eq_some {d : Dev} {t n : Nat} (h : Unclaimed d t n) (hmax : ∀ m, n < m → ¬ Unclaimed d t m) :
    claimable d t = some n := by
  obtain ⟨hn, hstate, hreached, howner⟩ := h
  refine find_srcsDown_eq_some hn (by simp [hstate, hreached, howner]) fun m hm hm512 => ?_
  have := hmax m hm
  simp only [Unclaimed, hm512, true_and] at this
  simpa [and_assoc] using this

theorem claimable_eq_none {d : Dev} {t : Nat} (h : ∀ n, ¬ Unclaimed d t n) : claimable d t = none := by
  refine List.find?_eq_none.mpr fun n hn => ?_
  have := h n
  simp only [Unclaimed, mem_srcsDown.mp hn, true_and] at this
  simpa [and_assoc] using this

theorem claimable_fresh (d : Dev) (t : Nat) : claimable (fresh d) t = claimable d t := by
  simp only [claimable, getSrc_fresh]

theorem evClaim_of_none {d : Dev} {t : Nat} (h : claimable d t = none) : evClaim t d = reply (.value 0) d := by
  delta evClaim
  rw [h]

theorem evClaim_of_some {d : Dev} {t n : Nat} (h : claimable d t = some n) :
    evClaim t d = reply (.value (BitVec.ofNat 64 n)) (modSrc n claimed d) := by
  delta evClaim
  rw [h]
  rfl

theorem exec_evClaim {s : State} {r : Req} {t : Core} (h : Passes s r (evOff (0x84 + 0x10 * t.val)) 4 false) :
    exec (.evClaim r t) s = .next (commitBody s (evClaim t.val (fresh s.dev))) :=
  congrArg (fun e => Host.Outcome.next (commitBody s e)) (access_of_passes h ..)

theorem does_evClaim_none {s : State} {r : Req} {t : Core} (h : Passes s r (evOff (0x84 + 0x10 * t.val)) 4 false)
    (hnone : claimable s.dev t.val = none) : Does (.evClaim r t) s (reply (.value 0)) := by
  rw [Does, exec_evClaim h, evClaim_of_none ((claimable_fresh ..).trans hnone)]

theorem does_evClaim_some {s : State} {r : Req} {t : Core} {n : Nat}
    (h : Passes s r (evOff (0x84 + 0x10 * t.val)) 4 false) (hsome : claimable s.dev t.val = some n) :
    Does (.evClaim r t) s (fun d => reply (.value (BitVec.ofNat 64 n)) (modSrc n claimed d)) := by
  rw [Does, exec_evClaim h, evClaim_of_some ((claimable_fresh ..).trans hsome)]

theorem regAt_evClaim (t : Core) : regAt 5 (0x84 + 0x10 * t.val) = some ⟨.evClaim, t.val, .rc⟩ := by
  revert t
  decide

/-- A quiet read of the word of `EV_CLAIM[t]` gives the source that a claim would take, and leaves the device (R334). -/
theorem readWord_evClaim_quiet (r : Req) (t : Core) (d : Dev) :
    readWord r ⟨5, 0, 0x5000⟩ (0x84 + 0x10 * t.val) true d = (word ((claimable d t.val).getD 0), d) := by
  rw [readWord, if_neg (by omega), readReg, regAt_evClaim]
  rfl

/-- A quiet read of `EV_CLAIM[t]` answers the source that a claim would take, 0 when there is none. -/
theorem does_quietRead_evClaim {s : State} {t : Core} {off : CtlOff} {a : BitVec 49}
    (ha : a.toNat = Config.ctlBase + off.toNat) (h : Reaches s .debug off false ⟨5, 0, 0x5000⟩ (0x84 + 0x10 * t.val)) :
    Does (.quietRead a) s (reply (.value ((word ((claimable s.dev t.val).getD 0)).setWidth 64))) := by
  show Host.Outcome.next _ = _
  rw [quietRead_of_reaches h ha, readWord_evClaim_quiet, claimable_fresh]

/-- The word of a source's number, as an answer of 64 bits. -/
theorem setWidth_word {n : Nat} (h : n < 512) : (word n).setWidth 64 = BitVec.ofNat 64 n := by
  apply BitVec.eq_of_toNat_eq
  simp only [word, BitVec.toNat_setWidth, BitVec.toNat_ofNat]
  omega

/-- A claim stands: masking the source after it leaves it in service (R342, R345). -/
theorem evSrcWrite_keeps_inService {s : State} {r : Req} {n : Fin 512} {v : Word}
    (h : MgmtWrite s r (evOff (0x800 + 4 * n.val))) (hstate : (getSrc s.dev n).state = .inService) :
    ∃ s', exec (.evSrcWrite r n v) s = .next s' ∧ (getSrc s'.dev n).state = .inService := by
  refine ⟨_, does_evSrcWrite h, ?_⟩
  have hkept : (getSrc s.dev n).state ≠ .delivered := by simp [hstate]
  rw [getSrc_commitBody, getSrc_modSrc_same, getSrc_fresh, srcWritten_of_kept (.inl hkept)]
  exact hstate

/-- An event taken before a completion re-arms the source: the completion leaves it pending (R346). -/
theorem eventRaise_then_evComplete {s : State} {r : Req} {t : Core} {v : Word} {n : Fin 512} (hn : n.val = v.toNat % 512)
    (hres : sourceReserved n = false) (hstate : (getSrc s.dev n).state = .inService)
    (howner : (getSrc s.dev n).owner = t.val) :
    ∃ s1, exec (.eventRaise n) s = .next s1 ∧ (MgmtWrite s1 r (evOff (0x88 + 0x10 * t.val)) →
      ∃ s', exec (.evComplete r t v) s1 = .next s' ∧ (getSrc s'.dev n).state = .pending) := by
  refine ⟨commitBody s (raise n (fresh s.dev)), rfl, fun hwrite => ?_⟩
  have hsrc : getSrc (commitBody s (raise n (fresh s.dev))).dev n = (getSrc s.dev n).hit := by
    rw [getSrc_commitBody, raise_of_not_reserved hres, getSrc_modSrc_same, getSrc_fresh]
  refine ⟨_, does_evComplete_inService hwrite ?_ ?_, ?_⟩
  · rw [← hn, hsrc, hit_state_of_inService hstate]
  · rw [← hn, hsrc]; exact howner
  · rw [getSrc_commitBody, ← hn, getSrc_modSrc_same, getSrc_fresh, hsrc, completed_hit_state hstate]

/-! ## The statements -/

/-- Settles O14: a write of `EV_TCTL[t]` gives back what is delivered and unclaimed and no other source; a completion asks
for the claim alone, not for EN; a write of TGT that leaves the source unmasked keeps its delivery. -/
theorem targetDisabled : Obligations.TargetDisabled := by
  intro r t s
  refine ⟨fun v hwrite => ?tctl, fun v hwrite _ hstate howner => does_evComplete_inService hwrite hstate howner,
    fun n v hwrite hunmasked => ?src⟩
  case tctl =>
    have hdev := setTarget_dev t.val (v.toNat.testBit 0) (fresh s.dev)
    refine ⟨_, does_evTctlWrite hwrite, ⟨rfl, rfl, rfl, rfl⟩, ?mem, ?body, ?own, fun u hu => ?others, fun n hn => ?sources⟩
    case mem => rw [commitBody_mem, hdev]; rfl
    case body => rw [commitBody_body, hdev]; rfl
    case own => rw [tgtEn_commitBody, tgtEn_setTarget, if_pos rfl]
    case others => rw [tgtEn_commitBody, tgtEn_setTarget, if_neg hu]; rfl
    case sources =>
      rw [getSrc_commitBody, getSrc_setTarget _ _ _ hn, getSrc_fresh]
      refine ⟨fun hoff hstate howner => ?_, fun hkept => ?_⟩
      · rw [hoff, if_neg Bool.false_ne_true, giveBack_of_delivered hstate howner]
      · split
        · rfl
        · next hoff => exact giveBack_of_other (hkept.resolve_left hoff)
  case src =>
    refine ⟨_, does_evSrcWrite hwrite, ⟨rfl, rfl, rfl, rfl⟩, rfl, ?own, fun m hm => getSrc_modSrc_other _ _ _ _ hm, rfl⟩
    rw [getSrc_commitBody, getSrc_modSrc_same, getSrc_fresh, srcWritten_of_kept (.inr (.inr hunmasked)), hunmasked]

/-- Settles O15: a claim takes the highest source found, which stays in service when it is masked later; a quiet read
answers the same number; a completion asks who has claimed the source, and finds it re-armed by an event before it. -/
theorem claimAndComplete : Obligations.ClaimAndComplete := by
  intro r t s unclaimed
  refine ⟨fun hpass => ⟨fun hnone => ?claimNone, fun n hn hmax => ?claimSome⟩,
    fun off a _ ha hreach => ⟨fun hnone => ?quietNone, fun n hn hmax => ?quietSome⟩,
    fun v hwrite => ⟨fun hstate howner => ⟨?complete, fun n hn hres => ?rearmed⟩, fun hother => ?refused⟩⟩
  case claimNone => exact does_evClaim_none hpass (claimable_eq_none hnone)
  case claimSome =>
    have hclaim := does_evClaim_some hpass (claimable_eq_some hn hmax)
    refine ⟨hclaim, fun u v _ s1 hexec k hk hwrite => ?_⟩
    obtain rfl := Host.Outcome.next.inj (hexec.symm.trans hclaim)
    rw [← hk] at hwrite ⊢
    exact evSrcWrite_keeps_inService hwrite (by simp [claimed])
  case quietNone =>
    have hquiet := does_quietRead_evClaim ha hreach
    rwa [claimable_eq_none hnone] at hquiet
  case quietSome =>
    have hquiet := does_quietRead_evClaim ha hreach
    rwa [claimable_eq_some hn hmax, Option.getD_some, setWidth_word hn.1] at hquiet
  case complete => exact does_evComplete_inService hwrite hstate howner
  case rearmed =>
    rw [← hn] at hstate howner
    exact eventRaise_then_evComplete hn hres hstate howner
  case refused => exact does_evComplete_other hwrite hother

end Sys2Proof.Machine

/-! # The start-up and the election of a master (R361 to R372, R420)

What a read of the settings store depends on, whom the election names, what each part of the start-up leaves, what the
common part of the resets keeps, and the statement about a master named in SPLIT. -/

namespace Sys2Proof.Machine

open Sys2Proof.Claims

/-! ## What the small updates leave alone -/

/-- A part of the state that no step of a fold changes is as before the fold. -/
theorem foldl_keeps {σ α β : Type} {f : σ → α → σ} (g : σ → β) (h : ∀ x a, g (f x a) = g x) (l : List α) (x : σ) :
    g (l.foldl f x) = g x := by
  induction l generalizing x with
  | nil => rfl
  | cons a l ih => rw [List.foldl_cons, ih, h]

/-- A part of the state that does not depend on what `sans` takes away is the same where the rest is the same. -/
theorem eq_of_sans {σ β : Type} {sans : σ → σ} (g : σ → β) {x y : σ} (h : sans x = sans y)
    (hg : ∀ z, g (sans z) = g z) : g x = g y := by rw [← hg x, h, hg]

@[simp] theorem modPower_power (f : PowerSt → PowerSt) (d : Dev) : (modPower f d).power = f d.power := rfl
@[simp] theorem modPower_body (f : PowerSt → PowerSt) (d : Dev) : (modPower f d).body = d.body := rfl

@[simp] theorem pwEvent_power (i : Nat) (d : Dev) : (pwEvent i d).power = d.power := by rw [pwEvent, event_dev]
@[simp] theorem pwEvent_sec (i : Nat) (d : Dev) : (pwEvent i d).sec = d.sec := by rw [pwEvent, event_dev]
@[simp] theorem pwEvent_board (i : Nat) (d : Dev) : (pwEvent i d).body.board = d.body.board := by rw [pwEvent, event_body]

@[simp] theorem ctlSetN_power (o v : Nat) (d : Dev) : (ctlSetN o v d).power = d.power := rfl
@[simp] theorem ctlSetN_board (o v : Nat) (d : Dev) : (ctlSetN o v d).body.board = d.body.board := rfl

@[simp] theorem modFault_power (low : Bool) (d : Dev) : (modFault low d).power = d.power := rfl
@[simp] theorem modFault_sec (low : Bool) (d : Dev) : (modFault low d).sec = d.sec := rfl
@[simp] theorem modFault_nor (low : Bool) (d : Dev) : (modFault low d).body.board.nor = d.body.board.nor := rfl
@[simp] theorem modFault_modFault (low : Bool) (d : Dev) : (modFault low d).body.board.modFault = low := rfl

@[simp] theorem memDoAll_power (l : List MemOp) (d : Dev) : (memDoAll l d).power = d.power :=
  foldl_keeps (f := fun e o => memDo o e) (·.power) (fun _ _ => rfl) l d
@[simp] theorem memDoAll_body (l : List MemOp) (d : Dev) : (memDoAll l d).body = d.body :=
  foldl_keeps (f := fun e o => memDo o e) (·.body) (fun _ _ => rfl) l d
@[simp] theorem memLost_power (d : Dev) : (memLost d).power = d.power := memDoAll_power ..
@[simp] theorem memLost_body (d : Dev) : (memLost d).body = d.body := memDoAll_body ..

@[simp] theorem refuse_power (r : Req) (base off cause : Nat) (write : Bool) (d : Dev) :
    (refuse r base off cause write d).power = d.power := by
  cases r <;> rfl

theorem commitAll_body (s : State) (e : Dev) : (commitAll s e).dev.body = e.body := rfl
theorem commitAll_override (s : State) (e : Dev) : (commitAll s e).dev.power.override = e.power.override := rfl

/-! ## What a read of the settings store depends on (R358 to R363) -/

section
variable {d e : Dev} (h : e.body.board.nor = d.body.board.nor)
include h

theorem norBytes_congr (a n : Nat) : norBytes e a n = norBytes d a n := by simp only [norBytes, h]

theorem norNat_congr (a n : Nat) : norNat e a n = norNat d a n := by simp only [norNat, norBytes_congr h]

theorem norContent_congr (a n : Nat) : norContent e a n = norContent d a n := by simp only [norContent, h]

theorem slotValid_congr (a : Nat) : slotValid e a = slotValid d a := by
  simp only [slotValid, norNat_congr h, norBytes_congr h]

theorem slotUsed_congr : slotUsed e = slotUsed d := by simp only [slotUsed, slotValid_congr h, norNat_congr h]

theorem itemAt_congr (type want stop n o : Nat) : itemAt e type want stop n o = itemAt d type want stop n o := by
  induction n generalizing o with
  | zero => rfl
  | succ n ih => simp only [itemAt, norNat_congr h, norBytes_congr h, ih]

theorem emfenPrefers_congr : emfenPrefers e = emfenPrefers d := by
  simp only [emfenPrefers, item, slotUsed_congr h, norNat_congr h, itemAt_congr h]

theorem emfenImage_congr (b : BootIn) : emfenImage e b = emfenImage d b := by
  simp only [emfenImage, emfenPrefers_congr h]

theorem recordDigest_congr : recordDigest e = recordDigest d := by
  simp only [recordDigest, slotUsed_congr h, norNat_congr h, norContent_congr h]

end

/-! ## The election (R370 to R372) -/

/-- A half whose sideband does not reach the other splits, whatever claims it and whoever is named (R371, R372). -/
theorem election_of_noSideband {b : BootIn} (hside : b.sideband = false) (d : Dev) : election d b = (0, 3) := by
  simp [election, hside]

/-- The override replaces the straps (R372). -/
theorem election_of_override {b : BootIn} {d : Dev} (hside : b.sideband = true)
    (hover : d.power.override = 1 ∨ d.power.override = 2) : election d b = (d.power.override - 1, 0) := by
  obtain h | h := hover <;> simp [election, hside, h]

/-- Equal claims split the device (R371). -/
theorem election_of_equalClaims {b : BootIn} {d : Dev} (hside : b.sideband = true) (hover : d.power.override = 0)
    (hclaim : b.claimEast = b.claimWest) : election d b = (0, if b.claimEast then 1 else 2) := by
  cases hwest : b.claimWest <;> simp [election, hside, hover, hclaim, hwest]

/-- One claim elects the half that makes it (R370). -/
theorem election_of_oneClaim {b : BootIn} {d : Dev} (hside : b.sideband = true) (hover : d.power.override = 0)
    (hclaim : b.claimEast ≠ b.claimWest) : election d b = (b2n b.claimWest, 0) := by
  cases hwest : b.claimWest <;> simp_all [election]

/-! ## What the steps after the election keep (Table PW-5) -/

/-- What no step from step 5 on writes: whom the election named and by which override, the kind of the reset, the lockout,
the measurements, the settings store, and MOD_FAULT_N as step 5 leaves it. -/
structure Standing where
  master : Nat
  splitWhy : Nat
  override : Nat
  lastRst : Nat
  lockout : Bool
  taken : List Dword
  nor : Tbl Byte
  modFault : Bool

/-- What stands of a device since its election. -/
def standing (d : Dev) : Standing :=
  let p := d.power
  { master := p.master, splitWhy := p.splitWhy, override := p.override, lastRst := p.lastRst, lockout := p.lockout
    taken := d.sec.taken, nor := d.body.board.nor, modFault := d.body.board.modFault }

@[simp] theorem standing_pwEvent (i : Nat) (d : Dev) : standing (pwEvent i d) = standing d := by simp [standing]
theorem standing_modFault (low : Bool) (d : Dev) : standing (modFault low d) = { standing d with modFault := low } := rfl

/-- The device without what the thermal actions of R356 may write: thermal fields and events. -/
def sansThermal (d : Dev) : Dev :=
  { d with
    power := { d.power with tduty := 0, warned := false, gating := false, hotFor := 0, coolFor := 0 }
    body := { d.body with pages := [], ev := EvSt.z } }

@[simp] theorem sansThermal_pwEvent (i : Nat) (d : Dev) : sansThermal (pwEvent i d) = sansThermal d := by
  rw [pwEvent, event_dev, event_body]
  rfl

theorem sansThermal_lowerThermal (d : Dev) : sansThermal (lowerThermal d) = sansThermal d := by
  unfold lowerThermal
  dsimp only
  split
  · rw [sansThermal_pwEvent]; rfl
  · rfl

/-- The warning of R356 at a temperature. -/
def warnStep (t : Nat) (d : Dev) : Dev :=
  if warnAt d ≤ t ∧ !d.power.warned then pwEvent evThermWarn (modPower (fun p => { p with warned := true }) d)
  else if t + 5 ≤ warnAt d then modPower (fun p => { p with warned := false }) d else d

/-- The first lowering of R356 at GATE. -/
def gateStep (t : Nat) (d : Dev) : Dev :=
  if gateAt d ≤ t then
    if d.power.gating then d else lowerThermal (modPower (fun p => { p with gating := true, coolFor := 0 }) d)
  else modPower (fun p => { p with gating := false, hotFor := 0 }) d

theorem thermEval_eq (d : Dev) : thermEval d = gateStep (hottest d) (warnStep (hottest d) d) := rfl

theorem sansThermal_warnStep (t : Nat) (d : Dev) : sansThermal (warnStep t d) = sansThermal d := by
  unfold warnStep
  split
  · rw [sansThermal_pwEvent]; rfl
  · split <;> rfl

theorem sansThermal_gateStep (t : Nat) (d : Dev) : sansThermal (gateStep t d) = sansThermal d := by
  unfold gateStep
  split
  · split
    · rfl
    · rw [sansThermal_lowerThermal]; rfl
  · rfl

/-- The thermal actions write thermal fields and events alone. -/
theorem sansThermal_thermEval (d : Dev) : sansThermal (thermEval d) = sansThermal d := by
  rw [thermEval_eq, sansThermal_gateStep, sansThermal_warnStep]

theorem thermEval_phase (d : Dev) : (thermEval d).power.phase = d.power.phase :=
  eq_of_sans (·.power.phase) (sansThermal_thermEval d) (fun _ => rfl)
theorem thermEval_mainOn (d : Dev) : (thermEval d).power.mainOn = d.power.mainOn :=
  eq_of_sans (·.power.mainOn) (sansThermal_thermEval d) (fun _ => rfl)
theorem thermEval_hl (d : Dev) : (thermEval d).body.hl = d.body.hl :=
  eq_of_sans (·.body.hl) (sansThermal_thermEval d) (fun _ => rfl)
theorem thermEval_links (d : Dev) : (thermEval d).body.links = d.body.links :=
  eq_of_sans (·.body.links) (sansThermal_thermEval d) (fun _ => rfl)

/-- The device without what the settings put in force: stored words and the items of the board. -/
def sansSettings (d : Dev) : Dev :=
  modBody (fun b => { b with
    ctl := []
    board := { b.board with tileMap := [], hbmLive := [], gddrLive := 0, laneOut := [], hostItem := 0 } }) d

@[simp] theorem sansSettings_ctlSetN (o v : Nat) (d : Dev) : sansSettings (ctlSetN o v d) = sansSettings d := rfl

theorem sansSettings_setItems (tiles hbm lanes : Tbl Nat) (gddr host : Nat) (d : Dev) :
    sansSettings (modBody (fun b => { b with board := { b.board with
      tileMap := tiles, hbmLive := hbm, gddrLive := gddr, laneOut := lanes, hostItem := host } }) d) = sansSettings d := rfl

@[simp] theorem sansSettings_putRegs (v : List Byte) (l : List (Nat × Nat)) (d : Dev) :
    sansSettings (putRegs v l d) = sansSettings d :=
  foldl_keeps (f := fun e (x : (Nat × Nat) × Nat) => ctlSetN x.1.1 (leAt v (4 * x.2) 4 &&& x.1.2) e) sansSettings
    (fun _ _ => rfl) l.zipIdx d

theorem sansSettings_portWrites (w : Nat → Nat) (d : Dev) :
    sansSettings (forN 6 (fun p e => ctlSetN (lkOff p 0x40) (w p) e) d) = sansSettings d :=
  foldl_keeps (f := fun e p => ctlSetN (lkOff p 0x40) (w p) e) sansSettings (fun _ _ => rfl) (List.range 6) d

/-- Putting the settings in force writes stored words and the items of the board alone. -/
theorem sansSettings_applySettings (d : Dev) : sansSettings (applySettings d) = sansSettings d := by
  unfold applySettings
  simp only [sansSettings_ctlSetN]
  split
  · rw [sansSettings_portWrites]
    split
    · rw [sansSettings_putRegs, sansSettings_setItems]
    · rw [sansSettings_setItems]
  · split
    · rw [sansSettings_putRegs, sansSettings_setItems]
    · rw [sansSettings_setItems]

theorem applySettings_power (d : Dev) : (applySettings d).power = d.power :=
  eq_of_sans (·.power) (sansSettings_applySettings d) (fun _ => rfl)

/-! ## Steps 6 to 12 (R350, R364 to R366, R371) -/

/-- Main power is switched on. -/
def mainUp (d : Dev) : Dev :=
  modPower (fun p => { p with mainOn := true, held := false, operate := true, stageFault := 0 }) d

/-- The fabric's 24 links, each training. -/
def trainingLinks : Tbl LinkSt := (List.range 24).map (fun l => (l, { LinkSt.z with state := lkTraining }))

/-- Steps 9 to 11: the links train, the host function is ready, and a device with TREF deals. -/
def linksUp (b : BootIn) (d : Dev) : Dev :=
  let d := modBody (fun y => { y with
    links := trainingLinks
    hl := { y.hl with ready := true }
    tb := { y.tb with tref := b.tref, locked := b.tref, running := true } }) d
  if b.tref then source d else d

theorem trainingLinks_state {l : Nat} (hl : l < 24) : (tget LinkSt.z trainingLinks l).state = lkTraining := by
  revert l
  decide

/-- Of the device the links, the readiness of the host function and the time base are written. -/
theorem linksUp_dev (b : BootIn) (d : Dev) :
    linksUp b d = modBody (fun y => { y with
      links := trainingLinks, hl := { y.hl with ready := true }, tb := (linksUp b d).body.tb }) d := by
  unfold linksUp
  dsimp only
  split <;> rfl

theorem bringUp_of_split {b : BootIn} {d : Dev} (h : d.power.splitWhy ≠ 0) :
    bringUp b d = modPower (fun p => { p with phase := 6 }) (splitSettings (mainUp d)) := if_pos h

theorem bringUp_of_elected {b : BootIn} {d : Dev} (h : d.power.splitWhy = 0) :
    bringUp b d = thermEval (modPower (fun p => { p with phase := 5 }) (linksUp b (applySettings (mainUp d)))) :=
  if_neg (not_not_intro h)

theorem standing_thermEval (d : Dev) : standing (thermEval d) = standing d :=
  eq_of_sans standing (sansThermal_thermEval d) (fun _ => rfl)

theorem standing_applySettings (d : Dev) : standing (applySettings d) = standing d :=
  eq_of_sans standing (sansSettings_applySettings d) (fun _ => rfl)

theorem standing_linksUp (b : BootIn) (d : Dev) : standing (linksUp b d) = standing d := by rw [linksUp_dev]; rfl

theorem standing_bringUp (b : BootIn) (d : Dev) : standing (bringUp b d) = standing d := by
  by_cases h : d.power.splitWhy = 0
  · calc standing (bringUp b d)
      _ = standing (linksUp b (applySettings (mainUp d))) := by rw [bringUp_of_elected h, standing_thermEval]; rfl
      _ = standing d := by rw [standing_linksUp, standing_applySettings]; rfl
  · rw [bringUp_of_split h]; rfl

/-- With a master elected the host function is ready, the links train and the phase is READY. -/
theorem bringUp_ready {b : BootIn} {d : Dev} (h : d.power.splitWhy = 0) :
    (bringUp b d).power.phase = 5 ∧ (bringUp b d).power.mainOn = true ∧ (bringUp b d).body.hl.ready = true
      ∧ ∀ l, l < 24 → (getLink (bringUp b d) l).state = lkTraining := by
  rw [bringUp_of_elected h, linksUp_dev]
  refine ⟨?_, ?_, ?_, fun l hl => ?_⟩
  · rw [thermEval_phase]; rfl
  · rw [thermEval_mainOn, modPower_power, modBody_power, applySettings_power]; rfl
  · rw [thermEval_hl]; rfl
  · rw [getLink, thermEval_links]; exact trainingLinks_state hl

/-! ## Step 5 (R350, R419) -/

theorem powerUp_of_lockout {b : BootIn} {d : Dev} (h : d.power.lockout = true) :
    powerUp b d = modPower (fun p => { p with phase := 3, held := true }) (modFault false d) := if_pos h

theorem powerUp_of_noLockout {b : BootIn} {d : Dev} (h : d.power.lockout = false) :
    powerUp b d = bringUp b (modFault false d) := if_neg (by simp [modFault, h])

/-- Step 5 and after it write MOD_FAULT_N alone of what stands since the election. -/
theorem standing_powerUp (b : BootIn) (d : Dev) : standing (powerUp b d) = { standing d with modFault := false } := by
  cases h : d.power.lockout with
  | true => rw [powerUp_of_lockout h]; rfl
  | false => rw [powerUp_of_noLockout h, standing_bringUp]; rfl

theorem powerUp_splitWhy (b : BootIn) (d : Dev) : (powerUp b d).power.splitWhy = d.power.splitWhy :=
  congrArg Standing.splitWhy (standing_powerUp b d)
theorem powerUp_override (b : BootIn) (d : Dev) : (powerUp b d).power.override = d.power.override :=
  congrArg Standing.override (standing_powerUp b d)
theorem powerUp_lockout (b : BootIn) (d : Dev) : (powerUp b d).power.lockout = d.power.lockout :=
  congrArg Standing.lockout (standing_powerUp b d)
theorem powerUp_taken (b : BootIn) (d : Dev) : (powerUp b d).sec.taken = d.sec.taken :=
  congrArg Standing.taken (standing_powerUp b d)
theorem powerUp_nor (b : BootIn) (d : Dev) : (powerUp b d).body.board.nor = d.body.board.nor :=
  congrArg Standing.nor (standing_powerUp b d)
theorem powerUp_modFault (b : BootIn) (d : Dev) : (powerUp b d).body.board.modFault = false :=
  congrArg Standing.modFault (standing_powerUp b d)

/-- In SPLIT no event is raised from step 5 on. -/
theorem powerUp_pages_of_split {b : BootIn} {d : Dev} (h : d.power.splitWhy ≠ 0) :
    (powerUp b d).body.pages = d.body.pages := by
  cases hlock : d.power.lockout with
  | true => rw [powerUp_of_lockout hlock]; rfl
  | false => rw [powerUp_of_noLockout hlock, bringUp_of_split (d := modFault false d) h]; rfl

/-- From step 5 on a device without main power comes to SPLIT or READY, or waits for the end of the lockout. -/
theorem powersUp_powerUp (s : State) (b : BootIn) {d : Dev} (hoff : d.power.mainOn = false) :
    PowersUp (commitAll s (powerUp b d)) := by
  have hlockout := powerUp_lockout b d
  have hwhy := powerUp_splitWhy b d
  refine ⟨fun hlock => ?locked, fun hlock hsplit => ?split, fun hlock hsplit => ?elected⟩
  case locked =>
    rw [powerUp_of_lockout (hlockout.symm.trans hlock)]
    exact ⟨rfl, rfl, hoff⟩
  case split =>
    have hsplit : d.power.splitWhy ≠ 0 := fun h => hsplit (hwhy.trans h)
    rw [powerUp_of_noLockout (hlockout.symm.trans hlock), bringUp_of_split (d := modFault false d) hsplit]
    exact ⟨rfl, rfl⟩
  case elected =>
    rw [powerUp_of_noLockout (hlockout.symm.trans hlock)]
    exact bringUp_ready (d := modFault false d) (hwhy.symm.trans hsplit)

/-! ## Steps 1 to 4 (R332, R361, R363, R370) -/

/-- The device after the election: the straps are noted, and whom it named or why it named none. -/
def elected (b : BootIn) (d : Dev) : Dev :=
  modPower (fun p => { p with master := (election d b).1, splitWhy := (election d b).2, phase := 0 })
    (modBody (fun y => { y with board := { y.board with straps := b, mgAddr := b.mgAddr.val } }) d)

/-- FALLBACK is raised where an older slot, or none, is used (R361). -/
def noteFallback (d : Dev) : Dev := if fallback d then pwEvent evFallback d else d

@[simp] theorem noteFallback_power (d : Dev) : (noteFallback d).power = d.power := by
  unfold noteFallback
  split
  · rw [pwEvent_power]
  · rfl
@[simp] theorem noteFallback_board (d : Dev) : (noteFallback d).body.board = d.body.board := by
  unfold noteFallback
  split
  · rw [pwEvent_board]
  · rfl

/-- The device before it measures: the settings slot is chosen, and a fallback is raised. -/
def settled (b : BootIn) (d : Dev) : Dev :=
  noteFallback (modPower (fun p => { p with settings := slotUsed (elected b d), phase := 2 }) (elected b d))

/-- The device once measurements 1 to 3 are taken. -/
def atBoot (b : BootIn) (d : Dev) : Dev := takeMeasures (emfenImage (settled b d) b) (settled b d)

/-- Whether the Emfen image on a side verifies: B or A. -/
def verifies (b : BootIn) (x : Bool) : Bool := if x then b.emfenB else b.emfenA

theorem emfenImage_eq (d : Dev) (b : BootIn) :
    emfenImage d b = if verifies b (emfenPrefers d) then some (emfenPrefers d)
      else if verifies b (!emfenPrefers d) then some !emfenPrefers d else none := rfl

/-- Measurements 1 to 3 of a device: the boot ROM, the image that is preferred and verifies, else the other one that does,
and the settings record. -/
def measurements (b : BootIn) (d : Dev) : List Dword :=
  let west := emfenPrefers d
  let code := fun (x : Bool) => Config.digest 2 (norContent d (imageBase x) 0x1000000)
  [Config.digest 1 [], if verifies b west then code west else if verifies b (!west) then code (!west) else 0, recordDigest d]

theorem measurements_congr {d e : Dev} (h : e.body.board.nor = d.body.board.nor) (b : BootIn) :
    measurements b e = measurements b d := by
  simp only [measurements, emfenPrefers_congr h, norContent_congr h, recordDigest_congr h]

theorem takeMeasures_taken (b : BootIn) (d : Dev) : (takeMeasures (emfenImage d b) d).sec.taken = measurements b d := by
  simp only [takeMeasures, measurements, emfenImage_eq]
  by_cases hpref : verifies b (emfenPrefers d) = true
  · rw [if_pos hpref, if_pos hpref]
  · by_cases hother : verifies b (!emfenPrefers d) = true
    · rw [if_neg hpref, if_neg hpref, if_pos hother, if_pos hother]
    · rw [if_neg hpref, if_neg hpref, if_neg hother, if_neg hother]

@[simp] theorem takeMeasures_power (image : Option Bool) (d : Dev) : (takeMeasures image d).power = d.power := rfl
@[simp] theorem takeMeasures_body (image : Option Bool) (d : Dev) : (takeMeasures image d).body = d.body := rfl

/-- An image is loaded when one verifies (R363). -/
theorem emfenImage_isSome (b : BootIn) (d : Dev) : (emfenImage d b).isSome = true ↔ b.emfenA = true ∨ b.emfenB = true := by
  cases hp : emfenPrefers d with
  | false => by_cases hA : b.emfenA = true <;> simp [emfenImage, hp, hA]
  | true => by_cases hB : b.emfenB = true <;> simp [emfenImage, hp, hB]

theorem settled_power (b : BootIn) (d : Dev) :
    (settled b d).power = { (elected b d).power with settings := slotUsed (elected b d), phase := 2 } := by
  rw [settled, noteFallback_power, modPower_power]

theorem settled_board (b : BootIn) (d : Dev) : (settled b d).body.board = (elected b d).body.board := by
  rw [settled, noteFallback_board, modPower_body]

theorem atBoot_power (b : BootIn) (d : Dev) :
    (atBoot b d).power = { (elected b d).power with settings := slotUsed (elected b d), phase := 2 } := by
  rw [atBoot, takeMeasures_power, settled_power]

theorem atBoot_board (b : BootIn) (d : Dev) : (atBoot b d).body.board = (elected b d).body.board := by
  rw [atBoot, takeMeasures_body, settled_board]

theorem atBoot_taken (b : BootIn) (d : Dev) : (atBoot b d).sec.taken = measurements b (atBoot b d) := by
  have hnor : (atBoot b d).body.board.nor = (settled b d).body.board.nor := by rw [atBoot, takeMeasures_body]
  rw [measurements_congr hnor, atBoot, takeMeasures_taken]

/-! ## The start-up (R361 to R366, R370, R371) -/

theorem startUp_eq (b : BootIn) (d : Dev) :
    startUp b d = if (election d b).2 ≠ 0 then powerUp b (pwEvent evSplit (elected b d))
      else if (emfenImage (atBoot b d) b).isSome then powerUp b (atBoot b d) else modFault true (atBoot b d) := rfl

theorem startUp_of_split {b : BootIn} {d : Dev} (h : (election d b).2 ≠ 0) :
    startUp b d = powerUp b (pwEvent evSplit (elected b d)) := by rw [startUp_eq, if_pos h]

theorem startUp_of_image {b : BootIn} {d : Dev} (h : (election d b).2 = 0) (himage : b.emfenA = true ∨ b.emfenB = true) :
    startUp b d = powerUp b (atBoot b d) := by
  rw [startUp_eq, if_neg (not_not_intro h), if_pos ((emfenImage_isSome b _).mpr himage)]

theorem startUp_of_noImage {b : BootIn} {d : Dev} (h : (election d b).2 = 0) (himage : ¬ (b.emfenA = true ∨ b.emfenB = true)) :
    startUp b d = modFault true (atBoot b d) := by
  rw [startUp_eq, if_neg (not_not_intro h), if_neg (himage ∘ (emfenImage_isSome b _).mp)]

/-- The start-up powers up from the device that was elected, with its measurements where there is a master, or it stops for
want of an image. -/
theorem startUp_cases (b : BootIn) (d : Dev) :
    ((election d b).2 ≠ 0 ∧ startUp b d = powerUp b (pwEvent evSplit (elected b d)))
    ∨ ((election d b).2 = 0 ∧ (b.emfenA = true ∨ b.emfenB = true) ∧ startUp b d = powerUp b (atBoot b d))
    ∨ ((election d b).2 = 0 ∧ ¬ (b.emfenA = true ∨ b.emfenB = true) ∧ startUp b d = modFault true (atBoot b d)) := by
  by_cases h : (election d b).2 = 0
  · by_cases himage : b.emfenA = true ∨ b.emfenB = true
    · exact .inr (.inl ⟨h, himage, startUp_of_image h himage⟩)
    · exact .inr (.inr ⟨h, himage, startUp_of_noImage h himage⟩)
  · exact .inl ⟨h, startUp_of_split h⟩

theorem standing_atBoot (b : BootIn) (d : Dev) :
    standing (atBoot b d) = { standing (elected b d) with taken := (atBoot b d).sec.taken } := by
  simp only [standing, atBoot_power, atBoot_board]

/-- Of what stands since the election the start-up writes whom the election named or why none, the measurements and
MOD_FAULT_N. -/
theorem standing_startUp (b : BootIn) (d : Dev) : ∃ taken low,
    standing (startUp b d) =
      { standing d with master := (election d b).1, splitWhy := (election d b).2, taken := taken, modFault := low } := by
  obtain ⟨-, h⟩ | ⟨-, -, h⟩ | ⟨-, -, h⟩ := startUp_cases b d
  · exact ⟨d.sec.taken, false, by rw [h, standing_powerUp, standing_pwEvent]; rfl⟩
  · exact ⟨(atBoot b d).sec.taken, false, by rw [h, standing_powerUp, standing_atBoot]; rfl⟩
  · exact ⟨(atBoot b d).sec.taken, true, by rw [h, standing_modFault, standing_atBoot]; rfl⟩

theorem startUp_master (b : BootIn) (d : Dev) : (startUp b d).power.master = (election d b).1 := by
  obtain ⟨_, _, h⟩ := standing_startUp b d
  exact congrArg Standing.master h
theorem startUp_splitWhy (b : BootIn) (d : Dev) : (startUp b d).power.splitWhy = (election d b).2 := by
  obtain ⟨_, _, h⟩ := standing_startUp b d
  exact congrArg Standing.splitWhy h
theorem startUp_override (b : BootIn) (d : Dev) : (startUp b d).power.override = d.power.override := by
  obtain ⟨_, _, h⟩ := standing_startUp b d
  exact congrArg Standing.override h
theorem startUp_lastRst (b : BootIn) (d : Dev) : (startUp b d).power.lastRst = d.power.lastRst := by
  obtain ⟨_, _, h⟩ := standing_startUp b d
  exact congrArg Standing.lastRst h

/-- SPLIT is raised where the election names no master (R371). -/
theorem startUp_raises_split {b : BootIn} {d : Dev} (h : (election d b).2 ≠ 0) :
    bitAt (getPage (startUp b d) (pageBase 9 0)).raw.toNat 7 = true := by
  have hpages : (startUp b d).body.pages = (pwEvent evSplit (elected b d)).body.pages := by
    have hsplit : (pwEvent evSplit (elected b d)).power.splitWhy ≠ 0 := by rw [pwEvent_power]; exact h
    rw [startUp_of_split h, powerUp_pages_of_split hsplit]
  rw [getPage, hpages]
  exact event_raw 9 0 7 (by omega) (elected b d)

/-- In SPLIT, and with an image that verifies, the start-up powers up and releases MOD_FAULT_N. -/
theorem startUp_powersUp (s : State) {b : BootIn} {d : Dev} (hoff : d.power.mainOn = false)
    (h : (election d b).2 ≠ 0 ∨ b.emfenA = true ∨ b.emfenB = true) :
    PowersUp (commitAll s (startUp b d)) ∧ (startUp b d).body.board.modFault = false := by
  obtain ⟨e, he, hmain⟩ : ∃ e, startUp b d = powerUp b e ∧ e.power.mainOn = false := by
    obtain ⟨-, hs⟩ | ⟨-, -, hs⟩ | ⟨hwhy, hnone, -⟩ := startUp_cases b d
    · exact ⟨_, hs, by rw [pwEvent_power]; exact hoff⟩
    · exact ⟨_, hs, by rw [atBoot_power]; exact hoff⟩
    · exact absurd h (not_or_intro (not_not_intro hwhy) hnone)
  rw [he]
  exact ⟨powersUp_powerUp s b hmain, powerUp_modFault b e⟩

/-- With a master and no image the start-up stops in phase FIRMWARE (R363, R419). -/
theorem startUp_stops {b : BootIn} {d : Dev} (hoff : d.power.mainOn = false) (h : (election d b).2 = 0)
    (himage : ¬ (b.emfenA = true ∨ b.emfenB = true)) :
    (startUp b d).power.phase = 2 ∧ (startUp b d).power.mainOn = false ∧ (startUp b d).body.board.modFault = true := by
  rw [startUp_of_noImage h himage, modFault_power, modFault_modFault, atBoot_power]
  exact ⟨rfl, hoff, rfl⟩

/-- With a master the measurements are those of the image that is loaded and of the settings in use (R332). -/
theorem startUp_taken {b : BootIn} {d : Dev} (h : (election d b).2 = 0) :
    (startUp b d).sec.taken = measurements b (startUp b d) := by
  obtain ⟨htaken, hnor⟩ : (startUp b d).sec.taken = (atBoot b d).sec.taken
      ∧ (startUp b d).body.board.nor = (atBoot b d).body.board.nor := by
    by_cases himage : b.emfenA = true ∨ b.emfenB = true
    · rw [startUp_of_image h himage]
      exact ⟨powerUp_taken .., powerUp_nor ..⟩
    · rw [startUp_of_noImage h himage, modFault_sec]
      exact ⟨rfl, modFault_nor ..⟩
  rw [htaken, atBoot_taken, measurements_congr hnor]

/-- A start-up from main power off elects, measures and powers up as Table PW-5 lists. -/
theorem startedUp_startUp (s : State) (b : BootIn) {d : Dev} (hoff : d.power.mainOn = false) :
    StartedUp b (commitAll s (startUp b d)) := by
  have hmaster := startUp_master b d
  have hwhy := startUp_splitWhy b d
  have hover := startUp_override b d
  refine ⟨fun hside => ?noSideband, fun hside hnone hclaim => ?equal, fun hside hnone hclaim => ?one,
    fun hside hnamed => ?named, fun hsplit => ?raised, fun h => ?powersUp, fun h => ?released,
    fun hone hA hB => ?stops, fun hone => ?taken⟩
  case noSideband => exact hwhy.trans (by rw [election_of_noSideband hside])
  case equal => exact hwhy.trans (by rw [election_of_equalClaims hside (hover.symm.trans hnone) hclaim])
  case one =>
    rw [election_of_oneClaim hside (hover.symm.trans hnone) hclaim] at hmaster hwhy
    exact ⟨hwhy, hmaster⟩
  case named =>
    have hoverride : (commitAll s (startUp b d)).dev.power.override = d.power.override := hover
    rw [hoverride] at hnamed ⊢
    rw [election_of_override hside hnamed] at hmaster hwhy
    exact ⟨hwhy, hmaster⟩
  case raised => exact startUp_raises_split (fun h => hsplit (hwhy.trans h))
  case powersUp => exact (startUp_powersUp s hoff (h.imp_left fun hsplit hzero => hsplit (hwhy.trans hzero))).1
  case released => exact (startUp_powersUp s hoff (h.imp_left fun hsplit hzero => hsplit (hwhy.trans hzero))).2
  case stops => exact startUp_stops hoff (hwhy.symm.trans hone) (by simp [hA, hB])
  case taken =>
    have hsame : measurements b (commitAll s (startUp b d)).dev = measurements b (startUp b d) :=
      measurements_congr (congrArg (·.board.nor) (commitAll_body s _)) b
    exact (startUp_taken (hwhy.symm.trans hone)).trans hsame.symm

/-! ## The common part of the resets (R331, R350, R367) -/

@[simp] theorem eraseFlash_power (q : Nat) (d : Dev) : (eraseFlash q d).power = d.power :=
  foldl_keeps (f := fun e i => setZone (2048 * q + i) Zone.z e) (·.power) (fun _ _ => rfl) _ _
@[simp] theorem eraseFlash_board (q : Nat) (d : Dev) : (eraseFlash q d).body.board = d.body.board :=
  foldl_keeps (f := fun e i => setZone (2048 * q + i) Zone.z e) (·.body.board) (fun _ _ => rfl) _ _

@[simp] theorem sampleLife_power (d : Dev) : (sampleLife d).power = d.power := by
  unfold sampleLife
  dsimp only
  split
  · rw [foldl_keeps (f := fun e q => eraseFlash q e) (·.power) (fun _ _ => eraseFlash_power _ _)]
  · rfl
@[simp] theorem sampleLife_board (d : Dev) : (sampleLife d).body.board = d.body.board := by
  unfold sampleLife
  dsimp only
  split
  · rw [foldl_keeps (f := fun e q => eraseFlash q e) (·.body.board) (fun _ _ => eraseFlash_board _ _)]
  · rfl

theorem resetBody_rstLow (wide : Bool) (b : Body) : (resetBody wide b).board.rstLow = b.board.rstLow := by
  cases wide <;> rfl

@[simp] theorem newNonce_power (d : Dev) : (newNonce d).power = d.power := by rw [newNonce, ctlSetN_power]; rfl
@[simp] theorem newNonce_board (d : Dev) : (newNonce d).body.board = d.body.board := by rw [newNonce, ctlSetN_board]; rfl
@[simp] theorem restart_power (d : Dev) : (restart d).power = d.power := rfl
@[simp] theorem restart_body (d : Dev) : (restart d).body = d.body := rfl

/-- A reset of a kind leaves the power state of that kind, with main power off. -/
theorem resetAll_power (kind : Nat) (d : Dev) : (resetAll kind d).power = { resetPower kind d.power with mainOn := false } := by
  simp only [resetAll, newNonce_power, ctlSetN_power, modPower_power, restart_power, memLost_power]
  split
  · rfl
  · rw [sampleLife_power]

/-- SYS_RST_N is a pin: no reset moves it. -/
theorem resetAll_rstLow (kind : Nat) (d : Dev) : (resetAll kind d).body.board.rstLow = d.body.board.rstLow := by
  simp only [resetAll, newNonce_board, ctlSetN_board, modPower_body, restart_body, memLost_body, resetBody_rstLow]
  split
  · rfl
  · rw [sampleLife_board]

theorem resetPower_lastRst (kind : Nat) (p : PowerSt) : (resetPower kind p).lastRst = kind := by
  unfold resetPower
  split
  · next h => exact h.symm
  · rfl

/-- Only a COLD reset clears the override (R372, Table PW-6). -/
theorem resetPower_override (kind : Nat) (p : PowerSt) :
    (resetPower kind p).override = if kind = 0 then 0 else p.override := by
  unfold resetPower
  split
  · next h => simp [h]
  · rfl

theorem resetAll_mainOn (kind : Nat) (d : Dev) : (resetAll kind d).power.mainOn = false := by rw [resetAll_power]
theorem resetAll_lastRst (kind : Nat) (d : Dev) : (resetAll kind d).power.lastRst = kind := by
  rw [resetAll_power]; exact resetPower_lastRst ..
theorem resetAll_override (kind : Nat) (d : Dev) :
    (resetAll kind d).power.override = if kind = 0 then 0 else d.power.override := by
  rw [resetAll_power]; exact resetPower_override ..

/-! ## A reset that runs the start-up (R364, R368) -/

section
variable {d : Dev} (hlow : d.body.board.rstLow = false)
include hlow

theorem resetRun_of_high (kind : Nat) (b : BootIn) : resetRun kind b d = startUp b (resetAll kind d) := by
  simp [resetRun, resetAll_rstLow, hlow]

theorem resetRun_lastRst (kind : Nat) (b : BootIn) : (resetRun kind b d).power.lastRst = kind := by
  rw [resetRun_of_high hlow, startUp_lastRst, resetAll_lastRst]

theorem resetRun_override (kind : Nat) (b : BootIn) :
    (resetRun kind b d).power.override = if kind = 0 then 0 else d.power.override := by
  rw [resetRun_of_high hlow, startUp_override, resetAll_override]

theorem startedUp_resetRun (s : State) (kind : Nat) (b : BootIn) : StartedUp b (commitAll s (resetRun kind b d)) := by
  rw [resetRun_of_high hlow]
  exact startedUp_startUp s b (resetAll_mainOn kind d)

end

theorem mainReset_eq (b : BootIn) (d : Dev) :
    mainReset b d = if (resetAll 2 d).power.splitWhy ≠ 0 then powerUp b (resetAll 2 d)
      else powerUp b (takeRecord (noteFallback
        (modPower (fun p => { p with settings := slotUsed (resetAll 2 d) }) (resetAll 2 d)))) := rfl

@[simp] theorem takeRecord_power (d : Dev) : (takeRecord d).power = d.power := rfl

/-- A MAIN reset keeps the override. -/
theorem mainReset_override (b : BootIn) (d : Dev) : (mainReset b d).power.override = d.power.override := by
  have hreset : (resetAll 2 d).power.override = d.power.override := resetAll_override 2 d
  rw [mainReset_eq]
  split
  · rw [powerUp_override, hreset]
  · rw [powerUp_override, takeRecord_power, noteFallback_power, modPower_power, hreset]

/-! ## The rows that reset the device (R356, R368, R372, R420) -/

theorem exec_coldReset (b : BootIn) (s : State) :
    exec (.coldReset b) s = .next (commitAll s (resetRun 0 b (fresh s.dev))) := rfl

theorem exec_sysrst {r : Req} (h : MgmtWrite s r (pwOff 0x40)) (b : BootIn) :
    exec (.sysrst r b) s = .next (commitAll s (resetRun 1 b (fresh s.dev))) :=
  congrArg (fun e => Host.Outcome.next (commitAll s e)) (access_of_mgmtWrite h ..)

/-- A write of `PW_CTRL.MAIN` with SYS_RST_N high is refused, or the MAIN reset runs (R356, R368). -/
theorem exec_main {s : State} {r : Req} (h : MgmtWrite s r (pwOff 0x40)) (hlow : s.dev.body.board.rstLow = false)
    (b : BootIn) :
    exec (.main r b) s = .next (commitAll s
      (if (fresh s.dev).power.mainOn = true ∨ (fresh s.dev).power.lockout = true ∨ (fresh s.dev).power.phase = 2
        then refuse r (pageBase 9 0) (pwOff 0x40) cState true (fresh s.dev) else mainReset b (fresh s.dev))) := by
  have hbits : bitAt 1 1 = false ∧ bitAt 1 0 = true := by decide
  refine (congrArg (fun e => Host.Outcome.next (commitAll s e)) (access_of_mgmtWrite h ..)).trans ?_
  simp only [hbits, fresh_board, hlow, Bool.and_false, Bool.false_eq_true, if_false, if_true]

theorem exec_main_override {s s' : State} {r : Req} (h : MgmtWrite s r (pwOff 0x40))
    (hlow : s.dev.body.board.rstLow = false) {b : BootIn} (hexec : exec (.main r b) s = .next s') :
    s'.dev.power.override = s.dev.power.override := by
  obtain rfl := Host.Outcome.next.inj ((exec_main h hlow b).symm.trans hexec)
  rw [commitAll_override]
  split
  · rw [refuse_power, fresh_power]
  · rw [mainReset_override, fresh_power]

theorem exec_pwElect {s : State} {r : Req} (h : Passes s r (pwOff 0x64) 4 true) (v : Word) (b : BootIn) :
    exec (.pwElect r v b) s = .next (commitAll s (pwElect r v.toNat b (fresh s.dev))) :=
  congrArg (fun e => Host.Outcome.next (commitAll s e)) (access_of_passes h ..)

theorem exec_smbusElectWrite (v : Byte) (b : BootIn) (s : State) :
    exec (.smbusElectWrite v b) s =
      .next (commitAll s (if s.dev.power.phase = 6 then elect v.toNat b (fresh s.dev) else fresh s.dev)) := rfl

theorem pwElect_outside_split {d : Dev} (h : d.power.phase ≠ 6) (r : Req) (v : Nat) (b : BootIn) :
    pwElect r v b d = refuse r (pageBase 9 0) (pwOff 0x64) cState true d := if_pos h

/-- In SPLIT a write of the host or of management names a master. -/
theorem pwElect_in_split {d : Dev} {r : Req} (h : d.power.phase = 6) (hr : r = .host ∨ isMgmt d r = true) (v : Nat)
    (b : BootIn) : pwElect r v b d = elect v b d := by
  rw [pwElect, if_neg (not_not_intro h)]
  split
  · rfl
  · next hhost => rw [mgmtOnly, if_pos (hr.resolve_left hhost)]

theorem elect_of_master {v : Nat} (h : v % 4 = 1 ∨ v % 4 = 2) (b : BootIn) (d : Dev) :
    elect v b d = resetRun 1 b (modPower (fun p => { p with override := v % 4 }) d) := if_pos h

theorem elect_of_none {v : Nat} (h1 : v % 4 ≠ 1) (h2 : v % 4 ≠ 2) (b : BootIn) (d : Dev) : elect v b d = d :=
  if_neg (not_or_intro h1 h2)

/-- A master named sets the override, and the SYSTEM reset runs the start-up under it. -/
theorem elect_resets (s : State) {v : Nat} (h : v % 4 = 1 ∨ v % 4 = 2) (b : BootIn) {d : Dev}
    (hlow : d.body.board.rstLow = false) :
    (commitAll s (elect v b d)).pending = s.pending ∧ (commitAll s (elect v b d)).dev.power.lastRst = 1
      ∧ (commitAll s (elect v b d)).dev.power.override = v % 4 ∧ StartedUp b (commitAll s (elect v b d)) := by
  rw [elect_of_master h]
  have hlow : (modPower (fun p => { p with override := v % 4 }) d).body.board.rstLow = false := hlow
  exact ⟨rfl, resetRun_lastRst hlow 1 b, resetRun_override hlow 1 b, startedUp_resetRun hlow s 1 b⟩

/-! ## The statement -/

/-- Settles O54: in SPLIT both writes come to `elect`, which resets under the new override or does nothing; of the resets
only a COLD one clears the override. -/
theorem electionInSplit : Obligations.ElectionInSplit := by
  intro b s hlow isElected
  have hfresh : (fresh s.dev).body.board.rstLow = false := hlow
  refine ⟨fun r v hpass hwho => ⟨fun hsplit hv => ?named, fun hsplit h1 h2 => ?ignored, fun hout => ?refused⟩,
    fun v => ⟨fun hsplit hv => ?busNamed, fun hsplit h1 h2 => ?busIgnored, fun hout => ?busOutside⟩,
    ⟨_, exec_coldReset b s, ?cold⟩, fun r hwrite => ⟨⟨_, exec_sysrst hwrite b, ?sysrst⟩, ⟨_, exec_main hwrite hlow b, ?main⟩⟩⟩
  case named =>
    refine ⟨_, exec_pwElect hpass v b, ?_⟩
    rw [pwElect_in_split (d := fresh s.dev) hsplit hwho]
    exact elect_resets s hv b hfresh
  case ignored => rw [DoesAll, exec_pwElect hpass, pwElect_in_split (d := fresh s.dev) hsplit hwho, elect_of_none h1 h2, id]
  case refused => rw [DoesAll, exec_pwElect hpass, pwElect_outside_split (d := fresh s.dev) hout]
  case busNamed =>
    refine ⟨_, exec_smbusElectWrite v b s, ?_⟩
    rw [if_pos hsplit]
    exact elect_resets s hv b hfresh
  case busIgnored => rw [DoesAll, exec_smbusElectWrite, if_pos hsplit, elect_of_none h1 h2, id]
  case busOutside => rw [DoesAll, exec_smbusElectWrite, if_neg hout, id]
  case cold => exact resetRun_override hfresh 0 b
  case sysrst => exact resetRun_override hfresh 1 b
  case main => exact exec_main_override hwrite hlow (exec_main hwrite hlow b)

end Sys2Proof.Machine

/-! # SYS_RST_N (R367, R368, R417)

What a wide reset, COLD or SYSTEM, leaves: the contents of memory, the life cycle, the power state and the blocks. What of
the pins and of the life cycle the start-up leaves alone. Then the statement. -/

namespace Sys2Proof.Machine

open Sys2Proof.Claims

/-! ## The contents of memory are lost (R350, R367) -/

/-- A key that no entry has reads as an unlisted one, in order or not. -/
theorem tget_of_absent {α : Type} (x : α) {t : Tbl α} {i : Nat} (h : ∀ p ∈ t, p.1 ≠ i) : tget x t i = x := by
  induction t with
  | nil => rfl
  | cons p r ih =>
    have hp : i ≠ p.1 := (h p List.mem_cons_self).symm
    have hr : tget x r i = x := ih fun q hq => h q (List.mem_cons_of_mem _ hq)
    simp only [tget, if_neg hp, hr, ite_self]

/-- The entries that a clear of a range leaves are those outside it. -/
theorem mem_dropRange {α : Type} {t : Tbl α} {lo n : Nat} {p : Nat × α} :
    p ∈ dropRange t lo n ↔ p ∈ t ∧ (p.1 < lo ∨ lo + n ≤ p.1) := by
  simp [dropRange]

/-- What the loss of main power does to memory: three ranges are cleared, and the keys are gone. -/
def lossOps : List MemOp :=
  [MemOp.clear Config.hbmBase 0x006000000000, .clear Config.gddrBase (0x011200000000 - Config.gddrBase),
      .clear Config.sramBase (0x018028000000 - Config.sramBase)]
    ++ ((List.range 8).map (fun q => [MemOp.current q 0, .baseline q 0, .current (8 + q) 0])).flatten

theorem memDoAll_log (l : List MemOp) (d : Dev) : (memDoAll l d).log = d.log ++ l := by
  induction l generalizing d with
  | nil => exact (List.append_nil _).symm
  | cons o l ih =>
    calc (memDoAll (o :: l) d).log
        _ = (memDoAll l (memDo o d)).log := rfl
        _ = (d.log ++ [o]) ++ l := ih (memDo o d)
        _ = d.log ++ o :: l := by rw [List.append_assoc, List.singleton_append]

theorem memLost_log (d : Dev) : (memLost d).log = d.log ++ lossOps := memDoAll_log lossOps d

theorem lossOps_cells (m : Mem) : (applyOps m lossOps).cells =
    dropRange (dropRange (dropRange m.cells Config.hbmBase 0x006000000000)
      Config.gddrBase (0x011200000000 - Config.gddrBase)) Config.sramBase (0x018028000000 - Config.sramBase) := rfl

/-- Whatever a command did to memory before it, a loss of main power leaves HBM, GDDR7 and tile SRAM empty. -/
theorem memoryLost_of_log {s : State} {e : Dev} {l : List MemOp} (h : e.log = l ++ lossOps) :
    MemoryLost (commitAll s e) := by
  intro a ha
  have hcells : (commitAll s e).dev.mem.cells = (applyOps (applyOps s.dev.mem l) lossOps).cells := by
    rw [← applyOps_append, ← h]; rfl
  rw [hcells, lossOps_cells]
  refine tget_of_absent 0 fun p hp hpa => ?_
  obtain ⟨⟨⟨-, hhbm⟩, hgddr⟩, hsram⟩ : ((_ ∧ _) ∧ _) ∧ _ := by simpa only [mem_dropRange] using hp
  simp only [Config.hbmBase, Config.gddrBase, Config.sramBase] at ha hhbm hgddr hsram
  omega

/-! ## A wide reset (R27, R331, R333, R353, R367) -/

@[simp] theorem eraseFlash_sec (q : Nat) (d : Dev) : (eraseFlash q d).sec = d.sec :=
  foldl_keeps (f := fun e i => setZone (2048 * q + i) Zone.z e) (·.sec) (fun _ _ => rfl) _ _
@[simp] theorem memLost_sec (d : Dev) : (memLost d).sec = d.sec :=
  foldl_keeps (f := fun e o => memDo o e) (·.sec) (fun _ _ => rfl) lossOps d

/-- The life cycle once it is sampled: the transition that was asked for has fused, and debug and sessions are closed. -/
def sampled (x : SecSt) : SecSt :=
  { (match x.next with | some b => lcEffect x.lc b x | none => x) with
    lc := x.next.getD x.lc, next := none, unlocked := false, session := false, ide := false }

theorem sampleLife_sec (d : Dev) : (sampleLife d).sec = sampled d.sec := by
  unfold sampleLife
  dsimp only
  split
  · rw [foldl_keeps (f := fun e q => eraseFlash q e) (·.sec) (fun _ _ => eraseFlash_sec _ _)]; rfl
  · rfl

theorem resetBody_modFault (wide : Bool) (b : Body) : (resetBody wide b).board.modFault = b.board.modFault := by
  cases wide <;> rfl
theorem resetBody_jobs (wide : Bool) (b : Body) : (resetBody wide b).jobs = [] := by cases wide <;> rfl
theorem resetBody_hands (wide : Bool) (b : Body) : (resetBody wide b).hands = [] := by cases wide <;> rfl

@[simp] theorem newNonce_sec (d : Dev) : (newNonce d).sec = d.sec := rfl
@[simp] theorem newNonce_jobs (d : Dev) : (newNonce d).body.jobs = d.body.jobs := rfl
@[simp] theorem newNonce_hands (d : Dev) : (newNonce d).body.hands = d.body.hands := rfl
@[simp] theorem ctlSetN_sec (o v : Nat) (d : Dev) : (ctlSetN o v d).sec = d.sec := rfl
@[simp] theorem ctlSetN_jobs (o v : Nat) (d : Dev) : (ctlSetN o v d).body.jobs = d.body.jobs := rfl
@[simp] theorem ctlSetN_hands (o v : Nat) (d : Dev) : (ctlSetN o v d).body.hands = d.body.hands := rfl
@[simp] theorem modPower_sec (f : PowerSt → PowerSt) (d : Dev) : (modPower f d).sec = d.sec := rfl
@[simp] theorem restart_sec (d : Dev) : (restart d).sec = d.sec := rfl

/-- No job is loaded after a reset. -/
theorem resetAll_jobs (kind : Nat) (d : Dev) : (resetAll kind d).body.jobs = [] := by
  simp only [resetAll, newNonce_jobs, ctlSetN_jobs, modPower_body, restart_body, memLost_body, resetBody_jobs]

/-- Every hand is at its reset state after a reset. -/
theorem resetAll_hands (kind : Nat) (d : Dev) : (resetAll kind d).body.hands = [] := by
  simp only [resetAll, newNonce_hands, ctlSetN_hands, modPower_body, restart_body, memLost_body, resetBody_hands]

/-- MOD_FAULT_N stays as it is driven until step 5 (R419). -/
theorem resetAll_modFault (kind : Nat) (d : Dev) : (resetAll kind d).body.board.modFault = d.body.board.modFault := by
  simp only [resetAll, newNonce_board, ctlSetN_board, modPower_body, restart_body, memLost_body, resetBody_modFault]
  split
  · rfl
  · rw [sampleLife_board]

/-- The last that a reset does to memory is the loss of its contents. -/
theorem resetAll_log (kind : Nat) (d : Dev) : ∃ l, (resetAll kind d).log = l ++ lossOps :=
  ⟨_, memLost_log _⟩

section
variable {kind : Nat} (hwide : kind ≠ 2)
include hwide

theorem resetAll_sec_of_wide (d : Dev) : (resetAll kind d).sec = sampled d.sec := by
  simp only [resetAll, newNonce_sec, ctlSetN_sec, modPower_sec, restart_sec, memLost_sec, if_neg hwide, sampleLife_sec]

/-- Of the power page a wide reset keeps the lockout, the cause of main power off and the override, which a COLD reset
clears too (Table PW-6). -/
theorem resetAll_power_of_wide (d : Dev) : (resetAll kind d).power =
    { PowerSt.z with
      lastRst := kind, lockout := if kind = 0 then false else d.power.lockout
      offCause := if kind = 0 then 0 else d.power.offCause, override := if kind = 0 then 0 else d.power.override } := by
  rw [resetAll_power, resetPower, if_neg hwide]
  rfl

/-- What a wide reset leaves, begun from the life cycle and the power state that a command finds. -/
theorem wideReset_resetAll {s : State} {d : Dev} (hsec : d.sec = s.dev.sec) (hpower : d.power = s.dev.power) :
    WideReset kind s (commitAll s (resetAll kind d)) := by
  have hlife : (commitAll s (resetAll kind d)).dev.sec = sampled s.dev.sec :=
    (resetAll_sec_of_wide hwide d).trans (congrArg sampled hsec)
  have hnext : (commitAll s (resetAll kind d)).dev.power = normPower (resetAll kind d).power := rfl
  rw [resetAll_power_of_wide hwide, hpower] at hnext
  obtain ⟨_, hlog⟩ := resetAll_log kind d
  unfold WideReset
  rw [hlife, hnext]
  refine ⟨rfl, rfl, rfl, rfl, rfl, rfl, rfl, rfl, rfl, ⟨rfl, rfl, rfl, rfl⟩, fun q => ?jobs, fun t h => ?hands,
    memoryLost_of_log hlog, ?cold, ?system⟩
  case jobs => rw [getJob, commitAll_body, resetAll_jobs]; rfl
  case hands => rw [getHand, commitAll_body, resetAll_hands]; rfl
  case cold => rintro rfl; exact ⟨rfl, rfl, rfl⟩
  case system => rintro rfl; exact ⟨rfl, rfl, rfl⟩

end

/-! ## A reset while SYS_RST_N is low (R368, R417) -/

/-- The device waits for the release of SYS_RST_N: it is in phase ELECT with main power off, and drives MOD_FAULT_N as
before. -/
def Waits (s s' : State) : Prop :=
  s'.dev.body.board.rstLow = true ∧ s'.dev.power.phase = 0 ∧ s'.dev.power.mainOn = false
    ∧ s'.dev.body.board.modFault = s.dev.body.board.modFault

/-- A wide reset with SYS_RST_N low leaves the device waiting. -/
theorem waits_resetAll {kind : Nat} (hwide : kind ≠ 2) {s : State} {d : Dev} (hlow : d.body.board.rstLow = true)
    (hfault : d.body.board.modFault = s.dev.body.board.modFault) : Waits s (commitAll s (resetAll kind d)) := by
  refine ⟨(resetAll_rstLow kind d).trans hlow, ?phase, resetAll_mainOn kind d, (resetAll_modFault kind d).trans hfault⟩
  case phase =>
    have hphase : (resetAll kind d).power.phase = 0 := by rw [resetAll_power_of_wide hwide]; rfl
    exact hphase

/-- A reset that comes while SYS_RST_N is low does not run the start-up. -/
theorem resetRun_of_low {d : Dev} (hlow : d.body.board.rstLow = true) (kind : Nat) (b : BootIn) :
    resetRun kind b d = resetAll kind d := by
  simp [resetRun, resetAll_rstLow, hlow]

/-- A wide reset that a command asks for while SYS_RST_N is low is done, and its start-up waits. -/
theorem wideReset_waits_of_low {kind : Nat} (hwide : kind ≠ 2) {s : State} (hlow : s.dev.body.board.rstLow = true)
    (b : BootIn) : WideReset kind s (commitAll s (resetRun kind b (fresh s.dev)))
      ∧ Waits s (commitAll s (resetRun kind b (fresh s.dev))) := by
  rw [resetRun_of_low (d := fresh s.dev) hlow]
  exact ⟨wideReset_resetAll hwide rfl rfl, waits_resetAll hwide hlow rfl⟩

/-- A write of `PW_CTRL.MAIN` while SYS_RST_N is low is widened to a SYSTEM reset. -/
theorem exec_main_of_low {s : State} {r : Req} (h : MgmtWrite s r (pwOff 0x40)) (hlow : s.dev.body.board.rstLow = true)
    (b : BootIn) : exec (.main r b) s = .next (commitAll s (resetRun 1 b (fresh s.dev))) := by
  have hbits : bitAt 1 1 = false ∧ bitAt 1 0 = true := by decide
  refine (congrArg (fun e => Host.Outcome.next (commitAll s e)) (access_of_mgmtWrite h ..)).trans ?_
  simp only [hbits, fresh_board, hlow, Bool.and_true, Bool.false_eq_true, if_false, if_true]

/-! ## SYS_RST_N falls (R417) -/

/-- The device with SYS_RST_N at a level. -/
def setRstLow (low : Bool) (d : Dev) : Dev := modBody (fun b => { b with board := { b.board with rstLow := low } }) d

theorem exec_sysRstNLow (us : Nat) (s : State) :
    exec (.sysRstNLow us) s = .next (commitAll s (rstLow us (fresh s.dev))) := rfl

/-- A pulse of less than 10 µs is ignored, and so is one with SYS_RST_N low already. -/
theorem rstLow_ignored {us : Nat} {d : Dev} (h : us < 10 ∨ d.body.board.rstLow = true) : rstLow us d = d := if_pos h

theorem rstLow_resets {us : Nat} {d : Dev} (hus : 10 ≤ us) (hhigh : d.body.board.rstLow = false) :
    rstLow us d = resetAll 1 (setRstLow true d) :=
  if_neg (not_or_intro (Nat.not_lt.mpr hus) (by simp [hhigh]))

/-! ## What the start-up leaves of the pins and the life cycle (R331, R332, R417) -/

/-- What no step of the start-up writes: the level of SYS_RST_N, and the life cycle but the measurements. -/
def pinAndLife (d : Dev) : Bool × SecSt := (d.body.board.rstLow, { d.sec with taken := [] })

theorem pinAndLife_modPower (f : PowerSt → PowerSt) (d : Dev) : pinAndLife (modPower f d) = pinAndLife d := rfl
theorem pinAndLife_modFault (low : Bool) (d : Dev) : pinAndLife (modFault low d) = pinAndLife d := rfl

@[simp] theorem pinAndLife_pwEvent (i : Nat) (d : Dev) : pinAndLife (pwEvent i d) = pinAndLife d := by
  simp [pinAndLife]

theorem pinAndLife_thermEval (d : Dev) : pinAndLife (thermEval d) = pinAndLife d :=
  eq_of_sans pinAndLife (sansThermal_thermEval d) (fun _ => rfl)

theorem pinAndLife_applySettings (d : Dev) : pinAndLife (applySettings d) = pinAndLife d :=
  eq_of_sans pinAndLife (sansSettings_applySettings d) (fun _ => rfl)

theorem pinAndLife_linksUp (b : BootIn) (d : Dev) : pinAndLife (linksUp b d) = pinAndLife d := by rw [linksUp_dev]; rfl

theorem pinAndLife_bringUp (b : BootIn) (d : Dev) : pinAndLife (bringUp b d) = pinAndLife d := by
  by_cases h : d.power.splitWhy = 0
  · calc pinAndLife (bringUp b d)
      _ = pinAndLife (linksUp b (applySettings (mainUp d))) := by
        rw [bringUp_of_elected h, pinAndLife_thermEval, pinAndLife_modPower]
      _ = pinAndLife d := by rw [pinAndLife_linksUp, pinAndLife_applySettings, mainUp, pinAndLife_modPower]
  · rw [bringUp_of_split h]; rfl

theorem pinAndLife_powerUp (b : BootIn) (d : Dev) : pinAndLife (powerUp b d) = pinAndLife d := by
  cases h : d.power.lockout with
  | true => rw [powerUp_of_lockout h]; rfl
  | false => rw [powerUp_of_noLockout h, pinAndLife_bringUp, pinAndLife_modFault]

theorem pinAndLife_elected (b : BootIn) (d : Dev) : pinAndLife (elected b d) = pinAndLife d := rfl

theorem pinAndLife_noteFallback (d : Dev) : pinAndLife (noteFallback d) = pinAndLife d := by
  unfold noteFallback
  split
  · exact pinAndLife_pwEvent ..
  · rfl

/-- The measurements of step 4 stand apart from the life cycle. -/
theorem pinAndLife_takeMeasures (image : Option Bool) (d : Dev) : pinAndLife (takeMeasures image d) = pinAndLife d := rfl

theorem pinAndLife_atBoot (b : BootIn) (d : Dev) : pinAndLife (atBoot b d) = pinAndLife d := by
  rw [atBoot, pinAndLife_takeMeasures, settled, pinAndLife_noteFallback, pinAndLife_modPower, pinAndLife_elected]

theorem pinAndLife_startUp (b : BootIn) (d : Dev) : pinAndLife (startUp b d) = pinAndLife d := by
  obtain ⟨-, h⟩ | ⟨-, -, h⟩ | ⟨-, -, h⟩ := startUp_cases b d
  · rw [h, pinAndLife_powerUp, pinAndLife_pwEvent, pinAndLife_elected]
  · rw [h, pinAndLife_powerUp, pinAndLife_atBoot]
  · rw [h, pinAndLife_modFault, pinAndLife_atBoot]

/-- SYS_RST_N is a pin: the start-up does not move it. -/
theorem startUp_rstLow (b : BootIn) (d : Dev) : (startUp b d).body.board.rstLow = d.body.board.rstLow :=
  congrArg Prod.fst (pinAndLife_startUp b d)

/-- Of life cycle, attestation and debug the start-up writes the measurements alone. -/
theorem startUp_sec (b : BootIn) (d : Dev) : (startUp b d).sec = { d.sec with taken := (startUp b d).sec.taken } :=
  congrArg (fun x : Bool × SecSt => { x.2 with taken := (startUp b d).sec.taken }) (pinAndLife_startUp b d)

/-! ## SYS_RST_N returns high (R364, R417) -/

theorem exec_sysRstNRelease (b : BootIn) (s : State) :
    exec (.sysRstNRelease b) s = .next (commitAll s (rstRelease b (fresh s.dev))) := rfl

/-- A release with SYS_RST_N high already does nothing. -/
theorem rstRelease_of_high {d : Dev} (hhigh : d.body.board.rstLow = false) (b : BootIn) : rstRelease b d = d := by
  simp [rstRelease, hhigh]

theorem rstRelease_of_low {d : Dev} (hlow : d.body.board.rstLow = true) (b : BootIn) :
    rstRelease b d = startUp b (setRstLow false d) := by
  simp [rstRelease, setRstLow, hlow]

/-! ## The statement -/

/-- Settles O53: the pulse and each reset that comes while SYS_RST_N is low come to `resetAll`, which leaves the device
waiting in phase ELECT (log 68); the release runs the start-up (log 8), which keeps the pin and the life cycle. -/
theorem sysRstN : Obligations.SysRstN := by
  intro b s waits
  have hsystem : (1 : Nat) ≠ 2 := by decide
  have hcold : (0 : Nat) ≠ 2 := by decide
  refine ⟨fun us hus hhigh => ?falls, fun us hus => ?short,
    fun hlow => ⟨fun us => ?again, ⟨_, exec_coldReset b s, wideReset_waits_of_low hcold hlow b⟩, fun r hwrite i hi => ?written,
      ?released, fun hoff => ?started⟩, fun hhigh => ?noRelease⟩
  case falls =>
    have hexec := exec_sysRstNLow us s
    rw [rstLow_resets (d := fresh s.dev) hus hhigh] at hexec
    exact ⟨hexec, _, hexec, wideReset_resetAll hsystem rfl rfl, waits_resetAll hsystem rfl rfl⟩
  case short => rw [DoesAll, exec_sysRstNLow, rstLow_ignored (.inl hus), id]
  case again => rw [DoesAll, exec_sysRstNLow, rstLow_ignored (d := fresh s.dev) (.inr hlow), id]
  case written =>
    have hexec : exec i s = .next (commitAll s (resetRun 1 b (fresh s.dev))) := by
      obtain rfl | rfl : i = .sysrst r b ∨ i = .main r b := by simpa using hi
      · exact exec_sysrst hwrite b
      · exact exec_main_of_low hwrite hlow b
    exact ⟨_, hexec, wideReset_waits_of_low hsystem hlow b⟩
  case released => rw [DoesAll, exec_sysRstNRelease, rstRelease_of_low (d := fresh s.dev) hlow]; rfl
  case started =>
    refine ⟨_, exec_sysRstNRelease b s, ?_⟩
    rw [rstRelease_of_low (d := fresh s.dev) hlow]
    exact ⟨rfl, startUp_rstLow .., startUp_sec .., startedUp_startUp s b hoff⟩
  case noRelease => rw [DoesAll, exec_sysRstNRelease, rstRelease_of_high (d := fresh s.dev) hhigh, id]

end Sys2Proof.Machine
